-- ==== Sys2Proof/Word.lean ====
section
/-! DEFINITION. The word types of the Drior: bytes, 32-bit registers (R8), 64-bit register pairs (R9). -/

namespace Sys2Proof

/-- One byte of DRAM, flash, NOR or a message. -/
abbrev Byte := BitVec 8

/-- A 32-bit control-space word (R8). -/
abbrev Word := BitVec 32

/-- A 64-bit value in two registers (R9). -/
abbrev DWord := BitVec 64

end Sys2Proof
end

