-- ==== Sys2Proof/Syntax.lean ====
section
/-! DEFINITION. The commands of the Drior: one constructor of `Instr` per row of spec/opcode_table.json, with the operands
the row's rule gives it. What the surroundings decide (fitted devices, training results, sensor readings, what a flash read
or a link delivers, what a host or a peer answers, straps, verdicts of the signature check) arrives as operands (log entry 6).
Dies, channels, LDs and rings are named by their numbers (R7, R153, R258). -/

namespace Sys2Proof

/-- The paths by which registers are reached: the service port, BAR 4 of the management LD, or a BAR of an LD, 0, 2 or 4 (R10,
R261). In BAR 4 the offset counts within the window of the die; in BARs 0 and 2 it counts from their start. -/
inductive Via where
  | service | mgmt
  | bar (ld bar : Nat)
deriving DecidableEq, Repr

/-- A die's window of a path (R8, R10). -/
structure Window where
  via : Via
  die : Nat
deriving DecidableEq, Repr

/-- What map recovery can read beside the checkpoint slots (R89, R330, R350): the tables of the system area, and the first journal
entry that cannot be read. -/
structure Found where
  tablesOk : Bool
  unreadable : Option Nat
deriving DecidableEq, Repr

/-- The monitored supplies (R514, R517). -/
inductive Rail where
  | core | sram | aon | g7 | fl | vio
deriving DecidableEq, Repr

/-- The gateable units of R428. -/
inductive GateUnit where
  | engine | loadExp | encoder | stage
  | dmc (c : Nat)
  | flash (c : Nat)
deriving DecidableEq, Repr

/-- The wake sources of R433. -/
inductive WakeSource where
  | link | perst | service | nmi
deriving DecidableEq, Repr

/-- What the NOR reports about itself (R448): the mode its SFDP tables allow and its size. -/
inductive NorReport where
  | none
  | quad (mib : Nat)
  | octal (mib : Nat)
deriving DecidableEq, Repr

/-- The verdicts of the loader on one firmware slot (R491) that need cryptography: key hash and signature. -/
structure FwVerdict where
  keyHash : Bool
  signature : Bool
deriving DecidableEq, Repr

/-- The training result of one byte lane (R312): delays and window widths. -/
structure Lane where
  rd : Nat
  wr : Nat
  rdEye : Nat
  wrEye : Nat
deriving DecidableEq, Repr

/-- What discovery finds on one flash channel (R325): the population, and whether every target answered and trained. -/
structure FoundChannel where
  targets : Nat
  luns : Nat
  ppb : Nat
  spare : Nat
  blocks : Nat
  ok : Bool
deriving DecidableEq, Repr

/-- A block of the flash: channel, unit, physical block (R328). -/
structure BlockAddr where
  ch : Nat
  unit : Nat
  blk : Nat
deriving DecidableEq, Repr

/-- The causes for which a channel freezes from the device side (R315). -/
inductive FreezeCause where
  | data (dda : Nat)
  | command (bank row sector len : Nat)
  | checkSegment (dda : Nat)
deriving DecidableEq, Repr

/-- A slot of a logical device: region and 256 MiB slot number (R43, R44). -/
structure SlotRef where
  region : Nat
  slot : Nat
deriving DecidableEq, Repr

/-- What a configuration request asks of an LD (R263, R264, R268, R273, R277). -/
inductive CfgReq where
  | read (off : Nat)
  | busMaster (b : Bool)
  | msixEnable (b : Bool)
  | functionMask (b : Bool)
  | ptmEnable (b : Bool)
deriving DecidableEq, Repr

/-- The event logs of a mailbox (R269). -/
inductive EventLog where
  | info | warn | fail | fatal | dcd
deriving DecidableEq, Repr

/-- The two expanders (R135). -/
inductive Expander where
  | operand | load
deriving DecidableEq, Repr

/-- The two open superblocks of R335. -/
inductive OpenSb where
  | settling | relocation
deriving DecidableEq, Repr

/-- Where a copy lies that a block comes from (R141). -/
inductive CopyTier where
  | t0of2 | t0of3 | t2 | t3
deriving DecidableEq, Repr

/-- Sampled page results of a scrub or read-disturb check (R348, R354): bits corrected, or none when the page enters the ladder. -/
abbrev Samples := List (Option Nat)

/-- A reported copy of an extent (R484). -/
structure ReplicaCopy where
  originPkg : Nat
  originHandle : Nat
  pkg : Nat
  handle : Nat
deriving DecidableEq, Repr

/-- The work that a DRAM request serves (R361). -/
inductive QosWork where
  /-- A host line read or write. -/
  | hostLine (ld : Nat)
  /-- A promotion started by a host load. -/
  | hostPromotion (ld : Nat)
  /-- A fetch for a job, PREFETCH or PIN; `install`: into T2 or T1. -/
  | jobFetch (install : Bool)
  /-- Job buffers, scratch spills and reloads. -/
  | jobBuffer
  /-- SEAL and INGEST passes. -/
  | encode
  | replicate
  /-- Settling, preload, recode. -/
  | migration
  /-- Relocation by reclaim, static levelling, read disturb and scrub. -/
  | relocation
  /-- Frame map, journal staging, ring memory, pennant logs, header copies. -/
  | management
deriving DecidableEq, Repr

/-- What a member reports to the pool directory (R484). -/
inductive ReplicaReport where
  | pushed (c : ReplicaCopy)
  | released (pkg handle : Nat)
  | recoded (pkg handle : Nat)
  | whole (pkg : Nat) (cs : List ReplicaCopy)
deriving DecidableEq, Repr

/-- How a scheduled package ended its activation (R499). -/
inductive ScheduleResult where
  | confirmed | fellBack
deriving DecidableEq, Repr

/-- The commands of the block, one constructor per row of spec/opcode_table.json. -/
inductive Instr where
  /-- R12, R261: a write to a register of control space or of a BAR. -/
  | registerWrite (via : Via) (die off : Nat) (v : Word)
  /-- R440. -/
  | porNAssert
  /-- R517. -/
  | railUndervoltage (rail : Rail)
  /-- R441: straps sampled, PRESENT_N level. -/
  | porNDeassert (ensignSel poolId : Nat)
  /-- R418: ITO cycles from ITO start. -/
  | crystalStable (die itoCycles : Nat)
  /-- R419. -/
  | noXtal (die : Nat)
  /-- R420, R385. -/
  | pllLock (die : Nat)
  /-- R26: the links (die, link) that failed to train. -/
  | bytrathalTrainingDone (failed : List (Nat × Nat))
  /-- R454: NOR report, verdicts on active and backup slot, dies whose identity fails, presence kind aside. -/
  | imageLoad (nor : NorReport) (active backup : FwVerdict) (identityFail : List Nat)
  /-- R441 step 6: density fitted and the twelve lanes' training results. -/
  | dramStartUp (die density : Nat) (lanes : List Lane)
  /-- R325: the eight channels found, whether the signature can be read, suspend support. -/
  | flashDiscovery (die : Nat) (found : List FoundChannel) (sigReadable suspend : Bool)
  /-- R349: blocks with a factory marker. -/
  | firstDiscovery (die : Nat) (factoryBad : List BlockAddr)
  /-- R89, R330: does the newer checkpoint slot pass, the older one, and what else is readable. -/
  | mapRecovery (die : Nat) (newerOk olderOk : Bool) (rest : Found)
  /-- R390. -/
  | dieSetReady
  /-- R263. -/
  | ldReady (ld : Nat)
  /-- R422: crystal cycles counted in the window. -/
  | clockMonitorWindow (die count : Nat)
  /-- R423. -/
  | clockFailMessage (die : Nat)
  /-- R424: the word written. -/
  | clkOutCtrl (die : Nat) (v : Word)
  /-- R385: measured offset of the worker, ticks ahead of the ensign die. -/
  | halyardMeasure (die : Nat) (offset : Int)
  /-- R388. -/
  | timeMark (die : Nat)
  /-- R388. -/
  | timeMarkDurable (die : Nat)
  /-- R388. -/
  | ceilingReached (die : Nat)
  /-- R415. -/
  | tbTimeSet (die : Nat) (v : DWord)
  /-- R22: a flit arrives on link `link` of `die`. -/
  | flitReceive (die link : Nat) (crcOk : Bool)
  /-- R40. -/
  | heartbeatSend (die : Nat)
  /-- R40. -/
  | heartbeatReceive (die partner : Nat)
  /-- R40. -/
  | heartbeatLost (die partner : Nat)
  /-- R436. -/
  | halfMastMessage (die cause : Nat)
  /-- R435. -/
  | pwrHalt (via : Via) (die : Nat) (key : Word)
  /-- R439. -/
  | pwrReset (via : Via) (die : Nat) (key : Word)
  /-- R428. -/
  | unitIdleGate (die : Nat) (u : GateUnit)
  /-- R428. -/
  | unitWake (die : Nat) (u : GateUnit)
  /-- R429: the PWR_CTRL word written. -/
  | furlReq (die : Nat) (v : Word)
  /-- R431: the PWR_CTRL word written. -/
  | furlCancel (die : Nat) (v : Word)
  /-- R429. -/
  | furlIdleTimeout
  /-- R430. -/
  | furlEntryStep
  /-- R431. -/
  | furlL1Timeout (die : Nat)
  /-- R433: source, die, and per die the re-centre results of the retention-set lanes (empty: all good). -/
  | furledWake (src : WakeSource) (die : Nat) (failed : List (Nat × Nat))
  /-- R523: the eight readings in degrees C. -/
  | thermalSample (die : Nat) (readings : List Int)
  /-- R469. -/
  | presenceOpen
  /-- R469. -/
  | presenceClose
  /-- R472. -/
  | cfgDebug (via : Via) (die : Nat) (v : Word)
  /-- R473. -/
  | nvmRead (die : Nat)
  /-- R473. -/
  | nvmProgram (die : Nat)
  /-- R473. -/
  | nvmErase4K (die : Nat)
  /-- R473. -/
  | nvmErase64K (die : Nat)
  /-- R473: did the NOR report success. -/
  | nvmOperationComplete (ok : Bool)
  /-- R350. -/
  | bbtNvmCopy (die : Nat)
  /-- R48: LD, region, named slot, handle of a shared extent to add a lease to. -/
  | fmAddDynamicCapacity (ld region : Nat) (slot share : Option Nat)
  /-- R49: the slots of the offer that the host accepts and those it rejects. -/
  | addDynamicCapacityResponse (ld : Nat) (accepted rejected : List SlotRef)
  /-- R49. -/
  | offerTimeout (ld region slot : Nat)
  /-- R50: slots named, ingress stamp. -/
  | releaseDynamicCapacity (ld : Nat) (slots : List SlotRef) (ingress : Nat)
  /-- R73. -/
  | initiateDynamicCapacityRelease (ld region slot : Nat)
  /-- R73. -/
  | revokeAcknowledged (ld region slot : Nat)
  /-- R75. -/
  | revokeStampReached (ld region slot : Nat)
  /-- R465. -/
  | linkdownRevokeExpiry (ld : Nat)
  /-- R76. -/
  | drainComplete (ext : Nat)
  /-- R76. -/
  | clearingComplete (ext : Nat)
  /-- R111: LD, DPA of the line, exclusive ownership asked, ingress stamp. -/
  | hostLoad (ld dpa : Nat) (excl : Bool) (ingress : Nat)
  /-- R74: LD, DPA of the line, first byte within the line, data, poison bit, ingress stamp. -/
  | hostStore (ld dpa first : Nat) (data : List Byte) (poison : Bool) (ingress : Nat)
  /-- R64: the LD answers a back-invalidate of a line, with write-back data or without. -/
  | biResponse (ld ext line : Nat) (wb : Option (List Byte))
  /-- R66. -/
  | biTimeout (ld ext line : Nat)
  /-- R70. -/
  | lsePlistPop (die : Nat)
  /-- R79. -/
  | lseExtQuery (die : Nat) (v : Word)
  /-- R117. -/
  | tierFrameQuery (die : Nat) (v : Word)
  /-- R92. -/
  | heatDecayWalk (die : Nat)
  /-- R88. -/
  | mapCheckpoint (die : Nat)
  /-- R94. -/
  | fetchStart (die ext idx : Nat)
  /-- R95. -/
  | fetchInstall (die ext idx : Nat)
  /-- R109: the waiting load of `ld` on line `line` of the extent. -/
  | tierMissHoldExpiry (die ext idx ld line : Nat)
  /-- R100. -/
  | evictionScan (die : Nat)
  /-- R106. -/
  | evictionExecute (die : Nat)
  /-- R107. -/
  | relocationSwitch (die ext idx : Nat)
  /-- R107. -/
  | oldLocationTrim (die ext idx : Nat)
  /-- R114. -/
  | settleFrame (die ext idx : Nat)
  /-- R116. -/
  | preloadEntry (die : Nat)
  /-- R137. -/
  | tableLoad (die : Nat) (x : Expander) (ext tidx : Nat)
  /-- R140. -/
  | blockDecode (die : Nat) (x : Expander) (ext idx block : Nat) (src : CopyTier)
  /-- R138. -/
  | xcRecode (die : Nat) (v : Word)
  /-- R138. -/
  | recodeSwitch (die : Nat)
  /-- R139. -/
  | recodeTrim (die : Nat)
  /-- R157: package ring number and RING_CTRL word. -/
  | ringEnable (ring : Nat) (v : Word)
  /-- R158. -/
  | ringDisable (ring : Nat) (v : Word)
  /-- R162. -/
  | ringDoorbell (ring : Nat) (v : Word)
  /-- R174. -/
  | ringCqHead (ring : Nat) (v : Word)
  /-- R165. -/
  | descriptorAccept (ring : Nat)
  /-- R180: accepting die and job record. -/
  | nop (die job : Nat)
  /-- R177. -/
  | fence (die job : Nat)
  /-- R189. -/
  | attend (die job : Nat)
  /-- R203. -/
  | select (die job : Nat)
  /-- R228. -/
  | linear (die job : Nat)
  /-- R232. -/
  | groupedLinear (die job : Nat)
  /-- R240. -/
  | gather (die job : Nat)
  /-- R236. -/
  | ingest (die job : Nat)
  /-- R241. -/
  | copy (die job : Nat)
  /-- R58. -/
  | seal (die job : Nat)
  /-- R96. -/
  | prefetch (die job : Nat)
  /-- R97. -/
  | pin (die job : Nat)
  /-- R99. -/
  | unpin (die job : Nat)
  /-- R244. -/
  | replicatePush (die job : Nat)
  /-- R245. -/
  | replicateRepair (die job : Nat)
  /-- R209. -/
  | buntingClose (die id : Nat)
  /-- R210. -/
  | buntingRun (die id : Nat)
  /-- R34: accepting die, job, home die of the sub-job. -/
  | subJobFinish (die job home : Nat)
  /-- R173. -/
  | jobFinish (die job : Nat)
  /-- R263. -/
  | configurationRequest (ld : Nat) (req : CfgReq)
  /-- R268: the whole 16-byte entry. -/
  | msixTableWrite (ld vector : Nat) (addr : DWord) (data : Word) (mask : Bool)
  /-- R271: the read of job `job` of accepting die `die` at host address `addr`. -/
  | upstreamReadCompletion (die job addr : Nat) (data : List Byte) (ep ok : Bool)
  /-- R272. -/
  | portCplTimeout (die job addr : Nat)
  /-- R273. -/
  | ptmDialog (die : Nat)
  /-- R274: host time in ns and pennant time of the same instant. -/
  | ptmResponse (die hostNs localTicks : Nat)
  /-- R356. -/
  | offtimeUnknownTimeout (die : Nat)
  /-- R280. -/
  | functionLevelReset (ld : Nat)
  /-- R282. -/
  | flrComplete (ld : Nat)
  /-- R283. -/
  | perstNAssert (die : Nat)
  /-- R283. -/
  | perstNDeassert (die : Nat)
  /-- R283: port and half (0 A or whole, 1 B). -/
  | hotReset (die half : Nat)
  /-- R283. -/
  | dataLinkDown (die half : Nat)
  /-- R254: negotiated protocol good, rate, width. -/
  | linkUp (die half : Nat) (negotiated : Bool) (rate width : Nat)
  /-- R262. -/
  | doeDiscovery (ld index : Nat)
  /-- R262. -/
  | cxlTableAccess (ld : Nat)
  /-- R266. -/
  | identifyMemoryDevice (ld : Nat)
  /-- R266. -/
  | getDynamicCapacityConfiguration (ld : Nat)
  /-- R46. -/
  | getDynamicCapacityExtentList (ld : Nat)
  /-- R266. -/
  | getEventRecords (ld : Nat) (log : EventLog)
  /-- R266: the number of oldest records to clear. -/
  | clearEventRecords (ld : Nat) (log : EventLog) (count : Nat)
  /-- R269. -/
  | getEventInterruptPolicy (ld : Nat)
  /-- R269: vector named for the log, or none for No Interrupts. -/
  | setEventInterruptPolicy (ld : Nat) (log : EventLog) (vector : Option Nat)
  /-- R266. -/
  | getSupportedLogs (ld : Nat)
  /-- R266. -/
  | getLog (ld : Nat)
  /-- R266. -/
  | getTimestamp (ld : Nat)
  /-- R266. -/
  | setTimestamp (ld : Nat) (ns : Nat)
  /-- R266. -/
  | mailboxUnsupported (ld opcode : Nat)
  /-- R295. -/
  | writeQueueDrain (die ch : Nat)
  /-- R303. -/
  | refresh (die ch bank : Nat)
  /-- R303. -/
  | selfRefreshEntry (die ch : Nat)
  /-- R305. -/
  | refreshWindow (die ch : Nat)
  /-- R313: the re-centre's result. -/
  | periodicRecentre (die ch : Nat) (lane : Lane)
  /-- R315. -/
  | channelFreeze (die ch : Nat) (cause : FreezeCause)
  /-- R318. -/
  | freezeHoldExpiry (die ch : Nat)
  /-- R319: the word written. -/
  | channelRelease (die ch : Nat) (v : Word)
  /-- R319: the retraining's result. -/
  | releaseRetrainDone (die ch : Nat) (lane : Lane)
  /-- R310. -/
  | pwrRampExpiry (die dev : Nat)
  /-- R311: the four lanes' re-centre results. -/
  | deviceInitComplete (die dev : Nat) (lanes : List Lane)
  /-- R366. -/
  | qosTick (die : Nat)
  /-- R364. -/
  | qosWindowStart (die m : Nat)
  /-- R371. -/
  | borrowStepUpdate (die : Nat)
  /-- R365: a request: the work that it serves (R361), its bytes; for a job its ring class, accept stamp and DEADLINE (R372); its age in ns. -/
  | qosAdmit (die : Nat) (work : QosWork) (bytes cls accept deadline ageNs : Nat)
  /-- R377. -/
  | qosRecompute (die : Nat)
  /-- R377: a QOS_GUAR index (0 to 193), or none for QOS_MGMT_RATE. -/
  | qosGuarWrite (die : Nat) (m : Option Nat) (v : Word)
  /-- R335: which open superblock; blocks whose erase fails. -/
  | superblockOpen (die : Nat) (which : OpenSb) (eraseFails : List BlockAddr)
  /-- R338: the oldest page in program of the open superblock. -/
  | pageProgramComplete (die : Nat) (which : OpenSb) (ok : Bool)
  /-- R337. -/
  | tailWaitExpiry (die : Nat) (which : OpenSb)
  /-- R342: the page of the fetch of frame idx; bits corrected, or none if the hard decode fails. -/
  | pageReadComplete (die ext idx page : Nat) (bits : Option Nat)
  /-- R343. -/
  | readRetryStep (die ext idx : Nat) (ok : Bool)
  /-- R341. -/
  | reclaimRound (die : Nat)
  /-- R346. -/
  | staticLevelling (die : Nat)
  /-- R348. -/
  | readDisturbCheck (die : Nat) (b : BlockAddr) (samples : Samples)
  /-- R354: per superblock with live data the four samples. -/
  | scrubPass (die : Nat) (samples : List (Nat × Samples))
  /-- R356: results of every programmed page of the next superblock. -/
  | sweepSuperblock (die : Nat) (samples : Samples)
  /-- R357. -/
  | flashCommandTimeout (die ch : Nat)
  /-- R407. -/
  | bucketLeak (die bucket : Nat)
  /-- R477: package number, firmware version and peer range, Requester ID of the sender. -/
  | poolJoin (pkg version peerMin peerMax requester : Nat)
  /-- R477: the ensign package's answer, if any: 0 admitted, 1 ID conflict, 2 incompatible. -/
  | joinRetry (answer : Option Nat)
  /-- R480. -/
  | anchorSend (pkg : Nat)
  /-- R481: t1, the offset carried in ticks (none in the first anchor), host time of t1. -/
  | anchorReceive (t1 : Nat) (theta : Option Int) (hostNs : Option Nat)
  /-- R480: the anchor's t1, the worker's t2 and t3. -/
  | anchorReply (pkg t1 t2 t3 : Nat)
  /-- R478. -/
  | ensignLost
  /-- R479. -/
  | poolRoleSet (via : Via) (die : Nat) (v : Word)
  /-- R484. -/
  | replicaReport (r : ReplicaReport)
  /-- R485: asking package, origin package and handle. -/
  | replicaLookup (asker originPkg originHandle : Nat)
  /-- R485: the frame whose lookup gets no answer. -/
  | lookupTimeout (die ext idx : Nat)
  /-- R486: the sending package, origin package and handle, the header, SUMMARY_DIM code, target LD, region, slot. -/
  | poolOpen (src originPkg originHandle : Nat) (header : List Byte) (dim ld region : Nat) (slot : Option Nat)
  /-- R486: extent, receive slot, frame (4096 + p for summary page p), sector counts (empty: LOST at the source). -/
  | frameDone (ext rx idx : Nat) (sectors : List Nat)
  /-- R486. -/
  | poolClose (ext : Nat)
  /-- R487: at the source the job, at the target the extent. -/
  | pushTimeout (ext : Nat)
  /-- R488. -/
  | setdasa (static dynamic : Nat)
  /-- R488. -/
  | entdaa (dynamic : Nat)
  /-- R492. -/
  | fwBegin (imageLen cfgLen : Nat)
  /-- R492. -/
  | backupCopyComplete (ok : Bool)
  /-- R492. -/
  | fwData (offset : Nat) (data : List Byte)
  /-- R492: the verdict on the image read back. -/
  | fwEnd (verdict : FwVerdict)
  /-- R494, R499: from the service port with its delay in ms, or the T_act that the ensign package's schedule sent. -/
  | fwActivate (delayMs : Nat) (scheduled : Option Nat)
  /-- R494. -/
  | activation
  /-- R495. -/
  | fwConfirmReq
  /-- R495: is the writer the new image's own management controller, the key, does the counter program succeed. -/
  | fwHealthConfirm (own : Bool) (key : Word) (counterOk : Bool)
  /-- R496. -/
  | confirmDeadline
  /-- R492. -/
  | fwAbort
  /-- R489. -/
  | fwStatus
  /-- R502. -/
  | attest (die : Nat) (nonce : List Byte) (mask : Word)
  /-- R502. -/
  | getCert (die offset : Nat)
  /-- R499: the packages in order, delay; versions and peer ranges of the installed images. -/
  | poolSchedule (order : List Nat) (delayMs : Nat) (news : List (Nat × Nat × Nat × Nat))
  /-- R499. -/
  | scheduleConfirm (pkg : Nat) (res : ScheduleResult)
  /-- R23. -/
  | retryFailure (die link : Nat)
  /-- R105: a promotion sourced from DRAM, to the tier 0 (T0) or 1 (T1). -/
  | promotionEnd (die ext idx dst : Nat)
  /-- R492. -/
  | restoreCopyComplete (ok : Bool)
  /-- R423. -/
  | pllRelock (die : Nat)
  /-- R357. -/
  | flashChannelRetrain (die ch : Nat) (ok : Bool)
  /-- R9. -/
  | lowWordRead (w : Window) (off : Nat)
deriving DecidableEq, Repr

end Sys2Proof
end

