-- ==== Sys2Proof/Machine/Bits.lean ====
section
/-! DEFINITION. Bit fields, little-endian words (Numbering of 00_scope.md) and the list helpers that the meanings share. -/

namespace Sys2Proof.Machine

/-- Bits [lo + w - 1 : lo] of `n`. -/
def bits (n lo w : Nat) : Nat := n / 2 ^ lo % 2 ^ w

/-- Bit `i` of `n`. -/
def bit (n i : Nat) : Bool := bits n i 1 = 1

/-- `n` with bits [lo + w - 1 : lo] replaced by the low `w` bits of `v`. -/
def setBits (n lo w v : Nat) : Nat := n - bits n lo w * 2 ^ lo + v % 2 ^ w * 2 ^ lo

/-- A Bool as a bit. -/
def b2n (b : Bool) : Nat := if b then 1 else 0

/-- The number whose little-endian bytes are given. -/
def leNat : List Byte → Nat
  | [] => 0
  | b :: t => b.toNat + 256 * leNat t

/-- The `n` little-endian bytes of `v`. -/
def leBytes : Nat → Nat → List Byte
  | 0, _ => []
  | n + 1, v => BitVec.ofNat 8 v :: leBytes n (v / 256)

/-- Bytes `off` to `off + n - 1` of a byte list. -/
def sub (l : List Byte) (off n : Nat) : List Byte := (l.drop off).take n

/-- The little-endian field of `n` bytes at `off`. -/
def field (l : List Byte) (off n : Nat) : Nat := leNat (sub l off n)

/-- A 16-bit or wider two's-complement reading of a field of width `w`. -/
def signed (w n : Nat) : Int := if n < 2 ^ (w - 1) then (n : Int) else (n : Int) - 2 ^ w

/-- The field of width `w` that holds the two's complement of `i`. -/
def unsigned (w : Nat) (i : Int) : Nat := (i % 2 ^ w).toNat

/-- The nearer limit of the range lo to hi. -/
def clamp (lo hi v : Nat) : Nat := max lo (min hi v)

/-- Adding, saturating at 2 ^ w - 1. -/
def satAdd (w a b : Nat) : Nat := min (2 ^ w - 1) (a + b)

/-- Do two runs of addresses overlap? -/
def overlaps (a n b k : Nat) : Bool := decide (0 < n) && decide (0 < k) && decide (a < b + k) && decide (b < a + n)

/-- Number of 1 bits among the low `n` bits. -/
def popcount : Nat → Nat → Nat
  | 0, _ => 0
  | n + 1, v => v % 2 + popcount n (v / 2)

/-- Folding a step over a list of commands' parts. -/
def foldOver {α β : Type} (f : β → α → β) (b : β) (l : List α) : β := l.foldl f b

/-- The list without its elements that satisfy `p`. -/
def dropWhere {α : Type} (p : α → Bool) (l : List α) : List α := l.filter (fun a => !p a)

/-- The elements that satisfy `p` replaced by their image under `f`. -/
def updWhere {α : Type} (p : α → Bool) (f : α → α) (l : List α) : List α := l.map (fun a => if p a then f a else a)

/-- Insertion into a list ordered by a key, before the first greater key. -/
def insertBy {α : Type} (key : α → Nat) (a : α) : List α → List α
  | [] => [a]
  | b :: t => if key a < key b then a :: b :: t else b :: insertBy key a t

/-- A list ordered by a key (stable). -/
def sortBy {α : Type} (key : α → Nat) (l : List α) : List α := l.foldl (fun acc a => insertBy key a acc) []

/-- The element of least key, the first of several. -/
def minBy {α : Type} (key : α → Nat) : List α → Option α
  | [] => none
  | a :: t => match minBy key t with
    | none => some a
    | some b => if key b < key a then some b else some a

/-- The greatest of a list of numbers, 0 for none. -/
def maxOf (l : List Nat) : Nat := l.foldl max 0

/-- The sum of a list of numbers. -/
def sumOf (l : List Nat) : Nat := l.foldl (· + ·) 0

/-- Each element once, the first occurrence kept. -/
def distinct {α : Type} [DecidableEq α] (l : List α) : List α :=
  (l.foldl (fun acc a => if acc.contains a then acc else a :: acc) []).reverse

end Sys2Proof.Machine
end

