-- ==== Sys2Proof/Machine/Crc.lean ====
section
/-! DEFINITION. The CRC-32C of the manual (R452), used by the image (R451, R453), table headers (R133) and records. -/

namespace Sys2Proof.Machine

/-- One shift of the reflected polynomial 0x1EDC_6F41. -/
def crcBit (c : Nat) : Nat := if c % 2 = 1 then Nat.xor (c / 2) 0x82F63B78 else c / 2

/-- One byte into the register. -/
def crcByte (c : Nat) (b : Byte) : Nat :=
  crcBit (crcBit (crcBit (crcBit (crcBit (crcBit (crcBit (crcBit (Nat.xor c b.toNat))))))))

/-- CRC-32C: initial value and final exclusive-or 0xFFFF_FFFF (R452). -/
def crc32c (l : List Byte) : Nat := Nat.xor (l.foldl crcByte 0xFFFFFFFF) 0xFFFFFFFF

/-- The CRC over bytes 0 to len - 1 except bytes 12 to 15 (R451, R453). -/
def crcSkip12 (l : List Byte) (len : Nat) : Nat := crc32c (l.take 12 ++ sub l 16 (len - 16))

end Sys2Proof.Machine
end

