-- ==== Sys2Proof/Machine/Codec.lean ====
section
/-! DEFINITION. Exponent coding as pure functions: formats (R118), blocks and burgees (R120 to R128), the canonical code
(R129), table construction (R130 to R132), the extent header (R133), the decode checks (R140). -/

namespace Sys2Proof.Machine

/-! ## Formats (R118) -/

/-- One row of R118: value bytes, values per lane, symbol bits, plane bits per value, longest code. -/
structure ValueFormat where
  vb : Nat
  perLane : Nat
  symBits : Nat
  w : Nat
  maxlen : Nat
deriving DecidableEq, Repr

/-- The coded formats; NONE (0) and the reserved values have none. -/
def valueFormat (f : Nat) : Option ValueFormat :=
  match f with
  | 1 => some ⟨2, 64, 8, 8, 12⟩
  | 2 => some ⟨2, 64, 5, 11, 8⟩
  | 3 => some ⟨1, 128, 4, 4, 6⟩
  | 4 => some ⟨1, 128, 5, 3, 7⟩
  | _ => none

def ValueFormat.planeBytes (f : ValueFormat) : Nat := f.perLane * 32 * f.w / 8
def ValueFormat.listBytes (f : ValueFormat) : Nat := 2 ^ f.symBits / 2

/-- Bytes of a value in a block of format `f`. -/
def valueBytes (f : Nat) : Nat := if f = 1 ∨ f = 2 then 2 else 1

/-- Values of `k` bytes each, little-endian; `fuel` bounds their number. -/
def toValues (k : Nat) : Nat → List Byte → List Nat
  | 0, _ => []
  | fuel + 1, l => match l with
    | [] => []
    | _ => leNat (l.take k) :: toValues k fuel (l.drop k)

/-- The symbol (R119), the plane field (R125), and the value they make up. -/
def ValueFormat.sym (f : ValueFormat) (v : Nat) : Nat := bits v (f.w - 1) f.symBits
def ValueFormat.planeField (f : ValueFormat) (v : Nat) : Nat := v % 2 ^ (f.w - 1) + bits v (8 * f.vb - 1) 1 * 2 ^ (f.w - 1)
def ValueFormat.join (f : ValueFormat) (sym field : Nat) : Nat :=
  field % 2 ^ (f.w - 1) + sym * 2 ^ (f.w - 1) + field / 2 ^ (f.w - 1) * 2 ^ (8 * f.vb - 1)

/-- Fields of width `w` as a little-endian bit string (R124, R125), and back. -/
def packFields (w : Nat) : List Nat → Nat
  | [] => 0
  | v :: t => v % 2 ^ w + 2 ^ w * packFields w t

def unpackFields (w : Nat) : Nat → Nat → List Nat
  | 0, _ => []
  | n + 1, v => v % 2 ^ w :: unpackFields w n (v / 2 ^ w)

/-! ## CRC-16 (R123) -/

def crc16Bit (c : Nat) : Nat := if 32768 ≤ c then Nat.xor (2 * c - 65536) 0x1021 else 2 * c

def crc16Byte (c : Nat) (b : Byte) : Nat :=
  (List.range 8).foldl (fun c _ => crc16Bit c) (Nat.xor c (256 * b.toNat))

def crc16 (l : List Byte) : Nat := l.foldl crc16Byte 0xFFFF

/-! ## Canonical code (R129) -/

/-- A codeword: symbol, length, code. -/
structure Codeword where
  sym : Nat
  len : Nat
  code : Nat
deriving DecidableEq, Repr

/-- Codewords of a length list, shortest first. -/
def assignCodes (lengths : List Nat) : List Codeword :=
  let order := sortBy (fun p : Nat × Nat => p.1) (lengths.zipIdx.filter (fun p => decide (0 < p.1)))
  (order.foldl (fun (acc : List Codeword × Nat × Nat) p =>
    let code := acc.2.1 * 2 ^ (p.1 - acc.2.2)
    (acc.1 ++ [⟨p.2, p.1, code⟩], code + 1, p.1)) ([], 0, 0)).1

/-- The `len` bits of `code`, most significant first. -/
def msbBits (code : Nat) : Nat → List Bool
  | 0 => []
  | n + 1 => bit code n :: msbBits code n

/-- One symbol off the front of a lane: its bits are extended until they are a codeword. -/
def nextSymbol (cs : List Codeword) : Nat → Nat → Nat → List Bool → Option (Nat × List Bool)
  | 0, _, _, _ => none
  | _ + 1, _, _, [] => none
  | fuel + 1, len, code, b :: t =>
    let code := 2 * code + b2n b
    match cs.find? (fun c => decide (c.len = len + 1) && decide (c.code = code)) with
    | some c => some (c.sym, t)
    | none => nextSymbol cs fuel (len + 1) code t

/-- Exactly `n` symbols in exactly the given bits (check 7 of R140). -/
def laneSymbols (cs : List Codeword) (maxlen : Nat) : Nat → List Bool → Option (List Nat)
  | 0, bs => if bs.isEmpty then some [] else none
  | n + 1, bs => match nextSymbol cs maxlen 0 0 bs with
    | some (s, t) => (laneSymbols cs maxlen n t).map (fun r => s :: r)
    | none => none

/-- Bytes read as a most-significant-bit-first string, and the bytes of such a string, zero-padded (R126, R127). -/
def msbString (bs : List Byte) : List Bool := bs.flatMap (fun b => msbBits b.toNat 8)

def msbBytes : Nat → List Bool → List Byte
  | 0, _ => []
  | fuel + 1, l => match l with
    | [] => []
    | _ => BitVec.ofNat 8 ((((l.take 8) ++ List.replicate (8 - l.length) false).take 8).foldl (fun a b => 2 * a + b2n b) 0) ::
        msbBytes fuel (l.drop 8)

/-! ## Table construction (R130 to R132) -/

/-- An item of package-merge: weight and members. -/
abbrev Pkg := Nat × List Nat

def pkgMerge : Nat → List Pkg → List Pkg → List Pkg
  | 0, _, _ => []
  | _ + 1, [], ps => ps
  | _ + 1, ls, [] => ls
  | fuel + 1, l :: ls, p :: ps =>
    if l.1 ≤ p.1 then l :: pkgMerge fuel ls (p :: ps) else p :: pkgMerge fuel (l :: ls) ps

def pkgPairs : List Pkg → List Pkg
  | a :: b :: t => (a.1 + b.1, a.2 ++ b.2) :: pkgPairs t
  | _ => []

/-- Code lengths from a histogram (R131). -/
def buildLengths (hist : List Nat) (maxlen : Nat) : List Nat :=
  let leaves : List Pkg := (sortBy (fun p : Nat × Nat => p.1) (hist.zipIdx.filter (fun p => decide (0 < p.1)))).map (fun p => (p.1, [p.2]))
  match leaves with
  | [] => hist.map (fun _ => 0)
  | [l] => hist.zipIdx.map (fun p => if l.2 = [p.2] then 1 else 0)
  | _ =>
    let level := (List.range (maxlen - 1)).foldl (fun lv _ =>
      let ps := pkgPairs lv
      pkgMerge (leaves.length + ps.length + 1) leaves ps) leaves
    let used := (level.take (2 * leaves.length - 2)).flatMap (·.2)
    hist.zipIdx.map (fun p => used.count p.2)

/-- A table's length list, 4 bits a symbol (R132). -/
def lengthList (lengths : List Nat) : List Byte := leBytes (lengths.length / 2) (packFields 4 lengths)

def readLengths (f : ValueFormat) (bs : List Byte) : List Nat := unpackFields 4 (2 ^ f.symBits) (leNat bs)

/-- Validity of a length list (R132). -/
def lengthsOk (maxlen : Nat) (ls : List Nat) : Bool :=
  let nz := ls.filter (fun l => decide (0 < l))
  ls.all (fun l => decide (l ≤ maxlen)) &&
    (match nz with
     | [] => true
     | [l] => decide (l = 1)
     | _ => decide (sumOf (nz.map (fun l => 2 ^ (16 - l))) = 2 ^ 16))

/-! ## Blocks (R120 to R128) -/

/-- The burgee's fields up to LENGTH (R122). -/
def burgeeLow (format mode tidx tgen len : Nat) : Nat :=
  format % 16 + mode % 4 * 2 ^ 4 + 32 * 2 ^ 6 + tidx % 256 * 2 ^ 12 + tgen % 4096 * 2 ^ 20 + len % 65536 * 2 ^ 32

/-- A block from its burgee fields, bytes 8 to 47, and the rest, zero-padded to whole sectors. -/
def sealBlock (low : Nat) (index rest : List Byte) : List Byte :=
  let b := leBytes 6 low
  let body := b ++ leBytes 2 (crc16 (b ++ index)) ++ index ++ rest
  body ++ List.replicate ((body.length + 63) / 64 * 64 - body.length) 0

/-- Is a block of one value throughout? -/
def constantValue (format : Nat) (vs : List Nat) : Option Nat :=
  match vs with
  | [] => none
  | v :: t => if t.all (fun x => decide (x = v)) && decide (format ≤ 4) then some v else none

def constantBlock (format v : Nat) : List Byte :=
  let k := valueBytes format
  sealBlock (burgeeLow format 1 0 0 (8 + k)) (leBytes 40 v) (List.replicate 16 0)

/-- The coded form of a block under a table. -/
def codedBlock (format : Nat) (f : ValueFormat) (tidx tgen : Nat) (lengths : List Nat) (vs : List Nat) : List Byte :=
  let cs := assignCodes lengths
  let word (v : Nat) : List Bool := match cs.find? (fun c => decide (c.sym = f.sym v)) with
    | some c => msbBits c.code c.len
    | none => []
  let lanes := (List.range 32).map (fun j => ((vs.drop (j * f.perLane)).take f.perLane).flatMap word)
  let plane := leBytes f.planeBytes (packFields f.w (vs.map f.planeField))
  let all := lanes.flatMap id
  let area := msbBytes (all.length + 1) all
  let len := 48 + f.planeBytes + area.length
  sealBlock (burgeeLow format 0 tidx tgen len) (leBytes 40 (packFields 10 (lanes.map (·.length)))) (plane ++ area)

/-- A block encoded: the mode by R121. -/
def encodeBlock (format tidx tgen : Nat) (lengths : List Nat) (bs : List Byte) : List Byte :=
  let vs := toValues (valueBytes format) 4096 bs
  match constantValue format vs with
  | some v => constantBlock format v
  | none =>
    match valueFormat format with
    | none => bs
    | some f =>
      let c := codedBlock format f tidx tgen lengths vs
      if c.length ≤ 63 * 64 then c else bs

/-- Histogram of a block's symbols; a constant block counts nothing (R130). -/
def blockHist (format : Nat) (bs : List Byte) (hist : List Nat) : List Nat :=
  let vs := toValues (valueBytes format) 4096 bs
  match constantValue format vs, valueFormat format with
  | none, some f => vs.foldl (fun h v => h.modify (f.sym v) (· + 1)) hist
  | _, _ => hist

/-- A table bound to a block (R136): index, generation, lengths. -/
structure Bound where
  tidx : Nat
  tgen : Nat
  lengths : List Nat
deriving DecidableEq, Repr

/-- Fields of a stored block's burgee. -/
def burgee (bs : List Byte) : Nat := field bs 0 8

/-- TIDX and TGEN of a block that binds to a slot: none for raw and constant blocks (R137). -/
def blockTable (sectors : Nat) (bs : List Byte) : Option (Nat × Nat) :=
  if sectors = 64 ∨ bits (burgee bs) 4 2 ≠ 0 then none else some (bits (burgee bs) 12 8, bits (burgee bs) 20 12)

/-- Lane j's bits of a coded block, by the lane index. -/
def laneBits (f : ValueFormat) (lens : List Nat) (bs : List Byte) (j : Nat) : List Bool :=
  let start := sumOf (lens.take j)
  ((msbString (sub bs (48 + f.planeBytes + start / 8) (lens.getD j 0 / 8 + 2))).drop (start % 8)).take (lens.getD j 0)

/-- Decoding with the checks of R140: the first check that fails, or the logical bytes. `lanes` are those that are decoded:
all of them, or for a host line read the lane of the line (R143), which alone is then returned (log entry 98). -/
def decodeBlock (format sectors table : Nat) (bound : Option Bound) (bs : List Byte) (lanes : List Nat) : Except Nat (List Byte) :=
  if sectors = 64 then .ok ((lanes.flatMap (fun j => sub bs (128 * j) 128)))
  else
    let b := burgee bs
    let len := bits b 32 16
    if crc16 (sub bs 0 6 ++ sub bs 8 40) ≠ bits b 48 16 then .error 2
    else if bits b 0 4 ≠ format ∨ 1 < bits b 4 2 ∨ bits b 6 6 ≠ 32 then .error 3
    else if bits b 4 2 = 1 then
      let k := valueBytes format
      if len = 8 + k ∧ sectors = 1 ∧ (sub bs len (64 - len)).all (fun x => decide (x = 0)) then
        .ok ((List.replicate (lanes.length * 128 / k) (sub bs 8 k)).flatMap id)
      else .error 4
    else
      match bound, valueFormat format with
      | some t, some f =>
        if bits b 12 8 ≠ table ∨ t.tidx ≠ table ∨ bits b 20 12 ≠ t.tgen then .error 5
        else
          let lens := unpackFields 10 32 (leNat (sub bs 8 40))
          let s := sumOf lens
          if lens.any (fun l => decide (f.maxlen * f.perLane < l)) ∨ len ≠ 48 + f.planeBytes + (s + 7) / 8
              ∨ (len + 63) / 64 ≠ sectors ∨ 63 < sectors then .error 6
          else
            let cs := assignCodes t.lengths
            let rs := lanes.map (fun j => laneSymbols cs f.maxlen f.perLane (laneBits f lens bs j))
            if rs.any (·.isNone) then .error 7
            else if s % 8 ≠ 0 ∧ bits ((bs.getD (len - 1) 0).toNat) 0 (8 - s % 8) ≠ 0 ∨ (bs.drop len).any (fun x => decide (x ≠ 0)) then .error 8
            else
              let plane := leNat (sub bs 48 f.planeBytes)
              .ok ((lanes.zip rs).flatMap (fun p =>
                let fields := unpackFields f.w f.perLane (plane / 2 ^ (f.w * f.perLane * p.1))
                (List.zipWith f.join (p.2.getD []) fields).flatMap (leBytes f.vb)))
      | _, _ => .error 5

/-- All lanes of a block. -/
def allLanes : List Nat := List.range 32

/-! ## Extent header (R133) -/

def headerTables (format spanLog2 : Nat) : Nat := if format = 0 then 0 else 4096 / 2 ^ spanLog2

/-- Length with padding, from TABLES. -/
def headerLen (tables : Nat) : Nat := 64 * ((16 + tables * 130 + 63) / 64)

/-- CRC-32C over the padded header except bytes 8 to 11. -/
def headerCrc (h : List Byte) : Nat := crc32c (h.take 8 ++ h.drop 12)

/-- The header with its CRC set. -/
def sealHeader (h : List Byte) : List Byte := h.take 8 ++ leBytes 4 (headerCrc h) ++ h.drop 12

/-- The header of an extent from its tables' code lengths, all of one TGEN. -/
def buildHeader (handle format spanLog2 tgen : Nat) (tables : List (List Nat)) : List Byte :=
  let recs := tables.flatMap (fun ls => leBytes 2 tgen ++ lengthList ls)
  let body := leBytes 4 handle ++ leBytes 1 format ++ leBytes 1 spanLog2 ++ leBytes 2 tables.length ++ List.replicate 8 0 ++ recs
  sealHeader (body ++ List.replicate (headerLen tables.length - body.length) 0)

/-- A header copy is accepted: HANDLE and CRC32 (R134). -/
def headerOk (handle : Nat) (h : List Byte) : Bool := decide (field h 0 4 = handle) && decide (headerCrc h = field h 8 4)

/-- The table record of index i: TGEN and lengths. -/
def headerTable (format : Nat) (h : List Byte) (i : Nat) : Option Bound :=
  match valueFormat format with
  | none => none
  | some f =>
    let off := 16 + i * (2 + f.listBytes)
    some ⟨i, bits (field h off 2) 0 12, readLengths f (sub h (off + 2) f.listBytes)⟩

/-! ## Frames -/

/-- A frame's 16 blocks. -/
def frameBlocks (bs : List Byte) : List (List Byte) := (List.range 16).map (fun b => sub bs (4096 * b) 4096)

/-- A frame of zeros is not stored (R121). -/
def frameZero (bs : List Byte) : Bool := bs.all (fun b => decide (b = 0))

/-- A frame's coded copy: its blocks, and their sector counts. -/
def encodeFrame (format tidx tgen : Nat) (lengths : List Nat) (bs : List Byte) : List Nat × List Byte :=
  let blocks := (frameBlocks bs).map (encodeBlock format tidx tgen lengths)
  (blocks.map (fun b => b.length / 64), blocks.flatMap id)

/-- Byte offset of block b within a coded copy (R127). -/
def blockStart (counts : List Nat) (b : Nat) : Nat := 64 * sumOf (counts.take b)

end Sys2Proof.Machine
end

