-- ==== Sys2Proof/Machine/Ecc.lean ====
section
/-! DEFINITION. The outer code of a DRAM line: Reed-Solomon over GF(2^8) with 64 data and 4 check symbols (R299), and the
poison pattern (R301). -/

namespace Sys2Proof.Machine

/-- Multiplication by x in GF(2^8) modulo x^8 + x^4 + x^3 + x^2 + 1. -/
def gfX (a : Nat) : Nat := if 128 ≤ a then Nat.xor (2 * a - 256) 0x1D else 2 * a

/-- Multiplication, `k` bits of the second factor still to come. -/
def gfMulAux : Nat → Nat → Nat → Nat
  | 0, _, _ => 0
  | k + 1, a, b => Nat.xor (if b % 2 = 1 then a else 0) (gfMulAux k (gfX a) (b / 2))

def gfMul (a b : Nat) : Nat := gfMulAux 8 a b

/-- α to the power `k`. -/
def gfExp : Nat → Nat
  | 0 => 1
  | k + 1 => gfX (gfExp k)

def gfSquare (a : Nat) : Nat := gfMul a a

/-- a to the power 2^8 - 2, the inverse of a nonzero a. -/
def gfInv (a : Nat) : Nat :=
  let a2 := gfSquare a; let a4 := gfSquare a2; let a8 := gfSquare a4; let a16 := gfSquare a8
  let a32 := gfSquare a16; let a64 := gfSquare a32; let a128 := gfSquare a64
  gfMul a2 (gfMul a4 (gfMul a8 (gfMul a16 (gfMul a32 (gfMul a64 a128)))))

/-- A polynomial's value at `x`, highest degree first. -/
def gfEval (x : Nat) (cs : List Nat) : Nat := cs.foldl (fun acc c => Nat.xor (gfMul acc x) c) 0

/-- The generator (x + 1)(x + α)(x + α²)(x + α³) without its leading coefficient, highest degree first. -/
def rsGen : List Nat := [15, 54, 120, 64]

/-- One data symbol into the division register. -/
def rsShift (r : List Nat) (d : Nat) : List Nat :=
  let f := Nat.xor d (r.headD 0)
  List.zipWith (fun a g => Nat.xor a (gfMul f g)) (r.drop 1 ++ [0]) rsGen

/-- The 4 check bytes of 64 data bytes (R299). -/
def rsCheck (data : List Byte) : List Byte :=
  (data.foldl (fun r b => rsShift r b.toNat) [0, 0, 0, 0]).map (BitVec.ofNat 8)

/-- The four syndromes of a line. -/
def rsSyndromes (data check : List Byte) : List Nat :=
  [1, 2, 4, 8].map (fun x => gfEval x ((data ++ check).map (·.toNat)))

/-- The poison pattern on the check bytes (R301). -/
def poisonPattern : List Byte := [0xE1, 0x96, 0x3C, 0x5A]

def xorBytes (a b : List Byte) : List Byte := List.zipWith (fun x y => x ^^^ y) a b

/-- The syndromes of the poison pattern alone. -/
def poisonSyndromes : List Nat := rsSyndromes (List.replicate 64 0) poisonPattern

/-- The locator α^p of the symbol of degree p, and the degree if one of 0 to 67 has it. -/
def gfDegree (x : Nat) : Option Nat := (List.range 68).find? (fun p => decide (gfExp p = x))

/-- The symbol of degree p changed by the error value e: symbol 67 - p from the left. -/
def fixSymbol (data : List Byte) (p e : Nat) : List Byte :=
  if p < 4 then data else data.modify (67 - p) (fun b => b ^^^ BitVec.ofNat 8 e)

/-- What a read of a line finds (R299 to R302). -/
inductive EccResult where
  | clean (data : List Byte)
  | corrected (data : List Byte)
  | poison (data : List Byte)
  | uncorrectable
deriving DecidableEq, Repr

/-- One symbol in error: S1 = S0 X, S2 = S1 X, S3 = S2 X with X the locator of a symbol. -/
def rsSingle (data : List Byte) (s0 s1 s2 s3 : Nat) : Option (List Byte) :=
  if s0 = 0 then none
  else
    let x := gfMul s1 (gfInv s0)
    if gfMul s1 x = s2 ∧ gfMul s2 x = s3 then (gfDegree x).map (fun p => fixSymbol data p s0) else none

/-- Two symbols in error: the locators are the roots of z² + σ1 z + σ2. -/
def rsDouble (data : List Byte) (s0 s1 s2 s3 : Nat) : Option (List Byte) :=
  let det := Nat.xor (gfMul s0 s2) (gfSquare s1)
  if det = 0 then none
  else
    let inv := gfInv det
    let σ1 := gfMul (Nat.xor (gfMul s0 s3) (gfMul s1 s2)) inv
    let σ2 := gfMul (Nat.xor (gfMul s1 s3) (gfSquare s2)) inv
    let roots := (List.range 68).filter (fun p =>
      let z := gfExp p
      decide (Nat.xor (Nat.xor (gfSquare z) (gfMul σ1 z)) σ2 = 0))
    match roots with
    | [p, q] =>
      let x := gfExp p; let y := gfExp q
      let eq := gfMul (Nat.xor s1 (gfMul s0 x)) (gfInv (Nat.xor x y))
      some (fixSymbol (fixSymbol data p (Nat.xor s0 eq)) q eq)
    | _ => none

/-- Decoding under ECC_MODE (R299); the poison syndrome comes first in every mode (R301); mode 3 acts as 0 (R321). -/
def rsDecode (mode : Nat) (data check : List Byte) : EccResult :=
  let s := rsSyndromes data check
  if s = [0, 0, 0, 0] then .clean data
  else if s = poisonSyndromes then .poison data
  else
    let s0 := s.getD 0 0; let s1 := s.getD 1 0; let s2 := s.getD 2 0; let s3 := s.getD 3 0
    if mode = 2 then .uncorrectable
    else match rsSingle data s0 s1 s2 s3 with
      | some d => .corrected d
      | none =>
        if mode = 1 then .uncorrectable
        else match rsDouble data s0 s1 s2 s3 with
          | some d => .corrected d
          | none => .uncorrectable

end Sys2Proof.Machine
end

