-- ==== Sys2Proof/Config.lean ====
section
/-! DEFINITION. What the spec leaves to the part or does not state, as constants without a body (log entries 1, 7), and
the constants of time. -/

namespace Sys2Proof

/-- Free choice number `n` of a run (log entry 1): nothing is known of it. -/
opaque Config.freeNat : Nat → Nat

/-- SHA-384 (R491, R501): the spec names the function and does not define it (log entry 7). -/
opaque Config.sha384 : List Byte → BitVec 384

/-- The ECDSA brainpoolP384r1 signature of die `die`'s identity key over a digest, 96 bytes (R500, R502, log entry 7). -/
opaque Config.sign : Nat → BitVec 384 → BitVec 768

/-- The bytes of the boot ROM and resident loader that measurement 0 of R501 covers (log entry 7). -/
opaque Config.bootRom : List Byte

/-- The fabric's 64-bit flit CRC and its route hash are internal; the route hash picks one of `n` minimal orders (R20, log entry 7). -/
opaque Config.routeHash : Nat → Nat → Nat

/-- A word of an LD's configuration space where R264 names a structure and does not lay it out: of the templates of the image, the
LD and the offset; the same until the next start-up (R262, log entry 7). -/
opaque Config.romWord : List (Nat × List Byte) → Nat → Nat → Word

/-- Where structure `n` of R264 stands in the configuration space of an LD: the spec names the structures and gives no place
(log entry 109). -/
opaque Config.cfgPlace : Nat → Nat

/-- The engine's bound of a selection block from the bytes of a query row, of its summary, and SCALE (R206, R218): the same on
every run, and free within R218's bound (log entry 24). -/
opaque Config.boundOf : List Byte → List Byte → Nat → Nat

/-- Bytes of an entry of the map journal (R88, log entry 107). -/
opaque Config.journalEntry : Nat

/-- Ticks per coarse count (R382). -/
def Config.finePerCoarse : Nat := 1088

/-- Ticks in a microsecond: 1.7 GHz (R382). -/
def Config.us : Nat := 1700

/-- Ticks in a millisecond. -/
def Config.ms : Nat := 1700000

/-- Ticks in a second. -/
def Config.sec : Nat := 1700000000

/-- The three configurations, D2, D4 and D8 (R1). -/
abbrev Config.variant (n : Nat) : Prop := n = 2 ∨ n = 4 ∨ n = 8

/-- The package that State.reset builds: D2 (R1, log entry 2). -/
def Config.dieCount : Nat := 2

end Sys2Proof
end

