-- ==== Sys2Proof/Machine/Map.lean ====
section
/-! DEFINITION. Sparse storage in one canonical form: a list of (key, value) pairs with strictly rising keys and no pair
whose value is what an unlisted key reads as. DRAM, check bytes, flash, the NOR array, the register file and the frame map
are kept this way, so that equal memories are equal lists. -/

namespace Sys2Proof.Machine

/-- A sparse memory: pairs (key, value), keys strictly rising (`Host.Cell` when the values are bytes). -/
abbrev SMap (α : Type) := List (Nat × α)

/-- Reading key `k`; `dflt k` is what an unlisted key reads as. -/
def SMap.get {α : Type} (dflt : Nat → α) : SMap α → Nat → α
  | [], k => dflt k
  | (k', v) :: t, k => if k' = k then v else SMap.get dflt t k

/-- Placing a pair in order, replacing an older one of the same key. -/
def SMap.insert {α : Type} (k : Nat) (v : α) : SMap α → SMap α
  | [] => [(k, v)]
  | (k', v') :: t =>
    if k < k' then (k, v) :: (k', v') :: t
    else if k = k' then (k, v) :: t
    else (k', v') :: SMap.insert k v t

/-- Removing a key. -/
def SMap.erase {α : Type} (k : Nat) : SMap α → SMap α
  | [] => []
  | (k', v') :: t => if k' = k then SMap.erase k t else (k', v') :: SMap.erase k t

/-- Writing key `k`: the canonical form is kept (a value equal to the unlisted one removes the pair). -/
def SMap.set {α : Type} [DecidableEq α] (dflt : Nat → α) (m : SMap α) (k : Nat) (v : α) : SMap α :=
  if v = dflt k then SMap.erase k m else SMap.insert k v m

/-- Keys strictly rising. -/
def SMap.rising {α : Type} : SMap α → Bool
  | [] => true
  | [_] => true
  | (a, _) :: (b, y) :: t => decide (a < b) && SMap.rising ((b, y) :: t)

/-- The canonical form. -/
def SMap.wf {α : Type} [DecidableEq α] (dflt : Nat → α) (m : SMap α) : Bool :=
  SMap.rising m && m.all (fun p => decide (p.2 ≠ dflt p.1))

/-- Writing a run of consecutive keys. -/
def SMap.setRun {α : Type} [DecidableEq α] (dflt : Nat → α) : SMap α → Nat → List α → SMap α
  | m, _, [] => m
  | m, k, v :: vs => SMap.setRun dflt (SMap.set dflt m k v) (k + 1) vs

/-- Reading a run of `n` consecutive keys. -/
def SMap.getRun {α : Type} (dflt : Nat → α) (m : SMap α) (k : Nat) : Nat → List α
  | 0 => []
  | n + 1 => SMap.get dflt m k :: SMap.getRun dflt m (k + 1) n

/-- Removing every key from `lo` up to, not including, `hi`: those keys read as unlisted again. -/
def SMap.dropRange {α : Type} (m : SMap α) (lo hi : Nat) : SMap α :=
  m.filter (fun p => decide (p.1 < lo) || decide (hi ≤ p.1))

/-- The unlisted byte of DRAM and flash (R311, R332): 0. -/
def zeroByte (_ : Nat) : Byte := 0

/-- The unlisted byte of the NOR: erased. -/
def erasedByte (_ : Nat) : Byte := 0xFF

end Sys2Proof.Machine
end

