-- ==== Sys2Proof/Machine/Regs.lean ====
section
/-! DEFINITION. The control-space register map of one die, written from the register tables of spec/ (R11, R79, R117,
R146, R183, R184, R223, R252, R286, R321, R322, R358, R359, R381, R415, R416, R445, R446, R474, R504, R505, R529):
every register with its offset, its fields, their access types (R12) and their reset values (R14). A 64-bit value (R9)
is one register here, keyed by the offset of its low word. A field whose Reset column names a source instead of a number
("from image", "from discovery", ...) has 0 here until the command that loads it (log entry 3). -/

namespace Sys2Proof.Machine

/-- Access types of R12. -/
inductive Acc where
  | ro | rw | w1c | wo | rwl
deriving DecidableEq, Repr

/-- A field of a register: register offset, lowest bit, width. -/
structure Fld where
  off : Nat
  lo : Nat
  w : Nat
deriving DecidableEq, Repr

/-- One row of a register map: lowest bit, width, access type, reset value. -/
structure FldDef where
  lo : Nat
  w : Nat
  acc : Acc
  rst : Nat
deriving DecidableEq, Repr

/-- A register, or an array of registers base + s1*i + s2*j (i < n1, j < n2), with its fields. -/
structure RegDef where
  base : Nat
  s1 : Nat
  n1 : Nat
  s2 : Nat
  n2 : Nat
  wide : Bool
  flds : List FldDef
deriving DecidableEq, Repr

namespace Reg

/-! 02_extents_and_sharing.md R79 -/
abbrev LSE_CAPS.MAX_EXTENTS : Fld := ⟨0x808000, 0, 21⟩
abbrev LSE_CAPS.MAX_SHARERS : Fld := ⟨0x808000, 21, 8⟩
abbrev LSE_OPEN_BUDGET.BUDGET : Fld := ⟨0x808004, 0, 16⟩
abbrev LSE_OPEN_COUNT.OPEN : Fld := ⟨0x808008, 0, 16⟩
abbrev LSE_SEALED_COUNT.SEALED : Fld := ⟨0x80800C, 0, 21⟩
abbrev LSE_GRACE.GRACE_US : Fld := ⟨0x808010, 0, 24⟩
abbrev LSE_BI_TIMEOUT.TIMEOUT_US : Fld := ⟨0x808014, 0, 16⟩
abbrev LSE_SF_USED.ENTRIES : Fld := ⟨0x808018, 0, 25⟩
abbrev LSE_SF_OVF_BI.COUNT : Fld := ⟨0x808020, 0, 64⟩
abbrev LSE_HOSTLOSS.LINES : Fld := ⟨0x808028, 0, 16⟩
abbrev LSE_HOSTLOSS.OVERFLOW : Fld := ⟨0x808028, 16, 1⟩
abbrev LSE_HOSTLOSS.LD : Fld := ⟨0x808028, 17, 7⟩
abbrev LSE_HOSTLOSS.LIST_FULL : Fld := ⟨0x808028, 24, 1⟩
abbrev LSE_PLIST_POP.LINE : Fld := ⟨0x808030, 0, 22⟩
abbrev LSE_PLIST_POP.EXTENT : Fld := ⟨0x808030, 22, 20⟩
abbrev LSE_PLIST_POP.SEQ : Fld := ⟨0x808030, 42, 16⟩
abbrev LSE_PLIST_POP.VALID : Fld := ⟨0x808030, 63, 1⟩
abbrev LSE_DISCARD_COUNT.COUNT : Fld := ⟨0x808040, 0, 32⟩
abbrev LSE_EXT_QUERY.EXTENT : Fld := ⟨0x808044, 0, 20⟩
abbrev LSE_EXT_STATE.STATE : Fld := ⟨0x808048, 0, 4⟩
abbrev LSE_EXT_STATE.SHARED : Fld := ⟨0x808048, 4, 1⟩
abbrev LSE_EXT_STATE.SETTLED : Fld := ⟨0x808048, 5, 1⟩
abbrev LSE_EXT_STATE.HOME : Fld := ⟨0x808048, 6, 3⟩
abbrev LSE_EXT_STATE.LEASES : Fld := ⟨0x808048, 9, 8⟩
abbrev LSE_EXT_STATE.GENERATION : Fld := ⟨0x808048, 17, 8⟩
/-! 03_tiers_and_migration.md R117 -/
abbrev TIER_CAPS.FETCH_RECORDS : Fld := ⟨0x800000, 0, 12⟩
abbrev TIER_CAPS.WAITER_POOL_K : Fld := ⟨0x800000, 16, 16⟩
abbrev TIER_THRESH.T2_MIN : Fld := ⟨0x800004, 0, 8⟩
abbrev TIER_THRESH.T1_MIN : Fld := ⟨0x800004, 8, 8⟩
abbrev TIER_THRESH.JOB_INC : Fld := ⟨0x800004, 16, 8⟩
abbrev TIER_THRESH.HOST_INC : Fld := ⟨0x800004, 24, 8⟩
abbrev TIER_T2_MARKS.HIGH : Fld := ⟨0x800008, 0, 7⟩
abbrev TIER_T2_MARKS.LOW : Fld := ⟨0x800008, 8, 7⟩
abbrev TIER_HEAT_DECAY.PERIOD_S : Fld := ⟨0x80000C, 0, 17⟩
abbrev TIER_MISS_POLICY.POLICY : Fld := ⟨0x800010, 0, 1⟩
abbrev TIER_MISS_HOLD.HOLD_US : Fld := ⟨0x800014, 0, 9⟩
abbrev TIER_CKPT_PERIOD.PERIOD_S : Fld := ⟨0x800018, 0, 16⟩
abbrev TIER_PRELOAD_STATUS.ACTIVE : Fld := ⟨0x80001C, 0, 1⟩
abbrev TIER_PRELOAD_STATUS.DONE : Fld := ⟨0x80001C, 1, 1⟩
abbrev TIER_PRELOAD_STATUS.STOPPED : Fld := ⟨0x80001C, 2, 1⟩
abbrev TIER_PRELOAD_STATUS.NEXT : Fld := ⟨0x80001C, 8, 16⟩
abbrev TIER_T2_CAP.MIB : Fld := ⟨0x800020, 0, 24⟩
abbrev TIER_T2_USED.MIB : Fld := ⟨0x800024, 0, 24⟩
abbrev TIER_T1_CACHE_MAX.PCT : Fld := ⟨0x800028, 0, 7⟩
abbrev TIER_T1_CACHE_USED.MIB : Fld := ⟨0x80002C, 0, 24⟩
abbrev TIER_PIN_LIMIT.MIB : Fld := ⟨0x800030, 0, 24⟩
abbrev TIER_PIN_USED.MIB : Fld := ⟨0x800034, 0, 24⟩
abbrev TIER_MAP_CAP.MAPS : Fld := ⟨0x800038, 0, 20⟩
abbrev TIER_MAP_USED.MAPS : Fld := ⟨0x80003C, 0, 20⟩
abbrev TIER_MISS_COUNT.COUNT : Fld := ⟨0x800040, 0, 64⟩
abbrev TIER_PROMOTE_COUNT.COUNT : Fld := ⟨0x800048, 0, 64⟩
abbrev TIER_EVICT_COUNT.COUNT : Fld := ⟨0x800050, 0, 64⟩
abbrev TIER_CANCEL_COUNT.COUNT : Fld := ⟨0x800058, 0, 32⟩
abbrev TIER_HOIST_DEPTH.DEPTH : Fld := ⟨0x80005C, 0, 17⟩
abbrev TIER_CKPT_STAMP.STAMP : Fld := ⟨0x800060, 0, 64⟩
abbrev TIER_FRAME_QUERY.EXTENT : Fld := ⟨0x800070, 0, 20⟩
abbrev TIER_FRAME_QUERY.FRAME : Fld := ⟨0x800070, 20, 12⟩
abbrev TIER_FRAME_HEAT.HEAT : Fld := ⟨0x800074, 0, 8⟩
abbrev TIER_FRAME_HEAT.VALID : Fld := ⟨0x800074, 8, 1⟩
abbrev TIER_FRAME_ENTRY.ENTRY (i : Nat) : Fld := ⟨0x800080 + 0x4 * i, 0, 32⟩
/-! 04_exponent_coding.md R146 -/
abbrev XC_CAPS.FORMATS : Fld := ⟨0x300000, 0, 5⟩
abbrev XC_CAPS.LOAD_SLOTS : Fld := ⟨0x300000, 8, 7⟩
abbrev XC_CAPS.OP_SLOTS : Fld := ⟨0x300000, 16, 10⟩
abbrev XC_CTRL.SPAN_LOG2 : Fld := ⟨0x300004, 0, 4⟩
abbrev XC_SLOT_USED.OP : Fld := ⟨0x300008, 0, 10⟩
abbrev XC_SLOT_USED.LOAD : Fld := ⟨0x300008, 16, 7⟩
abbrev XC_TABLE_LOADS.COUNT : Fld := ⟨0x30000C, 0, 32⟩
abbrev XC_BLOCKS_DECODED.COUNT : Fld := ⟨0x300010, 0, 64⟩
abbrev XC_BLOCKS_ENCODED.COUNT : Fld := ⟨0x300018, 0, 64⟩
abbrev XC_LOGICAL_BYTES.COUNT : Fld := ⟨0x300020, 0, 64⟩
abbrev XC_CODED_BYTES.COUNT : Fld := ⟨0x300028, 0, 64⟩
abbrev XC_ERR_COUNT.COUNT : Fld := ⟨0x300030, 0, 32⟩
abbrev XC_ERR_FIRST.CHECK : Fld := ⟨0x300034, 0, 4⟩
abbrev XC_ERR_FIRST.TIER : Fld := ⟨0x300034, 4, 2⟩
abbrev XC_ERR_FIRST.UNIT : Fld := ⟨0x300034, 6, 1⟩
abbrev XC_ERR_FIRST.BLOCK : Fld := ⟨0x300034, 7, 4⟩
abbrev XC_ERR_FIRST.FRAME : Fld := ⟨0x300034, 11, 12⟩
abbrev XC_ERR_FIRST.VALID : Fld := ⟨0x300034, 31, 1⟩
abbrev XC_ERR_EXTENT.EXTENT : Fld := ⟨0x300038, 0, 20⟩
abbrev XC_RECODE.EXTENT : Fld := ⟨0x300040, 0, 20⟩
abbrev XC_RECODE.SPAN_LOG2 : Fld := ⟨0x300040, 20, 4⟩
abbrev XC_RECODE_STATUS.BUSY : Fld := ⟨0x300044, 0, 1⟩
abbrev XC_RECODE_STATUS.DONE : Fld := ⟨0x300044, 1, 1⟩
abbrev XC_RECODE_STATUS.FAILED : Fld := ⟨0x300044, 2, 1⟩
abbrev XC_RECODE_STATUS.EXTENT : Fld := ⟨0x300044, 8, 20⟩
/-! 05_operation_contract.md R183 -/
abbrev RING_CTRL.ENABLE (i : Nat) : Fld := ⟨0x410000 + 0x40 * i, 0, 1⟩
abbrev RING_CTRL.SQ_LOG2 (i : Nat) : Fld := ⟨0x410000 + 0x40 * i, 4, 5⟩
abbrev RING_CTRL.CQ_LOG2 (i : Nat) : Fld := ⟨0x410000 + 0x40 * i, 12, 5⟩
abbrev RING_STATUS.ENABLED (i : Nat) : Fld := ⟨0x410004 + 0x40 * i, 0, 1⟩
abbrev RING_STATUS.ACTIVE (i : Nat) : Fld := ⟨0x410004 + 0x40 * i, 1, 1⟩
abbrev RING_STATUS.CQ_STALL (i : Nat) : Fld := ⟨0x410004 + 0x40 * i, 2, 1⟩
abbrev RING_STATUS.BAD_DB (i : Nat) : Fld := ⟨0x410004 + 0x40 * i, 3, 1⟩
abbrev RING_STATUS.ENABLE_FAILED (i : Nat) : Fld := ⟨0x410004 + 0x40 * i, 4, 1⟩
abbrev RING_STATUS.MEM_LOST (i : Nat) : Fld := ⟨0x410004 + 0x40 * i, 5, 1⟩
abbrev RING_STATUS.PHASE (i : Nat) : Fld := ⟨0x410004 + 0x40 * i, 6, 1⟩
abbrev RING_SQ_BASE.DPA (i : Nat) : Fld := ⟨0x410008 + 0x40 * i, 0, 64⟩
abbrev RING_CQ_BASE.DPA (i : Nat) : Fld := ⟨0x410010 + 0x40 * i, 0, 64⟩
abbrev RING_DOORBELL.TAIL (i : Nat) : Fld := ⟨0x410018 + 0x40 * i, 0, 16⟩
abbrev RING_SQ_HEAD.HEAD (i : Nat) : Fld := ⟨0x41001C + 0x40 * i, 0, 16⟩
abbrev RING_CQ_TAIL.TAIL (i : Nat) : Fld := ⟨0x410020 + 0x40 * i, 0, 16⟩
abbrev RING_CQ_HEAD.HEAD (i : Nat) : Fld := ⟨0x410024 + 0x40 * i, 0, 16⟩
abbrev RING_INFLIGHT.JOBS (i : Nat) : Fld := ⟨0x410028 + 0x40 * i, 0, 17⟩
abbrev RING_LAST_ACCEPT.STAMP (i : Nat) : Fld := ⟨0x410030 + 0x40 * i, 0, 64⟩
abbrev RING_ID.RING (i : Nat) : Fld := ⟨0x41002C + 0x40 * i, 0, 14⟩
abbrev RING_ID.LD (i : Nat) : Fld := ⟨0x41002C + 0x40 * i, 14, 7⟩
abbrev RING_ID.CLASS (i : Nat) : Fld := ⟨0x41002C + 0x40 * i, 21, 6⟩
abbrev RING_ID.DIE (i : Nat) : Fld := ⟨0x41002C + 0x40 * i, 27, 3⟩
abbrev RING_ID.ASSIGNED (i : Nat) : Fld := ⟨0x41002C + 0x40 * i, 30, 1⟩
/-! 05_operation_contract.md R184 -/
abbrev OPS_STATUS.READY : Fld := ⟨0x408000, 0, 1⟩
abbrev OPS_STATUS.RECORDS_FULL : Fld := ⟨0x408000, 1, 1⟩
abbrev OPS_JOBS_INFLIGHT.ACCEPTED : Fld := ⟨0x408004, 0, 14⟩
abbrev OPS_JOBS_INFLIGHT.SUBJOBS : Fld := ⟨0x408004, 16, 13⟩
abbrev OPS_ACCEPT_COUNT.COUNT : Fld := ⟨0x408008, 0, 64⟩
abbrev OPS_REFUSED_COUNT.COUNT : Fld := ⟨0x408010, 0, 32⟩
abbrev OPS_LATE_COUNT.COUNT : Fld := ⟨0x408014, 0, 32⟩
abbrev OPS_POISONED_COUNT.COUNT : Fld := ⟨0x408018, 0, 32⟩
abbrev OPS_CLASS_STAGE.MIB (i : Nat) : Fld := ⟨0x408100 + 0x4 * i, 0, 9⟩
abbrev OPS_CLASS_STAGE.DISABLED (i : Nat) : Fld := ⟨0x408100 + 0x4 * i, 31, 1⟩
/-! 06_attention.md R223 -/
abbrev OPS_ATT_WINDOW.WINDOW_US : Fld := ⟨0x409000, 0, 11⟩
abbrev OPS_ATT_LEAD.LEAD_US : Fld := ⟨0x409004, 0, 16⟩
abbrev OPS_FETCH_THREADS.IN_USE : Fld := ⟨0x409008, 0, 13⟩
abbrev OPS_FETCH_THREADS.PEAK : Fld := ⟨0x409008, 16, 13⟩
abbrev OPS_FETCH_THREADS.CLEAR_PEAK : Fld := ⟨0x409008, 31, 1⟩
abbrev OPS_SCRATCH.SIZE_MIB : Fld := ⟨0x40900C, 0, 16⟩
abbrev OPS_SCRATCH.RESERVED_MIB : Fld := ⟨0x40900C, 16, 16⟩
abbrev OPS_BUNTING_COUNT.COUNT : Fld := ⟨0x409010, 0, 64⟩
abbrev OPS_BUNTING_ROWS.COUNT : Fld := ⟨0x409018, 0, 64⟩
abbrev OPS_BUNTING_CUT.COUNT : Fld := ⟨0x409020, 0, 32⟩
abbrev OPS_SPILL_BYTES.COUNT : Fld := ⟨0x409028, 0, 64⟩
abbrev OPS_STAGE_UE_COUNT.COUNT : Fld := ⟨0x409030, 0, 32⟩
abbrev OPS_SUMMARY_MISS.COUNT : Fld := ⟨0x409034, 0, 32⟩
abbrev OPS_CLASS_ATT.RESIDENT (i : Nat) : Fld := ⟨0x409100 + 0x4 * i, 0, 1⟩
abbrev OPS_CLASS_ATT.SUMMARY_DIM (i : Nat) : Fld := ⟨0x409100 + 0x4 * i, 1, 2⟩
/-! 07_linear_and_data_ops.md R252 -/
abbrev OPS_LIN_JOBS.COUNT : Fld := ⟨0x40A000, 0, 64⟩
abbrev OPS_LIN_WBYTES.COUNT : Fld := ⟨0x40A008, 0, 64⟩
abbrev OPS_LIN_STRADDLE.COUNT : Fld := ⟨0x40A010, 0, 32⟩
abbrev OPS_DATA_BYTES.COUNT : Fld := ⟨0x40A018, 0, 64⟩
abbrev OPS_REPL_STATUS.RUNNING : Fld := ⟨0x40A020, 0, 5⟩
abbrev OPS_REPL_STATUS.WAITING : Fld := ⟨0x40A020, 16, 16⟩
abbrev OPS_REPAIRED_FRAMES.COUNT : Fld := ⟨0x40A024, 0, 32⟩
abbrev OPS_LOST_WAITERS.COUNT : Fld := ⟨0x40A028, 0, 32⟩
/-! 08_host_ports.md R286 -/
abbrev PORT_CAPS.MAX_LDS : Fld := ⟨0xC00000, 0, 5⟩
abbrev PORT_CAPS.MAX_RATE_GT : Fld := ⟨0xC00000, 8, 8⟩
abbrev PORT_CAPS.MAX_WIDTH : Fld := ⟨0xC00000, 16, 5⟩
abbrev PORT_CAPS.BIFURCABLE : Fld := ⟨0xC00000, 21, 1⟩
abbrev PORT_CAPS.PTM : Fld := ⟨0xC00000, 22, 1⟩
abbrev PORT_CTRL.ENABLE : Fld := ⟨0xC00004, 0, 1⟩
abbrev PORT_CTRL.BIFURCATE : Fld := ⟨0xC00004, 1, 1⟩
abbrev PORT_CTRL.SLD_A : Fld := ⟨0xC00004, 2, 1⟩
abbrev PORT_CTRL.SLD_B : Fld := ⟨0xC00004, 3, 1⟩
abbrev PORT_STATUS.DISABLED : Fld := ⟨0xC00008, 0, 1⟩
abbrev PORT_STATUS.UP_A : Fld := ⟨0xC00008, 1, 1⟩
abbrev PORT_STATUS.UP_B : Fld := ⟨0xC00008, 2, 1⟩
abbrev PORT_STATUS.NEG_FAIL : Fld := ⟨0xC00008, 3, 1⟩
abbrev PORT_STATUS.RATE_GT : Fld := ⟨0xC00008, 8, 8⟩
abbrev PORT_STATUS.WIDTH : Fld := ⟨0xC00008, 16, 5⟩
abbrev PORT_STATUS.WIDTH_B : Fld := ⟨0xC00008, 24, 5⟩
abbrev PORT_LINK_ERR.COUNT : Fld := ⟨0xC0000C, 0, 32⟩
abbrev PORT_CPL_TIMEOUT.TIMEOUT_MS : Fld := ⟨0xC00010, 0, 16⟩
abbrev PORT_PTM_INTERVAL.INTERVAL_MS : Fld := ⟨0xC00014, 0, 10⟩
abbrev PORT_MGMT.LD : Fld := ⟨0xC00018, 0, 7⟩
abbrev PORT_MGMT.VALID : Fld := ⟨0xC00018, 7, 1⟩
abbrev PORT_PTM_HOST.NS : Fld := ⟨0xC00020, 0, 64⟩
abbrev PORT_PTM_LOCAL.TICKS : Fld := ⟨0xC00028, 0, 64⟩
abbrev PORT_PTM_SEQ.SEQ : Fld := ⟨0xC00030, 0, 32⟩
abbrev PORT_BME_ABORTS.COUNT : Fld := ⟨0xC00034, 0, 32⟩
abbrev PORT_RESET_COUNT.FLR : Fld := ⟨0xC00038, 0, 16⟩
abbrev PORT_RESET_COUNT.LINK : Fld := ⟨0xC00038, 16, 16⟩
abbrev PORT_LD_STATUS.ASSIGNED (i : Nat) : Fld := ⟨0xC00100 + 0x4 * i, 0, 1⟩
abbrev PORT_LD_STATUS.READY (i : Nat) : Fld := ⟨0xC00100 + 0x4 * i, 1, 1⟩
abbrev PORT_LD_STATUS.BME (i : Nat) : Fld := ⟨0xC00100 + 0x4 * i, 2, 1⟩
abbrev PORT_LD_STATUS.MSIX_EN (i : Nat) : Fld := ⟨0xC00100 + 0x4 * i, 3, 1⟩
abbrev PORT_LD_STATUS.FLR_ACTIVE (i : Nat) : Fld := ⟨0xC00100 + 0x4 * i, 4, 1⟩
abbrev PORT_LD_STATUS.PTM_EN (i : Nat) : Fld := ⟨0xC00100 + 0x4 * i, 5, 1⟩
abbrev PORT_LD_STATUS.HALF (i : Nat) : Fld := ⟨0xC00100 + 0x4 * i, 6, 1⟩
abbrev PORT_LD_STATUS.LD (i : Nat) : Fld := ⟨0xC00100 + 0x4 * i, 8, 7⟩
/-! 09_gddr7_controller.md R321 -/
abbrev DMC_CAPS.CHANNELS : Fld := ⟨0x10C000, 0, 4⟩
abbrev DMC_CAPS.DEVICES : Fld := ⟨0x10C000, 4, 4⟩
abbrev DMC_CAPS.DENSITIES : Fld := ⟨0x10C000, 8, 4⟩
abbrev DMC_CAPS.WQ_ENTRIES : Fld := ⟨0x10C000, 16, 7⟩
abbrev DMC_CONFIG.DENSITY : Fld := ⟨0x10C004, 0, 2⟩
abbrev DMC_CONFIG.REFRESH : Fld := ⟨0x10C004, 2, 1⟩
abbrev DMC_CONFIG.RH_MODE : Fld := ⟨0x10C004, 3, 1⟩
abbrev DMC_CONFIG.ECC_MODE : Fld := ⟨0x10C004, 4, 2⟩
abbrev DMC_CONFIG.RETAIN : Fld := ⟨0x10C004, 8, 3⟩
abbrev DMC_SR_IDLE.IDLE_US : Fld := ⟨0x10C008, 0, 14⟩
abbrev DMC_RH_THRESH.THRESH : Fld := ⟨0x10C00C, 0, 16⟩
abbrev DMC_FREEZE_HOLD.HOLD_MS : Fld := ⟨0x10C010, 0, 10⟩
abbrev DMC_TRAIN_STATUS.DONE : Fld := ⟨0x10C014, 0, 12⟩
abbrev DMC_TRAIN_STATUS.FAILED : Fld := ⟨0x10C014, 12, 12⟩
abbrev DMC_TRAIN_STATUS.FORM : Fld := ⟨0x10C014, 24, 2⟩
abbrev DMC_TRAIN_STATUS.RETAINED : Fld := ⟨0x10C014, 31, 1⟩
abbrev DMC_DEV_STATUS.POWERED : Fld := ⟨0x10C018, 0, 3⟩
abbrev DMC_DEV_STATUS.SELF_REFRESH : Fld := ⟨0x10C018, 4, 3⟩
abbrev DMC_DEV_STATUS.INIT_DONE : Fld := ⟨0x10C018, 8, 3⟩
abbrev DMC_PWR_RAMP.RAMP_US : Fld := ⟨0x10C01C, 0, 16⟩
abbrev DMC_MAP_MASK.MASK (i : Nat) : Fld := ⟨0x10C040 + 0x8 * i, 0, 48⟩
/-! 09_gddr7_controller.md R322 -/
abbrev DMC_CH_STATUS.STATE (i : Nat) : Fld := ⟨0x100000 + 0x1000 * i, 0, 3⟩
abbrev DMC_CH_STATUS.CHECK_DIRTY (i : Nat) : Fld := ⟨0x100000 + 0x1000 * i, 3, 1⟩
abbrev DMC_CH_STATUS.WQ_LEVEL (i : Nat) : Fld := ⟨0x100000 + 0x1000 * i, 4, 7⟩
abbrev DMC_CH_CTRL.RELEASE (i : Nat) : Fld := ⟨0x100004 + 0x1000 * i, 0, 1⟩
abbrev DMC_CE_COUNT.COUNT (i : Nat) : Fld := ⟨0x100008 + 0x1000 * i, 0, 32⟩
abbrev DMC_UE_COUNT.COUNT (i : Nat) : Fld := ⟨0x10000C + 0x1000 * i, 0, 32⟩
abbrev DMC_ERR_ADDR.BANK (i : Nat) : Fld := ⟨0x100010 + 0x1000 * i, 0, 4⟩
abbrev DMC_ERR_ADDR.ROW (i : Nat) : Fld := ⟨0x100010 + 0x1000 * i, 4, 16⟩
abbrev DMC_ERR_ADDR.SECTOR (i : Nat) : Fld := ⟨0x100010 + 0x1000 * i, 20, 5⟩
abbrev DMC_ERR_ADDR.LEN (i : Nat) : Fld := ⟨0x100010 + 0x1000 * i, 25, 5⟩
abbrev DMC_ERR_ADDR.CAUSE (i : Nat) : Fld := ⟨0x100010 + 0x1000 * i, 30, 2⟩
abbrev DMC_FREEZE_STAMP.STAMP (i : Nat) : Fld := ⟨0x100018 + 0x1000 * i, 0, 64⟩
abbrev DMC_TRAIN.RD_DELAY (i : Nat) : Fld := ⟨0x100020 + 0x1000 * i, 0, 7⟩
abbrev DMC_TRAIN.WR_DELAY (i : Nat) : Fld := ⟨0x100020 + 0x1000 * i, 8, 7⟩
abbrev DMC_TRAIN.RD_EYE (i : Nat) : Fld := ⟨0x100020 + 0x1000 * i, 16, 7⟩
abbrev DMC_TRAIN.WR_EYE (i : Nat) : Fld := ⟨0x100020 + 0x1000 * i, 24, 7⟩
abbrev DMC_RH_EVENTS.COUNT (i : Nat) : Fld := ⟨0x100024 + 0x1000 * i, 0, 32⟩
abbrev DMC_RAW_FWD.COUNT (i : Nat) : Fld := ⟨0x100028 + 0x1000 * i, 0, 32⟩
abbrev DMC_STALE_LINES.LINES (i : Nat) : Fld := ⟨0x10002C + 0x1000 * i, 0, 15⟩
abbrev DMC_STALE_LINES.OVERFLOW (i : Nat) : Fld := ⟨0x10002C + 0x1000 * i, 15, 1⟩
abbrev DMC_PORT_RATE.RATE_MBS (i j : Nat) : Fld := ⟨0x100040 + 0x1000 * i + 0x8 * j, 0, 16⟩
abbrev DMC_PORT_TARGET.TARGET_NS (i j : Nat) : Fld := ⟨0x100044 + 0x1000 * i + 0x8 * j, 0, 16⟩
abbrev DMC_FREEZE_REC.WORD (i j : Nat) : Fld := ⟨0x100400 + 0x1000 * i + 0x4 * j, 0, 32⟩
/-! 10_flash_tier.md R358 -/
abbrev FLC_CAPS.CHANNELS : Fld := ⟨0x200000, 0, 4⟩
abbrev FLC_CAPS.MAX_TARGETS : Fld := ⟨0x200000, 4, 4⟩
abbrev FLC_CAPS.LEVELS : Fld := ⟨0x200000, 8, 4⟩
abbrev FLC_GEOMETRY.UNITS : Fld := ⟨0x200004, 0, 6⟩
abbrev FLC_GEOMETRY.SUSPEND : Fld := ⟨0x200004, 6, 1⟩
abbrev FLC_GEOMETRY.PPB : Fld := ⟨0x200004, 8, 13⟩
abbrev FLC_GEOMETRY.SPARE_B8 : Fld := ⟨0x200004, 21, 11⟩
abbrev FLC_CONFIG.STRENGTH_CAP : Fld := ⟨0x200008, 0, 2⟩
abbrev FLC_CONFIG.AUTO_STRENGTH : Fld := ⟨0x200008, 2, 1⟩
abbrev FLC_CONFIG.FOREIGN : Fld := ⟨0x200008, 3, 1⟩
abbrev FLC_CONFIG.RETRY_LEN : Fld := ⟨0x200008, 4, 6⟩
abbrev FLC_CONFIG.DURABLE_LAG : Fld := ⟨0x200008, 10, 4⟩
abbrev FLC_STATUS.READY : Fld := ⟨0x20000C, 0, 1⟩
abbrev FLC_STATUS.FIRST_DISCOVERY : Fld := ⟨0x20000C, 1, 1⟩
abbrev FLC_STATUS.READ_ONLY : Fld := ⟨0x20000C, 2, 1⟩
abbrev FLC_STATUS.OFFTIME_KNOWN : Fld := ⟨0x20000C, 3, 1⟩
abbrev FLC_STATUS.SWEEP_ACTIVE : Fld := ⟨0x20000C, 4, 1⟩
abbrev FLC_STATUS.NVM_BBT_STALE : Fld := ⟨0x20000C, 5, 1⟩
abbrev FLC_STATUS.RECLAIM_ACTIVE : Fld := ⟨0x20000C, 6, 1⟩
abbrev FLC_STATUS.FULL : Fld := ⟨0x20000C, 7, 1⟩
abbrev FLC_STATUS.CH_DOWN : Fld := ⟨0x20000C, 8, 8⟩
abbrev FLC_SUPERBLOCKS.TOTAL : Fld := ⟨0x200010, 0, 16⟩
abbrev FLC_SUPERBLOCKS.FREE : Fld := ⟨0x200010, 16, 16⟩
abbrev FLC_RECLAIM.LOW : Fld := ⟨0x200014, 0, 16⟩
abbrev FLC_RECLAIM.CRIT : Fld := ⟨0x200014, 16, 16⟩
abbrev FLC_TAIL_WAIT.WAIT_US : Fld := ⟨0x200018, 0, 16⟩
abbrev FLC_RD_THRESH.READS : Fld := ⟨0x20001C, 0, 20⟩
abbrev FLC_SCRUB_PERIOD.HOURS : Fld := ⟨0x200020, 0, 10⟩
abbrev FLC_SCRUB_THRESH.CE_PCT : Fld := ⟨0x200024, 0, 7⟩
abbrev FLC_SCRUB_THRESH.AGE_DAYS : Fld := ⟨0x200024, 8, 10⟩
abbrev FLC_SCRUB_STATUS.NEXT_SB : Fld := ⟨0x200028, 0, 16⟩
abbrev FLC_SCRUB_STATUS.ACTIVE : Fld := ⟨0x200028, 16, 1⟩
abbrev FLC_OFFTIME.SECONDS : Fld := ⟨0x20002C, 0, 32⟩
abbrev FLC_OFFTIME_MAX.DAYS : Fld := ⟨0x200030, 0, 16⟩
abbrev FLC_WEAR.SPREAD : Fld := ⟨0x200034, 0, 16⟩
abbrev FLC_WEAR.PE_RATED : Fld := ⟨0x200034, 16, 16⟩
abbrev FLC_PE_STATS.MIN : Fld := ⟨0x200038, 0, 16⟩
abbrev FLC_PE_STATS.MAX : Fld := ⟨0x200038, 16, 16⟩
abbrev FLC_BAD_BLOCKS.FACTORY : Fld := ⟨0x20003C, 0, 16⟩
abbrev FLC_BAD_BLOCKS.GROWN : Fld := ⟨0x20003C, 16, 16⟩
abbrev FLC_PROG_BYTES.COUNT : Fld := ⟨0x200040, 0, 64⟩
abbrev FLC_SETTLE_BYTES.COUNT : Fld := ⟨0x200048, 0, 64⟩
abbrev FLC_TBW_BUDGET.TB : Fld := ⟨0x200050, 0, 32⟩
abbrev FLC_ENDURANCE.USED : Fld := ⟨0x200054, 0, 10⟩
abbrev FLC_ENDURANCE.PROJECT_DAYS : Fld := ⟨0x200054, 16, 16⟩
abbrev FLC_LADDER_COUNT.CLIMBS : Fld := ⟨0x200058, 0, 16⟩
abbrev FLC_LADDER_COUNT.FAILED : Fld := ⟨0x200058, 16, 16⟩
abbrev FLC_RETRY_TABLE.FEATURE (i : Nat) : Fld := ⟨0x200100 + 0x8 * i, 0, 8⟩
abbrev FLC_RETRY_TABLE.PARAM (i : Nat) : Fld := ⟨0x200100 + 0x8 * i, 8, 32⟩
abbrev FLC_RETRY_TABLE.SOFT_LO (i : Nat) : Fld := ⟨0x200100 + 0x8 * i, 40, 1⟩
abbrev FLC_RETRY_TABLE.SOFT_HI (i : Nat) : Fld := ⟨0x200100 + 0x8 * i, 41, 1⟩
abbrev FLC_RETRY_TABLE.VALID (i : Nat) : Fld := ⟨0x200100 + 0x8 * i, 63, 1⟩
/-! 10_flash_tier.md R359 -/
abbrev FLC_CH_STATUS.STATE (i : Nat) : Fld := ⟨0x208000 + 0x100 * i, 0, 3⟩
abbrev FLC_CH_STATUS.TARGETS (i : Nat) : Fld := ⟨0x208000 + 0x100 * i, 3, 4⟩
abbrev FLC_CH_CE_BITS.COUNT (i : Nat) : Fld := ⟨0x208004 + 0x100 * i, 0, 32⟩
abbrev FLC_CH_UE_COUNT.COUNT (i : Nat) : Fld := ⟨0x208008 + 0x100 * i, 0, 32⟩
abbrev FLC_CH_RETRIES.COUNT (i : Nat) : Fld := ⟨0x20800C + 0x100 * i, 0, 32⟩
abbrev FLC_CH_FAILS.PROG (i : Nat) : Fld := ⟨0x208010 + 0x100 * i, 0, 16⟩
abbrev FLC_CH_FAILS.ERASE (i : Nat) : Fld := ⟨0x208010 + 0x100 * i, 16, 16⟩
/-! 11_bandwidth_and_deadlines.md R381 -/
abbrev QOS_CAPS.MASTERS : Fld := ⟨0x80000, 0, 8⟩
abbrev QOS_CAPS.MAX_WINDOW_US : Fld := ⟨0x80000, 8, 7⟩
abbrev QOS_STATUS.SCALED : Fld := ⟨0x80004, 0, 1⟩
abbrev QOS_STATUS.CAUSE : Fld := ⟨0x80004, 1, 2⟩
abbrev QOS_STATUS.CONGESTED : Fld := ⟨0x80004, 3, 1⟩
abbrev QOS_STATUS.BORROW_STEP : Fld := ⟨0x80004, 4, 3⟩
abbrev QOS_STATUS.SCALED_SEEN : Fld := ⟨0x80004, 7, 1⟩
abbrev QOS_STATUS.SERVING : Fld := ⟨0x80004, 8, 4⟩
abbrev QOS_DELIVERABLE.MBS : Fld := ⟨0x80008, 0, 19⟩
abbrev QOS_GUAR_SUM.MBS : Fld := ⟨0x8000C, 0, 27⟩
abbrev QOS_SCALE.FACTOR : Fld := ⟨0x80010, 0, 17⟩
abbrev QOS_FEEDBACK.HIGH : Fld := ⟨0x80014, 0, 8⟩
abbrev QOS_FEEDBACK.LOW : Fld := ⟨0x80014, 8, 8⟩
abbrev QOS_MGMT_RATE.MBS : Fld := ⟨0x80018, 0, 19⟩
abbrev QOS_FLASH_MIG.MBS : Fld := ⟨0x8001C, 0, 16⟩
abbrev QOS_FLASH_SCRUB.MBS : Fld := ⟨0x80020, 0, 16⟩
abbrev QOS_POOL.BYTES_64 : Fld := ⟨0x80024, 0, 26⟩
abbrev QOS_GUAR.MBS (i : Nat) : Fld := ⟨0x81000 + 0x4 * i, 0, 19⟩
abbrev QOS_BORROW.MBS (i : Nat) : Fld := ⟨0x82000 + 0x4 * i, 0, 19⟩
abbrev QOS_WINDOW.US (i : Nat) : Fld := ⟨0x83000 + 0x4 * i, 0, 7⟩
abbrev QOS_EFF.MBS (i : Nat) : Fld := ⟨0x84000 + 0x4 * i, 0, 19⟩
abbrev QOS_BYTES.COUNT (i : Nat) : Fld := ⟨0x85000 + 0x8 * i, 0, 64⟩
abbrev QOS_MSTAT.WARMUP (i : Nat) : Fld := ⟨0x86000 + 0x4 * i, 0, 4⟩
abbrev QOS_MSTAT.IN_DEBT (i : Nat) : Fld := ⟨0x86000 + 0x4 * i, 4, 1⟩
abbrev QOS_MSTAT.BORROWED (i : Nat) : Fld := ⟨0x86000 + 0x4 * i, 5, 1⟩
abbrev QOS_MSTAT.WAITING (i : Nat) : Fld := ⟨0x86000 + 0x4 * i, 6, 1⟩
abbrev QOS_MSTAT.URGENCY (i : Nat) : Fld := ⟨0x86000 + 0x4 * i, 8, 2⟩
/-! 12_time_errors_and_test.md R415 -/
abbrev TB_CAPS.FINE_PER_COARSE : Fld := ⟨0x0, 0, 11⟩
abbrev TB_STATUS.ESTABLISHED : Fld := ⟨0x4, 0, 1⟩
abbrev TB_STATUS.ITO_TIME : Fld := ⟨0x4, 1, 1⟩
abbrev TB_STATUS.GAP_UNKNOWN : Fld := ⟨0x4, 2, 1⟩
abbrev TB_STATUS.HALYARD_ERR : Fld := ⟨0x4, 3, 1⟩
abbrev TB_TIME.TICKS : Fld := ⟨0x8, 0, 64⟩
abbrev TB_BOOT_TIME.P0 : Fld := ⟨0x10, 0, 64⟩
abbrev TB_CEILING.CEILING : Fld := ⟨0x18, 0, 64⟩
abbrev TB_MARK_PERIOD.MS : Fld := ⟨0x20, 0, 14⟩
abbrev TB_HALYARD.OFFSET : Fld := ⟨0x24, 0, 16⟩
abbrev TB_HALYARD.PEAK : Fld := ⟨0x24, 16, 16⟩
abbrev TB_POOL.STEP_NS : Fld := ⟨0x28, 0, 32⟩
abbrev TB_TIME_SET.TICKS : Fld := ⟨0x30, 0, 64⟩
abbrev TB_LAST_STAMP.STAMP : Fld := ⟨0x38, 0, 64⟩
/-! 12_time_errors_and_test.md R416 -/
abbrev ERR_CAPS.BUCKETS : Fld := ⟨0x40000, 0, 6⟩
abbrev ERR_CAPS.AON_RECORDS : Fld := ⟨0x40000, 16, 9⟩
abbrev ERR_LOG_CTRL.SIZE_LOG2 : Fld := ⟨0x40004, 0, 5⟩
abbrev ERR_LOG_OLDEST.INDEX : Fld := ⟨0x40008, 0, 24⟩
abbrev ERR_LOG_NEXT.INDEX : Fld := ⟨0x4000C, 0, 24⟩
abbrev ERR_LOG_OVERWRITTEN.COUNT : Fld := ⟨0x40010, 0, 32⟩
abbrev ERR_SEQ.NEXT : Fld := ⟨0x40014, 0, 16⟩
abbrev ERR_LOG_WSTART.INDEX : Fld := ⟨0x40018, 0, 24⟩
abbrev ERR_TRACE_CTRL.ENABLE : Fld := ⟨0x4001C, 0, 1⟩
abbrev ERR_TRACE_CTRL.LDS : Fld := ⟨0x4001C, 16, 16⟩
abbrev ERR_TRACE_DROPPED.COUNT : Fld := ⟨0x40020, 0, 32⟩
abbrev ERR_NMI_STATUS.CLOCK : Fld := ⟨0x40024, 0, 1⟩
abbrev ERR_NMI_STATUS.FREEZE : Fld := ⟨0x40024, 1, 1⟩
abbrev ERR_NMI_STATUS.THERMAL : Fld := ⟨0x40024, 2, 1⟩
abbrev ERR_NMI_STATUS.HALF_MAST : Fld := ⟨0x40024, 3, 1⟩
abbrev ERR_NMI_STATUS.ALERT : Fld := ⟨0x40024, 4, 1⟩
abbrev ERR_ALERT_MASK.BUCKET : Fld := ⟨0x40028, 0, 1⟩
abbrev ERR_ALERT_MASK.LOST : Fld := ⟨0x40028, 1, 1⟩
abbrev ERR_ALERT_MASK.LINK : Fld := ⟨0x40028, 2, 1⟩
abbrev ERR_ALERT_CAUSE.LOST : Fld := ⟨0x4002C, 0, 1⟩
abbrev ERR_ALERT_CAUSE.LINK : Fld := ⟨0x4002C, 1, 1⟩
abbrev ERR_BUCKET_OVF.OVF : Fld := ⟨0x40030, 0, 55⟩
abbrev ERR_POISON_READS.COUNT : Fld := ⟨0x40038, 0, 32⟩
abbrev ERR_FLIP_CTRL.TARGET : Fld := ⟨0x40040, 0, 2⟩
abbrev ERR_FLIP_CTRL.INDEX : Fld := ⟨0x40040, 2, 5⟩
abbrev ERR_FLIP_CTRL.ADDR_MATCH : Fld := ⟨0x40040, 7, 1⟩
abbrev ERR_FLIP_CTRL.ARMED : Fld := ⟨0x40040, 8, 1⟩
abbrev ERR_FLIP_CTRL.DONE : Fld := ⟨0x40040, 9, 1⟩
abbrev ERR_FLIP_CTRL.ALLOWED : Fld := ⟨0x40040, 10, 1⟩
abbrev ERR_FLIP_ADDR.ADDR : Fld := ⟨0x40048, 0, 64⟩
abbrev ERR_FLIP_MASK.MASK (i : Nat) : Fld := ⟨0x40100 + 0x4 * i, 0, 32⟩
abbrev ERR_SPLIT_CTRL.CHANNEL : Fld := ⟨0x40050, 0, 4⟩
abbrev ERR_SPLIT_CTRL.ARMED : Fld := ⟨0x40050, 4, 1⟩
abbrev ERR_SPLIT_CTRL.DONE : Fld := ⟨0x40050, 5, 1⟩
abbrev ERR_SPLIT_ADDR.DDA : Fld := ⟨0x40058, 0, 64⟩
abbrev ERR_SPLIT_CHECK.CHECK : Fld := ⟨0x40060, 0, 32⟩
abbrev ERR_BUCKET_DEPTH.DEPTH (i : Nat) : Fld := ⟨0x40200 + 0x4 * i, 0, 16⟩
abbrev ERR_BUCKET_LEAK.MS (i : Nat) : Fld := ⟨0x40300 + 0x4 * i, 0, 22⟩
abbrev ERR_BUCKET_LEVEL.LEVEL (i : Nat) : Fld := ⟨0x40400 + 0x4 * i, 0, 16⟩
/-! 13_clocks_power_reset.md R445 -/
abbrev CLK_CAPS.XTAL_MHZ : Fld := ⟨0x10000, 0, 8⟩
abbrev CLK_CAPS.ITO_MHZ : Fld := ⟨0x10000, 8, 8⟩
abbrev CLK_CAPS.ROOT_MULT : Fld := ⟨0x10000, 16, 7⟩
abbrev CLK_STATUS.SOURCE : Fld := ⟨0x10004, 0, 1⟩
abbrev CLK_STATUS.XTAL_STABLE : Fld := ⟨0x10004, 1, 1⟩
abbrev CLK_STATUS.PLL_LOCK : Fld := ⟨0x10004, 2, 1⟩
abbrev CLK_STATUS.MON_FAIL : Fld := ⟨0x10004, 3, 1⟩
abbrev CLK_STATUS.MON_ACTIVE : Fld := ⟨0x10004, 4, 1⟩
abbrev CLK_STATUS.NO_XTAL : Fld := ⟨0x10004, 5, 1⟩
abbrev CLK_STATUS.CLKOUT_LIMIT : Fld := ⟨0x10004, 6, 1⟩
abbrev CLK_MON_COUNT.LAST : Fld := ⟨0x10008, 0, 15⟩
abbrev CLK_MON_COUNT.FAILED : Fld := ⟨0x10008, 16, 15⟩
abbrev CLK_XTAL_START.ITO_CYCLES : Fld := ⟨0x1000C, 0, 18⟩
abbrev CLK_SWITCH_STAMP.STAMP : Fld := ⟨0x10010, 0, 64⟩
abbrev CLK_OUT_CTRL.SOURCE : Fld := ⟨0x10020, 0, 4⟩
abbrev CLK_OUT_CTRL.DIV : Fld := ⟨0x10020, 4, 16⟩
/-! 13_clocks_power_reset.md R446 -/
abbrev PWR_STATE.STATE : Fld := ⟨0x10800, 0, 2⟩
abbrev PWR_STATE.HALF_MAST_CAUSE : Fld := ⟨0x10800, 4, 4⟩
abbrev PWR_STATE.FURL_PENDING : Fld := ⟨0x10800, 8, 1⟩
abbrev PWR_CTRL.DIP_EN : Fld := ⟨0x10804, 0, 1⟩
abbrev PWR_CTRL.FURL_REQ : Fld := ⟨0x10804, 1, 1⟩
abbrev PWR_CTRL.FURL_CANCEL : Fld := ⟨0x10804, 2, 1⟩
abbrev PWR_DIP_IDLE.US : Fld := ⟨0x10808, 0, 14⟩
abbrev PWR_FURL_IDLE.MS : Fld := ⟨0x1080C, 0, 16⟩
abbrev PWR_FURL_WAIT.MS : Fld := ⟨0x10810, 0, 10⟩
abbrev PWR_FURL_BLOCK.BUSY : Fld := ⟨0x10814, 0, 1⟩
abbrev PWR_FURL_BLOCK.FROZEN : Fld := ⟨0x10814, 1, 1⟩
abbrev PWR_FURL_BLOCK.LINK : Fld := ⟨0x10814, 2, 1⟩
abbrev PWR_FURL_BLOCK.WAKE : Fld := ⟨0x10814, 3, 1⟩
abbrev PWR_FURL_BLOCK.NOT_READY : Fld := ⟨0x10814, 4, 1⟩
abbrev PWR_GATED.ENGINE : Fld := ⟨0x10818, 0, 1⟩
abbrev PWR_GATED.LOAD_EXP : Fld := ⟨0x10818, 1, 1⟩
abbrev PWR_GATED.ENCODER : Fld := ⟨0x10818, 2, 1⟩
abbrev PWR_GATED.STAGE : Fld := ⟨0x10818, 3, 1⟩
abbrev PWR_GATED.DMC : Fld := ⟨0x10818, 4, 12⟩
abbrev PWR_GATED.FLASH : Fld := ⟨0x10818, 16, 8⟩
abbrev PWR_WAKE.SOURCE : Fld := ⟨0x1081C, 0, 3⟩
abbrev PWR_WAKE.DIE : Fld := ⟨0x1081C, 3, 3⟩
abbrev PWR_WAKE.COUNT : Fld := ⟨0x1081C, 16, 16⟩
abbrev PWR_RESET.KEY : Fld := ⟨0x10820, 0, 32⟩
abbrev PWR_HALT.KEY : Fld := ⟨0x10824, 0, 32⟩
abbrev PWR_START_STEP.STEP : Fld := ⟨0x10828, 0, 4⟩
abbrev PWR_START_STEP.DONE : Fld := ⟨0x10828, 4, 1⟩
abbrev PWR_START_LOG.US (i : Nat) : Fld := ⟨0x10840 + 0x4 * i, 0, 32⟩
/-! 14_configuration_image.md R474 -/
abbrev CFG_CAPS.FMT_MIN : Fld := ⟨0x20000, 0, 8⟩
abbrev CFG_CAPS.FMT_MAX : Fld := ⟨0x20000, 8, 8⟩
abbrev CFG_CAPS.NOR_MIB : Fld := ⟨0x20000, 16, 12⟩
abbrev CFG_STATUS.LOADED : Fld := ⟨0x20004, 0, 1⟩
abbrev CFG_STATUS.DONE : Fld := ⟨0x20004, 1, 1⟩
abbrev CFG_STATUS.FAILED_CHECK : Fld := ⟨0x20004, 2, 2⟩
abbrev CFG_STATUS.SLOT : Fld := ⟨0x20004, 4, 1⟩
abbrev CFG_STATUS.NOR_MODE : Fld := ⟨0x20004, 5, 2⟩
abbrev CFG_STATUS.WRITE_AUTH : Fld := ⟨0x20004, 7, 1⟩
abbrev CFG_STATUS.DEBUG : Fld := ⟨0x20004, 8, 1⟩
abbrev CFG_FORMAT.HEADER : Fld := ⟨0x20008, 0, 16⟩
abbrev CFG_FORMAT.SLOT : Fld := ⟨0x20008, 16, 16⟩
abbrev CFG_IMAGE_ID.ID : Fld := ⟨0x2000C, 0, 64⟩
abbrev CFG_PRESENCE.ACTIVE : Fld := ⟨0x20014, 0, 1⟩
abbrev CFG_PRESENCE.PIN_LOW : Fld := ⟨0x20014, 1, 1⟩
abbrev CFG_PRESENCE.KIND : Fld := ⟨0x20014, 2, 2⟩
abbrev CFG_PRESENCE.REMAIN_S : Fld := ⟨0x20014, 16, 9⟩
abbrev CFG_NVM_ADDR.ADDR : Fld := ⟨0x20018, 0, 26⟩
abbrev CFG_NVM_CMD.CMD : Fld := ⟨0x2001C, 0, 3⟩
abbrev CFG_NVM_STATUS.BUSY : Fld := ⟨0x20020, 0, 1⟩
abbrev CFG_NVM_STATUS.DONE : Fld := ⟨0x20020, 1, 1⟩
abbrev CFG_NVM_STATUS.REFUSED : Fld := ⟨0x20020, 2, 1⟩
abbrev CFG_NVM_STATUS.REASON : Fld := ⟨0x20020, 4, 3⟩
abbrev CFG_DEBUG.KEY : Fld := ⟨0x20024, 0, 32⟩
abbrev CFG_NVM_DATA.DATA (i : Nat) : Fld := ⟨0x20100 + 0x4 * i, 0, 32⟩
/-! 15_pool_and_firmware.md R504 -/
abbrev POOL_CAPS.MAX_PACKAGES : Fld := ⟨0xE00000, 0, 6⟩
abbrev POOL_STATUS.ROLE : Fld := ⟨0xE00004, 0, 2⟩
abbrev POOL_STATUS.PACKAGE : Fld := ⟨0xE00004, 2, 5⟩
abbrev POOL_STATUS.JOINED : Fld := ⟨0xE00004, 7, 1⟩
abbrev POOL_STATUS.ENSIGN_LOST : Fld := ⟨0xE00004, 8, 1⟩
abbrev POOL_STATUS.ID_CONFLICT : Fld := ⟨0xE00004, 9, 1⟩
abbrev POOL_STATUS.SKEW_ERR : Fld := ⟨0xE00004, 10, 1⟩
abbrev POOL_STATUS.SCHEDULE : Fld := ⟨0xE00004, 11, 1⟩
abbrev POOL_STATUS.SCHED_NEXT : Fld := ⟨0xE00004, 12, 5⟩
abbrev POOL_ANCHOR_PERIOD.US : Fld := ⟨0xE00008, 0, 17⟩
abbrev POOL_LOSS_TIMEOUT.MS : Fld := ⟨0xE0000C, 0, 16⟩
abbrev POOL_MEMBERS.MAP : Fld := ⟨0xE00010, 0, 32⟩
abbrev POOL_COMPAT.MAP : Fld := ⟨0xE00014, 0, 32⟩
abbrev POOL_DIR_USED.ENTRIES : Fld := ⟨0xE00018, 0, 21⟩
abbrev POOL_OFFSET.TICKS : Fld := ⟨0xE0001C, 0, 32⟩
abbrev POOL_ROLE_SET.ROLE : Fld := ⟨0xE00020, 0, 8⟩
abbrev POOL_ROLE_SET.KEY : Fld := ⟨0xE00020, 8, 24⟩
/-! 15_pool_and_firmware.md R505 -/
abbrev FW_STATUS.RUNNING_SLOT : Fld := ⟨0xE80000, 0, 1⟩
abbrev FW_STATUS.STATE : Fld := ⟨0xE80000, 1, 3⟩
abbrev FW_STATUS.BACKUP_VALID : Fld := ⟨0xE80000, 4, 1⟩
abbrev FW_STATUS.IDENTITY_FAIL : Fld := ⟨0xE80000, 5, 1⟩
abbrev FW_STATUS.COUNTER_FAIL : Fld := ⟨0xE80000, 6, 1⟩
abbrev FW_STATUS.LAST_ERROR : Fld := ⟨0xE80000, 7, 4⟩
abbrev FW_STATUS.CONFIRM_MODE : Fld := ⟨0xE80000, 11, 1⟩
abbrev FW_STATUS.CONFIRM_REQ : Fld := ⟨0xE80000, 12, 1⟩
abbrev FW_VERSION.VERSION : Fld := ⟨0xE80004, 0, 32⟩
abbrev FW_SEC_VERSION.SEC : Fld := ⟨0xE80008, 0, 13⟩
abbrev FW_COUNTER.VALUE : Fld := ⟨0xE8000C, 0, 13⟩
abbrev FW_PEER_MIN.VERSION : Fld := ⟨0xE80010, 0, 32⟩
abbrev FW_PEER_MAX.VERSION : Fld := ⟨0xE80014, 0, 32⟩
abbrev FW_NEW_VERSION.VERSION : Fld := ⟨0xE80018, 0, 32⟩
abbrev FW_ACT_STAMP.STAMP : Fld := ⟨0xE80020, 0, 64⟩
abbrev FW_CONFIRM_DEADLINE.STAMP : Fld := ⟨0xE80028, 0, 64⟩
abbrev FW_HEALTH_CONFIRM.KEY : Fld := ⟨0xE80030, 0, 32⟩
abbrev FW_COUNTS.INSTALLS : Fld := ⟨0xE80034, 0, 16⟩
abbrev FW_COUNTS.FALLBACKS : Fld := ⟨0xE80034, 16, 16⟩
/-! 16_package_and_electrical.md R529 -/
abbrev PWR_THERM_STATUS.LEVEL : Fld := ⟨0x10900, 0, 3⟩
abbrev PWR_THERM_STATUS.HOT : Fld := ⟨0x10900, 3, 1⟩
abbrev PWR_THERM_STATUS.TRIP : Fld := ⟨0x10900, 4, 1⟩
abbrev PWR_THERM_STATUS.TEMP_C : Fld := ⟨0x10900, 8, 8⟩
abbrev PWR_THERM_STATUS.PEAK_C : Fld := ⟨0x10900, 16, 8⟩
abbrev PWR_THERM_STATUS.HOT_SENSOR : Fld := ⟨0x10900, 24, 3⟩
abbrev PWR_THERM_LIMITS.THROTTLE_C : Fld := ⟨0x10904, 0, 8⟩
abbrev PWR_THERM_LIMITS.HOT_C : Fld := ⟨0x10904, 8, 8⟩
abbrev PWR_THERM_LIMITS.TRIP_C : Fld := ⟨0x10904, 16, 8⟩
abbrev PWR_THROTTLE_TIME.MS : Fld := ⟨0x10908, 0, 32⟩
abbrev PWR_THERM_SENSOR.TEMP_C (i : Nat) : Fld := ⟨0x10910 + 0x4 * i, 0, 8⟩

end Reg

/-- Register map, part 0: LSE_CAPS to TIER_CKPT_PERIOD. -/
def regTable0 : List RegDef := [
  ⟨0x808000, 0x0, 1, 0x0, 1, false, [⟨0, 21, .ro, 1048576⟩, ⟨21, 8, .ro, 128⟩]⟩,
  ⟨0x808004, 0x0, 1, 0x0, 1, false, [⟨0, 16, .ro, 0⟩]⟩,
  ⟨0x808008, 0x0, 1, 0x0, 1, false, [⟨0, 16, .ro, 0⟩]⟩,
  ⟨0x80800C, 0x0, 1, 0x0, 1, false, [⟨0, 21, .ro, 0⟩]⟩,
  ⟨0x808010, 0x0, 1, 0x0, 1, false, [⟨0, 24, .rw, 10000⟩]⟩,
  ⟨0x808014, 0x0, 1, 0x0, 1, false, [⟨0, 16, .rw, 10000⟩]⟩,
  ⟨0x808018, 0x0, 1, 0x0, 1, false, [⟨0, 25, .ro, 0⟩]⟩,
  ⟨0x808020, 0x0, 1, 0x0, 1, true, [⟨0, 64, .ro, 0⟩]⟩,
  ⟨0x808028, 0x0, 1, 0x0, 1, false, [⟨0, 16, .ro, 0⟩, ⟨16, 1, .w1c, 0⟩, ⟨17, 7, .ro, 0⟩, ⟨24, 1, .w1c, 0⟩]⟩,
  ⟨0x808030, 0x0, 1, 0x0, 1, true, [⟨0, 22, .ro, 0⟩, ⟨22, 20, .ro, 0⟩, ⟨42, 16, .ro, 0⟩, ⟨63, 1, .ro, 0⟩]⟩,
  ⟨0x808040, 0x0, 1, 0x0, 1, false, [⟨0, 32, .ro, 0⟩]⟩,
  ⟨0x808044, 0x0, 1, 0x0, 1, false, [⟨0, 20, .wo, 0⟩]⟩,
  ⟨0x808048, 0x0, 1, 0x0, 1, false, [⟨0, 4, .ro, 0⟩, ⟨4, 1, .ro, 0⟩, ⟨5, 1, .ro, 0⟩, ⟨6, 3, .ro, 0⟩, ⟨9, 8, .ro, 0⟩, ⟨17, 8, .ro, 0⟩]⟩,
  ⟨0x800000, 0x0, 1, 0x0, 1, false, [⟨0, 12, .ro, 2048⟩, ⟨16, 16, .ro, 64⟩]⟩,
  ⟨0x800004, 0x0, 1, 0x0, 1, false, [⟨0, 8, .rw, 1⟩, ⟨8, 8, .rw, 32⟩, ⟨16, 8, .rw, 8⟩, ⟨24, 8, .rw, 1⟩]⟩,
  ⟨0x800008, 0x0, 1, 0x0, 1, false, [⟨0, 7, .rw, 90⟩, ⟨8, 7, .rw, 85⟩]⟩,
  ⟨0x80000C, 0x0, 1, 0x0, 1, false, [⟨0, 17, .rw, 60⟩]⟩,
  ⟨0x800010, 0x0, 1, 0x0, 1, false, [⟨0, 1, .rw, 0⟩]⟩,
  ⟨0x800014, 0x0, 1, 0x0, 1, false, [⟨0, 9, .rw, 40⟩]⟩,
  ⟨0x800018, 0x0, 1, 0x0, 1, false, [⟨0, 16, .rw, 60⟩]⟩]

/-- Register map, part 1: TIER_PRELOAD_STATUS to XC_CTRL. -/
def regTable1 : List RegDef := [
  ⟨0x80001C, 0x0, 1, 0x0, 1, false, [⟨0, 1, .ro, 0⟩, ⟨1, 1, .ro, 0⟩, ⟨2, 1, .w1c, 0⟩, ⟨8, 16, .ro, 0⟩]⟩,
  ⟨0x800020, 0x0, 1, 0x0, 1, false, [⟨0, 24, .ro, 0⟩]⟩,
  ⟨0x800024, 0x0, 1, 0x0, 1, false, [⟨0, 24, .ro, 0⟩]⟩,
  ⟨0x800028, 0x0, 1, 0x0, 1, false, [⟨0, 7, .rw, 12⟩]⟩,
  ⟨0x80002C, 0x0, 1, 0x0, 1, false, [⟨0, 24, .ro, 0⟩]⟩,
  ⟨0x800030, 0x0, 1, 0x0, 1, false, [⟨0, 24, .ro, 0⟩]⟩,
  ⟨0x800034, 0x0, 1, 0x0, 1, false, [⟨0, 24, .ro, 0⟩]⟩,
  ⟨0x800038, 0x0, 1, 0x0, 1, false, [⟨0, 20, .ro, 0⟩]⟩,
  ⟨0x80003C, 0x0, 1, 0x0, 1, false, [⟨0, 20, .ro, 0⟩]⟩,
  ⟨0x800040, 0x0, 1, 0x0, 1, true, [⟨0, 64, .ro, 0⟩]⟩,
  ⟨0x800048, 0x0, 1, 0x0, 1, true, [⟨0, 64, .ro, 0⟩]⟩,
  ⟨0x800050, 0x0, 1, 0x0, 1, true, [⟨0, 64, .ro, 0⟩]⟩,
  ⟨0x800058, 0x0, 1, 0x0, 1, false, [⟨0, 32, .ro, 0⟩]⟩,
  ⟨0x80005C, 0x0, 1, 0x0, 1, false, [⟨0, 17, .ro, 0⟩]⟩,
  ⟨0x800060, 0x0, 1, 0x0, 1, true, [⟨0, 64, .ro, 0⟩]⟩,
  ⟨0x800070, 0x0, 1, 0x0, 1, false, [⟨0, 20, .wo, 0⟩, ⟨20, 12, .wo, 0⟩]⟩,
  ⟨0x800074, 0x0, 1, 0x0, 1, false, [⟨0, 8, .ro, 0⟩, ⟨8, 1, .ro, 0⟩]⟩,
  ⟨0x800080, 0x4, 6, 0x0, 1, false, [⟨0, 32, .ro, 0⟩]⟩,
  ⟨0x300000, 0x0, 1, 0x0, 1, false, [⟨0, 5, .ro, 31⟩, ⟨8, 7, .ro, 64⟩, ⟨16, 10, .ro, 512⟩]⟩,
  ⟨0x300004, 0x0, 1, 0x0, 1, false, [⟨0, 4, .rw, 12⟩]⟩]

/-- Register map, part 2: XC_SLOT_USED to RING_INFLIGHT. -/
def regTable2 : List RegDef := [
  ⟨0x300008, 0x0, 1, 0x0, 1, false, [⟨0, 10, .ro, 0⟩, ⟨16, 7, .ro, 0⟩]⟩,
  ⟨0x30000C, 0x0, 1, 0x0, 1, false, [⟨0, 32, .ro, 0⟩]⟩,
  ⟨0x300010, 0x0, 1, 0x0, 1, true, [⟨0, 64, .ro, 0⟩]⟩,
  ⟨0x300018, 0x0, 1, 0x0, 1, true, [⟨0, 64, .ro, 0⟩]⟩,
  ⟨0x300020, 0x0, 1, 0x0, 1, true, [⟨0, 64, .ro, 0⟩]⟩,
  ⟨0x300028, 0x0, 1, 0x0, 1, true, [⟨0, 64, .ro, 0⟩]⟩,
  ⟨0x300030, 0x0, 1, 0x0, 1, false, [⟨0, 32, .ro, 0⟩]⟩,
  ⟨0x300034, 0x0, 1, 0x0, 1, false, [⟨0, 4, .ro, 0⟩, ⟨4, 2, .ro, 0⟩, ⟨6, 1, .ro, 0⟩, ⟨7, 4, .ro, 0⟩, ⟨11, 12, .ro, 0⟩, ⟨31, 1, .w1c, 0⟩]⟩,
  ⟨0x300038, 0x0, 1, 0x0, 1, false, [⟨0, 20, .ro, 0⟩]⟩,
  ⟨0x300040, 0x0, 1, 0x0, 1, false, [⟨0, 20, .wo, 0⟩, ⟨20, 4, .wo, 0⟩]⟩,
  ⟨0x300044, 0x0, 1, 0x0, 1, false, [⟨0, 1, .ro, 0⟩, ⟨1, 1, .w1c, 0⟩, ⟨2, 1, .w1c, 0⟩, ⟨8, 20, .ro, 0⟩]⟩,
  ⟨0x410000, 0x40, 16384, 0x0, 1, false, [⟨0, 1, .rw, 0⟩, ⟨4, 5, .rw, 6⟩, ⟨12, 5, .rw, 6⟩]⟩,
  ⟨0x410004, 0x40, 16384, 0x0, 1, false, [⟨0, 1, .ro, 0⟩, ⟨1, 1, .ro, 0⟩, ⟨2, 1, .ro, 0⟩, ⟨3, 1, .w1c, 0⟩, ⟨4, 1, .w1c, 0⟩, ⟨5, 1, .w1c, 0⟩, ⟨6, 1, .ro, 1⟩]⟩,
  ⟨0x410008, 0x40, 16384, 0x0, 1, true, [⟨0, 64, .rw, 0⟩]⟩,
  ⟨0x410010, 0x40, 16384, 0x0, 1, true, [⟨0, 64, .rw, 0⟩]⟩,
  ⟨0x410018, 0x40, 16384, 0x0, 1, false, [⟨0, 16, .wo, 0⟩]⟩,
  ⟨0x41001C, 0x40, 16384, 0x0, 1, false, [⟨0, 16, .ro, 0⟩]⟩,
  ⟨0x410020, 0x40, 16384, 0x0, 1, false, [⟨0, 16, .ro, 0⟩]⟩,
  ⟨0x410024, 0x40, 16384, 0x0, 1, false, [⟨0, 16, .rw, 0⟩]⟩,
  ⟨0x410028, 0x40, 16384, 0x0, 1, false, [⟨0, 17, .ro, 0⟩]⟩]

/-- Register map, part 3: RING_LAST_ACCEPT to OPS_CLASS_ATT. -/
def regTable3 : List RegDef := [
  ⟨0x410030, 0x40, 16384, 0x0, 1, true, [⟨0, 64, .ro, 0⟩]⟩,
  ⟨0x41002C, 0x40, 16384, 0x0, 1, false, [⟨0, 14, .ro, 0⟩, ⟨14, 7, .ro, 0⟩, ⟨21, 6, .ro, 0⟩, ⟨27, 3, .ro, 0⟩, ⟨30, 1, .ro, 0⟩]⟩,
  ⟨0x408000, 0x0, 1, 0x0, 1, false, [⟨0, 1, .ro, 0⟩, ⟨1, 1, .ro, 0⟩]⟩,
  ⟨0x408004, 0x0, 1, 0x0, 1, false, [⟨0, 14, .ro, 0⟩, ⟨16, 13, .ro, 0⟩]⟩,
  ⟨0x408008, 0x0, 1, 0x0, 1, true, [⟨0, 64, .ro, 0⟩]⟩,
  ⟨0x408010, 0x0, 1, 0x0, 1, false, [⟨0, 32, .ro, 0⟩]⟩,
  ⟨0x408014, 0x0, 1, 0x0, 1, false, [⟨0, 32, .ro, 0⟩]⟩,
  ⟨0x408018, 0x0, 1, 0x0, 1, false, [⟨0, 32, .ro, 0⟩]⟩,
  ⟨0x408100, 0x4, 64, 0x0, 1, false, [⟨0, 9, .ro, 0⟩, ⟨31, 1, .ro, 0⟩]⟩,
  ⟨0x409000, 0x0, 1, 0x0, 1, false, [⟨0, 11, .rw, 200⟩]⟩,
  ⟨0x409004, 0x0, 1, 0x0, 1, false, [⟨0, 16, .rw, 20⟩]⟩,
  ⟨0x409008, 0x0, 1, 0x0, 1, false, [⟨0, 13, .ro, 0⟩, ⟨16, 13, .ro, 0⟩, ⟨31, 1, .wo, 0⟩]⟩,
  ⟨0x40900C, 0x0, 1, 0x0, 1, false, [⟨0, 16, .ro, 0⟩, ⟨16, 16, .ro, 0⟩]⟩,
  ⟨0x409010, 0x0, 1, 0x0, 1, true, [⟨0, 64, .ro, 0⟩]⟩,
  ⟨0x409018, 0x0, 1, 0x0, 1, true, [⟨0, 64, .ro, 0⟩]⟩,
  ⟨0x409020, 0x0, 1, 0x0, 1, false, [⟨0, 32, .ro, 0⟩]⟩,
  ⟨0x409028, 0x0, 1, 0x0, 1, true, [⟨0, 64, .ro, 0⟩]⟩,
  ⟨0x409030, 0x0, 1, 0x0, 1, false, [⟨0, 32, .ro, 0⟩]⟩,
  ⟨0x409034, 0x0, 1, 0x0, 1, false, [⟨0, 32, .ro, 0⟩]⟩,
  ⟨0x409100, 0x4, 64, 0x0, 1, false, [⟨0, 1, .ro, 0⟩, ⟨1, 2, .ro, 0⟩]⟩]

/-- Register map, part 4: OPS_LIN_JOBS to PORT_LD_STATUS. -/
def regTable4 : List RegDef := [
  ⟨0x40A000, 0x0, 1, 0x0, 1, true, [⟨0, 64, .ro, 0⟩]⟩,
  ⟨0x40A008, 0x0, 1, 0x0, 1, true, [⟨0, 64, .ro, 0⟩]⟩,
  ⟨0x40A010, 0x0, 1, 0x0, 1, false, [⟨0, 32, .ro, 0⟩]⟩,
  ⟨0x40A018, 0x0, 1, 0x0, 1, true, [⟨0, 64, .ro, 0⟩]⟩,
  ⟨0x40A020, 0x0, 1, 0x0, 1, false, [⟨0, 5, .ro, 0⟩, ⟨16, 16, .ro, 0⟩]⟩,
  ⟨0x40A024, 0x0, 1, 0x0, 1, false, [⟨0, 32, .ro, 0⟩]⟩,
  ⟨0x40A028, 0x0, 1, 0x0, 1, false, [⟨0, 32, .ro, 0⟩]⟩,
  ⟨0xC00000, 0x0, 1, 0x0, 1, false, [⟨0, 5, .ro, 16⟩, ⟨8, 8, .ro, 128⟩, ⟨16, 5, .ro, 16⟩, ⟨21, 1, .ro, 1⟩, ⟨22, 1, .ro, 1⟩]⟩,
  ⟨0xC00004, 0x0, 1, 0x0, 1, false, [⟨0, 1, .rwl, 0⟩, ⟨1, 1, .rwl, 0⟩, ⟨2, 1, .rwl, 0⟩, ⟨3, 1, .rwl, 0⟩]⟩,
  ⟨0xC00008, 0x0, 1, 0x0, 1, false, [⟨0, 1, .ro, 0⟩, ⟨1, 1, .ro, 0⟩, ⟨2, 1, .ro, 0⟩, ⟨3, 1, .w1c, 0⟩, ⟨8, 8, .ro, 0⟩, ⟨16, 5, .ro, 0⟩, ⟨24, 5, .ro, 0⟩]⟩,
  ⟨0xC0000C, 0x0, 1, 0x0, 1, false, [⟨0, 32, .ro, 0⟩]⟩,
  ⟨0xC00010, 0x0, 1, 0x0, 1, false, [⟨0, 16, .rw, 50⟩]⟩,
  ⟨0xC00014, 0x0, 1, 0x0, 1, false, [⟨0, 10, .rw, 10⟩]⟩,
  ⟨0xC00018, 0x0, 1, 0x0, 1, false, [⟨0, 7, .ro, 0⟩, ⟨7, 1, .ro, 0⟩]⟩,
  ⟨0xC00020, 0x0, 1, 0x0, 1, true, [⟨0, 64, .ro, 0⟩]⟩,
  ⟨0xC00028, 0x0, 1, 0x0, 1, true, [⟨0, 64, .ro, 0⟩]⟩,
  ⟨0xC00030, 0x0, 1, 0x0, 1, false, [⟨0, 32, .ro, 0⟩]⟩,
  ⟨0xC00034, 0x0, 1, 0x0, 1, false, [⟨0, 32, .ro, 0⟩]⟩,
  ⟨0xC00038, 0x0, 1, 0x0, 1, false, [⟨0, 16, .ro, 0⟩, ⟨16, 16, .ro, 0⟩]⟩,
  ⟨0xC00100, 0x4, 16, 0x0, 1, false, [⟨0, 1, .ro, 0⟩, ⟨1, 1, .ro, 0⟩, ⟨2, 1, .ro, 0⟩, ⟨3, 1, .ro, 0⟩, ⟨4, 1, .ro, 0⟩, ⟨5, 1, .ro, 0⟩, ⟨6, 1, .ro, 0⟩, ⟨8, 7, .ro, 0⟩]⟩]

/-- Register map, part 5: DMC_CAPS to DMC_PORT_RATE. -/
def regTable5 : List RegDef := [
  ⟨0x10C000, 0x0, 1, 0x0, 1, false, [⟨0, 4, .ro, 12⟩, ⟨4, 4, .ro, 3⟩, ⟨8, 4, .ro, 15⟩, ⟨16, 7, .ro, 64⟩]⟩,
  ⟨0x10C004, 0x0, 1, 0x0, 1, false, [⟨0, 2, .rwl, 0⟩, ⟨2, 1, .rwl, 0⟩, ⟨3, 1, .rwl, 0⟩, ⟨4, 2, .rwl, 0⟩, ⟨8, 3, .rwl, 0⟩]⟩,
  ⟨0x10C008, 0x0, 1, 0x0, 1, false, [⟨0, 14, .rw, 20⟩]⟩,
  ⟨0x10C00C, 0x0, 1, 0x0, 1, false, [⟨0, 16, .rw, 2000⟩]⟩,
  ⟨0x10C010, 0x0, 1, 0x0, 1, false, [⟨0, 10, .rw, 1⟩]⟩,
  ⟨0x10C014, 0x0, 1, 0x0, 1, false, [⟨0, 12, .ro, 0⟩, ⟨12, 12, .w1c, 0⟩, ⟨24, 2, .ro, 0⟩, ⟨31, 1, .ro, 0⟩]⟩,
  ⟨0x10C018, 0x0, 1, 0x0, 1, false, [⟨0, 3, .ro, 0⟩, ⟨4, 3, .ro, 0⟩, ⟨8, 3, .ro, 0⟩]⟩,
  ⟨0x10C01C, 0x0, 1, 0x0, 1, false, [⟨0, 16, .rwl, 2000⟩]⟩,
  ⟨0x10C040, 0x8, 6, 0x0, 1, true, [⟨0, 48, .rwl, 0⟩]⟩,
  ⟨0x100000, 0x1000, 12, 0x0, 1, false, [⟨0, 3, .ro, 0⟩, ⟨3, 1, .ro, 0⟩, ⟨4, 7, .ro, 0⟩]⟩,
  ⟨0x100004, 0x1000, 12, 0x0, 1, false, [⟨0, 1, .wo, 0⟩]⟩,
  ⟨0x100008, 0x1000, 12, 0x0, 1, false, [⟨0, 32, .ro, 0⟩]⟩,
  ⟨0x10000C, 0x1000, 12, 0x0, 1, false, [⟨0, 32, .ro, 0⟩]⟩,
  ⟨0x100010, 0x1000, 12, 0x0, 1, true, [⟨0, 4, .ro, 0⟩, ⟨4, 16, .ro, 0⟩, ⟨20, 5, .ro, 0⟩, ⟨25, 5, .ro, 0⟩, ⟨30, 2, .ro, 0⟩]⟩,
  ⟨0x100018, 0x1000, 12, 0x0, 1, true, [⟨0, 64, .ro, 0⟩]⟩,
  ⟨0x100020, 0x1000, 12, 0x0, 1, false, [⟨0, 7, .ro, 0⟩, ⟨8, 7, .ro, 0⟩, ⟨16, 7, .ro, 0⟩, ⟨24, 7, .ro, 0⟩]⟩,
  ⟨0x100024, 0x1000, 12, 0x0, 1, false, [⟨0, 32, .ro, 0⟩]⟩,
  ⟨0x100028, 0x1000, 12, 0x0, 1, false, [⟨0, 32, .ro, 0⟩]⟩,
  ⟨0x10002C, 0x1000, 12, 0x0, 1, false, [⟨0, 15, .ro, 0⟩, ⟨15, 1, .w1c, 0⟩]⟩,
  ⟨0x100040, 0x1000, 12, 0x8, 5, false, [⟨0, 16, .ro, 0⟩]⟩]

/-- Register map, part 6: DMC_PORT_TARGET to FLC_SETTLE_BYTES. -/
def regTable6 : List RegDef := [
  ⟨0x100044, 0x1000, 12, 0x8, 5, false, [⟨0, 16, .rw, 0⟩]⟩,
  ⟨0x100400, 0x1000, 12, 0x4, 256, false, [⟨0, 32, .ro, 0⟩]⟩,
  ⟨0x200000, 0x0, 1, 0x0, 1, false, [⟨0, 4, .ro, 8⟩, ⟨4, 4, .ro, 8⟩, ⟨8, 4, .ro, 15⟩]⟩,
  ⟨0x200004, 0x0, 1, 0x0, 1, false, [⟨0, 6, .ro, 0⟩, ⟨6, 1, .ro, 0⟩, ⟨8, 13, .ro, 0⟩, ⟨21, 11, .ro, 0⟩]⟩,
  ⟨0x200008, 0x0, 1, 0x0, 1, false, [⟨0, 2, .rwl, 0⟩, ⟨2, 1, .rwl, 0⟩, ⟨3, 1, .rwl, 0⟩, ⟨4, 6, .rwl, 0⟩, ⟨10, 4, .rwl, 0⟩]⟩,
  ⟨0x20000C, 0x0, 1, 0x0, 1, false, [⟨0, 1, .ro, 0⟩, ⟨1, 1, .ro, 0⟩, ⟨2, 1, .ro, 0⟩, ⟨3, 1, .ro, 0⟩, ⟨4, 1, .ro, 0⟩, ⟨5, 1, .ro, 0⟩, ⟨6, 1, .ro, 0⟩, ⟨7, 1, .ro, 0⟩, ⟨8, 8, .ro, 0⟩]⟩,
  ⟨0x200010, 0x0, 1, 0x0, 1, false, [⟨0, 16, .ro, 0⟩, ⟨16, 16, .ro, 0⟩]⟩,
  ⟨0x200014, 0x0, 1, 0x0, 1, false, [⟨0, 16, .rw, 24⟩, ⟨16, 16, .rw, 6⟩]⟩,
  ⟨0x200018, 0x0, 1, 0x0, 1, false, [⟨0, 16, .rw, 1000⟩]⟩,
  ⟨0x20001C, 0x0, 1, 0x0, 1, false, [⟨0, 20, .rw, 100000⟩]⟩,
  ⟨0x200020, 0x0, 1, 0x0, 1, false, [⟨0, 10, .rw, 24⟩]⟩,
  ⟨0x200024, 0x0, 1, 0x0, 1, false, [⟨0, 7, .rw, 50⟩, ⟨8, 10, .rw, 90⟩]⟩,
  ⟨0x200028, 0x0, 1, 0x0, 1, false, [⟨0, 16, .ro, 0⟩, ⟨16, 1, .ro, 0⟩]⟩,
  ⟨0x20002C, 0x0, 1, 0x0, 1, false, [⟨0, 32, .ro, 0⟩]⟩,
  ⟨0x200030, 0x0, 1, 0x0, 1, false, [⟨0, 16, .rwl, 365⟩]⟩,
  ⟨0x200034, 0x0, 1, 0x0, 1, false, [⟨0, 16, .rw, 200⟩, ⟨16, 16, .rwl, 0⟩]⟩,
  ⟨0x200038, 0x0, 1, 0x0, 1, false, [⟨0, 16, .ro, 0⟩, ⟨16, 16, .ro, 0⟩]⟩,
  ⟨0x20003C, 0x0, 1, 0x0, 1, false, [⟨0, 16, .ro, 0⟩, ⟨16, 16, .ro, 0⟩]⟩,
  ⟨0x200040, 0x0, 1, 0x0, 1, true, [⟨0, 64, .ro, 0⟩]⟩,
  ⟨0x200048, 0x0, 1, 0x0, 1, true, [⟨0, 64, .ro, 0⟩]⟩]

/-- Register map, part 7: FLC_TBW_BUDGET to QOS_GUAR. -/
def regTable7 : List RegDef := [
  ⟨0x200050, 0x0, 1, 0x0, 1, false, [⟨0, 32, .rwl, 0⟩]⟩,
  ⟨0x200054, 0x0, 1, 0x0, 1, false, [⟨0, 10, .ro, 0⟩, ⟨16, 16, .ro, 65535⟩]⟩,
  ⟨0x200058, 0x0, 1, 0x0, 1, false, [⟨0, 16, .ro, 0⟩, ⟨16, 16, .ro, 0⟩]⟩,
  ⟨0x200100, 0x8, 32, 0x0, 1, true, [⟨0, 8, .rwl, 0⟩, ⟨8, 32, .rwl, 0⟩, ⟨40, 1, .rwl, 0⟩, ⟨41, 1, .rwl, 0⟩, ⟨63, 1, .rwl, 0⟩]⟩,
  ⟨0x208000, 0x100, 8, 0x0, 1, false, [⟨0, 3, .ro, 0⟩, ⟨3, 4, .ro, 0⟩]⟩,
  ⟨0x208004, 0x100, 8, 0x0, 1, false, [⟨0, 32, .ro, 0⟩]⟩,
  ⟨0x208008, 0x100, 8, 0x0, 1, false, [⟨0, 32, .ro, 0⟩]⟩,
  ⟨0x20800C, 0x100, 8, 0x0, 1, false, [⟨0, 32, .ro, 0⟩]⟩,
  ⟨0x208010, 0x100, 8, 0x0, 1, false, [⟨0, 16, .ro, 0⟩, ⟨16, 16, .ro, 0⟩]⟩,
  ⟨0x80000, 0x0, 1, 0x0, 1, false, [⟨0, 8, .ro, 194⟩, ⟨8, 7, .ro, 64⟩]⟩,
  ⟨0x80004, 0x0, 1, 0x0, 1, false, [⟨0, 1, .ro, 0⟩, ⟨1, 2, .ro, 0⟩, ⟨3, 1, .ro, 0⟩, ⟨4, 3, .ro, 0⟩, ⟨7, 1, .w1c, 0⟩, ⟨8, 4, .ro, 0⟩]⟩,
  ⟨0x80008, 0x0, 1, 0x0, 1, false, [⟨0, 19, .ro, 0⟩]⟩,
  ⟨0x8000C, 0x0, 1, 0x0, 1, false, [⟨0, 27, .ro, 0⟩]⟩,
  ⟨0x80010, 0x0, 1, 0x0, 1, false, [⟨0, 17, .ro, 65536⟩]⟩,
  ⟨0x80014, 0x0, 1, 0x0, 1, false, [⟨0, 8, .rw, 96⟩, ⟨8, 8, .rw, 64⟩]⟩,
  ⟨0x80018, 0x0, 1, 0x0, 1, false, [⟨0, 19, .rw, 12000⟩]⟩,
  ⟨0x8001C, 0x0, 1, 0x0, 1, false, [⟨0, 16, .rw, 0⟩]⟩,
  ⟨0x80020, 0x0, 1, 0x0, 1, false, [⟨0, 16, .rw, 1500⟩]⟩,
  ⟨0x80024, 0x0, 1, 0x0, 1, false, [⟨0, 26, .ro, 0⟩]⟩,
  ⟨0x81000, 0x4, 194, 0x0, 1, false, [⟨0, 19, .rw, 0⟩]⟩]

/-- Register map, part 8: QOS_BORROW to ERR_LOG_OVERWRITTEN. -/
def regTable8 : List RegDef := [
  ⟨0x82000, 0x4, 194, 0x0, 1, false, [⟨0, 19, .rw, 0⟩]⟩,
  ⟨0x83000, 0x4, 194, 0x0, 1, false, [⟨0, 7, .rw, 0⟩]⟩,
  ⟨0x84000, 0x4, 194, 0x0, 1, false, [⟨0, 19, .ro, 0⟩]⟩,
  ⟨0x85000, 0x8, 194, 0x0, 1, true, [⟨0, 64, .ro, 0⟩]⟩,
  ⟨0x86000, 0x4, 194, 0x0, 1, false, [⟨0, 4, .ro, 10⟩, ⟨4, 1, .ro, 0⟩, ⟨5, 1, .ro, 0⟩, ⟨6, 1, .ro, 0⟩, ⟨8, 2, .ro, 0⟩]⟩,
  ⟨0x0, 0x0, 1, 0x0, 1, false, [⟨0, 11, .ro, 1088⟩]⟩,
  ⟨0x4, 0x0, 1, 0x0, 1, false, [⟨0, 1, .ro, 0⟩, ⟨1, 1, .ro, 1⟩, ⟨2, 1, .ro, 0⟩, ⟨3, 1, .w1c, 0⟩]⟩,
  ⟨0x8, 0x0, 1, 0x0, 1, true, [⟨0, 64, .ro, 0⟩]⟩,
  ⟨0x10, 0x0, 1, 0x0, 1, true, [⟨0, 64, .ro, 0⟩]⟩,
  ⟨0x18, 0x0, 1, 0x0, 1, true, [⟨0, 64, .ro, 0⟩]⟩,
  ⟨0x20, 0x0, 1, 0x0, 1, false, [⟨0, 14, .rw, 1000⟩]⟩,
  ⟨0x24, 0x0, 1, 0x0, 1, false, [⟨0, 16, .ro, 0⟩, ⟨16, 16, .ro, 0⟩]⟩,
  ⟨0x28, 0x0, 1, 0x0, 1, false, [⟨0, 32, .ro, 0⟩]⟩,
  ⟨0x30, 0x0, 1, 0x0, 1, true, [⟨0, 64, .wo, 0⟩]⟩,
  ⟨0x38, 0x0, 1, 0x0, 1, true, [⟨0, 64, .ro, 0⟩]⟩,
  ⟨0x40000, 0x0, 1, 0x0, 1, false, [⟨0, 6, .ro, 55⟩, ⟨16, 9, .ro, 256⟩]⟩,
  ⟨0x40004, 0x0, 1, 0x0, 1, false, [⟨0, 5, .rwl, 0⟩]⟩,
  ⟨0x40008, 0x0, 1, 0x0, 1, false, [⟨0, 24, .ro, 0⟩]⟩,
  ⟨0x4000C, 0x0, 1, 0x0, 1, false, [⟨0, 24, .ro, 0⟩]⟩,
  ⟨0x40010, 0x0, 1, 0x0, 1, false, [⟨0, 32, .ro, 0⟩]⟩]

/-- Register map, part 9: ERR_SEQ to CLK_STATUS. -/
def regTable9 : List RegDef := [
  ⟨0x40014, 0x0, 1, 0x0, 1, false, [⟨0, 16, .ro, 0⟩]⟩,
  ⟨0x40018, 0x0, 1, 0x0, 1, false, [⟨0, 24, .rw, 0⟩]⟩,
  ⟨0x4001C, 0x0, 1, 0x0, 1, false, [⟨0, 1, .rw, 0⟩, ⟨16, 16, .rw, 0⟩]⟩,
  ⟨0x40020, 0x0, 1, 0x0, 1, false, [⟨0, 32, .ro, 0⟩]⟩,
  ⟨0x40024, 0x0, 1, 0x0, 1, false, [⟨0, 1, .w1c, 0⟩, ⟨1, 1, .w1c, 0⟩, ⟨2, 1, .w1c, 0⟩, ⟨3, 1, .w1c, 0⟩, ⟨4, 1, .ro, 0⟩]⟩,
  ⟨0x40028, 0x0, 1, 0x0, 1, false, [⟨0, 1, .rw, 0⟩, ⟨1, 1, .rw, 1⟩, ⟨2, 1, .rw, 0⟩]⟩,
  ⟨0x4002C, 0x0, 1, 0x0, 1, false, [⟨0, 1, .w1c, 0⟩, ⟨1, 1, .w1c, 0⟩]⟩,
  ⟨0x40030, 0x0, 1, 0x0, 1, true, [⟨0, 55, .w1c, 0⟩]⟩,
  ⟨0x40038, 0x0, 1, 0x0, 1, false, [⟨0, 32, .ro, 0⟩]⟩,
  ⟨0x40040, 0x0, 1, 0x0, 1, false, [⟨0, 2, .rw, 0⟩, ⟨2, 5, .rw, 0⟩, ⟨7, 1, .rw, 0⟩, ⟨8, 1, .rw, 0⟩, ⟨9, 1, .w1c, 0⟩, ⟨10, 1, .ro, 0⟩]⟩,
  ⟨0x40048, 0x0, 1, 0x0, 1, true, [⟨0, 64, .rw, 0⟩]⟩,
  ⟨0x40100, 0x4, 17, 0x0, 1, false, [⟨0, 32, .rw, 0⟩]⟩,
  ⟨0x40050, 0x0, 1, 0x0, 1, false, [⟨0, 4, .rw, 0⟩, ⟨4, 1, .rw, 0⟩, ⟨5, 1, .w1c, 0⟩]⟩,
  ⟨0x40058, 0x0, 1, 0x0, 1, true, [⟨0, 64, .rw, 0⟩]⟩,
  ⟨0x40060, 0x0, 1, 0x0, 1, false, [⟨0, 32, .rw, 0⟩]⟩,
  ⟨0x40200, 0x4, 55, 0x0, 1, false, [⟨0, 16, .rw, 0⟩]⟩,
  ⟨0x40300, 0x4, 55, 0x0, 1, false, [⟨0, 22, .rw, 0⟩]⟩,
  ⟨0x40400, 0x4, 55, 0x0, 1, false, [⟨0, 16, .ro, 0⟩]⟩,
  ⟨0x10000, 0x0, 1, 0x0, 1, false, [⟨0, 8, .ro, 100⟩, ⟨8, 8, .ro, 25⟩, ⟨16, 7, .ro, 68⟩]⟩,
  ⟨0x10004, 0x0, 1, 0x0, 1, false, [⟨0, 1, .ro, 0⟩, ⟨1, 1, .ro, 0⟩, ⟨2, 1, .ro, 0⟩, ⟨3, 1, .ro, 0⟩, ⟨4, 1, .ro, 0⟩, ⟨5, 1, .ro, 0⟩, ⟨6, 1, .w1c, 0⟩]⟩]

/-- Register map, part 10: CLK_MON_COUNT to CFG_IMAGE_ID. -/
def regTable10 : List RegDef := [
  ⟨0x10008, 0x0, 1, 0x0, 1, false, [⟨0, 15, .ro, 0⟩, ⟨16, 15, .ro, 0⟩]⟩,
  ⟨0x1000C, 0x0, 1, 0x0, 1, false, [⟨0, 18, .ro, 0⟩]⟩,
  ⟨0x10010, 0x0, 1, 0x0, 1, true, [⟨0, 64, .ro, 0⟩]⟩,
  ⟨0x10020, 0x0, 1, 0x0, 1, false, [⟨0, 4, .rw, 0⟩, ⟨4, 16, .rw, 0⟩]⟩,
  ⟨0x10800, 0x0, 1, 0x0, 1, false, [⟨0, 2, .ro, 0⟩, ⟨4, 4, .ro, 0⟩, ⟨8, 1, .ro, 0⟩]⟩,
  ⟨0x10804, 0x0, 1, 0x0, 1, false, [⟨0, 1, .rw, 0⟩, ⟨1, 1, .wo, 0⟩, ⟨2, 1, .wo, 0⟩]⟩,
  ⟨0x10808, 0x0, 1, 0x0, 1, false, [⟨0, 14, .rw, 10⟩]⟩,
  ⟨0x1080C, 0x0, 1, 0x0, 1, false, [⟨0, 16, .rw, 0⟩]⟩,
  ⟨0x10810, 0x0, 1, 0x0, 1, false, [⟨0, 10, .rw, 10⟩]⟩,
  ⟨0x10814, 0x0, 1, 0x0, 1, false, [⟨0, 1, .w1c, 0⟩, ⟨1, 1, .w1c, 0⟩, ⟨2, 1, .w1c, 0⟩, ⟨3, 1, .w1c, 0⟩, ⟨4, 1, .w1c, 0⟩]⟩,
  ⟨0x10818, 0x0, 1, 0x0, 1, false, [⟨0, 1, .ro, 0⟩, ⟨1, 1, .ro, 0⟩, ⟨2, 1, .ro, 0⟩, ⟨3, 1, .ro, 0⟩, ⟨4, 12, .ro, 0⟩, ⟨16, 8, .ro, 0⟩]⟩,
  ⟨0x1081C, 0x0, 1, 0x0, 1, false, [⟨0, 3, .ro, 0⟩, ⟨3, 3, .ro, 0⟩, ⟨16, 16, .ro, 0⟩]⟩,
  ⟨0x10820, 0x0, 1, 0x0, 1, false, [⟨0, 32, .wo, 0⟩]⟩,
  ⟨0x10824, 0x0, 1, 0x0, 1, false, [⟨0, 32, .wo, 0⟩]⟩,
  ⟨0x10828, 0x0, 1, 0x0, 1, false, [⟨0, 4, .ro, 0⟩, ⟨4, 1, .ro, 0⟩]⟩,
  ⟨0x10840, 0x4, 11, 0x0, 1, false, [⟨0, 32, .ro, 0⟩]⟩,
  ⟨0x20000, 0x0, 1, 0x0, 1, false, [⟨0, 8, .ro, 0⟩, ⟨8, 8, .ro, 0⟩, ⟨16, 12, .ro, 0⟩]⟩,
  ⟨0x20004, 0x0, 1, 0x0, 1, false, [⟨0, 1, .ro, 0⟩, ⟨1, 1, .ro, 0⟩, ⟨2, 2, .ro, 0⟩, ⟨4, 1, .ro, 0⟩, ⟨5, 2, .ro, 0⟩, ⟨7, 1, .ro, 0⟩, ⟨8, 1, .ro, 0⟩]⟩,
  ⟨0x20008, 0x0, 1, 0x0, 1, false, [⟨0, 16, .ro, 0⟩, ⟨16, 16, .ro, 0⟩]⟩,
  ⟨0x2000C, 0x0, 1, 0x0, 1, true, [⟨0, 64, .ro, 0⟩]⟩]

/-- Register map, part 11: CFG_PRESENCE to FW_PEER_MIN. -/
def regTable11 : List RegDef := [
  ⟨0x20014, 0x0, 1, 0x0, 1, false, [⟨0, 1, .ro, 0⟩, ⟨1, 1, .ro, 0⟩, ⟨2, 2, .ro, 0⟩, ⟨16, 9, .ro, 0⟩]⟩,
  ⟨0x20018, 0x0, 1, 0x0, 1, false, [⟨0, 26, .rw, 0⟩]⟩,
  ⟨0x2001C, 0x0, 1, 0x0, 1, false, [⟨0, 3, .wo, 0⟩]⟩,
  ⟨0x20020, 0x0, 1, 0x0, 1, false, [⟨0, 1, .ro, 0⟩, ⟨1, 1, .w1c, 0⟩, ⟨2, 1, .w1c, 0⟩, ⟨4, 3, .ro, 0⟩]⟩,
  ⟨0x20024, 0x0, 1, 0x0, 1, false, [⟨0, 32, .wo, 0⟩]⟩,
  ⟨0x20100, 0x4, 64, 0x0, 1, false, [⟨0, 32, .rw, 0⟩]⟩,
  ⟨0xE00000, 0x0, 1, 0x0, 1, false, [⟨0, 6, .ro, 32⟩]⟩,
  ⟨0xE00004, 0x0, 1, 0x0, 1, false, [⟨0, 2, .ro, 0⟩, ⟨2, 5, .ro, 0⟩, ⟨7, 1, .ro, 0⟩, ⟨8, 1, .w1c, 0⟩, ⟨9, 1, .w1c, 0⟩, ⟨10, 1, .w1c, 0⟩, ⟨11, 1, .ro, 0⟩, ⟨12, 5, .ro, 0⟩]⟩,
  ⟨0xE00008, 0x0, 1, 0x0, 1, false, [⟨0, 17, .rw, 1000⟩]⟩,
  ⟨0xE0000C, 0x0, 1, 0x0, 1, false, [⟨0, 16, .rw, 1000⟩]⟩,
  ⟨0xE00010, 0x0, 1, 0x0, 1, false, [⟨0, 32, .ro, 0⟩]⟩,
  ⟨0xE00014, 0x0, 1, 0x0, 1, false, [⟨0, 32, .ro, 0⟩]⟩,
  ⟨0xE00018, 0x0, 1, 0x0, 1, false, [⟨0, 21, .ro, 0⟩]⟩,
  ⟨0xE0001C, 0x0, 1, 0x0, 1, false, [⟨0, 32, .ro, 0⟩]⟩,
  ⟨0xE00020, 0x0, 1, 0x0, 1, false, [⟨0, 8, .wo, 0⟩, ⟨8, 24, .wo, 0⟩]⟩,
  ⟨0xE80000, 0x0, 1, 0x0, 1, false, [⟨0, 1, .ro, 0⟩, ⟨1, 3, .ro, 0⟩, ⟨4, 1, .ro, 0⟩, ⟨5, 1, .ro, 0⟩, ⟨6, 1, .w1c, 0⟩, ⟨7, 4, .ro, 0⟩, ⟨11, 1, .ro, 0⟩, ⟨12, 1, .ro, 0⟩]⟩,
  ⟨0xE80004, 0x0, 1, 0x0, 1, false, [⟨0, 32, .ro, 0⟩]⟩,
  ⟨0xE80008, 0x0, 1, 0x0, 1, false, [⟨0, 13, .ro, 0⟩]⟩,
  ⟨0xE8000C, 0x0, 1, 0x0, 1, false, [⟨0, 13, .ro, 0⟩]⟩,
  ⟨0xE80010, 0x0, 1, 0x0, 1, false, [⟨0, 32, .ro, 0⟩]⟩]

/-- Register map, part 12: FW_PEER_MAX to PWR_THERM_SENSOR. -/
def regTable12 : List RegDef := [
  ⟨0xE80014, 0x0, 1, 0x0, 1, false, [⟨0, 32, .ro, 0⟩]⟩,
  ⟨0xE80018, 0x0, 1, 0x0, 1, false, [⟨0, 32, .ro, 0⟩]⟩,
  ⟨0xE80020, 0x0, 1, 0x0, 1, true, [⟨0, 64, .ro, 0⟩]⟩,
  ⟨0xE80028, 0x0, 1, 0x0, 1, true, [⟨0, 64, .ro, 0⟩]⟩,
  ⟨0xE80030, 0x0, 1, 0x0, 1, false, [⟨0, 32, .wo, 0⟩]⟩,
  ⟨0xE80034, 0x0, 1, 0x0, 1, false, [⟨0, 16, .ro, 0⟩, ⟨16, 16, .ro, 0⟩]⟩,
  ⟨0x10900, 0x0, 1, 0x0, 1, false, [⟨0, 3, .ro, 0⟩, ⟨3, 1, .ro, 0⟩, ⟨4, 1, .ro, 0⟩, ⟨8, 8, .ro, 0⟩, ⟨16, 8, .ro, 0⟩, ⟨24, 3, .ro, 0⟩]⟩,
  ⟨0x10904, 0x0, 1, 0x0, 1, false, [⟨0, 8, .ro, 95⟩, ⟨8, 8, .ro, 105⟩, ⟨16, 8, .ro, 115⟩]⟩,
  ⟨0x10908, 0x0, 1, 0x0, 1, false, [⟨0, 32, .ro, 0⟩]⟩,
  ⟨0x10910, 0x4, 8, 0x0, 1, false, [⟨0, 8, .ro, 0⟩]⟩]

/-- The whole register map of one die (R11). -/
def regTable : List RegDef :=
  regTable0 ++ regTable1 ++ regTable2 ++ regTable3 ++ regTable4 ++ regTable5 ++ regTable6 ++ regTable7 ++ regTable8 ++ regTable9 ++ regTable10 ++ regTable11 ++ regTable12

/-- Is `off` the register `b` of an array with `n` members of stride `s`? -/
def inArray (b s n off : Nat) : Bool :=
  decide (b ≤ off) && decide (off < b + s * n) && decide ((off - b) % s = 0)

/-- The word a register holds after reset (the Reset columns of the register maps, R14); 0 where the map gives 0, where
it names a source that a later command loads, and for unassigned offsets (R13). -/
def resetWord (off : Nat) : Nat :=
  if off = 0x808000 then 0x10100000  -- LSE_CAPS
  else
  if off = 0x808010 then 0x2710  -- LSE_GRACE
  else
  if off = 0x808014 then 0x2710  -- LSE_BI_TIMEOUT
  else
  if off = 0x800000 then 0x400800  -- TIER_CAPS
  else
  if off = 0x800004 then 0x1082001  -- TIER_THRESH
  else
  if off = 0x800008 then 0x555A  -- TIER_T2_MARKS
  else
  if off = 0x80000C then 0x3C  -- TIER_HEAT_DECAY
  else
  if off = 0x800014 then 0x28  -- TIER_MISS_HOLD
  else
  if off = 0x800018 then 0x3C  -- TIER_CKPT_PERIOD
  else
  if off = 0x800028 then 0xC  -- TIER_T1_CACHE_MAX
  else
  if off = 0x300000 then 0x200401F  -- XC_CAPS
  else
  if off = 0x300004 then 0xC  -- XC_CTRL
  else
  if inArray 0x410000 0x40 16384 off then 0x6060  -- RING_CTRL
  else
  if inArray 0x410004 0x40 16384 off then 0x40  -- RING_STATUS
  else
  if off = 0x409000 then 0xC8  -- OPS_ATT_WINDOW
  else
  if off = 0x409004 then 0x14  -- OPS_ATT_LEAD
  else
  if off = 0xC00000 then 0x708010  -- PORT_CAPS
  else
  if off = 0xC00010 then 0x32  -- PORT_CPL_TIMEOUT
  else
  if off = 0xC00014 then 0xA  -- PORT_PTM_INTERVAL
  else
  if off = 0x10C000 then 0x400F3C  -- DMC_CAPS
  else
  if off = 0x10C008 then 0x14  -- DMC_SR_IDLE
  else
  if off = 0x10C00C then 0x7D0  -- DMC_RH_THRESH
  else
  if off = 0x10C010 then 0x1  -- DMC_FREEZE_HOLD
  else
  if off = 0x10C01C then 0x7D0  -- DMC_PWR_RAMP
  else
  if off = 0x200000 then 0xF88  -- FLC_CAPS
  else
  if off = 0x200014 then 0x60018  -- FLC_RECLAIM
  else
  if off = 0x200018 then 0x3E8  -- FLC_TAIL_WAIT
  else
  if off = 0x20001C then 0x186A0  -- FLC_RD_THRESH
  else
  if off = 0x200020 then 0x18  -- FLC_SCRUB_PERIOD
  else
  if off = 0x200024 then 0x5A32  -- FLC_SCRUB_THRESH
  else
  if off = 0x200030 then 0x16D  -- FLC_OFFTIME_MAX
  else
  if off = 0x200034 then 0xC8  -- FLC_WEAR
  else
  if off = 0x200054 then 0xFFFF0000  -- FLC_ENDURANCE
  else
  if off = 0x80000 then 0x40C2  -- QOS_CAPS
  else
  if off = 0x80010 then 0x10000  -- QOS_SCALE
  else
  if off = 0x80014 then 0x4060  -- QOS_FEEDBACK
  else
  if off = 0x80018 then 0x2EE0  -- QOS_MGMT_RATE
  else
  if off = 0x80020 then 0x5DC  -- QOS_FLASH_SCRUB
  else
  if inArray 0x86000 0x4 194 off then 0xA  -- QOS_MSTAT
  else
  if off = 0x0 then 0x440  -- TB_CAPS
  else
  if off = 0x4 then 0x2  -- TB_STATUS
  else
  if off = 0x20 then 0x3E8  -- TB_MARK_PERIOD
  else
  if off = 0x40000 then 0x1000037  -- ERR_CAPS
  else
  if off = 0x40028 then 0x2  -- ERR_ALERT_MASK
  else
  if off = 0x10000 then 0x441964  -- CLK_CAPS
  else
  if off = 0x10808 then 0xA  -- PWR_DIP_IDLE
  else
  if off = 0x10810 then 0xA  -- PWR_FURL_WAIT
  else
  if off = 0xE00000 then 0x20  -- POOL_CAPS
  else
  if off = 0xE00008 then 0x3E8  -- POOL_ANCHOR_PERIOD
  else
  if off = 0xE0000C then 0x3E8  -- POOL_LOSS_TIMEOUT
  else
  if off = 0x10904 then 0x73695F  -- PWR_THERM_LIMITS
  else
  if 0x100000 ≤ off ∧ off < 0x10C000 ∧ 0x44 ≤ off % 0x1000 ∧ off % 0x1000 ≤ 0x64 ∧ off % 8 = 4 then
    -- DMC_PORT_TARGET[p] of every channel (R297)
    match (off % 0x1000 - 0x44) / 8 with
    | 0 => 250 | 1 => 2000 | 2 => 5000 | 3 => 10000 | _ => 1000
  else 0

end Sys2Proof.Machine
end

