-- ==== Sys2Proof/Machine/State.lean ====
section
/-! DEFINITION. The state of the Drior: everything the spec gives the package and its dies, the queue of waiting commands,
and the model's own free-value counter and output record (log entries 1, 5). Plain data throughout. -/

namespace Sys2Proof.Machine

/-- Why the block stops. -/
inductive Fault where
  /-- A command names a die that the package has not (R7). Raised by every meaning that is addressed to a die. Safe: the
  hardware has no such die, so no such event exists. -/
  | absentDie (die : Nat)
  /-- A command names a channel, ring, LD, bucket, unit or device index beyond those that R7, R31, R258, R406 number.
  Safe: no such event exists. -/
  | absentUnit (index : Nat)
  /-- A case of the list of undefined behaviour (R414); `row` numbers the rows of that list from 1. Raised by the meanings
  that meet one. Safe: the spec gives no effect there. -/
  | undefinedCase (row : Nat)
deriving DecidableEq, Repr

/-- Why the model gives a command no meaning. -/
inductive Refusal where
  /-- A command of the table without a meaning. Raised by Dispatch only. Safe: no claim about it can be proved. -/
  | notModelled (mnemonic : String)
deriving DecidableEq, Repr

/-- Traffic that leaves the package in the course of one command (log entry 5). -/
inductive Out where
  /-- A control-space read's answer (R8, R9). -/
  | regRead (die off : Nat) (v : Word)
  /-- Answer to a read of a BAR: data, or Unsupported Request (R261, R282). -/
  | barData (ld : Nat) (v : Word)
  | barUr (ld : Nat)
  /-- CXL.mem data response with its poison bit (R270). -/
  | memData (ld dpa : Nat) (data : List Byte) (poison : Bool)
  /-- CXL.mem completion of a store (R55). -/
  | memDone (ld dpa : Nat)
  /-- Back-invalidate snoop to an LD: BISnpInv, or BISnpData when `data` (R64). -/
  | biSnp (ld ext line : Nat) (data : Bool)
  /-- An MSI-X message (R268). -/
  | msix (ld vector addr data : Nat)
  /-- Upstream read of host memory for a job (R271). -/
  | hostRead (ld die job addr len : Nat)
  /-- Upstream write to host memory; `ep` the poison bit (R271). -/
  | hostWrite (ld addr : Nat) (data : List Byte) (ep : Bool)
  /-- Answer to a configuration request: data, or Configuration Request Retry Status (R263). -/
  | cfgData (ld : Nat) (data : Word)
  | cfgRetry (ld : Nat)
  /-- The entries of a CDAT: kind (0 DSMAS, 1 DSLBIS, 2 DSEMTS), DSMAS handle, values (R265). -/
  | cdat (ld : Nat) (entries : List (List Nat))
  /-- Answer of a DOE mailbox (R262). -/
  | doe (ld : Nat) (data : List Byte)
  /-- Answer of the primary mailbox: opcode, return code (0 success), payload (R266). -/
  | mailbox (ld op ret : Nat) (payload : List Nat)
  /-- Answer to the fabric manager: the check of R48 that failed, or 0, and the handle. -/
  | fm (check handle : Nat)
  /-- Answer on the service port: command code, LAST_ERROR or 0, bytes (R489, R502). -/
  | service (code err : Nat) (data : List Byte)
  /-- A pool message: kind, destination package, stamp, quantities (R477 to R487, R499). Kinds: 0 join, 1 its answer, 2 anchor,
  3 anchor reply, 4 report to the directory, 5 lookup, 6 its answer, 7 OPEN, 8 FRAME_DONE, 9 CLOSE, 10 answer to OPEN, 11 end of a
  PUSH at its target, 12 a frame asked for again, 13 T_act. A message to the ensign package names package 0. -/
  | pool (kind dst stamp : Nat) (args : List Nat)
  /-- A frame's coded sectors written into a target's receive window (R486). -/
  | poolFrame (dst slot frame : Nat) (sectors : List Nat)
  /-- A flit acknowledgement or a retry request on a Bytrathal link, and the replay of the sender's unacknowledged flits: the
  sender's die and link, and how many (R22). -/
  | flitAck (die link : Nat)
  | flitRetry (die link : Nat)
  | flitReplay (die link count : Nat)
  /-- A heartbeat (R40). -/
  | heartbeat (src dst : Nat)
  /-- A PTM request on a port (R273). -/
  | ptmRequest (die : Nat)
  /-- A sideband message: 0 wake, 1 half-mast, 2 clock failure (R425). -/
  | sideband (die kind : Nat)
  /-- A NOR operation begins: command of R473 and address. -/
  | nor (cmd addr : Nat)
deriving DecidableEq, Repr

/-- The counters of pennant time on one die (R382, R383, R385). -/
structure Clock where
  coarse : Nat
  /-- Ticks since the last coarse edge. -/
  phase : Nat
  /-- The fine count follows `phase`; otherwise it holds at 0 (R383). -/
  fineRuns : Bool
  /-- The compute clock runs again and the fine count restarts at the next coarse edge (R383). -/
  fineWait : Bool
  /-- Offset still to slew away, ticks ahead of the ensign die (R385). -/
  slew : Int
  slewPhase : Nat
  /-- The last stamp issued (TB_LAST_STAMP, R384). -/
  last : Nat
  /-- Provisional time runs (R390). -/
  provisional : Bool
  /-- Pennants carry GAP_UNKNOWN (R391) and ITO_TIME (R392). -/
  gap : Bool
  ito : Bool
  /-- A time mark journalled and not yet durable (R388). -/
  mark : Option Nat
  /-- A TB_TIME_SET write made in half-mast, a ceiling at the next start (R415). -/
  timeSet : Option Nat
deriving DecidableEq, Repr

/-- The pennant records of one die, newest first (R399, R400, R390). -/
structure PLog where
  ring : List (BitVec 128)
  aon : List (BitVec 128)
  /-- Oldest first (R390). -/
  early : List (BitVec 128)
  earlyLost : Nat
  /-- Trace mode: the second of pennant time counted, pairs written in it, and whether a run of dropped requests is open (R401). -/
  traceSec : Nat
  tracePairs : Nat
  traceDropping : Bool
deriving DecidableEq, Repr

/-- Thermal and liveness bookkeeping of one die (R523 to R526, R40, R428). -/
structure Aux where
  /-- Since when the hottest sensor has stayed 2 degrees below the current level's threshold (R525). -/
  coolSince : Option Nat
  /-- Since when the die has been at level 1 or above, part of a millisecond not yet counted (R529). -/
  throttleSince : Option Nat
  /-- The stamp of the last heartbeat from each partner (R40). -/
  beats : SMap Nat
  /-- Next stamps at which the DRAM ramps and the freeze holds end, by device and by channel (R310, R318). -/
  rampDue : SMap Nat
  holdDue : SMap Nat
  /-- Sensors at 115 degrees C or more in the last sample (R526). -/
  tripSensors : List Nat
  /-- ITO start of this start-up (R418). -/
  itoStart : Nat
  /-- The stamp of the port's last PTM dialog (R273), and whether it has taken a pair since start-up (R276). -/
  ptmAt : Option Nat
  ptmPair : Bool
  /-- The stamps of what recurs at a fixed interval, by what it is (`dueKey`), when it last happened (R40, R385, R407, R422, R523). -/
  last : SMap Nat
deriving DecidableEq, Repr

/-- The power phase of the package (R427, R441). -/
inductive Phase where
  /-- POR_N asserted (R440). -/
  | off
  /-- Start-up (R441). -/
  | startup
  /-- Full, or dipped on the dies whose PWR_GATED is not 0. -/
  | run
  /-- Furled entry, with the step of R430 that is running. -/
  | furling (step : Nat)
  | furled
  | halfMast
deriving DecidableEq, Repr

/-- Power, straps and pins of the package. -/
structure Power where
  phase : Phase
  /-- Straps sampled at POR_N deassertion (R37). -/
  ensign : Nat
  poolId : Nat
  /-- Pennant time of the ensign die at which this start began, and whether it is a restart of the die set (R390, R446). -/
  startedAt : Nat
  restart : Bool
  /-- The last host request or doorbell at any port (R429). -/
  lastUse : Nat
  /-- A furled entry was asked for by PWR_CTRL.FURL_REQ (R429). -/
  furlAsked : Bool
  /-- The running entry is to be abandoned at the end of its step: the bit of PWR_FURL_BLOCK (R431). -/
  furlStop : Option Nat
  /-- The stamp at which the running step of an entry began, on the ensign die (R430). -/
  furlAt : Nat
  /-- PERST_N asserted, per die (R283). -/
  perst : List Bool
  /-- THERM_TRIP_N driven low (R526). -/
  tripLow : Bool
  /-- SVC_ALERT_N is derived; CLK_OUT's source and divider, none when held low (R424). -/
  clkOut : Option (Nat × Nat)
  /-- The service port's dynamic address (R488). -/
  serviceAddr : Option Nat
deriving DecidableEq, Repr

/-- Physical presence (R469). -/
structure Presence where
  active : Bool
  pinLow : Bool
  openedAt : Nat
deriving DecidableEq, Repr

/-- The external NOR (R447 to R450, R473). -/
structure Nor where
  array : SMap Byte
  /-- Block-protect bits set, NVM_WP_N high (R449, R471). -/
  protect : Bool
  wpHigh : Bool
  /-- The command that runs: its number and address (R473). -/
  running : Option (Nat × Nat)
  /-- The buffer's bytes as the command found them, for a program (R473). -/
  data : List Byte
  /-- The unary monotonic counter (R450). -/
  counter : Nat
deriving DecidableEq, Repr

/-- A STATIC entry of the lease section (R465). -/
structure StaticLease where
  pos : Nat
  ld : Nat
  region : Nat
  share : Nat
  slot : Nat
deriving DecidableEq, Repr

/-- An ASSIGN entry of the ring section (R466). -/
structure RingAssign where
  first : Nat
  count : Nat
  ld : Nat
  cls : Nat
deriving DecidableEq, Repr

/-- A PRELOAD entry (R467). -/
structure PreloadEntry where
  pos : Nat
  ld : Nat
  region : Nat
  tier : Nat
  pin : Bool
  slot : Nat
  first : Nat
  count : Nat
deriving DecidableEq, Repr

/-- What the loaded image holds beside the registers it loads (R460 to R467, R475, R505). -/
structure ImageCfg where
  dies : Nat
  density : Nat
  retain : Nat
  flPop : Nat
  portLocal : Bool
  mgmtLd : Option Nat
  /-- LDs per port, region sizes in 256 MiB units, quotas (R465). -/
  lds : SMap Nat
  region0 : SMap Nat
  region1 : SMap Nat
  quota : SMap Nat
  linkdownS : Nat
  statics : List StaticLease
  classes : Nat
  stageMib : SMap Nat
  assigns : List RingAssign
  preload : List PreloadEntry
  mapEntries : Nat
  poolRole : Nat
  /-- PEER entries (R475): package and Requester ID of its management LD. -/
  peers : List (Nat × Nat)
  expectVersion : Nat
  templates : List (Nat × List Byte)
deriving DecidableEq, Repr

/-- The loader's install record and progress (R493 to R499). -/
structure Fw where
  /-- 0 NONE, 1 COPYING, 2 RECEIVING, 3 VERIFYING, 4 INSTALLED, 5 ACTIVATED, 6 FALLING_BACK (FW_STATUS.STATE on every die). -/
  state : Nat
  deadline : Nat
  tact : Option Nat
  cfgBefore : Nat
  cfgAfter : Nat
  newSec : Nat
  imageLen : Nat
  cfgLen : Nat
  received : Nat
  /-- What LAST_ERROR becomes when the restoring copy ends; none when no copy runs (R492). -/
  restoring : Option Nat
  /-- Header bytes of the running image (R490), and the digest of its signed bytes taken at start-up (R501). -/
  header : List Byte
  digest : BitVec 384
deriving DecidableEq, Repr

/-- A running pool update schedule (R499): packages still to activate, delay. -/
structure Schedule where
  rest : List Nat
  delayMs : Nat
deriving DecidableEq, Repr

/-- A 256-byte flit of a request on its way (R18, R20): source and extent, the die it goes to, and the links that it takes after
the one it is on. -/
structure Flit where
  src : Nat
  ext : Nat
  dst : Nat
  rest : List Nat
deriving DecidableEq, Repr

/-- The fabric's links (R18 to R25): keys die * 3 + link. -/
structure Fabric where
  trained : Bool
  /-- Newest first. -/
  down : List Nat
  /-- Failed retries in succession, and links on which a replay is running. -/
  failed : SMap Nat
  replaying : List Nat
  /-- The retry buffers (R22): flits that each sending end has not had acknowledged, oldest first. -/
  retry : SMap (List Flit)
deriving DecidableEq, Repr

/-- An MSI-X vector (R267). -/
structure MsixVec where
  addr : Nat
  data : Nat
  mask : Bool
  pend : Bool
deriving DecidableEq, Repr

/-- A vector after reset (R267). -/
def MsixVec.reset : MsixVec := ⟨0, 0, true, false⟩

/-- A record of an event log (R266, R269): kind and quantities. Kinds: 0 non-maskable event (bit of ERR_NMI_STATUS, die),
1 bucket overflow (die, bucket), 2 add capacity, 3 release notice, 4 forced release, 5 host loss. The Dynamic Capacity records 2 to 4 carry region, slot and the tag of R46. -/
structure EventRec where
  log : EventLog
  kind : Nat
  args : List Nat
  stamp : Nat
deriving DecidableEq, Repr

/-- A logical device (R258): everything of it that its control-space registers do not hold. -/
structure LdRec where
  functionMask : Bool
  vecs : SMap MsixVec
  events : List EventRec
  /-- Vectors that Set Event Interrupt Policy named: log and vector, none for No Interrupts (R269). -/
  policy : List (EventLog × Option Nat)
  /-- Set Timestamp: host ns and the stamp at which it was set (R266). -/
  timestamp : Option (Nat × Nat)
  linkDownAt : Option Nat
  romBuilt : Bool
  /-- The bus-master clearing stamp (R277). -/
  bmeCleared : Option Nat
deriving DecidableEq, Repr

/-- A logical device after reset. -/
def LdRec.reset : LdRec := ⟨false, [], [], [], none, none, false, none⟩

/-! ## DRAM (R287 to R322) -/

/-- An entry of a channel's write queue: a full line (R295). -/
structure WqEntry where
  line : Nat
  data : List Byte
  poison : Bool
  port : Nat
  since : Nat
deriving DecidableEq, Repr

/-- A command issued on a channel, as a freeze record entry shows it (R317). -/
structure DramCmd where
  stamp : Nat
  cmd : Nat
  bank : Nat
  row : Nat
  sector : Nat
  port : Nat
  len : Nat
  err : Bool
  check : Bool
deriving DecidableEq, Repr

/-- A check segment in a channel's check cache (R300). -/
structure Segment where
  bank : Nat
  row : Nat
  dirty : Bool
deriving DecidableEq, Repr

/-- A count of a bank's activate-count table (R305). -/
structure ActCount where
  bank : Nat
  row : Nat
  count : Nat
deriving DecidableEq, Repr

/-- A request for open data that waits on a frozen channel (R316, R318). -/
inductive Waiting where
  /-- A host load of a line: LD, DPA, extent, line within the extent. -/
  | load (ld dpa ext line : Nat) (excl : Bool)
  /-- A host store of a line. -/
  | store (ld dpa ext line first : Nat) (data : List Byte) (poison : Bool)
deriving DecidableEq, Repr

/-- A request that waits on a frozen channel: since when, and its ingress stamp (R256, R316). -/
structure WaitEntry where
  req : Waiting
  since : Nat
  ingress : Nat
deriving DecidableEq, Repr

/-- One DRAM channel (R287). -/
structure Chan where
  wq : List WqEntry
  /-- Most recently used first, at most 512 (R300). -/
  segs : List Segment
  counts : List ActCount
  /-- Rows held until the next refresh window (R306 THROTTLE). -/
  throttled : List (Nat × Nat)
  /-- The last 64 commands, newest first, and those of the last freeze (R316, R317). -/
  cmds : List DramCmd
  frozenCmds : List DramCmd
  waiting : List WaitEntry
  /-- Stale lines, as DDAs (R318). -/
  stale : List Nat
  /-- Open frames written during the freeze, as DDAs of their T1 slots (R318). -/
  written : List Nat
  /-- DDAs of the failing lines of the freeze (R319). -/
  failing : List Nat
  lastUse : Nat
  /-- The stamp of its last training or re-centre (R313). -/
  trainedAt : Nat
  /-- A release is retraining the channel (R319). -/
  releasing : Bool
  /-- Retained trained delays: read, write (R312). -/
  retained : Option (Nat × Nat)
deriving DecidableEq, Repr

def Chan.reset : Chan :=
  { wq := [], segs := [], counts := [], throttled := [], cmds := [], frozenCmds := [], waiting := [], stale := [],
    written := [], failing := [], lastUse := 0, trainedAt := 0, releasing := false, retained := none }

/-- The DRAM of a die: data bytes by DDA, check byte j of line i at 4 i + j (R289, R299), twelve channels. -/
structure Dram where
  data : SMap Byte
  check : SMap Byte
  /-- SEQ + 1 of the pennant of the origin of a poisoned line, by line number (R171, R404). -/
  origins : SMap Nat
  chans : List Chan
deriving DecidableEq, Repr

def Dram.reset : Dram := { data := [], check := [], origins := [], chans := List.replicate 12 Chan.reset }

/-! ## Frame map (R84) -/

/-- STATE of a frame (R84, R90). -/
inductive FState where
  | present | promoting | lost | zero
deriving DecidableEq, Repr

/-- A frame-map entry (R84). -/
structure FrameEntry where
  sectors : Nat
  state : FState
  inT1 : Bool
  inT2 : Bool
  inT3 : Bool
  pinned : Bool
  table : Nat
  t1Slot : Nat
  t2Loc : Nat
  t3Loc : Nat
deriving DecidableEq, Repr

/-- The entry of a frame never written. -/
def FrameEntry.zero : FrameEntry := ⟨0, .zero, false, false, false, false, 0, 0, 0, 0⟩

/-! ## Bandwidth (R360 to R381) -/

/-- A QoS master's running values in its window (R364 to R368). -/
structure Master where
  credit : Nat
  debt : Nat
  borrowed : Nat
  /-- Index of the last window started, and its length in µs: a new QOS_WINDOW applies from the next boundary (R381). -/
  window : Nat
  us : Nat
  /-- Until this stamp the bytes it has moved at the flash controller use up its flash rate (R363). -/
  flash : Nat
deriving DecidableEq, Repr

def Master.reset : Master := ⟨0, 0, 0, 0, 8, 0⟩

/-- A request that waits in the QoS unit (R365): master, bytes, DMC port, the accept stamp and DEADLINE of its job (0 without), and the
stamp from which it ages (R372, R373). -/
structure QosReq where
  m : Nat
  bytes : Nat
  port : Nat
  accept : Nat
  deadline : Nat
  since : Nat
deriving DecidableEq, Repr

/-- The QoS unit of a die. -/
structure Qos where
  masters : SMap Master
  waiting : List QosReq
  /-- Bytes in the borrow pool (R366). -/
  pool : Nat
  /-- Admissions of the last 8 µs: stamp, port, bytes (R369). -/
  admitted : List (Nat × Nat × Nat)
  lastTick : Nat
  lastStep : Nat
deriving DecidableEq, Repr

def Qos.reset : Qos := { masters := [], waiting := [], pool := 0, admitted := [], lastTick := 0, lastStep := 0 }

/-! ## Extents, leases and coherence (R43 to R79) -/

/-- State of an extent (R53), with the encoding of LSE_EXT_STATE.STATE. -/
inductive ExtState where
  | free | offered | opened | sealing | sealed | releasing | clearing
deriving DecidableEq, Repr

/-- A directory entry (R45, R52, R53): the extents that are not FREE. -/
structure Extent where
  num : Nat
  gen : Nat
  state : ExtState
  shared : Bool
  home : Nat
  /-- Every frame in T3, ZERO or LOST (R53). -/
  settled : Bool
  /-- Counts against the home die's open budget (R56). -/
  budgeted : Bool
  /-- The state it had when its last lease ended (R76). -/
  was : ExtState
  /-- The seal stamp, and the last revoke or release stamp (R58, R76). -/
  sealedAt : Nat
  lastRevoke : Nat
  /-- Coding of a sealed extent: FORMAT, SPAN_LOG2, SUMMARY_DIM code (R119, R133). -/
  format : Nat
  spanLog2 : Nat
  dim : Nat
  /-- Where the header's copies lie in T3, and the TGEN of its tables (R133, R138). -/
  hdrLocs : List Nat
  tgen : Nat
  /-- Where the extent came from by REPLICATE: package and handle (R244). -/
  origin : Option (Nat × Nat)
deriving DecidableEq, Repr

/-- State of a lease (R54). -/
inductive LeaseState where
  | offered | held | noticed | ended
deriving DecidableEq, Repr

/-- A lease: one extent at one slot of one LD (R47 to R54). An ended lease stays, with its end stamp, until its slot is leased
again or its extent is cleared, since requests are judged by their ingress stamps (R74). -/
structure Lease where
  ld : Nat
  region : Nat
  slot : Nat
  ext : Nat
  state : LeaseState
  offeredAt : Nat
  /-- A revoke record is out to every die, not yet acknowledged (R73). -/
  revoking : Bool
  noticeAt : Nat
  /-- T_r, and once ended the end stamp (R73, R50). -/
  tr : Nat
  /-- The stamp from which the lease is held (R49). -/
  heldAt : Nat
deriving DecidableEq, Repr

/-- A snoop-filter entry (R64). -/
structure SfEntry where
  ext : Nat
  line : Nat
  holders : List Nat
  excl : Bool
deriving DecidableEq, Repr

/-- Why a back-invalidate is out. -/
inductive BiCause where
  | request | victim | seal | revoke
deriving DecidableEq, Repr

/-- An unanswered back-invalidate (R64 to R66). -/
structure BiWait where
  ext : Nat
  line : Nat
  ld : Nat
  since : Nat
  /-- BISnpInv; otherwise BISnpData (R64). -/
  inv : Bool
  cause : BiCause
deriving DecidableEq, Repr

/-- A host request that waits for back-invalidates of `lines` (R65, R71). -/
structure SnoopWait where
  lines : List (Nat × Nat)
  req : Waiting
  ingress : Nat
deriving DecidableEq, Repr

/-- Coherence state of a die for the extents homed on it. -/
structure Coh where
  filter : List SfEntry
  bis : List BiWait
  waits : List SnoopWait
  /-- Requests behind an earlier one of their source and extent that waits, or that found the filter full with an action in
  progress on every entry (R21, R65); oldest first. -/
  held : List SnoopWait
  /-- The poisoned-line list: extent, line, SEQ; oldest first (R70). -/
  plist : List (Nat × Nat × Nat)
  /-- Lines lost in a zero frame that could not be written yet, with SEQ + 1 of their pennant or 0 (R69). -/
  unborn : List (Nat × Nat × Nat)
deriving DecidableEq, Repr

def Coh.reset : Coh := { filter := [], bis := [], waits := [], held := [], plist := [], unborn := [] }

/-- The ensign die's directory and lease table (R38), its durable copy (R52), and what start-up still has to announce. -/
structure Lse where
  exts : List Extent
  /-- GENERATION of every number ever taken (R45). -/
  gens : SMap Nat
  leases : List Lease
  /-- Forced Capacity Release events to post at the first enable of an LD's port: LD, region, slot, tag (R46, R52). -/
  forced : List (Nat × Nat × Nat × List Nat)
deriving DecidableEq, Repr

def Lse.reset : Lse := { exts := [], gens := [], leases := [], forced := [] }

/-! ## Tiers (R80 to R117) -/

/-- A load that waits for a fetch (R109). -/
structure LoadWait where
  ld : Nat
  dpa : Nat
  line : Nat
  ingress : Nat
deriving DecidableEq, Repr

/-- Where a fetch puts its frame (R93). -/
inductive FetchDst where
  | toT2 | toT0 | toHost
deriving DecidableEq, Repr

/-- A T3 fetch: waiting in the hoist or begun (R94, R95), with its waiters and its progress through pages, ladder and replica
(R342, R343, R246). -/
structure Fetch where
  ext : Nat
  idx : Nat
  dst : FetchDst
  /-- 0 host demand, 1 job, 2 prefetch, preload or pin (R94). -/
  rank : Nat
  begunAt : Option Nat
  loc : Nat
  /-- The T2 target, as a granule (R105). -/
  target : Option Nat
  /-- Pages still to read or to pass. -/
  pages : List Nat
  /-- Steps of the ladder taken on the page at the head; none outside the ladder (R343). -/
  ladder : Option Nat
  /-- Every page read: the frame may be installed. -/
  done : Bool
  /-- A copy of it met an uncorrectable stage error and is fetched again (R217). -/
  retried : Bool
  /-- A block failed its checks though every page passed: the step of the ladder that all its pages climb (R141, R343). -/
  climb : Option Nat
  /-- The frame that a pool replica gave (R246). -/
  data : Option (List Byte)
  /-- The ladder failed: a lookup of the pool directory is out (R246, R485). -/
  lookup : Bool
  /-- A poisoned tier-miss response of this fetch has written its pennant (R110). -/
  missNoted : Bool
  /-- The frame goes on to T1 (R96, R97). -/
  thenT1 : Bool
  loads : List LoadWait
  /-- Jobs that wait: accepting die and job record. -/
  jobs : List (Nat × Nat)
deriving DecidableEq, Repr

/-- A promotion from DRAM (R93, R105), or one that has ended (R106). -/
structure Promo where
  ext : Nat
  idx : Nat
  /-- Destination tier 0 or 1; 2 for one from T3. -/
  dst : Nat
  slot : Nat
  begunAt : Nat
  endedAt : Option Nat
  jobs : List (Nat × Nat)
  /-- Its T0 copy met an uncorrectable stage error and is fetched again (R217). -/
  retried : Bool := false
deriving DecidableEq, Repr

/-- An eviction that the scanner decided (R100, R104). -/
structure Evict where
  ext : Nat
  idx : Nat
  tier : Nat
  decided : Nat
deriving DecidableEq, Repr

/-- A relocation of a frame's T3 copy: old location, new location once written, decision stamp (R107). -/
structure Reloc where
  ext : Nat
  idx : Nat
  old : Nat
  decided : Nat
  /-- The new location, once its copy is durable; then the stamp of the switch, after which the old one waits for its trim. -/
  switchedAt : Option Nat
  written : Option Nat := none
  /-- The source page in the read-retry ladder, with its step (R343, R344). -/
  ladder : Option (Nat × Nat) := none
  /-- The source was uncorrectable: the relocation waits for a T2 copy (R344). -/
  waits : Bool := false
deriving DecidableEq, Repr

/-- A pin: ring (none for a preload pin), its LD, frame, tier (R97, R98, R116). -/
structure Pin where
  ring : Option Nat
  ext : Nat
  idx : Nat
  tier : Nat
deriving DecidableEq, Repr

/-- A DRAM copy of an extent's header (R134): first byte and length. -/
structure HdrCopy where
  ext : Nat
  addr : Nat
  len : Nat
deriving DecidableEq, Repr

/-- The tier controller of a die. -/
structure Tier where
  /-- Frame maps: entry of frame f of extent e at 4160 e + f, of summary page p at 4160 e + 4096 + p. -/
  map : SMap FrameEntry
  /-- The heat array, same keys (R91). -/
  heat : SMap Nat
  /-- Copies marked unavailable by a freeze: map key, tier 1 or 2, channel (R112). -/
  unavail : List (Nat × Nat × Nat)
  pins : List Pin
  fetches : List Fetch
  promos : List Promo
  evicts : List Evict
  relocs : List Reloc
  /-- The last decay walk's due time, with the period of the interval in progress (R92). -/
  decayDue : Nat
  /-- Position in the preload list; none once ended (R116). -/
  preload : Option Nat
  /-- Positions of the preload entries with the sealed extent that their slot held when the die became ready (R116). -/
  preloadExts : SMap Nat
  headers : List HdrCopy
  /-- SEQ of the LOST pennant of each LOST frame (R171, R246), by map key. -/
  lostSeq : SMap Nat
deriving DecidableEq, Repr

def Tier.reset : Tier :=
  { map := [], heat := [], unavail := [], pins := [], fetches := [], promos := [], evicts := [], relocs := [], decayDue := 0,
    preload := none, preloadExts := [], headers := [], lostSeq := [] }

/-! ## Exponent codec (R135 to R139) -/

/-- A table slot (R135): extent handle, TIDX, TGEN, SLOT_GEN, the code lengths, the order of last use, and the count of blocks bound
to it and not yet consumed (R136). -/
structure TableSlot where
  handle : Nat
  tidx : Nat
  tgen : Nat
  slotGen : Nat
  lengths : List Nat
  lastUse : Nat
  inFlight : Nat
deriving DecidableEq, Repr

/-- A recode in progress (R138): the new frames by their index, the new header and its places, and the frames still to be written.
Until every source frame has been read for the tables the header is empty. -/
structure Recode where
  ext : Nat
  span : Nat
  tgen : Nat
  frames : SMap FrameEntry
  header : List Byte
  hdrLocs : List Nat
  todo : List Nat
deriving DecidableEq, Repr

/-- The old version of a recoded extent, to be trimmed (R139): T_c, its span, TGEN and header copies. Its frames stand in the map
under a number of their own (`oldNum`). -/
structure OldVersion where
  ext : Nat
  tc : Nat
  span : Nat
  tgen : Nat
  hdrLocs : List Nat
deriving DecidableEq, Repr

/-- The codec of a die. -/
structure Codec where
  op : List TableSlot
  load : List TableSlot
  uses : Nat
  recode : Option Recode
  old : List OldVersion
deriving DecidableEq, Repr

def Codec.reset : Codec := { op := [], load := [], uses := 0, recode := none, old := [] }

/-! ## Flash (R323 to R359) -/

/-- What a superblock is (R329, R335). -/
inductive SbState where
  | free | system | settling | relocation | full | retired
deriving DecidableEq, Repr

/-- A superblock: its code level (R334), the next granule and the pages whose program has begun and ended, the page that was
programmed partly filled (R337), its age in seconds and the stamp up to which powered time is in it (R353), the
rotation of its samples (R348, R354), and the stamp of the last data that it took (R337). -/
structure Sb where
  st : SbState
  level : Nat
  next : Nat
  started : Nat
  done : Nat
  tail : Option Nat
  age : Nat
  ageAt : Nat
  rot : Nat
  fedAt : Nat
deriving DecidableEq, Repr

def Sb.fresh : Sb := ⟨.free, 0, 0, 0, 0, none, 0, 0, 0, 0⟩

/-- What a copy on its way to T3 is. -/
inductive CopyKind where
  | settle (ext idx : Nat)
  | reloc (ext idx : Nat)
  | header (ext copy : Nat)
  | recode (ext idx : Nat)
  | recodeHeader (ext copy : Nat)
  | repair (ext idx job : Nat)
deriving DecidableEq, Repr

/-- A copy appended to an open superblock and not yet durable (R338); without a place while it waits for a superblock. -/
structure FCopy where
  kind : CopyKind
  which : OpenSb
  loc : Option Nat
  data : List Byte
deriving DecidableEq, Repr

/-- An entry of the map journal (R87, R52, R345, R388). -/
inductive JEntry where
  | map (key : Nat) (e : FrameEntry)
  | dir (l : Lse)
  | opened (s : Nat)
  | mark (c : Nat)
deriving DecidableEq, Repr

/-- A map checkpoint (R88, R329, R355): map, directory, ceiling, wear, read and age tables, counters, times. -/
structure Snapshot where
  map : SMap FrameEntry
  dir : Lse
  ceiling : Option Nat
  pe : SMap Nat
  reads : SMap Nat
  sbs : SMap Sb
  prog : Nat
  settle : Nat
  pck : Nat
  hck : Option Nat
deriving DecidableEq, Repr

/-- How far this start's discovery has come (R326). -/
inductive FlPhase where
  | off | recognised | first | ready
deriving DecidableEq, Repr

/-- The flash of a die. What the array holds survives a restart and POR_N: signature, bad blocks, remap, data, checkpoints and
journal; the rest is the controller's. -/
structure Flash where
  phase : FlPhase
  /-- The signature's package serial; none while its positions are erased (R326). -/
  sig : Option (List Byte)
  blocks : Nat
  factory : List BlockAddr
  grown : List BlockAddr
  /-- Remapped slots: key of unit and superblock, physical block + 1 (R328, R351). -/
  remap : SMap Nat
  /-- Superblock numbers 0 to s0 - 1 exist (R328). -/
  s0 : Nat
  sbs : SMap Sb
  pe : SMap Nat
  reads : SMap Nat
  /-- The read count of a block that `reads` does not list (R348). -/
  readBase : Nat
  /-- T3 bytes: byte x of the logical space (R327). -/
  data : SMap Byte
  newer : Option Snapshot
  older : Option Snapshot
  seg : List JEntry
  prevSeg : List JEntry
  /-- The durable time ceiling (R388). -/
  ceiling : Option Nat
  copies : List FCopy
  /-- Programmed bytes at the scrub passes of the last 30 days, and the stamp of first discovery (R347). -/
  history : List (Nat × Nat)
  firstAt : Nat
  /-- Per mille steps whose ENDURANCE pennant is written (R347). -/
  warned : Nat
  /-- Off-time of this start: host time has come; the H_ck of the checkpoint that recovery used (R355, R356). -/
  hostTime : Bool
  hck : Option Nat
  /-- Channels that retrain (R357). -/
  retraining : List Nat
  /-- Next superblock of the sweep (R356), and the superblock of a static move (R346). -/
  swept : List Nat
  moving : Option Nat
deriving DecidableEq, Repr

/-- Blank flash. -/
def Flash.reset : Flash :=
  { phase := .off, sig := none, blocks := 0, factory := [], grown := [], remap := [], s0 := 0, sbs := [], pe := [], reads := [], readBase := 0,
    data := [], newer := none, older := none, seg := [], prevSeg := [], ceiling := none, copies := [], history := [],
    firstAt := 0, warned := 0, hostTime := false, hck := none, retraining := [], swept := [], moving := none }


/-! ## Jobs and the stage (R147 to R252) -/

/-- A pennant that a completion names: its die and SEQ (R171). -/
structure NoteRef where
  die : Nat
  seq : Nat
deriving DecidableEq, Repr

/-- A read of host memory that a job has out (R271, R272): one for each pass over a host-kind buffer. -/
structure HostRead where
  addr : Nat
  len : Nat
  pass : Nat
  since : Nat
  got : Nat
deriving DecidableEq, Repr

/-- Host data that has come for a job; `poison` marks data that counts as poisoned, with its pennant (R271, R272). -/
structure HostChunk where
  addr : Nat
  data : List Byte
  poison : Bool
  origin : Option NoteRef
deriving DecidableEq, Repr

/-- A candidate of a selection (R202, R204): unit, span, selection block, the bits of its bound. -/
structure Cand where
  unit : Nat
  span : Nat
  blk : Nat
  bound : Nat
deriving DecidableEq, Repr

/-- A T0 copy (R80, R187, R212): the class whose allocation it takes, its frame or summary page with the map entry that it was fetched
under, its coded bytes, whether they came from T3, and its order of use. -/
structure T0Copy where
  cls : Nat
  ext : Nat
  idx : Nat
  ent : FrameEntry
  coded : List Byte
  fromT3 : Bool
  lastUse : Nat
deriving DecidableEq, Repr

/-- A value of a format: a number in units of 2^-149 (in products 2^-298, in scores 2^-447), an infinity, or a NaN. -/
inductive Val where
  | num (n : Int)
  | inf (neg : Bool)
  | nan
deriving DecidableEq, Repr

/-- A token that a row includes: its score, Σ|q k| · SCALE in the same units of 2^-447, and its value vector (R189). -/
structure Token where
  s : Val
  a : Val
  v : List Val
deriving DecidableEq, Repr

/-- The running partial (O, m, l) of one row (R192), held as the tokens it has taken in, so that it is exact: the rounding of R218
is applied when the row is written. Poisoned rows carry the pennant of their origin. -/
structure RowPart where
  toks : List Token
  bad : Option (Option NoteRef)
deriving DecidableEq, Repr

/-- The running partials of a job's rows of one KV head on a home die: their bytes in the stage, and where they are spilled
(R193, R213). -/
structure HeadPart where
  head : Nat
  size : Nat
  rows : List RowPart
  spilled : Option Nat
deriving DecidableEq, Repr

/-- The part of a job on one home die (R33): when it started there, the status it returned, its scratch, what it found. -/
structure SubJob where
  home : Nat
  start : Option Nat
  returned : Option Nat
  /-- Its finish stamp on the home die. -/
  finish : Option Nat
  /-- Scratch bytes reserved on the home die (R214, R230). -/
  scratch : Nat
  poisoned : Bool
  /-- The origin of the first poison met (R405). -/
  origin : Option NoteRef
  /-- Selection candidates, and whether it did only part: a candidate lacked a usable summary (R204), a pin was not made (R98). -/
  cands : List Cand
  missed : Bool
  /-- Running partials of an ATTEND, by KV head (R192). -/
  parts : List HeadPart
deriving DecidableEq, Repr

/-- An accepted job (R163 to R178) with its record on the accepting die. -/
structure Job where
  num : Nat
  ring : Nat
  ld : Nat
  /-- DESC_INDEX, the accept stamp, and the 256 bytes of the descriptor. -/
  index : Nat
  accept : Nat
  desc : List Byte
  /-- The leased slots that its buffers touch when it is accepted: region, slot, extent; and every extent it references. -/
  slots : List (Nat × Nat × Nat)
  exts : List Nat
  /-- The start stamp, once it has started; the phase: 1 its selection runs, 2 its work (R207). -/
  start : Option Nat
  phase : Nat
  subs : List SubJob
  reads : List HostRead
  host : List HostChunk
  /-- The status that a reset or the clearing of Bus Master Enable has decided (R277, R278, R280). -/
  abort : Option Nat
  /-- The completion is written; extent-level work goes on without the LD (R281). -/
  orphan : Bool
  /-- The extent that it seals or creates, and the region and slot that an INGEST reserves. -/
  ext : Option Nat
  resv : Option (Nat × Nat)
  /-- The blocks that the selection of an ATTEND chose: unit, span, selection block (R207). -/
  chosen : List (Nat × Nat × Nat)
  /-- Did it do only part, and the pennant that explains it (R172, R236, R244). -/
  part : Bool
  why : Option NoteRef
  /-- Since when an output waits on a frozen channel (R249). -/
  blocked : Option Nat
  /-- The data of a PUSH has been written to its target (R281). -/
  sending : Bool
  /-- The package whose replica a REPAIR uses, and the frames that it has tried (R245). -/
  replica : Option (Nat × List Nat)
  /-- Coded frames and summary pages that it has read out of the stage: home die and copy (R231, R240). -/
  taken : List (Nat × T0Copy)
  /-- Copies in tier 1 or 2 of extent and frame that were held at some stamp since its accept stamp and have gone (R96). -/
  reached : List (Nat × Nat × Nat)
  /-- Home dies on which it waits for scratch (R214). -/
  short : List Nat
  /-- Its ring lost its memory: the completion is not written there (R159). -/
  noRing : Bool
  /-- Not yet accepted: the record waits for host-kind lists that check 3 reads (R165). -/
  pre : Bool
deriving DecidableEq, Repr

/-- A job's rows of one KV head in a bunting (R208). -/
structure BMember where
  die : Nat
  job : Nat
  head : Nat
  rows : Nat
  deadline : Nat
deriving DecidableEq, Repr

/-- A bunting (R208 to R210) on a frame, or on a summary page for a selection. -/
structure Bunting where
  id : Nat
  cls : Nat
  fmt : Nat
  ext : Nat
  idx : Nat
  opened : Nat
  closeAt : Nat
  /-- A deadline has set the close stamp, before the window's end (R223). -/
  cut : Bool
  closed : Bool
  members : List BMember
deriving DecidableEq, Repr

/-- A fetch into the stage that waits for a thread or for room in its class (R216): since when, and the jobs that wait. -/
structure T0Want where
  cls : Nat
  ext : Nat
  idx : Nat
  since : Nat
  jobs : List (Nat × Nat)
deriving DecidableEq, Repr

/-- The stage of a die and what is grouped over it. Its running partials stand with their sub-jobs, its query rows with their jobs. -/
structure Stage where
  buntings : List Bunting
  nextId : Nat
  copies : List T0Copy
  uses : Nat
  queue : List T0Want
  /-- The greatest number of fetch threads in use (R223). -/
  peak : Nat
deriving DecidableEq, Repr

def Stage.reset : Stage := { buntings := [], nextId := 0, copies := [], uses := 0, queue := [], peak := 0 }


/-- One die (R16). -/
structure Die where
  regs : SMap DWord
  /-- The latched high words of 64-bit pairs whose low word was read last: offset of the pair, word + 1 (R9). -/
  latch : SMap Nat
  /-- The home-die table: home die + 1 of each leased extent (R29). -/
  homes : SMap Nat
  clk : Clock
  log : PLog
  aux : Aux
  dram : Dram
  qos : Qos
  coh : Coh
  tier : Tier
  xc : Codec
  fl : Flash
  /-- Jobs that the die has accepted, oldest first (R164). -/
  jobs : List Job
  /-- Completions written and not released, by local ring (R163). -/
  unreleased : SMap Nat
  stage : Stage
deriving DecidableEq, Repr

/-- A PUSH that the package receives (R486): its extent, the package that sends it, where it is to be leased, the frames that
failed their checks once, and the last FRAME_DONE (R487). -/
structure RxPush where
  ext : Nat
  src : Nat
  ld : Nat
  region : Nat
  slot : Nat
  failed : List Nat
  since : Nat
deriving DecidableEq, Repr

/-- A joined member at the ensign package: package, Requester ID, running version, peer range (R475, R477, R498). -/
structure PoolMember where
  pkg : Nat
  rid : Nat
  version : Nat
  peerMin : Nat
  peerMax : Nat
deriving DecidableEq, Repr

/-- The pool as the package knows it (R475 to R487, R499). -/
structure Pool where
  /-- 0 standalone, 1 ensign package, 2 worker. -/
  role : Nat
  /-- Members joined at the ensign package, beside itself (R477). -/
  members : List PoolMember
  /-- The ensign package's directory (R484). -/
  directory : List ReplicaCopy
  /-- Offsets to send with the next anchor, by member (R480). -/
  thetas : List (Nat × Int)
  /-- The last anchor or join message, and whether a first correction has been made (R477, R478, R482). -/
  lastAnchor : Nat
  corrected : Bool
  /-- The ensign package refused this worker's join; it runs unjoined (R477). -/
  refused : Bool
  rx : List RxPush
  schedule : Option Schedule
deriving DecidableEq, Repr

def Pool.reset : Pool :=
  { role := 0, members := [], directory := [], thetas := [], lastAnchor := 0, corrected := false, refused := false, rx := [], schedule := none }

/-- The machine: everything but the queue. -/
structure Mach where
  /-- Traffic of the last command (log entry 5). -/
  out : List Out
  /-- The model's free-value counter and the values supplied for free choices (log entry 1). -/
  freeCtr : Nat
  supply : List Nat
  pw : Power
  pres : Presence
  nor : Nor
  cfg : ImageCfg
  fw : Fw
  fab : Fabric
  lds : SMap LdRec
  lse : Lse
  pool : Pool
  dies : List Die
deriving DecidableEq, Repr

/-- The state: the commands that wait, first in first out, and the machine. -/
structure State where
  pending : List Instr
  m : Mach
deriving DecidableEq, Repr

/-! ## Reset: POR_N asserted (R440, log entry 2) -/

def Clock.reset : Clock :=
  { coarse := 0, phase := 0, fineRuns := false, fineWait := false, slew := 0, slewPhase := 0, last := 0,
    provisional := true, gap := true, ito := true, mark := none, timeSet := none }

def PLog.reset : PLog :=
  { ring := [], aon := [], early := [], earlyLost := 0, traceSec := 0, tracePairs := 0, traceDropping := false }

def Aux.reset : Aux :=
  { coolSince := none, throttleSince := none, beats := [], rampDue := [], holdDue := [], tripSensors := [], itoStart := 0,
    ptmAt := none, ptmPair := false, last := [] }

/-- A die while POR_N is asserted. -/
def Die.reset : Die :=
  { regs := [], latch := [], homes := [], clk := Clock.reset, log := PLog.reset, aux := Aux.reset, dram := Dram.reset,
    qos := Qos.reset, coh := Coh.reset, tier := Tier.reset, xc := Codec.reset, fl := Flash.reset, jobs := [], unreleased := [], stage := Stage.reset }

def Power.reset (n : Nat) : Power :=
  { phase := .off, ensign := 0, poolId := 0, startedAt := 0, restart := false, lastUse := 0, furlAsked := false, furlStop := none, furlAt := 0,
    perst := List.replicate n false, tripLow := false, clkOut := none, serviceAddr := none }

def Presence.reset : Presence := ⟨false, false, 0⟩

def Nor.reset : Nor := { array := [], protect := true, wpHigh := false, running := none, data := [], counter := 0 }

def ImageCfg.reset : ImageCfg :=
  { dies := 0, density := 0, retain := 0, flPop := 0, portLocal := false, mgmtLd := none, lds := [], region0 := [],
    region1 := [], quota := [], linkdownS := 0, statics := [], classes := 0, stageMib := [], assigns := [], preload := [],
    mapEntries := 0, poolRole := 0, peers := [], expectVersion := 0, templates := [] }

def Fw.reset : Fw :=
  { state := 0, deadline := 0, tact := none, cfgBefore := 0, cfgAfter := 0, newSec := 0, imageLen := 0, cfgLen := 0,
    received := 0, restoring := none, header := [], digest := 0 }

def Fabric.reset : Fabric := { trained := false, down := [], failed := [], replaying := [], retry := [] }

def Mach.reset : Mach :=
  { out := [], freeCtr := 0, supply := [], pw := Power.reset Config.dieCount, pres := Presence.reset, nor := Nor.reset,
    cfg := ImageCfg.reset, fw := Fw.reset, fab := Fabric.reset, lds := [], lse := Lse.reset, pool := Pool.reset,
    dies := List.replicate Config.dieCount Die.reset }

/-- The part as delivered, unprogrammed, with POR_N asserted, and no command waiting (log entry 2). -/
def State.reset : State := { pending := [], m := Mach.reset }

end Sys2Proof.Machine
end

