-- ==== Sys2Proof/Machine/Ops.lean ====
section
/-! DEFINITION. The named operations that every meaning uses: a die and its registers (R8 to R14), time and stamps
(R382 to R385), free choices (log entry 1), and the ways a command ends. -/

namespace Sys2Proof.Machine

/-! ## Outcomes -/

/-- The command's effect: nothing of the queue, and `out` holds this command's traffic only (log entry 5). -/
def State.done (s : State) (m : Mach) : Host.Outcome State Fault Refusal := .next { s with m := m }

/-- The machine with the traffic of the last command taken away. -/
def State.fresh (s : State) : Mach := { s.m with out := [] }

/-- A command that every state answers. -/
def State.run (s : State) (f : Mach → Mach) : Host.Outcome State Fault Refusal := s.done (f s.fresh)

/-- A command addressed to die `d`. -/
def State.onDie (s : State) (d : Nat) (f : Mach → Mach) : Host.Outcome State Fault Refusal :=
  if d < s.m.dies.length then s.run f else .fault (.absentDie d)

/-- A command addressed to unit `i` of `n` on die `d`. -/
def State.onUnit (s : State) (d i n : Nat) (f : Mach → Mach) : Host.Outcome State Fault Refusal :=
  if i < n then s.onDie d f else .fault (.absentUnit i)

/-- A command that may meet a case of R414. -/
def State.tryRun (s : State) (f : Mach → Except Fault Mach) : Host.Outcome State Fault Refusal :=
  match f s.fresh with
  | .ok m => s.done m
  | .error e => .fault e

/-- An event whose condition does not hold has no effect (log entry 8). -/
def Mach.when (m : Mach) (c : Bool) (f : Mach → Mach) : Mach := if c then f m else m

/-! ## Dies -/

def Mach.n (m : Mach) : Nat := m.dies.length

def Mach.die (m : Mach) (d : Nat) : Die := m.dies.getD d Die.reset

/-- Changing one die. -/
def Mach.upd (m : Mach) (d : Nat) (f : Die → Die) : Mach := { m with dies := m.dies.modify d f }

/-- Doing something for every die, in the order of their numbers. -/
def Mach.eachDie (m : Mach) (f : Mach → Nat → Mach) : Mach := (List.range m.n).foldl f m

def Mach.send (m : Mach) (o : Out) : Mach := { m with out := m.out ++ [o] }

def Mach.sendAll (m : Mach) (os : List Out) : Mach := { m with out := m.out ++ os }

/-! ## Free choices (log entry 1) -/

/-- The next free value. -/
def Mach.choice (m : Mach) : Nat :=
  match m.supply with
  | x :: _ => x
  | [] => Config.freeNat m.freeCtr

/-- The machine after a free value has been used. -/
def Mach.chosen (m : Mach) : Mach :=
  match m.supply with
  | _ :: t => { m with supply := t }
  | [] => { m with freeCtr := m.freeCtr + 1 }

/-- A free element of a list. -/
def Mach.pick {α : Type} (m : Mach) (l : List α) : Option α := l[m.choice % l.length]?

/-- `n` free values. -/
def Mach.choices : Mach → Nat → List Nat × Mach
  | m, 0 => ([], m)
  | m, n + 1 =>
    let r := Mach.choices m.chosen n
    (m.choice :: r.1, r.2)

/-- `n` free bytes. -/
def Mach.freeBytes (m : Mach) (n : Nat) : List Byte × Mach :=
  let r := m.choices n
  (r.1.map (BitVec.ofNat 8), r.2)

/-! ## Registers (R8 to R14) -/

/-- What a register reads as before anything has written it. -/
def regDflt (off : Nat) : DWord := BitVec.ofNat 64 (resetWord off)

def Die.reg (x : Die) (off : Nat) : Nat := (SMap.get regDflt x.regs off).toNat

def Die.setReg (x : Die) (off v : Nat) : Die := { x with regs := SMap.set regDflt x.regs off (BitVec.ofNat 64 v) }

/-- A field's value. -/
def Die.rd (x : Die) (f : Fld) : Nat := bits (x.reg f.off) f.lo f.w

def Die.wr (x : Die) (f : Fld) (v : Nat) : Die := x.setReg f.off (setBits (x.reg f.off) f.lo f.w v)

def Mach.rd (m : Mach) (d : Nat) (f : Fld) : Nat := (m.die d).rd f

def Mach.wr (m : Mach) (d : Nat) (f : Fld) (v : Nat) : Mach := m.upd d (fun x => x.wr f v)

/-- A status bit. -/
def Mach.on (m : Mach) (d : Nat) (f : Fld) : Bool := m.rd d f ≠ 0

def Mach.setBit (m : Mach) (d : Nat) (f : Fld) (b : Bool) : Mach := m.wr d f (b2n b)

/-- A saturating counter (their Meaning columns). -/
def Mach.bump (m : Mach) (d : Nat) (f : Fld) (k : Nat := 1) : Mach := m.wr d f (satAdd f.w (m.rd d f) k)

/-- Lowering a gauge. -/
def Mach.drop (m : Mach) (d : Nat) (f : Fld) (k : Nat := 1) : Mach := m.wr d f (m.rd d f - k)

/-- A high word latched by the read of its pair's low word (R9). -/
def Mach.latchHigh (m : Mach) (d off w : Nat) : Mach := m.upd d (fun x => { x with latch := SMap.set (fun _ => 0) x.latch off (w + 1) })

/-- Writing the same field on every die. -/
def Mach.wrAll (m : Mach) (f : Fld) (v : Nat) : Mach := m.eachDie (fun m d => m.wr d f v)

/-- A field on every die whose value the die decides. -/
def Mach.ens (m : Mach) : Nat := m.pw.ensign

/-! ## Time (R382 to R385) -/

/-- Pennant time of a clock (R382); while the fine count holds it is coarse * 1,088 (R383). -/
def Clock.now (c : Clock) : Nat := c.coarse * Config.finePerCoarse + (if c.fineRuns then c.phase else 0)

/-- How far the slew has moved after `k` more ticks: one tick in 16 (R385). -/
def Clock.slewSteps (c : Clock) (k : Nat) : Nat := min c.slew.natAbs ((c.slewPhase + k) / 16)

/-- The counters `t` fine steps later. -/
def Clock.step (c : Clock) (t : Nat) : Clock :=
  let p := c.phase + t
  let crossed := decide (Config.finePerCoarse ≤ p)
  { c with coarse := c.coarse + p / Config.finePerCoarse, phase := p % Config.finePerCoarse,
           fineRuns := c.fineRuns || (c.fineWait && crossed), fineWait := c.fineWait && !crossed }

/-- A clock `k` ticks later: a die found ahead holds one tick in every 16, one found behind advances one more (R385). -/
def Clock.tick (c : Clock) (k : Nat) : Clock :=
  let j := c.slewSteps k
  if 0 ≤ c.slew then { (c.step (k - j)) with slew := c.slew - j, slewPhase := (c.slewPhase + k) % 16 }
  else { (c.step (k + j)) with slew := c.slew + j, slewPhase := (c.slewPhase + k) % 16 }

/-- Setting the counters to a time. -/
def Clock.setTime (c : Clock) (t : Nat) : Clock :=
  { c with coarse := t / Config.finePerCoarse, phase := t % Config.finePerCoarse }

def Mach.now (m : Mach) (d : Nat) : Nat := (m.die d).clk.now

/-- `k` ticks pass on every die (log entry 9). -/
def Mach.pass (m : Mach) (k : Nat) : Mach :=
  { m with dies := m.dies.map (fun x => { x with clk := x.clk.tick k }) }

/-- An empty queue: one tick of time, while POR_N is not asserted (log entry 9). -/
def Mach.idle (m : Mach) : Mach := if m.pw.phase = .off then m else m.pass 1

/-- The ticks in which a clock's time advances by at least `k`: a slew that holds ticks back makes them more (R385), and a fine count
that does not run makes time coarse (R383). -/
def Clock.ticksFor (c : Clock) (k : Nat) : Nat :=
  let k := k + (if c.fineRuns then 0 else Config.finePerCoarse - 1)
  k + (if 0 < c.slew then min c.slew.natAbs ((c.slewPhase + k) / 15 + 1) else 0)

/-- The clocks run on until die `d`'s time is at least `t` (log entry 9). -/
def Mach.runTo (m : Mach) (d t : Nat) : Mach := if m.now d < t then m.pass ((m.die d).clk.ticksFor (t - m.now d)) else m

/-- The stamp that die `d` gives an event now: never below the last one, and above a carried stamp (R384). -/
def Mach.stamp (m : Mach) (d : Nat) (carried : Option Nat := none) : Nat :=
  max (max (m.now d) (m.die d).clk.last) (match carried with | some t => t + 1 | none => 0)

/-- Stamp `t` issued on die `d` (TB_LAST_STAMP, R384). -/
def Mach.issue (m : Mach) (d t : Nat) : Mach :=
  m.upd d (fun x => { x with clk := { x.clk with last := max x.clk.last t } })

/-! ## Power phases -/

/-- POR_N is not asserted. -/
def Mach.powered (m : Mach) : Bool := m.pw.phase ≠ .off

def Mach.halted (m : Mach) : Bool := m.pw.phase = .halfMast

/-- The package serves: full, dipped or in furled entry. -/
def Mach.serving (m : Mach) : Bool :=
  match m.pw.phase with
  | .run | .furling _ => true
  | _ => false

/-- Powered, and not in half-mast. -/
def Mach.alive (m : Mach) : Bool := m.powered && !m.halted

/-- A die ready for jobs and requests (OPS_STATUS.READY). -/
def Mach.ready (m : Mach) (d : Nat) : Bool := m.serving && m.on d Reg.OPS_STATUS.READY

/-- Something that abandons a running furled entry arises: bit `b` of PWR_FURL_BLOCK names it (R431). -/
def Mach.furlAbandon (m : Mach) (b : Nat) : Mach :=
  match m.pw.phase with
  | .furling _ => if m.pw.furlStop.isNone then { m with pw := { m.pw with furlStop := some b } } else m
  | _ => m

/-! ## Lists of records -/

def listGet {α : Type} (l : List α) (p : α → Bool) : Option α := l.find? p

/-- The smallest number from 0 that `used` does not hold. -/
def firstFree (used : List Nat) (bound : Nat) : Option Nat := (List.range bound).find? (fun i => !used.contains i)

end Sys2Proof.Machine
end

