-- ==== Sys2Proof/Machine/Flags.lean ====
section
/-! DEFINITION. Pennants and their logs (R393 to R400), interrupt vectors and event records (R266 to R269), alert causes
and non-maskable events (R409), leaky buckets (R406 to R408). -/

namespace Sys2Proof.Machine

/-! ## Sources and codes (R395, R397) -/

/-- UNIT values (R395). -/
def uAon : Nat := 0x00
def uMgmt : Nat := 0x01
def uRing : Nat := 0x02
def uTier : Nat := 0x03
def uQos : Nat := 0x04
def uErr : Nat := 0x05
def uOperand : Nat := 0x06
def uLoad : Nat := 0x07
def uEncoder : Nat := 0x08
def uEngine : Nat := 0x09
def uFetch : Nat := 0x0A
def uStage : Nat := 0x0B
def uPort : Nat := 0x0C
def uDmc (c : Nat) : Nat := 0x10 + c
def uFlash (c : Nat) : Nat := 0x20 + c
def uLink (i : Nat) : Nat := 0x30 + i

/-- Class and code of an event (R397). -/
structure PCode where
  cls : Nat
  code : Nat
deriving DecidableEq, Repr

def pBoot : PCode := ⟨0x01, 0x01⟩
def pHostTime : PCode := ⟨0x01, 0x02⟩
def pClockFail : PCode := ⟨0x01, 0x03⟩
def pHalyardErr : PCode := ⟨0x01, 0x04⟩
def pAnchorStep : PCode := ⟨0x01, 0x05⟩
def pOfftime : PCode := ⟨0x01, 0x06⟩
def pEarlyLost : PCode := ⟨0x01, 0x07⟩
def pImageLoaded : PCode := ⟨0x02, 0x01⟩
def pCheckFail : PCode := ⟨0x02, 0x02⟩
def pClassDisabled : PCode := ⟨0x02, 0x03⟩
def pPresence : PCode := ⟨0x02, 0x04⟩
def pDebugUnlock : PCode := ⟨0x02, 0x05⟩
def pVersionMismatch : PCode := ⟨0x02, 0x06⟩
def pDebugRefused : PCode := ⟨0x02, 0x07⟩
def pEntryIgnored : PCode := ⟨0x02, 0x08⟩
def pInstall : PCode := ⟨0x03, 0x01⟩
def pActivate : PCode := ⟨0x03, 0x02⟩
def pConfirm : PCode := ⟨0x03, 0x03⟩
def pFallback : PCode := ⟨0x03, 0x04⟩
def pOffer : PCode := ⟨0x04, 0x01⟩
def pAccept : PCode := ⟨0x04, 0x02⟩
def pWithdraw : PCode := ⟨0x04, 0x03⟩
def pRelease : PCode := ⟨0x04, 0x04⟩
def pNotice : PCode := ⟨0x04, 0x05⟩
def pRevoke : PCode := ⟨0x04, 0x06⟩
def pLeaseRefused : PCode := ⟨0x04, 0x07⟩
def pExtState : PCode := ⟨0x04, 0x08⟩
def pSeal : PCode := ⟨0x04, 0x09⟩
def pDropped : PCode := ⟨0x04, 0x0A⟩
def pPromote : PCode := ⟨0x05, 0x01⟩
def pEvict : PCode := ⟨0x05, 0x02⟩
def pSettle : PCode := ⟨0x05, 0x03⟩
def pTierMiss : PCode := ⟨0x05, 0x04⟩
def pLost : PCode := ⟨0x05, 0x05⟩
def pRelocate : PCode := ⟨0x05, 0x06⟩
def pRedirect : PCode := ⟨0x05, 0x07⟩
def pPreloadStop : PCode := ⟨0x05, 0x08⟩
def pCheckpoint : PCode := ⟨0x05, 0x09⟩
def pPreloadSkip : PCode := ⟨0x05, 0x0A⟩
def pJobAccept : PCode := ⟨0x06, 0x01⟩
def pJobStart : PCode := ⟨0x06, 0x02⟩
def pJobFinish : PCode := ⟨0x06, 0x03⟩
def pJobRefused : PCode := ⟨0x06, 0x04⟩
def pRingDisabled : PCode := ⟨0x06, 0x05⟩
def pSummaryMiss : PCode := ⟨0x06, 0x06⟩
def pDramBucket : PCode := ⟨0x07, 0x01⟩
def pDramUe : PCode := ⟨0x07, 0x02⟩
def pFreeze : PCode := ⟨0x07, 0x03⟩
def pChRelease : PCode := ⟨0x07, 0x04⟩
def pTrainFail : PCode := ⟨0x07, 0x05⟩
def pRhEvent : PCode := ⟨0x07, 0x06⟩
def pFlashBucket : PCode := ⟨0x08, 0x01⟩
def pLadderFail : PCode := ⟨0x08, 0x02⟩
def pGrownBad : PCode := ⟨0x08, 0x03⟩
def pChDown : PCode := ⟨0x08, 0x04⟩
def pEndurance : PCode := ⟨0x08, 0x05⟩
def pSweep : PCode := ⟨0x08, 0x06⟩
def pCodecFail : PCode := ⟨0x09, 0x01⟩
def pHeaderFail : PCode := ⟨0x09, 0x02⟩
def pRecode : PCode := ⟨0x09, 0x03⟩
def pFabricBucket : PCode := ⟨0x0A, 0x01⟩
def pLinkDown : PCode := ⟨0x0A, 0x02⟩
def pHeartbeatLost : PCode := ⟨0x0A, 0x03⟩
def pNegFail : PCode := ⟨0x0B, 0x01⟩
def pFlr : PCode := ⟨0x0B, 0x02⟩
def pLinkReset : PCode := ⟨0x0B, 0x03⟩
def pBmeAbort : PCode := ⟨0x0B, 0x04⟩
def pCplTimeout : PCode := ⟨0x0B, 0x05⟩
def pPoisonedLine : PCode := ⟨0x0C, 0x01⟩
def pBiTimeout : PCode := ⟨0x0C, 0x02⟩
def pScaled : PCode := ⟨0x0D, 0x01⟩
def pPowerState : PCode := ⟨0x0E, 0x01⟩
def pThrottle : PCode := ⟨0x0E, 0x02⟩
def pThermalTrip : PCode := ⟨0x0E, 0x03⟩
def pHalfMast : PCode := ⟨0x0E, 0x04⟩
def pReset : PCode := ⟨0x0E, 0x05⟩
def pReplicate : PCode := ⟨0x0F, 0x01⟩
def pRole : PCode := ⟨0x0F, 0x02⟩
def pPushFail : PCode := ⟨0x0F, 0x03⟩
def pStageBucket : PCode := ⟨0x10, 0x01⟩
def pStageUe : PCode := ⟨0x10, 0x02⟩
def pFlipApplied : PCode := ⟨0x11, 0x01⟩
def pSplitApplied : PCode := ⟨0x11, 0x02⟩
def pIngressRead : PCode := ⟨0x12, 0x01⟩
def pIngressWrite : PCode := ⟨0x12, 0x02⟩

/-- FLAGS bits (R396). -/
def fGap : Nat := 1
def fIto : Nat := 2
def fOverflow : Nat := 4
def fNmi : Nat := 8
def fEarly : Nat := 16
def fRaised : Nat := 32
def fArg : Nat := 64

/-! ## Records -/

/-- The head record of a pennant (R393). -/
def packHead (time pkg die unit seq flags cls code detail : Nat) : BitVec 128 :=
  BitVec.ofNat 128 (time % 2 ^ 64 + pkg % 32 * 2 ^ 64 + die % 8 * 2 ^ 69 + unit % 256 * 2 ^ 72 + seq % 65536 * 2 ^ 80
    + flags % 256 * 2 ^ 96 + cls % 256 * 2 ^ 104 + code % 256 * 2 ^ 112 + detail % 256 * 2 ^ 120)

/-- An argument record: an 88-bit payload, low part first, round the layout of [103:64] with ARG set (R398). -/
def packArg (payload pkg die unit seq flags : Nat) : BitVec 128 :=
  BitVec.ofNat 128 (payload % 2 ^ 64 + pkg % 32 * 2 ^ 64 + die % 8 * 2 ^ 69 + unit % 256 * 2 ^ 72 + seq % 65536 * 2 ^ 80
    + (flags % 64 + fArg) * 2 ^ 96 + payload / 2 ^ 64 % 2 ^ 24 * 2 ^ 104)

/-- Is a record an argument record? -/
def isArg (r : BitVec 128) : Bool := bit r.toNat 102

/-- A record's SEQ. -/
def recSeq (r : BitVec 128) : Nat := bits r.toNat 80 16

/-- An early record with its time raised by P_0 (R390). -/
def raiseEarly (p0 : Nat) (r : BitVec 128) : BitVec 128 :=
  if isArg r then r else BitVec.ofNat 128 (setBits r.toNat 0 64 (bits r.toNat 0 64 + p0))

/-- Records in the log ring (R399). -/
def Die.logSize (x : Die) : Nat := 2 ^ clamp 16 24 (x.rd Reg.ERR_LOG_CTRL.SIZE_LOG2)

/-- One record into the log ring: a full ring loses its oldest (R399). -/
def Die.logAppend (x : Die) (r : BitVec 128) : Die :=
  let size := x.logSize
  let full := decide (size ≤ x.log.ring.length)
  let ring := r :: (if full then x.log.ring.take (size - 1) else x.log.ring)
  let nxt := (x.rd Reg.ERR_LOG_NEXT.INDEX + 1) % size
  let x1 := { x with log := { x.log with ring := ring } }
  let x2 := (x1.wr Reg.ERR_LOG_NEXT.INDEX nxt).wr Reg.ERR_LOG_OLDEST.INDEX ((nxt + size - ring.length % size) % size)
  if full then x2.wr Reg.ERR_LOG_OVERWRITTEN.COUNT (satAdd 32 (x2.rd Reg.ERR_LOG_OVERWRITTEN.COUNT) 1) else x2

/-- The always-on block keeps the last 256 records (R400). -/
def Die.aonAppend (x : Die) (r : BitVec 128) : Die :=
  { x with log := { x.log with aon := r :: x.log.aon.take 255 } }

/-- SEQ of the next record; before time is established BOOT and its argument keep 0 and 1 (R394, log entry 10). -/
def Die.nextSeq (x : Die) : Nat :=
  if x.clk.provisional then 2 + x.log.early.length else x.rd Reg.ERR_SEQ.NEXT

/-- A head record with its argument records into the logs of one die: the early buffer of 1,024 records while time is
provisional (R390), the always-on record alone in half-mast (R400, R410), else both. -/
def Die.logGroup (x : Die) (halfMast : Bool) (rs : List (BitVec 128)) : Die :=
  let x := rs.foldl Die.aonAppend x
  if x.clk.provisional then
    if x.log.early.length + rs.length ≤ 1024 then
      { x with log := { x.log with early := x.log.early ++ rs } }
    else { x with log := { x.log with earlyLost := x.log.earlyLost + 1 } }
  else
    let x := x.wr Reg.ERR_SEQ.NEXT ((x.rd Reg.ERR_SEQ.NEXT + rs.length) % 65536)
    if halfMast then x else rs.foldl Die.logAppend x

/-- The FLAGS that the time base sets (R391, R392, R390). -/
def Clock.flags (c : Clock) : Nat :=
  (if c.gap then fGap else 0) + (if c.ito then fIto else 0) + (if c.provisional then fEarly else 0)

/-- The records of one pennant. -/
def Die.records (x : Die) (pkg d unit : Nat) (pc : PCode) (t flags detail : Nat) (args : List Nat) : List (BitVec 128) :=
  packHead t pkg d unit x.nextSeq flags pc.cls pc.code detail ::
    (args.zipIdx 1).map (fun a => packArg a.1 pkg d unit (x.nextSeq + a.2) flags)

/-- Die `d` stamps and writes one pennant (R384, R393). -/
def Mach.note (m : Mach) (d unit : Nat) (pc : PCode) (detail : Nat := 0) (args : List Nat := []) (flags : Nat := 0)
    (carried : Option Nat := none) : Mach :=
  let t := m.stamp d carried
  let raised := if m.stamp d < t then fRaised else 0
  let m := m.issue d t
  let half := m.halted
  m.upd d (fun x => x.logGroup half (x.records m.pw.poolId d unit pc t (flags + raised + x.clk.flags) detail args))

/-! ## Logical devices, vectors and event records (R258, R266 to R269) -/

def ldPort (ld : Nat) : Nat := ld / 16
def ldIdx (ld : Nat) : Nat := ld % 16

def Mach.ld (m : Mach) (ld : Nat) : LdRec := SMap.get (fun _ => LdRec.reset) m.lds ld

def Mach.updLd (m : Mach) (ld : Nat) (f : LdRec → LdRec) : Mach :=
  { m with lds := SMap.set (fun _ => LdRec.reset) m.lds ld (f (m.ld ld)) }

/-- Does the image give the LD to a port? (R258) -/
def Mach.assigned (m : Mach) (ld : Nat) : Bool :=
  decide (ldPort ld < m.n) && m.on (ldPort ld) (Reg.PORT_LD_STATUS.ASSIGNED (ldIdx ld))

/-- The package's LDs. -/
def Mach.allLds (m : Mach) : List Nat := (List.range (16 * m.n)).filter m.assigned

/-- The half of the port that carries the LD (R255): 0 the whole port or half A, 1 half B. -/
def Mach.ldHalf (m : Mach) (ld : Nat) : Nat := m.rd (ldPort ld) (Reg.PORT_LD_STATUS.HALF (ldIdx ld))

/-- The LD's link is up. -/
def Mach.ldUp (m : Mach) (ld : Nat) : Bool :=
  if m.ldHalf ld = 1 then m.on (ldPort ld) Reg.PORT_STATUS.UP_B else m.on (ldPort ld) Reg.PORT_STATUS.UP_A

/-- The LD answers requests other than CXL.mem: its link is up, it is READY, and no FLR runs (R263, R282). -/
def Mach.ldAnswers (m : Mach) (ld : Nat) : Bool :=
  m.serving && m.assigned ld && m.ldUp ld && m.on (ldPort ld) (Reg.PORT_LD_STATUS.READY (ldIdx ld))
    && !m.on (ldPort ld) (Reg.PORT_LD_STATUS.FLR_ACTIVE (ldIdx ld))

def Mach.bme (m : Mach) (ld : Nat) : Bool := m.on (ldPort ld) (Reg.PORT_LD_STATUS.BME (ldIdx ld))

def LdRec.vec (r : LdRec) (v : Nat) : MsixVec := SMap.get (fun _ => MsixVec.reset) r.vecs v

def LdRec.setVec (r : LdRec) (v : Nat) (x : MsixVec) : LdRec :=
  { r with vecs := SMap.set (fun _ => MsixVec.reset) r.vecs v x }

/-- Every condition of R268 for sending vector `v` holds. -/
def Mach.canSend (m : Mach) (ld v : Nat) : Bool :=
  m.on (ldPort ld) (Reg.PORT_LD_STATUS.MSIX_EN (ldIdx ld)) && !(m.ld ld).functionMask
    && !((m.ld ld).vec v).mask && m.bme ld

/-- A vector becomes due: sent at once, or its pending bit is set (R268). -/
def Mach.raiseVec (m : Mach) (ld v : Nat) : Mach :=
  let x := (m.ld ld).vec v
  if m.canSend ld v then m.send (.msix ld v x.addr x.data)
  else m.updLd ld (fun r => r.setVec v { x with pend := true })

/-- Pending vectors whose conditions now hold are sent once, in the order of their numbers (R268, R279). -/
def Mach.sendPending (m : Mach) (ld : Nat) : Mach :=
  (m.ld ld).vecs.foldl (fun m p =>
    if p.2.pend && m.canSend ld p.1 then
      (m.updLd ld (fun r => r.setVec p.1 { p.2 with pend := false })).send (.msix ld p.1 p.2.addr p.2.data)
    else m) m

/-- The vector of an event log: the one that the policy names; by default vector 0 for the fatal log alone (R269). -/
def LdRec.policyOf (r : LdRec) (log : EventLog) : Option Nat :=
  match r.policy.find? (fun p => decide (p.1 = log)) with
  | some p => p.2
  | none => if log = .fatal then some 0 else none

/-- A record into an LD's event log, and the log's vector raised (R268, R269). -/
def Mach.event (m : Mach) (ld : Nat) (log : EventLog) (kind : Nat) (args : List Nat) : Mach :=
  let e : EventRec := ⟨log, kind, args, m.now (ldPort ld)⟩
  let m := m.updLd ld (fun r => { r with events := r.events ++ [e] })
  match (m.ld ld).policyOf log with
  | some v => m.raiseVec ld v
  | none => m

/-! ## Alerts and non-maskable events (R409) -/

/-- Is an alert cause of the die latched and not masked? -/
def Die.alert (x : Die) : Bool :=
  x.rd Reg.ERR_NMI_STATUS.CLOCK ≠ 0 || x.rd Reg.ERR_NMI_STATUS.FREEZE ≠ 0 || x.rd Reg.ERR_NMI_STATUS.THERMAL ≠ 0
  || x.rd Reg.ERR_NMI_STATUS.HALF_MAST ≠ 0
  || (x.rd Reg.ERR_BUCKET_OVF.OVF ≠ 0 && x.rd Reg.ERR_ALERT_MASK.BUCKET = 0)
  || (x.rd Reg.ERR_ALERT_CAUSE.LOST ≠ 0 && x.rd Reg.ERR_ALERT_MASK.LOST = 0)
  || (x.rd Reg.ERR_ALERT_CAUSE.LINK ≠ 0 && x.rd Reg.ERR_ALERT_MASK.LINK = 0)

/-- SVC_ALERT_N asserted (R409); released while POR_N is asserted (R440). -/
def Mach.alertLow (m : Mach) : Bool := m.powered && m.dies.any Die.alert

/-- A non-maskable event of die `d`: its status bit, its pennant with NMI set, a fatal record in every LD's log and the
event vector of every LD whose port is up (R409, R269). -/
def Mach.nmi (m : Mach) (d : Nat) (b : Fld) (unit : Nat) (pc : PCode) (detail : Nat := 0) (args : List Nat := []) : Mach :=
  let m := (m.wr d b 1).note d unit pc detail args fNmi
  let rec1 (m : Mach) (ld : Nat) : Mach :=
    if m.ldUp ld then m.event ld .fatal 0 [b.lo, d]
    else m.updLd ld (fun r => { r with events := r.events ++ [⟨.fatal, 0, [b.lo, d], m.now d⟩] })
  m.allLds.foldl rec1 m

/-- The target that an injection is set to: 3 acts as 0 (R411, R416). -/
def Mach.flipTarget (m : Mach) (d : Nat) : Nat := m.rd d Reg.ERR_FLIP_CTRL.TARGET % 3

/-! ## Leaky buckets (R406 to R408) -/

/-- UNIT and BUCKET_OVF code of bucket `i` (R395, R397, R406). -/
def bucketSource (i : Nat) : Nat × PCode :=
  if i < 12 then (uDmc i, pDramBucket)
  else if i < 20 then (uFlash (i - 12), pFlashBucket)
  else if i < 52 then (uStage, pStageBucket)
  else (uLink (i - 52), pFabricBucket)

/-- A correctable event of bucket `i` (R407), which may overflow (R408). -/
def Mach.correctable (m : Mach) (d i : Nat) : Mach :=
  let depth := max 1 (m.rd d (Reg.ERR_BUCKET_DEPTH.DEPTH i))
  let lvl := m.rd d (Reg.ERR_BUCKET_LEVEL.LEVEL i)
  if lvl + 1 ≤ depth then m.wr d (Reg.ERR_BUCKET_LEVEL.LEVEL i) (lvl + 1)
  else
    let src := bucketSource i
    let m := m.wr d (Reg.ERR_BUCKET_LEVEL.LEVEL i) (depth / 2)
    let m := m.upd d (fun x => x.wr Reg.ERR_BUCKET_OVF.OVF (setBits (x.rd Reg.ERR_BUCKET_OVF.OVF) i 1 1))
    let m := m.note d src.1 src.2 i
    match m.cfg.mgmtLd with
    | some ld => m.event ld .info 1 [d, i]
    | none => m

/-- The end of a leak interval (R407). -/
def Mach.leak (m : Mach) (d i : Nat) : Mach := m.drop d (Reg.ERR_BUCKET_LEVEL.LEVEL i) 1

end Sys2Proof.Machine
end

