-- ==== Sys2Proof/Machine/Image.lean ====
section
/-! DEFINITION. The NOR (R447 to R450), the image header and configuration slot (R451, R453), the reading of sections and
entries (R460 to R467, R475, R505, R530 to R534), the firmware header and validity (R490, R491). -/

namespace Sys2Proof.Machine

/-! ## The NOR array -/

def Nor.bytes (x : Nor) (off n : Nat) : List Byte := SMap.getRun erasedByte x.array off n

/-- Programming clears bits only: each byte becomes its conjunction with the old one. -/
def Nor.program (x : Nor) (off : Nat) (bs : List Byte) : Nor :=
  { x with array := (bs.zipIdx off).foldl (fun a p => SMap.set erasedByte a p.2 (SMap.get erasedByte a p.2 &&& p.1)) x.array }

def Nor.erase (x : Nor) (off n : Nat) : Nor := { x with array := SMap.dropRange x.array off (off + n) }

/-- Erased and then programmed. -/
def Nor.rewrite (x : Nor) (off : Nat) (bs : List Byte) : Nor :=
  { x with array := SMap.setRun erasedByte (SMap.dropRange x.array off (off + bs.length)) off bs }

/-- One area copied over another of the same length (R492). -/
def Nor.copyArea (x : Nor) (src dst len : Nat) : Nor :=
  let moved := (x.array.filter (fun p => decide (src ≤ p.1) && decide (p.1 < src + len)))
  let cleared := SMap.dropRange x.array dst (dst + len)
  { x with array := moved.foldl (fun a p => SMap.set erasedByte a (p.1 - src + dst) p.2) cleared }

/-- Offsets of R450. -/
def norIdentity : Nat := 0x1000
def norCfgSlot (b : Nat) : Nat := if b = 0 then 0x1000000 else 0x1800000
def norFwSlot (b : Nat) : Nat := if b = 0 then 0x2000000 else 0x3000000
def norBbt (die : Nat) : Nat := 0x800000 + die * 0x100000

/-- Bytes of a firmware slot that an image may use; the last 64 KiB of the backup slot hold the install record (R490, R493). -/
def fwSlotLen : Nat := 16711680

/-! ## Header and slots -/

def hdrLength (h : List Byte) : Nat := clamp 64 4096 (field h 6 2)

def hdrActive (h : List Byte) : Nat := bits (field h 8 1) 0 1

/-- Check 1 of R457 on the header. -/
def hdrCrcOk (h : List Byte) : Bool := decide (crcSkip12 h (hdrLength h) = field h 12 4)

/-- The header rewritten with CFG_ACTIVE naming slot `b` and its CRC (R494, R496). -/
def Nor.setActive (x : Nor) (b : Nat) : Nor :=
  let h := x.bytes 0 4096
  let h1 := h.take 8 ++ [BitVec.ofNat 8 (setBits (field h 8 1) 0 1 b)] ++ h.drop 9
  let h2 := h1.take 12 ++ leBytes 4 (crcSkip12 h1 (hdrLength h1)) ++ h1.drop 16
  x.rewrite 0 h2

/-- A directory entry: section ID, slot offset, length (R453). -/
def dirEntry (slot : List Byte) (i : Nat) : Nat × Nat × Nat :=
  (field slot (64 + 16 * i) 2, field slot (64 + 16 * i + 4) 4, field slot (64 + 16 * i + 8) 4)

def slotDir (slot : List Byte) : List (Nat × Nat × Nat) := (List.range (field slot 6 2)).map (dirEntry slot)

/-- LENGTH within its range (R453). -/
def slotLengthOk (slot : List Byte) : Bool := decide (64 ≤ field slot 8 4) && decide (field slot 8 4 ≤ 8388608)

def slotCrcOk (slot : List Byte) : Bool := decide (crcSkip12 slot (field slot 8 4) = field slot 12 4)

/-- Directory and sections within LENGTH (R453). -/
def slotStructOk (slot : List Byte) : Bool :=
  let len := field slot 8 4
  let k := field slot 6 2
  decide (1 ≤ k) && decide (k ≤ 32) && decide (64 + 16 * k ≤ len)
    && (slotDir slot).all (fun e => decide (e.2.1 + e.2.2 ≤ len))

/-! ## Entries (R461) -/

/-- An entry: tag, index, value bytes, offset in the slot. -/
structure Entry where
  tag : Nat
  idx : Nat
  val : List Byte
  off : Nat
deriving DecidableEq, Repr

/-- The entries of a section, and the offset of one that would run past its end. -/
def parseEntries (sec : List Byte) (base : Nat) : Nat → Nat → List Entry × Option Nat
  | 0, _ => ([], none)
  | fuel + 1, off =>
    if sec.length ≤ off then ([], none)
    else if sec.length < off + 8 then ([], some (base + off))
    else
      let len := field sec (off + 4) 4
      if sec.length < off + 8 + len then ([], some (base + off))
      else
        let e : Entry := ⟨field sec off 2, field sec (off + 2) 2, sub sec (off + 8) len, base + off⟩
        let r := parseEntries sec base fuel (off + 8 + (len + 3) / 4 * 4)
        (e :: r.1, r.2)

/-- A field of a section table (R462): tag, whether indexed and the number of indices, width in bytes. -/
structure ImgField where
  tag : Nat
  idx : Option Nat
  bytes : Nat
deriving DecidableEq, Repr

/-- The fields of section `id` in a package of `n` dies (R463 to R467, R475, R505, R530 to R534). -/
def imgFields (n id : Nat) : List ImgField :=
  match id with
  | 1 => [⟨1, none, 1⟩, ⟨2, none, 1⟩, ⟨3, none, 1⟩, ⟨4, none, 2⟩, ⟨5, none, 8⟩, ⟨6, none, 1⟩, ⟨7, some 32, 8⟩,
          ⟨8, some n, 1⟩, ⟨9, none, 1⟩]
  | 2 => [⟨1, some 6, 6⟩, ⟨2, none, 2⟩, ⟨3, none, 4⟩, ⟨4, none, 1⟩]
  | 3 => [⟨1, none, 1⟩, ⟨2, none, 1⟩, ⟨3, none, 1⟩, ⟨4, none, 2⟩, ⟨5, none, 2⟩, ⟨6, none, 2⟩, ⟨7, some 5, 2⟩]
  | 4 => [⟨1, none, 1⟩, ⟨2, none, 1⟩, ⟨3, none, 1⟩, ⟨4, none, 1⟩, ⟨5, none, 2⟩, ⟨6, none, 4⟩, ⟨7, none, 2⟩, ⟨8, none, 1⟩,
          ⟨9, none, 2⟩, ⟨0xA, none, 2⟩]
  | 5 => [⟨1, none, 2⟩, ⟨2, none, 3⟩, ⟨3, some n, 1⟩, ⟨4, none, 2⟩, ⟨5, none, 2⟩, ⟨6, none, 4⟩, ⟨7, none, 3⟩, ⟨8, none, 2⟩,
          ⟨9, none, 1⟩, ⟨0xA, none, 1⟩, ⟨0xB, none, 2⟩]
  | 6 => [⟨1, some 194, 3⟩, ⟨2, some 194, 3⟩, ⟨3, some 194, 1⟩, ⟨4, none, 3⟩, ⟨5, none, 2⟩, ⟨6, none, 2⟩, ⟨7, none, 2⟩]
  | 7 => [⟨1, none, 1⟩, ⟨2, some n, 1⟩, ⟨3, some (16 * n), 4⟩, ⟨4, some (16 * n), 4⟩, ⟨5, some (16 * n), 4⟩, ⟨6, none, 3⟩,
          ⟨7, none, 1⟩, ⟨8, some 255, 8⟩, ⟨9, none, 2⟩]
  | 8 => [⟨1, none, 1⟩, ⟨2, some 64, 2⟩, ⟨3, some 64, 1⟩, ⟨4, some 65536, 8⟩, ⟨5, none, 2⟩, ⟨6, none, 2⟩]
  | 9 => [⟨1, some 65536, 12⟩]
  | 10 => [⟨1, some 55, 2⟩, ⟨2, some 55, 3⟩, ⟨3, none, 1⟩, ⟨4, none, 1⟩, ⟨5, none, 1⟩]
  | 12 => [⟨1, none, 1⟩, ⟨2, some 32, 16⟩, ⟨3, none, 3⟩, ⟨4, none, 2⟩]
  | 13 => [⟨1, none, 1⟩, ⟨2, none, 4⟩]
  | _ => []

/-- Is the entry's index one that its field has (R461)? -/
def ImgField.idxOk (f : ImgField) (i : Nat) : Bool :=
  match f.idx with
  | none => decide (i = 0)
  | some n => decide (i < n)

/-- A section as read: entries that count, and the offsets of those ignored for index or length (R461). -/
structure SecRead where
  id : Nat
  entries : List Entry
  ignored : List Nat
deriving DecidableEq, Repr

def readSection (n : Nat) (slot : List Byte) (e : Nat × Nat × Nat) : SecRead :=
  let sec := sub slot e.2.1 e.2.2
  let p := parseEntries sec e.2.1 (sec.length + 1) 0
  let fields := imgFields n e.1
  let known (x : Entry) : Option ImgField := fields.find? (fun f => decide (f.tag = x.tag))
  let good (x : Entry) : Bool := match known x with
    | some f => f.idxOk x.idx
    | none => decide (e.1 = 11)
  let bad (x : Entry) : Bool := match known x with
    | some f => !f.idxOk x.idx
    | none => false
  ⟨e.1, p.1.filter good, (p.1.filter bad).map (·.off) ++ p.2.toList⟩

/-- The sections of a slot: the first directory entry of each known ID (R453). -/
def readSlot (n : Nat) (slot : List Byte) : List SecRead :=
  let known := (slotDir slot).filter (fun e => decide (1 ≤ e.1) && decide (e.1 ≤ 13))
  let firsts := known.foldl (fun acc e => if acc.any (fun a => decide (a.1 = e.1)) then acc else acc ++ [e]) []
  firsts.map (readSection n slot)

/-- A field as the image gives it (R461): the last entry of the tag and index, its low bytes. -/
def imgGet (img : List SecRead) (n sec tag idx : Nat) : Option Nat :=
  match img.find? (fun s => decide (s.id = sec)) with
  | none => none
  | some s =>
    match s.entries.reverse.find? (fun e => decide (e.tag = tag) && decide (e.idx = idx)),
          (imgFields n sec).find? (fun f => decide (f.tag = tag)) with
    | some e, some f => some (leNat (e.val.take f.bytes))
    | _, _ => none

/-- The last entry of each index of an indexed field. -/
def imgList (img : List SecRead) (n sec tag : Nat) : List (Nat × Nat) :=
  match img.find? (fun s => decide (s.id = sec)) with
  | none => []
  | some s =>
    let idxs := sortBy id (distinct ((s.entries.filter (fun e => decide (e.tag = tag))).map (·.idx)))
    idxs.filterMap (fun i => (imgGet img n sec tag i).map (fun v => (i, v)))

/-- Check 3 at step 5 (R457): BOARD and its required entries present, DIES right. -/
def boardOk (n : Nat) (img : List SecRead) : Bool :=
  decide (imgGet img n 1 1 0 = some n) && (imgGet img n 1 2 0).isSome && (imgGet img n 1 5 0).isSome

/-! ## Loading (R456, R460) -/

/-- A value of the section tables with its default. -/
def imgVal (img : List SecRead) (n sec tag dflt idx : Nat) : Nat := (imgGet img n sec tag idx).getD dflt

/-- Default depth and leak of bucket `i` (R406). -/
def bucketDflt (i : Nat) : Nat × Nat :=
  if i < 12 then (32, 1000) else if i < 20 then (64, 60000) else if i < 52 then (8, 3600000) else (64, 1000)

/-- The masks of R291. -/
def maskDflt (i : Nat) : Nat := [0x20800, 0x41000, 0x82000, 0x104000, 0x208000, 0x410000].getD i 0

/-- The grants of stage memory to the classes (R154): defined classes in order, 384 MiB in all. -/
def stageGrants (classes : Nat) (want : Nat → Nat) : List Nat :=
  ((List.range 64).foldl (fun (acc : List Nat × Nat) c =>
    let g := if c < classes then min (want c) acc.2 else 0
    (acc.1 ++ [g], acc.2 - g)) ([], 384)).1

/-- Loading a register field on die `d` from the image. -/
def loadAll (fs : List (Fld × Nat)) (m : Mach) (d : Nat) : Mach := fs.foldl (fun m p => m.wr d p.1 p.2) m

/-- The unindexed register fields that the sections load (R463, R464, R465, R466, R530 to R534, R475, R505). -/
def imgScalars (n : Nat) (img : List SecRead) : List (Fld × Nat) :=
  let v (sec tag dflt : Nat) : Nat := imgVal img n sec tag dflt 0
  [ (Reg.DMC_CONFIG.DENSITY, v 1 2 0), (Reg.DMC_CONFIG.RETAIN, v 1 3 1), (Reg.DMC_PWR_RAMP.RAMP_US, v 1 4 2000),
    (Reg.FLC_CONFIG.DURABLE_LAG, v 1 6 0), (Reg.CFG_PRESENCE.KIND, v 1 9 0),
    (Reg.OPS_SCRATCH.SIZE_MIB, max 32 (v 2 2 32)), (Reg.TIER_T1_CACHE_MAX.PCT, v 2 4 12),
    (Reg.DMC_CONFIG.REFRESH, v 3 1 0), (Reg.DMC_CONFIG.RH_MODE, v 3 2 (if n = 8 then 1 else 0)),
    (Reg.DMC_CONFIG.ECC_MODE, v 3 3 0), (Reg.DMC_SR_IDLE.IDLE_US, v 3 4 20), (Reg.DMC_RH_THRESH.THRESH, v 3 5 2000),
    (Reg.DMC_FREEZE_HOLD.HOLD_MS, v 3 6 1),
    (Reg.FLC_CONFIG.STRENGTH_CAP, v 4 1 3), (Reg.FLC_CONFIG.AUTO_STRENGTH, v 4 2 0), (Reg.FLC_CONFIG.FOREIGN, v 4 3 0),
    (Reg.FLC_CONFIG.RETRY_LEN, v 4 4 0), (Reg.FLC_WEAR.PE_RATED, v 4 5 0), (Reg.FLC_TBW_BUDGET.TB, v 4 6 0),
    (Reg.FLC_SCRUB_PERIOD.HOURS, v 4 7 24), (Reg.FLC_SCRUB_THRESH.CE_PCT, v 4 8 50),
    (Reg.FLC_SCRUB_THRESH.AGE_DAYS, v 4 9 90), (Reg.FLC_OFFTIME_MAX.DAYS, v 4 0xA 365),
    (Reg.LSE_OPEN_BUDGET.BUDGET, v 5 1 4), (Reg.TIER_PIN_LIMIT.MIB, v 5 2 0), (Reg.TIER_MISS_HOLD.HOLD_US, v 5 4 40),
    (Reg.TIER_T2_MARKS.HIGH, v 5 5 0x555A % 256), (Reg.TIER_T2_MARKS.LOW, v 5 5 0x555A / 256),
    (Reg.TIER_THRESH.T2_MIN, v 5 6 0x01082001 % 256), (Reg.TIER_THRESH.T1_MIN, v 5 6 0x01082001 / 2 ^ 8),
    (Reg.TIER_THRESH.JOB_INC, v 5 6 0x01082001 / 2 ^ 16), (Reg.TIER_THRESH.HOST_INC, v 5 6 0x01082001 / 2 ^ 24),
    (Reg.TIER_HEAT_DECAY.PERIOD_S, v 5 7 60), (Reg.TIER_CKPT_PERIOD.PERIOD_S, v 5 8 60), (Reg.XC_CTRL.SPAN_LOG2, v 5 9 12),
    (Reg.PWR_CTRL.DIP_EN, v 5 0xA 1), (Reg.PWR_FURL_IDLE.MS, v 5 0xB 0),
    (Reg.QOS_MGMT_RATE.MBS, v 6 4 12000), (Reg.QOS_FEEDBACK.HIGH, v 6 5 0x4060 % 256),
    (Reg.QOS_FEEDBACK.LOW, v 6 5 0x4060 / 256), (Reg.QOS_FLASH_MIG.MBS, v 6 6 0), (Reg.QOS_FLASH_SCRUB.MBS, v 6 7 1500),
    (Reg.LSE_GRACE.GRACE_US, v 7 6 10000), (Reg.PORT_MGMT.LD, v 7 7 0xFF), (Reg.PORT_MGMT.VALID, b2n (v 7 7 0xFF ≠ 0xFF)),
    (Reg.OPS_ATT_WINDOW.WINDOW_US, v 8 5 200), (Reg.OPS_ATT_LEAD.LEAD_US, v 8 6 20),
    (Reg.ERR_LOG_CTRL.SIZE_LOG2, v 10 3 20), (Reg.ERR_FLIP_CTRL.ALLOWED, v 10 4 0),
    (Reg.ERR_ALERT_MASK.BUCKET, bits (v 10 5 2) 0 1), (Reg.ERR_ALERT_MASK.LOST, bits (v 10 5 2) 1 1),
    (Reg.ERR_ALERT_MASK.LINK, bits (v 10 5 2) 2 1),
    (Reg.POOL_ANCHOR_PERIOD.US, v 12 3 1000), (Reg.POOL_LOSS_TIMEOUT.MS, v 12 4 1000),
    (Reg.FW_STATUS.CONFIRM_MODE, v 13 1 0) ]

/-- The indexed register fields, those of die `d` among them. -/
def imgArrays (n : Nat) (img : List SecRead) (d : Nat) : List (Fld × Nat) :=
  let v := imgVal img n
  let port := v 1 8 1 d
  let classes := clamp 1 64 (v 8 1 1 0)
  let grants := stageGrants classes (fun c => v 8 2 (if c = 0 then 384 else 0) c)
  (List.range 32).flatMap (fun i => [(Reg.FLC_RETRY_TABLE.FEATURE i, v 1 7 0 i), (Reg.FLC_RETRY_TABLE.PARAM i, v 1 7 0 i / 2 ^ 8),
    (Reg.FLC_RETRY_TABLE.SOFT_LO i, v 1 7 0 i / 2 ^ 40), (Reg.FLC_RETRY_TABLE.SOFT_HI i, v 1 7 0 i / 2 ^ 41),
    (Reg.FLC_RETRY_TABLE.VALID i, v 1 7 0 i / 2 ^ 63)])
  ++ [(Reg.PORT_CTRL.ENABLE, bits port 0 1), (Reg.PORT_CTRL.BIFURCATE, bits port 1 1), (Reg.PORT_CTRL.SLD_A, bits port 2 1),
      (Reg.PORT_CTRL.SLD_B, bits port 3 1), (Reg.PORT_STATUS.DISABLED, 1 - bits port 0 1), (Reg.TIER_MISS_POLICY.POLICY, v 5 3 0 d)]
  ++ (List.range 16).flatMap (fun j =>
      let there := bit port 0 && decide (j < clamp 1 16 (v 7 2 1 d))
      [(Reg.PORT_LD_STATUS.ASSIGNED j, b2n there), (Reg.PORT_LD_STATUS.HALF j, b2n (bit port 1 && decide (8 ≤ j))),
       (Reg.PORT_LD_STATUS.LD j, 16 * d + j)])
  ++ (List.range 6).map (fun i => (Reg.DMC_MAP_MASK.MASK i, v 2 1 (maskDflt i) i))
  ++ (List.range 12).flatMap (fun c => (List.range 5).map (fun p =>
      (Reg.DMC_PORT_TARGET.TARGET_NS c p, v 3 7 ([250, 2000, 5000, 10000, 1000].getD p 0) p)))
  ++ (List.range 194).flatMap (fun i => [(Reg.QOS_GUAR.MBS i, v 6 1 0 i), (Reg.QOS_BORROW.MBS i, v 6 2 360000 i),
      (Reg.QOS_WINDOW.US i, v 6 3 8 i)])
  ++ (List.range 64).flatMap (fun c => [(Reg.OPS_CLASS_STAGE.MIB c, grants.getD c 0),
      (Reg.OPS_CLASS_STAGE.DISABLED c, b2n (decide (grants.getD c 0 < 4))), (Reg.OPS_CLASS_ATT.RESIDENT c, bits (v 8 3 0 c) 0 1),
      (Reg.OPS_CLASS_ATT.SUMMARY_DIM c, bits (v 8 3 0 c) 1 2)])
  ++ (List.range 55).flatMap (fun i => [(Reg.ERR_BUCKET_DEPTH.DEPTH i, v 10 1 (bucketDflt i).1 i),
      (Reg.ERR_BUCKET_LEAK.MS i, v 10 2 (bucketDflt i).2 i)])

/-- What the image holds beside the registers. -/
def imgConfig (n : Nat) (img : List SecRead) : ImageCfg :=
  let v := imgVal img n
  let ports := (List.range n).map (fun k => (k, if bit (v 1 8 1 k) 0 then clamp 1 16 (v 7 2 1 k) else 0))
  { dies := v 1 1 0 0, density := v 1 2 0 0, retain := v 1 3 1 0, flPop := v 1 5 0 0, portLocal := decide (v 7 1 0 0 = 1),
    mgmtLd := if v 7 7 0xFF 0 = 0xFF then none else some (v 7 7 0xFF 0),
    lds := ports, region0 := imgList img n 7 3, region1 := imgList img n 7 4, quota := imgList img n 7 5,
    linkdownS := v 7 9 0 0,
    statics := (imgList img n 7 8).map (fun p => ⟨p.1, bits p.2 0 8, bits p.2 8 8, bits p.2 16 8, bits p.2 32 32⟩),
    classes := clamp 1 64 (v 8 1 1 0), stageMib := (imgList img n 8 2),
    assigns := (imgList img n 8 4).map (fun p => ⟨bits p.2 0 16, bits p.2 16 16, bits p.2 32 7, bits p.2 40 6⟩),
    preload := (imgList img n 9 1).map (fun p => ⟨p.1, bits p.2 0 8, bits p.2 8 8, bits p.2 16 8, bit p.2 24, bits p.2 32 32,
      bits p.2 64 16, bits p.2 80 16⟩),
    mapEntries := v 2 3 0 0, poolRole := v 12 1 0 0, peers := (imgList img n 12 2).map (fun p => (p.1, bits p.2 0 16)), expectVersion := v 13 2 0 0,
    templates := match img.find? (fun s => decide (s.id = 11)) with
      | some s => s.entries.map (fun e => (e.tag, e.val))
      | none => [] }

/-! ## Firmware images (R490, R491) -/

/-- The header of the image in a firmware slot: 0 active, 1 backup. -/
def Nor.fwHeader (x : Nor) (slot : Nat) : List Byte := x.bytes (norFwSlot slot) 256

def fwMagicOk (h : List Byte) : Bool :=
  decide (field h 0 4 = 0x57465347) && decide (field h 4 2 = 1) && decide (256 ≤ field h 8 4)
    && decide (field h 8 4 + 96 ≤ fwSlotLen)

def fwVersion (h : List Byte) : Nat := field h 12 4
def fwSec (h : List Byte) : Nat := field h 16 4
def fwPeerMin (h : List Byte) : Nat := field h 20 4
def fwPeerMax (h : List Byte) : Nat := field h 24 4
def fwFmtMin (h : List Byte) : Nat := field h 28 1
def fwFmtMax (h : List Byte) : Nat := field h 29 1

/-- The image in a slot is valid (R491); key hash and signature come as the verdicts of their checks. -/
def Nor.fwValid (x : Nor) (slot : Nat) (v : FwVerdict) : Bool :=
  let h := x.fwHeader slot
  fwMagicOk h && v.keyHash && v.signature && decide (x.counter ≤ fwSec h)

/-- The signed bytes of the image in a slot (R490). -/
def Nor.fwSigned (x : Nor) (slot : Nat) : List Byte := x.bytes (norFwSlot slot) (field (x.fwHeader slot) 8 4)

end Sys2Proof.Machine
end

