-- ==== Sys2Proof/Machine/Halt.lean ====
section
/-! DEFINITION. Entering half-mast (R410, R435, R436), the power-state word (R427, R446), the start-up log (R441, R446), write
authority over the NOR (R471), and the fabric's links going down (R18, R23 to R25). -/

namespace Sys2Proof.Machine

/-! ## Power-state words -/

/-- PWR_STATE.STATE codes (R446). -/
def psFull : Nat := 0
def psDipped : Nat := 1
def psFurled : Nat := 2
def psHalfMast : Nat := 3

/-- A change of power state on die `d`, with its POWER STATE pennant (R427). -/
def Mach.powerState (m : Mach) (d st : Nat) : Mach :=
  if m.rd d Reg.PWR_STATE.STATE = st then m
  else (m.wr d Reg.PWR_STATE.STATE st).note d uAon pPowerState st

/-- Some unit of die `d` is gated (PWR_GATED). -/
def Mach.anyGated (m : Mach) (d : Nat) : Bool :=
  m.on d Reg.PWR_GATED.ENGINE || m.on d Reg.PWR_GATED.LOAD_EXP || m.on d Reg.PWR_GATED.ENCODER || m.on d Reg.PWR_GATED.STAGE
    || m.on d Reg.PWR_GATED.DMC || m.on d Reg.PWR_GATED.FLASH

/-- Work wakes a gated unit; the die is full again once no unit is gated (R427, R428). -/
def Mach.ungate (m : Mach) (d : Nat) (f : Fld) (i : Nat) : Mach :=
  if bit (m.rd d f) i then
    let m := m.wr d f (setBits (m.rd d f) i 1 0)
    if m.anyGated d then m else if m.rd d Reg.PWR_STATE.STATE = psDipped then m.powerState d psFull else m
  else m

/-- The end of start-up step `k` on die `d` (R441, PWR_START_STEP, PWR_START_LOG). -/
def Mach.startStep (m : Mach) (d k : Nat) : Mach :=
  (m.wr d Reg.PWR_START_STEP.STEP k).wr d (Reg.PWR_START_LOG.US (k - 1)) ((m.now d - m.pw.startedAt) / Config.us)

/-! ## Write authority (R471) -/

/-- Presence holds, or an install begun under presence has not been confirmed and has not fallen back. -/
def Mach.writeAuth (m : Mach) : Bool := m.pres.active || decide (m.fw.state ≠ 0)

/-- NVM_WP_N follows write authority; the block-protect bits are set again before it goes low (R449, R471). -/
def Mach.wpFollow (m : Mach) : Mach :=
  { m with nor := { m.nor with wpHigh := m.writeAuth, protect := !m.writeAuth } }

/-- Install state, with NVM_WP_N following (R471). -/
def Mach.fwState (m : Mach) (st : Nat) : Mach := ({ m with fw := { m.fw with state := st } }).wpFollow

/-! ## Half-mast -/

/-- Steps 2 and 3 of R436 on one die: ports down, device power off, flash stopped, PLL stopped on workers, only the control
domain kept on the ensign die; so the fine count holds (R383). -/
def Mach.darken (m : Mach) (d : Nat) : Mach :=
  let m := ((m.wr d Reg.PORT_STATUS.UP_A 0).wr d Reg.PORT_STATUS.UP_B 0).wr d Reg.DMC_DEV_STATUS.POWERED 0
  let m := (m.wr d Reg.DMC_DEV_STATUS.INIT_DONE 0).wr d Reg.DMC_DEV_STATUS.SELF_REFRESH 0
  let m := (m.wr d Reg.FLC_STATUS.READY 0).wr d Reg.OPS_STATUS.READY 0
  let m := (List.range 8).foldl (fun m c => m.wr d (Reg.FLC_CH_STATUS.STATE c) 4) m
  let m := if d = m.ens then m else m.wr d Reg.CLK_STATUS.PLL_LOCK 0
  m.upd d (fun x => { x with clk := { x.clk with fineRuns := false, fineWait := false } })

/-- Die `d` finds cause `c` of R435: the message goes out on the sideband, and every die enters half-mast (R436). The event of
the finding die reaches every LD; each other die sets its own status bit and writes its own pennant (R410, log entry 11). An
install in ACTIVATED falls back at once (R497). -/
def Mach.halfMast (m : Mach) (d c : Nat) : Mach :=
  if !m.alive then m
  else
    let m := { m with pw := { m.pw with phase := .halfMast, furlAsked := false } }
    let m := m.send (.sideband d 1)
    let m := m.nmi d Reg.ERR_NMI_STATUS.HALF_MAST uAon pHalfMast c
    let m := m.eachDie (fun m k =>
      let m := if k = d then m else (m.wr k Reg.ERR_NMI_STATUS.HALF_MAST 1).note k uAon pHalfMast c [] fNmi
      ((m.wr k Reg.PWR_STATE.HALF_MAST_CAUSE c).wr k Reg.PWR_STATE.FURL_PENDING 0).powerState k psHalfMast)
    let m := m.eachDie (fun m k => m.darken k)
    if m.fw.state = 5 then ({ m with nor := m.nor.setActive m.fw.cfgBefore }).fwState 6 else m

/-! ## Links (R18, R23 to R25) -/

/-- Link `i` of die `d` is one that the configuration uses (R18). -/
def Mach.linkUsed (m : Mach) (d i : Nat) : Bool := decide (d < m.n) && decide (i < 3) && decide (2 ^ i < m.n)

/-- The die at the other end of link `i` of die `d`. -/
def linkPeer (d i : Nat) : Nat := Nat.xor d (2 ^ i)

def linkKey (d i : Nat) : Nat := 3 * d + i

def Mach.linkUp (m : Mach) (d i : Nat) : Bool := m.linkUsed d i && m.fab.trained && !m.fab.down.contains (linkKey d i)

/-- The dies that `ds` reaches in one hop more over links that are not down. -/
def Mach.spread (m : Mach) (ds : List Nat) : List Nat :=
  (List.range m.n).filter (fun k => ds.contains k ||
    (List.range 3).any (fun i => m.linkUsed k i && !m.fab.down.contains (linkKey k i) && ds.contains (linkPeer k i)))

/-- The dies that the ensign die reaches (R25); seven rounds reach every die of a package of eight. -/
def Mach.reached (m : Mach) : List Nat :=
  m.spread (m.spread (m.spread (m.spread (m.spread (m.spread (m.spread [m.ens]))))))

/-! ## Routes and retry buffers (R18, R20, R22, R24) -/

/-- The hop count between two dies (R18). -/
def hopCount (a b : Nat) : Nat := popcount 3 (Nat.xor a b)

/-- Link `i` of die `k` is used, and neither of its ends is among the links `dn` that are down. -/
def Mach.linkLive (m : Mach) (dn : List Nat) (k i : Nat) : Bool :=
  m.linkUsed k i && !dn.contains (linkKey k i) && !dn.contains (linkKey (linkPeer k i) i)

/-- The routes of given length from `a` to `b` over live links, each as the links it takes in order. -/
def Mach.pathsOf (m : Mach) (dn : List Nat) (b : Nat) : Nat → Nat → List (List Nat)
  | 0, a => if a = b then [[]] else []
  | l + 1, a => (List.range 3).flatMap (fun i =>
      if m.linkLive dn a i then (m.pathsOf dn b l (linkPeer a i)).map (i :: ·) else [])

/-- The routes that a pair may be given: the minimal ones over live links, which are those of `hopCount a b` hops and resolve the
differing bits one at a time, or else those of fewest hops (R20, R24). -/
def Mach.linkRoutes (m : Mach) (dn : List Nat) (a b : Nat) : List (List Nat) :=
  (((List.range' (hopCount a b) 8).map (fun l => m.pathsOf dn b l a)).find? (fun ps => !ps.isEmpty)).getD []

/-- The one of them that the hash of source and extent chooses (R20, log entry 7). -/
def Mach.pickRoute (m : Mach) (dn : List Nat) (src ext a b : Nat) : List Nat :=
  let ps := m.linkRoutes dn a b
  ps.getD (Config.routeHash src ext % ps.length) []

/-- Does a route from `a` take the link whose key is `k`, in either direction? -/
def crossesLink (k : Nat) : Nat → List Nat → Bool
  | _, [] => false
  | a, i :: t => decide (linkKey a i = k) || decide (linkKey (linkPeer a i) i = k) || crossesLink k (linkPeer a i) t

/-- The route of a pair after some links went down, newest first: it changes only when a link of it goes down (R24). -/
def Mach.routeUnder (m : Mach) (src ext a b : Nat) : List Nat → List Nat
  | [] => m.pickRoute [] src ext a b
  | k :: t =>
    let r := m.routeUnder src ext a b t
    if crossesLink k a r then m.pickRoute (k :: t) src ext a b else r

/-- The route of a source and an extent from die `a` to die `b` (R20). -/
def Mach.route (m : Mach) (src ext a b : Nat) : List Nat := m.routeUnder src ext a b m.fab.down

/-- Sources of fabric traffic (R20): a host request's is its LD, which names the ingress die as well; device traffic's the issuing
unit on its die. -/
def unitSource (d unit : Nat) : Nat := 256 + 256 * d + unit

def Mach.unacked (m : Mach) (k : Nat) : List Flit := SMap.get (fun _ => []) m.fab.retry k

def Mach.setUnacked (m : Mach) (k : Nat) (fs : List Flit) : Mach :=
  { m with fab := { m.fab with retry := SMap.set (fun _ => []) m.fab.retry k fs } }

/-- A flit goes out on a link of die `s`, whose sending end keeps it (R22). -/
def Mach.putFlit (m : Mach) (s : Nat) (f : Flit) : Mach :=
  match f.rest with
  | [] => m
  | i :: t => m.setUnacked (linkKey s i) (m.unacked (linkKey s i) ++ [{ f with rest := t }])

/-- A request of a source to an extent crosses from die `a` to die `b` (R20, R30). -/
def Mach.cross (m : Mach) (src ext a b : Nat) : Mach := m.putFlit a ⟨src, ext, b, m.route src ext a b⟩

/-- A flit that has reached die `s` goes on: by its own route, or by a new one where that link is down (R24). -/
def Mach.forward (m : Mach) (s : Nat) (f : Flit) : Mach :=
  match f.rest with
  | [] => m
  | i :: _ => m.putFlit s (if m.linkUp s i then f else { f with rest := m.pickRoute m.fab.down f.src f.ext s f.dst })

/-- The flits that a failed link's sending end still kept are replayed on their pairs' new routes (R24). -/
def Mach.reroute (m : Mach) (s i : Nat) : Mach :=
  let fs := m.unacked (linkKey s i)
  fs.foldl (fun m f => m.putFlit s { f with rest := m.pickRoute m.fab.down f.src f.ext s f.dst }) (m.setUnacked (linkKey s i) [])

/-- A link goes down: both ends stop using it and write a pennant, what they had unacknowledged takes new routes, the alert cause is
latched on both, and the ensign die tests reachability (R23 to R25, R409). -/
def Mach.linkDown (m : Mach) (d i : Nat) : Mach :=
  if m.linkUsed d i && !m.fab.down.contains (linkKey d i) then
    let p := linkPeer d i
    let m := { m with fab := { m.fab with down := linkKey d i :: linkKey p i :: m.fab.down,
                                          replaying := m.fab.replaying.filter (fun k => k ≠ linkKey d i && k ≠ linkKey p i) } }
    let m := (m.reroute d i).reroute p i
    let m := (m.wr d Reg.ERR_ALERT_CAUSE.LINK 1).note d (uLink i) pLinkDown
    let m := (m.wr p Reg.ERR_ALERT_CAUSE.LINK 1).note p (uLink i) pLinkDown
    if m.reached.length = m.n then m else m.halfMast m.ens 3
  else m

end Sys2Proof.Machine
end

