-- ==== Sys2Proof/Machine/Qos.lean ====
section
/-! DEFINITION. The QoS unit (R360 to R381): credits, debts, the borrow pool, congestion and the borrow step, scaling. -/

namespace Sys2Proof.Machine

/-! ## Values with their ranges -/

def Mach.qGuar (m : Mach) (d i : Nat) : Nat := min 360000 (m.rd d (Reg.QOS_GUAR.MBS i))
def Mach.qBorrow (m : Mach) (d i : Nat) : Nat := min 360000 (m.rd d (Reg.QOS_BORROW.MBS i))
def Mach.qWindow (m : Mach) (d i : Nat) : Nat := clamp 1 64 (m.rd d (Reg.QOS_WINDOW.US i))
def Mach.qMgmt (m : Mach) (d : Nat) : Nat := max 4000 (m.rd d Reg.QOS_MGMT_RATE.MBS)
def Mach.qHigh (m : Mach) (d : Nat) : Nat := min 128 (m.rd d Reg.QOS_FEEDBACK.HIGH)
def Mach.qLow (m : Mach) (d : Nat) : Nat := min (m.qHigh d) (m.rd d Reg.QOS_FEEDBACK.LOW)

def Mach.chan (m : Mach) (d c : Nat) : Chan := (m.die d).dram.chans.getD c Chan.reset

def Mach.chState (m : Mach) (d c : Nat) : Nat := m.rd d (Reg.DMC_CH_STATUS.STATE c)

/-- Does a channel count as serving (R375)? -/
def Mach.chServing (m : Mach) (d c : Nat) : Bool := decide (m.chState d c = 3) || (decide (m.chState d c = 4) && m.serving)

def Mach.servingCount (m : Mach) (d : Nat) : Nat := ((List.range 12).filter (m.chServing d)).length

/-- D of R375: 85% of 30,000 MB/s for each serving channel. -/
def deliverable (k : Nat) : Nat := 25500 * k

/-- Does master `i` enter the sum S? Unassigned LD indices do not (R376). -/
def Mach.qCounts (m : Mach) (i : Nat) : Bool := decide (128 ≤ i) || m.assigned i

/-- S of R376. -/
def Mach.qSum (m : Mach) (d : Nat) : Nat :=
  sumOf (((List.range 194).filter m.qCounts).map (m.qGuar d)) + m.qMgmt d

/-- FACTOR of R376. -/
def qFactor (D S mg : Nat) : Nat :=
  if S ≤ D then 65536 else if D ≤ mg then 0 else 65536 * (D - mg) / (S - mg)

/-- The recompute of R377: D, S, every E_m, SCALED, CAUSE, and the pennant when the factor or SCALED changes. -/
def Mach.qosRecompute (m : Mach) (d : Nat) : Mach :=
  let k := m.servingCount d
  let D := deliverable k
  let S := m.qSum d
  let f := qFactor D S (m.qMgmt d)
  let scaled := decide (D < S)
  let cause := if !scaled then 0 else if deliverable 12 < S then 1 else 2
  let changed := decide (m.rd d Reg.QOS_SCALE.FACTOR ≠ f) || decide (m.rd d Reg.QOS_STATUS.SCALED ≠ b2n scaled)
  let m := ((m.wr d Reg.QOS_DELIVERABLE.MBS D).wr d Reg.QOS_GUAR_SUM.MBS S).wr d Reg.QOS_SCALE.FACTOR f
  let m := ((m.wr d Reg.QOS_STATUS.SCALED (b2n scaled)).wr d Reg.QOS_STATUS.CAUSE cause).wr d Reg.QOS_STATUS.SERVING k
  let m := if scaled then m.wr d Reg.QOS_STATUS.SCALED_SEEN 1 else m
  let m := (List.range 194).foldl (fun m i =>
    m.wr d (Reg.QOS_EFF.MBS i) (if m.qCounts i then m.qGuar d i * f / 65536 else 0)) m
  if changed then m.note d uQos pScaled 0 [f, cause] else m

/-- A recompute after a channel has entered or left the serving count, while the die is ready (R377). -/
def Mach.qosChannels (m : Mach) (d : Nat) : Mach :=
  if m.ready d && decide (m.rd d Reg.QOS_STATUS.SERVING ≠ m.servingCount d) then m.qosRecompute d else m

/-! ## Masters -/

def Mach.master (m : Mach) (d i : Nat) : Master := SMap.get (fun _ => Master.reset) (m.die d).qos.masters i

def Mach.updMaster (m : Mach) (d i : Nat) (f : Master → Master) : Mach :=
  m.upd d (fun x => { x with qos := { x.qos with
    masters := SMap.set (fun _ => Master.reset) x.qos.masters i (f (SMap.get (fun _ => Master.reset) x.qos.masters i)) } })

/-- The length in µs of the window that runs. -/
def Mach.qLength (m : Mach) (d i : Nat) : Nat := max 1 (m.master d i).us

/-- Guaranteed credit of a window: E_m * W_m bytes, rounded down to 64 (R364). -/
def Mach.windowCredit (m : Mach) (d i : Nat) : Nat := m.rd d (Reg.QOS_EFF.MBS i) * m.qWindow d i / 64 * 64

def Mach.setPool (m : Mach) (d v : Nat) : Mach :=
  (m.upd d (fun x => { x with qos := { x.qos with pool := v } })).wr d Reg.QOS_POOL.BYTES_64 (v / 64)

/-- A port's regulator floor (R369). -/
def Mach.rateFloor (m : Mach) (d p : Nat) : Nat := if p = 4 then max 100 (m.qMgmt d / 12) else 100

/-- When the die becomes ready and at every wake from furled (R379). -/
def Mach.qosStart (m : Mach) (d : Nat) : Mach :=
  let m := m.qosRecompute d
  let m := (List.range 194).foldl (fun m i =>
    let m := m.updMaster d i (fun x => { x with
      credit := m.windowCredit d i, debt := 0, borrowed := 0, window := m.now d / (Config.us * m.qWindow d i), us := m.qWindow d i })
    (m.wr d (Reg.QOS_MSTAT.WARMUP i) 10).wr d (Reg.QOS_MSTAT.IN_DEBT i) 0) m
  let m := (m.setPool d 0).wr d Reg.QOS_STATUS.BORROW_STEP 0
  let m := m.upd d (fun x => { x with qos := { x.qos with admitted := [], lastTick := x.clk.now / Config.us, lastStep := x.clk.now / (8 * Config.us) } })
  (List.range 12).foldl (fun m c => (List.range 5).foldl (fun m p => m.wr d (Reg.DMC_PORT_RATE.RATE_MBS c p) (m.rateFloor d p)) m) m

/-! ## The pool and the channels -/

/-- The waiting requests of a master, oldest first. -/
def Mach.waits (m : Mach) (d i : Nat) : List QosReq := (m.die d).qos.waiting.filter (fun r => decide (r.m = i))

/-- What a tick adds to the pool (R366). -/
def Mach.poolGain (m : Mach) (d : Nat) : Nat :=
  m.rd d Reg.QOS_DELIVERABLE.MBS - m.qMgmt d
    - sumOf (((List.range 194).filter (fun i => !(m.waits d i).isEmpty)).map (fun i => m.rd d (Reg.QOS_EFF.MBS i)))

def Mach.poolLimit (m : Mach) (d : Nat) : Nat := 64 * (m.rd d Reg.QOS_DELIVERABLE.MBS - m.qMgmt d)

/-- The queue level of a channel (R370). -/
def Mach.queueLevel (m : Mach) (d c : Nat) : Nat := (m.chan d c).wq.length + min 64 (m.chan d c).waiting.length

/-- CONGESTED under R370. -/
def Mach.congestion (m : Mach) (d : Nat) : Mach :=
  let chs := (List.range 12).filter (m.chServing d)
  if chs.any (fun c => decide (m.qHigh d < m.queueLevel d c)) then m.wr d Reg.QOS_STATUS.CONGESTED 1
  else if chs.all (fun c => decide (m.queueLevel d c ≤ m.qLow d)) then m.wr d Reg.QOS_STATUS.CONGESTED 0
  else m

/-- The regulator rate of port `p`: one twelfth of what it was admitted over the last 8 µs, not below its floor (R369). -/
def Mach.portRate (m : Mach) (d p : Nat) : Nat :=
  let bytes := sumOf (((m.die d).qos.admitted.filter (fun a => decide (a.2.1 = p))).map (fun a => a.2.2))
  min 65535 (max (m.rateFloor d p) (bytes / 8 / 12))

/-- BORROW_STEP_UPDATE (R371). -/
def execBorrowStepUpdate (d : Nat) (s : State) : Host.Outcome State Fault Refusal :=
  s.onDie d (fun m => m.when (m.ready d) (fun m =>
    let k := max ((m.die d).qos.lastStep + 1) (m.now d / (8 * Config.us))
    let m := m.runTo d (k * (8 * Config.us))
    let m := m.upd d (fun x => { x with qos := { x.qos with lastStep := k } })
    let st := m.rd d Reg.QOS_STATUS.BORROW_STEP
    m.wr d Reg.QOS_STATUS.BORROW_STEP (if m.on d Reg.QOS_STATUS.CONGESTED then min 4 (st + 1) else st - 1)))

/-! ## Urgency and admission -/

/-- Urgency by age as a fraction of the port's latency target (R298). -/
def ageLevel (ageNs target : Nat) : Nat :=
  if target ≤ ageNs then 3 else if 3 * target ≤ 4 * ageNs then 2 else if target ≤ 2 * ageNs then 1 else 0

/-- The carried urgency of a job's request: accept stamp a, deadline l, time t (R372). -/
def carriedUrgency (a l t : Nat) : Nat :=
  if l = 0 then 0
  else if l ≤ t then 3
  else if 4 * (l - t) ≤ l - a then 2
  else if 2 * (l - t) ≤ l - a then 1
  else 0

def Mach.reclaimCrit (m : Mach) (d : Nat) : Nat := min (m.rd d Reg.FLC_RECLAIM.LOW) (m.rd d Reg.FLC_RECLAIM.CRIT)

/-- The urgency that a request carries: an LD's none of its own (R373), a ring class's its job's (R372), migration's and scrub's 0, but 3
for settling on the way into furled and for reclaim below FLC_RECLAIM.CRIT (R374). -/
def Mach.carriedBy (m : Mach) (d : Nat) (r : QosReq) : Nat :=
  if r.m < 128 then 0
  else if r.m < 192 then carriedUrgency r.accept r.deadline (m.now d)
  else if r.m = 192 then (match m.pw.phase with | .furling _ => 3 | _ => 0)
  else if m.rd d Reg.FLC_SUPERBLOCKS.FREE < m.reclaimCrit d then 3 else 0

/-- A request's urgency now: the greater of what it carries and that of its age against its port's latency target (R298, R372). -/
def Mach.reqUrgency (m : Mach) (d : Nat) (r : QosReq) : Nat :=
  max (m.carriedBy d r) (ageLevel ((m.now d - r.since) * 10 / 17) (max 100 (m.rd d (Reg.DMC_PORT_TARGET.TARGET_NS 0 r.port))))

/-- WAITING and URGENCY of a master's status (R381). -/
def Mach.showWaits (m : Mach) (d i : Nat) : Mach :=
  (m.wr d (Reg.QOS_MSTAT.WAITING i) (b2n !(m.waits d i).isEmpty)).wr d (Reg.QOS_MSTAT.URGENCY i)
    (maxOf ((m.waits d i).map (m.reqUrgency d)))

/-- Deadline traffic: requests of jobs with a nonzero DEADLINE (R371). -/
def QosReq.timed (r : QosReq) : Bool := decide (128 ≤ r.m) && decide (r.m < 192) && decide (r.deadline ≠ 0)

/-- The most that a master may borrow in a window, by the borrow step unless the request has a deadline (R367, R371). -/
def Mach.borrowLimit (m : Mach) (d : Nat) (r : QosReq) : Nat :=
  let full := m.qBorrow d r.m * m.qLength d r.m
  let st := m.rd d Reg.QOS_STATUS.BORROW_STEP
  if r.timed || st = 0 then full else if 4 ≤ st then 0 else full / 2 ^ st

/-- Whole 64-byte units. -/
def up64 (n : Nat) : Nat := (n + 63) / 64 * 64

/-- What a master lacks for a request, in whole units. -/
def Mach.lacks (m : Mach) (d : Nat) (r : QosReq) : Nat := up64 (r.bytes - (m.master d r.m).credit)

/-- May its master take a unit of 64 bytes from the pool for `r` (R367, R368, R379)? -/
def Mach.canBorrow (m : Mach) (d : Nat) (r : QosReq) : Bool :=
  let x := m.master d r.m
  decide (m.rd d (Reg.QOS_MSTAT.WARMUP r.m) = 0) && decide (x.debt = 0)
    && decide (x.borrowed + 64 ≤ m.borrowLimit d r) && decide (64 ≤ (m.die d).qos.pool)

/-- The flash-interface rate of the migration and scrub masters in MB/s; 0 sets no bound (R363). -/
def Mach.flashRate (m : Mach) (d i : Nat) : Nat :=
  if i = 192 then m.rd d Reg.QOS_FLASH_MIG.MBS else if i = 193 then m.rd d Reg.QOS_FLASH_SCRUB.MBS else 0

/-- Does a master's flash rate let it move bytes now (R363)? -/
def Mach.flashFree (m : Mach) (d i : Nat) : Bool :=
  decide (m.flashRate d i = 0) || decide ((m.master d i).flash ≤ m.now d)

/-- The stamp until which `bytes` more use up the master's flash rate (R363, log entry 131). -/
def Mach.flashNext (m : Mach) (d i bytes : Nat) : Nat :=
  let x := (m.master d i).flash
  if m.flashRate d i = 0 then x else max x (m.now d) + bytes * Config.us / m.flashRate d i

/-- Is a request admitted at once: its master holds credit for its bytes, and its flash rate does not hold it (R363, R365)? -/
def Mach.mayAdmit (m : Mach) (d : Nat) (r : QosReq) : Bool :=
  decide (r.bytes ≤ (m.master d r.m).credit) && (m.flashFree d r.m || decide (m.reqUrgency d r = 3))

/-- Does a request go before another at the pool (R367)? Shares are compared by cross-multiplication. -/
def Mach.poolBefore (m : Mach) (d : Nat) (a b : QosReq) : Bool :=
  let sa := (m.master d a.m).borrowed * (m.qBorrow d b.m * m.qLength d b.m)
  let sb := (m.master d b.m).borrowed * (m.qBorrow d a.m * m.qLength d a.m)
  if m.reqUrgency d b < m.reqUrgency d a then true else if m.reqUrgency d a < m.reqUrgency d b then false
  else if sa < sb then true else if sb < sa then false
  else decide (a.m < b.m)

/-- The oldest waiting request of each master, where only credit is lacking and the master may borrow. -/
def Mach.poolWants (m : Mach) (d : Nat) : List QosReq :=
  (List.range 194).filterMap (fun k =>
    match m.waits d k with
    | r :: _ => if m.canBorrow d r && m.flashFree d k && decide ((m.master d k).credit < r.bytes) then some r else none
    | [] => none)

/-- A request admitted: charged, counted, no longer waiting (R361, R365, R381). -/
def Mach.admitReq (m : Mach) (d : Nat) (r : QosReq) : Mach :=
  let m := m.upd d (fun x => { x with qos := { x.qos with
    admitted := x.qos.admitted ++ [(x.clk.now, r.port, r.bytes)], waiting := x.qos.waiting.erase r } })
  (m.bump d (Reg.QOS_BYTES.COUNT r.m) r.bytes).showWaits d r.m

/-- Admitted from its master's credit. -/
def Mach.admitCredit (m : Mach) (d : Nat) (r : QosReq) : Mach :=
  (m.updMaster d r.m (fun x => { x with credit := x.credit - r.bytes, flash := m.flashNext d r.m r.bytes })).admitReq d r

/-- A unit of 64 bytes borrowed from the pool for a request, which is admitted when its credit suffices (R367). -/
def Mach.grantUnit (m : Mach) (d : Nat) (r : QosReq) : Mach :=
  let m := m.updMaster d r.m (fun x => { x with credit := x.credit + 64, borrowed := x.borrowed + 64 })
  let m := m.setPool d ((m.die d).qos.pool - 64)
  if m.mayAdmit d r then m.admitCredit d r else m

/-- Admitted at urgency 3 without credit: its bytes become a debt (R368). -/
def Mach.admitDebt (m : Mach) (d : Nat) (r : QosReq) : Mach :=
  ((m.updMaster d r.m (fun x => { x with debt := x.debt + r.bytes, flash := m.flashNext d r.m r.bytes })).wr d
    (Reg.QOS_MSTAT.IN_DEBT r.m) 1).admitReq d r

/-- A request in the unit. -/
def Mach.qosWait (m : Mach) (d : Nat) (r : QosReq) : Mach :=
  (m.upd d (fun x => { x with qos := { x.qos with waiting := x.qos.waiting ++ [r] } })).showWaits d r.m

/-- Waiting requests whose masters hold credit for them are admitted, oldest first (R365). -/
def Mach.serveCredit (m : Mach) (d : Nat) : Mach :=
  (m.die d).qos.waiting.foldl (fun m r => if m.mayAdmit d r then m.admitCredit d r else m) m

/-- The pool grants units to the masters that wait, each in the order of R367; `n` bounds the number of units. -/
def Mach.servePool (m : Mach) (d : Nat) : Nat → Mach
  | 0 => m
  | n + 1 =>
    let ws := m.poolWants d
    match ws.find? (fun r => !ws.any (fun q => m.poolBefore d q r)) with
    | some r => Mach.servePool (m.grantUnit d r) d n
    | none => m

/-- The pool serves what waits, to its last unit. -/
def Mach.emptyPool (m : Mach) (d : Nat) : Mach := m.servePool d ((m.die d).qos.pool / 64)

/-- Waiting requests that have reached urgency 3 are admitted in debt (R368). -/
def Mach.serveLate (m : Mach) (d : Nat) : Mach :=
  (m.die d).qos.waiting.foldl (fun m r => if m.reqUrgency d r = 3 then m.admitDebt d r else m.showWaits d r.m) m

/-- What waits is served from credit, the pool and by urgency. -/
def Mach.qosServe (m : Mach) (d : Nat) : Mach :=
  ((m.serveCredit d).emptyPool d).serveLate d

/-- The master, DMC port, accept stamp and DEADLINE of the work that a request serves; no master for the management reserve (R361).
Class `c`, accept stamp `a` and DEADLINE `l` are those of a job. -/
def chargeOf (w : QosWork) (c a l : Nat) : Option Nat × Nat × Nat × Nat :=
  match w with
  | .hostLine ld => (some ld, 0, 0, 0)
  | .hostPromotion ld => (some ld, 2, 0, 0)
  | .jobFetch install => (some (128 + c), if install then 2 else 1, a, l)
  | .jobBuffer => (some (128 + c), 1, a, l)
  | .encode => (some (128 + c), 3, a, l)
  | .replicate => (some (128 + c), 2, a, l)
  | .migration => (some 192, 2, 0, 0)
  | .relocation => (some 193, 2, 0, 0)
  | .management => (none, 4, 0, 0)

/-- A request admitted on the management reserve, which neither lends nor borrows (R362). -/
def Mach.admitReserve (m : Mach) (d port bytes : Nat) : Mach :=
  m.upd d (fun x => { x with qos := { x.qos with admitted := x.qos.admitted ++ [(x.clk.now, port, bytes)] } })

/-- A request comes to the QoS unit: admitted from credit, at urgency 3 in debt, else it waits, and the pool serves what waits
(R365, R367, R368; log entry 132). -/
def Mach.qosRequest (m : Mach) (d : Nat) (r : QosReq) : Mach :=
  let m := m.qosWait d r
  if m.mayAdmit d r then m.admitCredit d r
  else if m.reqUrgency d r = 3 then m.admitDebt d r
  else m.emptyPool d

/-- QOS_ADMIT (R361, R363, R365 to R368, R371 to R374). -/
def execQosAdmit (d : Nat) (w : QosWork) (bytes cls accept deadline ageNs : Nat) (s : State) : Host.Outcome State Fault Refusal :=
  s.onDie d (fun m => m.when (m.ready d) (fun m =>
    match chargeOf w cls accept deadline with
    | (none, port, _, _) => m.admitReserve d port bytes
    | (some i, port, a, l) => m.qosRequest d ⟨i, bytes, port, a, l, m.now d - ageNs * 17 / 10⟩))

/-- A function-level reset releases the requests of an LD that wait; its credit, debt and windows run on (R280, R380, log entry 115). -/
def Mach.qosRelease (m : Mach) (ld : Nat) : Mach :=
  m.eachDie (fun m d => (m.upd d (fun x => { x with qos := { x.qos with waiting := x.qos.waiting.filter (fun r => decide (r.m ≠ ld)) } })).showWaits d ld)

/-! ## Ticks and windows -/

/-- QOS_TICK (R366, R369, R370). -/
def execQosTick (d : Nat) (s : State) : Host.Outcome State Fault Refusal :=
  s.onDie d (fun m => m.when (m.ready d) (fun m =>
    let k := max ((m.die d).qos.lastTick + 1) (m.now d / Config.us)
    let m := m.runTo d (k * Config.us)
    let m := m.upd d (fun x => { x with qos := { x.qos with
      lastTick := k, admitted := x.qos.admitted.filter (fun a => decide (k * Config.us < a.1 + 8 * Config.us)) } })
    let m := m.setPool d (min (m.poolLimit d) ((m.die d).qos.pool + m.poolGain d))
    let m := (List.range 12).foldl (fun m c =>
      if m.chServing d c then (List.range 5).foldl (fun m p => m.wr d (Reg.DMC_PORT_RATE.RATE_MBS c p) (m.portRate d p)) m else m) m
    (m.qosServe d).congestion d))

/-- QOS_WINDOW_START (R364, R368, R379): credit, debt paid first, warm-up counted down. -/
def execQosWindowStart (d i : Nat) (s : State) : Host.Outcome State Fault Refusal :=
  s.onUnit d i 194 (fun m => m.when (m.ready d) (fun m =>
    let w := Config.us * m.qLength d i
    let m := m.runTo d (max ((m.master d i).window + 1) (m.now d / w) * w)
    let c := m.windowCredit d i
    let x := m.master d i
    let pay := min c x.debt
    let m := m.wr d (Reg.QOS_MSTAT.BORROWED i) (b2n (decide (0 < x.borrowed)))
    let m := m.updMaster d i (fun y => { y with
      credit := c - pay, debt := x.debt - pay, borrowed := 0, window := m.now d / (Config.us * m.qWindow d i), us := m.qWindow d i })
    let m := m.wr d (Reg.QOS_MSTAT.IN_DEBT i) (b2n (decide (pay < x.debt)))
    (m.drop d (Reg.QOS_MSTAT.WARMUP i) 1).qosServe d))

/-- QOS_RECOMPUTE (R377). -/
def execQosRecompute (d : Nat) (s : State) : Host.Outcome State Fault Refusal :=
  s.onDie d (fun m => m.when (m.ready d) (·.qosRecompute d))

/-- QOS_GUAR_WRITE (R377): a guarantee, or the management reserve; the new values apply from the next windows. -/
def execQosGuarWrite (d : Nat) (i : Option Nat) (v : Word) (s : State) : Host.Outcome State Fault Refusal :=
  match i with
  | some k => s.onUnit d k 194 (fun m => m.when m.alive (fun m =>
      let m := m.wr d (Reg.QOS_GUAR.MBS k) v.toNat
      if m.ready d then m.qosRecompute d else m))
  | none => s.onDie d (fun m => m.when m.alive (fun m =>
      let m := m.wr d Reg.QOS_MGMT_RATE.MBS v.toNat
      if m.ready d then m.qosRecompute d else m))

end Sys2Proof.Machine
end

