-- ==== Sys2Proof/Machine/Layout.lean ====
section
/-! DEFINITION. Where things lie: the DRAM address map (R288 to R292), the regions of a die's DRAM (R83, R85, R293), the
packing of frame-map entries (R84), and redirection at a freeze (R112). -/

namespace Sys2Proof.Machine

/-! ## DRAM address map -/

/-- Usable bytes per device by DENSITY code (R288). -/
def deviceBytes (density : Nat) : Nat :=
  match density with
  | 0 => 3019898880 | 1 => 4026531840 | 2 => 6039797760 | _ => 8053063680

def Mach.devBytes (m : Mach) (d : Nat) : Nat := deviceBytes (m.rd d Reg.DMC_CONFIG.DENSITY)

/-- Where a data address lies (R289 to R291): die channel, bank, physical row, byte within the row. -/
structure DramLoc where
  ch : Nat
  bank : Nat
  row : Nat
  byte : Nat
deriving DecidableEq, Repr

/-- Selection bit i: the parity of the bits of O that the mask selects (R291). -/
def maskParity (o mask : Nat) : Nat := popcount 48 (Nat.land o mask) % 2

/-- Channel within the device and bank of a device offset, under masks `mk`. -/
def selectBits (mk : Nat → Nat) (o : Nat) : Nat × Nat :=
  let b (i : Nat) : Nat := maskParity o (mk i)
  (b 0 + 2 * b 1, 4 * (b 2 + 2 * b 3) + (b 4 + 2 * b 5))

/-- Physical row of data row r, 15 data rows to a group of 16 (R290). -/
def physRow (r : Nat) : Nat := 16 * (r / 15) + r % 15

def Mach.mask (m : Mach) (d i : Nat) : Nat := m.rd d (Reg.DMC_MAP_MASK.MASK i)

def Mach.locate (m : Mach) (d dda : Nat) : DramLoc :=
  let D := m.devBytes d
  let o := dda % D
  let sel := selectBits (m.mask d) o
  ⟨4 * (dda / D) + sel.1, sel.2, physRow (o / 2 ^ 17), o % 2048⟩

/-- The check row of a physical data row, and the byte of its line's check bytes there (R290). -/
def checkRow (row : Nat) : Nat := 16 * (row / 16) + 15
def checkByte (row byte : Nat) : Nat := 128 * (row % 16) + 4 * (byte / 64)

/-- The DDAs of the 2 KiB data row at a bank and physical row of a die channel. -/
def Mach.rowDdas (m : Mach) (d ch bank row : Nat) : List Nat :=
  let D := m.devBytes d
  let r := 15 * (row / 16) + row % 16
  ((List.range 64).map (fun v => r * 2 ^ 17 + v * 2 ^ 11)).filterMap (fun o =>
    if row % 16 < 15 ∧ o < D ∧ selectBits (m.mask d) o = (ch % 4, bank) then some (ch / 4 * D + o) else none)

/-- Lines of sectors [first, first + n) of a data row. -/
def rowLines (base first n : Nat) : List Nat := (List.range n).map (fun i => base + 64 * (first + i))

/-- Lines that a command error on a row touches: its sectors, or for a check row the lines whose check bytes they hold. -/
def Mach.commandLines (m : Mach) (d ch bank row first n : Nat) : List Nat :=
  if row % 16 = 15 then
    (List.range n).flatMap (fun i =>
      let sec := first + i
      (m.rowDdas d ch bank (row - 15 + sec / 2)).flatMap (fun b => rowLines b (16 * (sec % 2)) 16))
  else (m.rowDdas d ch bank row).flatMap (fun b => rowLines b first n)

/-- Does a run of data bytes touch a channel? -/
def Mach.runOnChan (m : Mach) (d c a len : Nat) : Bool :=
  decide (0 < len) && (List.range ((a + len - 1) / 2048 - a / 2048 + 1)).any (fun i =>
    decide ((m.locate d (a / 2048 * 2048 + 2048 * i)).ch = c))

/-! ## Regions (R83, R85, R293) -/

def Mach.retained (m : Mach) (d : Nat) : List Nat := (List.range 3).filter (fun j => bit (m.rd d Reg.DMC_CONFIG.RETAIN) j)

/-- Raw flash bytes of a die from the board section's population (R324, R463). -/
def flPopBytes (pop : Nat) : Nat := 8 * bits pop 0 8 * bits pop 8 8 * bits pop 48 16 * bits pop 16 16 * 16384

/-- Extent maps that the frame-map region holds (R85, R530). -/
def Mach.mapCap (m : Mach) : Nat :=
  let least := flPopBytes m.cfg.flPop / 65536
  let want := (m.cfg.mapEntries + 4095) / 4096 * 4096
  max least want / 4096

/-- Bytes of the frame-map region with its heat array, in whole 64 KiB (R85). -/
def Mach.mapBytes (m : Mach) : Nat := (m.mapCap * 4096 * 25 + 65535) / 65536 * 65536

def Mach.openBytes (m : Mach) (d : Nat) : Nat := m.rd d Reg.LSE_OPEN_BUDGET.BUDGET * 2 ^ 28

/-- Bytes at the start of the retention-set devices that the first two regions take (R293). -/
def Mach.fixedBytes (m : Mach) (d : Nat) : Nat := m.mapBytes + m.openBytes d

/-- Byte x of the retention-set devices taken one after another in ascending order. -/
def Mach.retAddr (m : Mach) (d x : Nat) : Nat :=
  let D := m.devBytes d
  (m.retained d).getD (x / D) 0 * D + x % D

/-- The T1 slot numbers of the open region (R84, R293). -/
def Mach.openSlot (m : Mach) (d i : Nat) : Nat := m.retAddr d (m.mapBytes + 65536 * i) / 65536

def Mach.openSlots (m : Mach) (d : Nat) : Nat := m.openBytes d / 65536

/-- The scratch region (R293, log entry 13): at the end of the last device outside the retention set, else of device 2. -/
def Mach.scratchBase (m : Mach) (d : Nat) : Nat :=
  let dev := ((List.range 3).reverse.find? (fun j => !(m.retained d).contains j)).getD 2
  (dev + 1) * m.devBytes d - m.rd d Reg.OPS_SCRATCH.SIZE_MIB * 2 ^ 20

def Mach.scratchBytes (m : Mach) (d : Nat) : Nat := m.rd d Reg.OPS_SCRATCH.SIZE_MIB * 2 ^ 20

/-- Runs of DRAM that hold the first three regions: first byte and length. -/
def Mach.fixedRuns (m : Mach) (d : Nat) : List (Nat × Nat) :=
  let D := m.devBytes d
  let f := m.fixedBytes d
  (m.scratchBase d, m.scratchBytes d) ::
    ((m.retained d).zipIdx.map (fun p => (p.1 * D, min D (f - p.2 * D)))).filter (fun r => decide (0 < r.2))

/-- T2 and T1 cache region, in MiB (TIER_T2_CAP). -/
def Mach.t2CapMib (m : Mach) (d : Nat) : Nat :=
  (3 * m.devBytes d - sumOf ((m.fixedRuns d).map (·.2))) / 2 ^ 20

/-! ## Frame map (R84) -/

def entryKey (ext idx : Nat) : Nat := 4160 * ext + idx

def zeroEntry (_ : Nat) : FrameEntry := FrameEntry.zero

def Die.entry (x : Die) (ext idx : Nat) : FrameEntry := SMap.get zeroEntry x.tier.map (entryKey ext idx)

def Mach.entry (m : Mach) (d ext idx : Nat) : FrameEntry := (m.die d).entry ext idx

def Mach.updTier (m : Mach) (d : Nat) (f : Tier → Tier) : Mach := m.upd d (fun x => { x with tier := f x.tier })

/-- The fields of an entry that the map journal holds (R87): IN_T1, IN_T2, T1_SLOT, T2_LOC and PINNED are not. -/
def FrameEntry.journalled (e : FrameEntry) : FrameEntry :=
  { e with inT1 := false, inT2 := false, pinned := false, t1Slot := 0, t2Loc := 0 }

/-- An entry as recovery restores it: PROMOTING becomes PRESENT (R89). -/
def FrameEntry.recovered (e : FrameEntry) : FrameEntry :=
  { e.journalled with state := if e.state = .promoting then .present else e.state }

/-- An entry written; a change to a journalled field goes to the map journal first (R87). The entries of an old version, whose extent
number is 2^20 or more, are no part of the stored map (R139). -/
def Mach.setEntry (m : Mach) (d ext idx : Nat) (e : FrameEntry) : Mach :=
  m.upd d (fun x =>
    let old := SMap.get zeroEntry x.tier.map (entryKey ext idx)
    { x with
      tier := { x.tier with map := SMap.set zeroEntry x.tier.map (entryKey ext idx) e },
      fl := if old.journalled = e.journalled ∨ 2 ^ 20 ≤ ext then x.fl
            else { x.fl with seg := x.fl.seg ++ [.map (entryKey ext idx) e.journalled] } })

def Mach.updEntry (m : Mach) (d ext idx : Nat) (f : FrameEntry → FrameEntry) : Mach :=
  m.setEntry d ext idx (f (m.entry d ext idx))

def FState.code : FState → Nat
  | .present => 0 | .promoting => 1 | .lost => 2 | .zero => 3

/-- The 192-bit entry (R84). -/
def FrameEntry.pack (e : FrameEntry) : Nat :=
  e.sectors % 2 ^ 96 + e.state.code * 2 ^ 96 + b2n e.inT1 * 2 ^ 98 + b2n e.inT2 * 2 ^ 99 + b2n e.inT3 * 2 ^ 100
    + b2n e.pinned * 2 ^ 101 + e.table % 2 ^ 8 * 2 ^ 102 + e.t1Slot % 2 ^ 20 * 2 ^ 110 + e.t2Loc % 2 ^ 27 * 2 ^ 130
    + e.t3Loc % 2 ^ 35 * 2 ^ 157

/-- Sector counts of the 16 blocks (R84). -/
def FrameEntry.counts (e : FrameEntry) : List Nat := (List.range 16).map (fun b => bits e.sectors (6 * b) 6 + 1)

/-- The SECTORS field of given counts. -/
def packSectors (cs : List Nat) : Nat := (cs.zipIdx.map (fun p => (p.1 - 1) % 64 * 2 ^ (6 * p.2))).foldl (· + ·) 0

/-- Granules of a coded frame: ceil of the sectors by 4 (R84). -/
def FrameEntry.granules (e : FrameEntry) : Nat := (sumOf e.counts + 3) / 4

/-- DRAM runs that a frame's copies take: tier, first byte, length. -/
def FrameEntry.runs (e : FrameEntry) : List (Nat × Nat × Nat) :=
  (if e.inT1 then [(1, e.t1Slot * 65536, 65536)] else []) ++ (if e.inT2 then [(2, e.t2Loc * 256, e.granules * 256)] else [])

/-! ## The directory -/

/-- The number under which an old version's frames and fetches stand until its trim (R139): extent numbers have 20 bits. -/
def oldNum (ext tgen : Nat) : Nat := ext % 2 ^ 20 + 2 ^ 20 * (1 + tgen)

/-- An extent as it was before a recode (R138, R139). -/
def OldVersion.of (o : OldVersion) (x : Extent) : Extent :=
  { x with num := oldNum o.ext o.tgen, spanLog2 := o.span, tgen := o.tgen, hdrLocs := o.hdrLocs }

/-- The extent of a number, or an old version of one. -/
def Mach.ext? (m : Mach) (e : Nat) : Option Extent :=
  match m.lse.exts.find? (fun x => decide (x.num = e)) with
  | some x => some x
  | none =>
    if e < 2 ^ 20 then none
    else (m.lse.exts.find? (fun x => decide (x.num = e % 2 ^ 20))).bind (fun x =>
      ((m.die x.home).xc.old.find? (fun o => decide (oldNum o.ext o.tgen = e))).map (fun o => o.of x))

/-- The version of an extent that a reader of stamp t sees: one before T_c reads the old frames with the old tables (R139). -/
def Mach.versionAt (m : Mach) (x : Extent) (t : Nat) : Extent :=
  match (m.die x.home).xc.old.find? (fun o => decide (o.ext = x.num) && decide (t < o.tc)) with
  | some o => o.of x
  | none => x

/-- A change of the directory or the lease table, journalled on the ensign die before it is visible (R52). -/
def Mach.setLse (m : Mach) (l : Lse) : Mach :=
  ({ m with lse := l }).upd m.ens (fun x => { x with fl := { x.fl with seg := x.fl.seg ++ [JEntry.dir l] } })

def Mach.updExt (m : Mach) (e : Nat) (f : Extent → Extent) : Mach :=
  m.setLse { m.lse with exts := updWhere (fun x => decide (x.num = e)) f m.lse.exts }

/-- The ensign die writes an entry into every die's home-die table, before anything announces the lease (R29); 0 takes it away. -/
def Mach.writeHome (m : Mach) (e v : Nat) : Mach :=
  m.eachDie (fun m d => m.upd d (fun x => { x with homes := SMap.set (fun _ => 0) x.homes e v }))

/-- The home die of an extent as die `p` knows it (R29). -/
def Mach.homeAt (m : Mach) (p e : Nat) : Option Nat :=
  match SMap.get (fun _ => 0) (m.die p).homes e with
  | 0 => none
  | h + 1 => some h

/-- Is the extent's data sealed data on its home die (its frames are coded copies)? -/
def Extent.coded (x : Extent) : Bool :=
  match x.state with
  | .sealed => true
  | .releasing | .clearing => decide (x.was = .sealed)
  | _ => false

def Mach.coded (m : Mach) (e : Nat) : Bool := match m.ext? e with | some x => x.coded | none => false

/-! ## Redirection (R112) -/

end Sys2Proof.Machine
end

