-- ==== Sys2Proof/Machine/Hoist.lean ====
section
/-! DEFINITION. Space in a die's DRAM (R293, R310), the queue of decided evictions and their execution (R100 to R106), and the
redirection of copies at a freeze (R104, R112). -/

namespace Sys2Proof.Machine

/-- Does a channel take requests? -/
def Mach.chanOpen (m : Mach) (d c : Nat) : Bool := decide (m.chState d c = 3) || decide (m.chState d c = 4)

/-- A migration pennant: extent and frame (R397). -/
def Mach.noteFrame (m : Mach) (d : Nat) (pc : PCode) (ext idx : Nat) (detail : Nat := 0) : Mach :=
  m.note d uTier pc detail [ext % 2 ^ 20, idx]

/-! ## Space (R293, R310) -/

/-- Runs of DRAM in use: fixed regions, copies, header copies, targets of running promotions. -/
def Mach.usedRuns (m : Mach) (d : Nat) : List (Nat × Nat) :=
  let t := (m.die d).tier
  m.fixedRuns d ++ t.map.flatMap (fun p => p.2.runs.map (fun r => (r.2.1, r.2.2)))
    ++ t.headers.map (fun h => (h.addr, h.len))
    ++ (match (m.die d).xc.recode with | some r => r.frames.flatMap (fun p => p.2.runs.map (fun q => (q.2.1, q.2.2))) | none => [])
    ++ t.fetches.filterMap (fun f => f.target.map (fun g => (256 * g, 256 * (m.entry d f.ext f.idx).granules)))
    ++ (t.promos.filter (fun p => p.endedAt.isNone && decide (p.dst = 1))).map (fun p => (65536 * p.slot, 65536))

/-- The first gap of `size` bytes at a multiple of `align` from `lo`, before `hi`, among runs in rising order. -/
def firstGap (size align lo hi : Nat) : List (Nat × Nat) → Option Nat
  | [] => let a := (lo + align - 1) / align * align; if a + size ≤ hi then some a else none
  | r :: t =>
    let a := (lo + align - 1) / align * align
    if a + size ≤ r.1 then (if a + size ≤ hi then some a else none) else firstGap size align (max lo (r.1 + r.2)) hi t

/-- Every channel of a device serves (R310, R112). -/
def Mach.devOpen (m : Mach) (d j : Nat) : Bool := (List.range 4).all (fun k => m.chanOpen d (4 * j + k))

/-- Space of `size` bytes on one serving device; the device tried first is a free choice, and the place is the lowest (R293, log
entry 19). -/
def Mach.alloc (m : Mach) (d size align : Nat) (retained : Bool) : Option Nat :=
  let runs := sortBy (fun r : Nat × Nat => r.1) ((m.usedRuns d).filter (fun r => decide (0 < r.2)))
  let devs := ((List.range 3).map (fun i => (i + m.choice) % 3)).filter (fun j =>
    m.devOpen d j && (!retained || (m.retained d).contains j))
  (devs.filterMap (fun j => firstGap size align (j * m.devBytes d) ((j + 1) * m.devBytes d) runs)).head?

/-! ## Copies and evictions (R90, R103 to R106) -/

/-- Is a copy of tier t available? -/
def Mach.avail (m : Mach) (d ext idx t : Nat) : Bool :=
  !(m.die d).tier.unavail.any (fun u => decide (u.1 = entryKey ext idx) && decide (u.2.1 = t))

/-- A copy of tier t is about to go: for a PREFETCH that the die set has accepted, the frame has held one (R96). -/
def Mach.heldOnce (m : Mach) (ext idx t : Nat) : Mach :=
  { m with dies := m.dies.map (fun x => { x with jobs := x.jobs.map (fun j =>
    if !j.pre && decide (field j.desc 0 1 = 0x41) && !j.reached.contains (t, ext, idx) then { j with reached := (t, ext, idx) :: j.reached } else j) }) }

/-- Dropping a copy clears its bit; dropping T2 drops T1 with it (R81, R103). -/
def Mach.dropT1 (m : Mach) (d ext idx : Nat) : Mach :=
  ((if (m.entry d ext idx).inT1 then m.heldOnce ext idx 1 else m).updEntry d ext idx (fun e => { e with inT1 := false, t1Slot := 0 }))

def Mach.clearUnavail (m : Mach) (d ext idx : Nat) (ts : List Nat) : Mach :=
  m.updTier d (fun t => { t with unavail := t.unavail.filter (fun u => !(decide (u.1 = entryKey ext idx) && ts.contains u.2.1)) })

def Mach.dropT2 (m : Mach) (d ext idx : Nat) : Mach :=
  let e := m.entry d ext idx
  let m := if e.inT1 then m.heldOnce ext idx 1 else m
  let m := if e.inT2 then m.heldOnce ext idx 2 else m
  (m.updEntry d ext idx (fun e => { e with inT1 := false, t1Slot := 0, inT2 := false, t2Loc := 0 })).clearUnavail d ext idx [1, 2]

def Mach.fetch? (m : Mach) (d ext idx : Nat) : Option Fetch :=
  (m.die d).tier.fetches.find? (fun f => decide (f.ext = ext) && decide (f.idx = idx))

/-- The fetch that an event on a frame means: of the frame, else of an old version of it (R139). -/
def Mach.fetchOf (m : Mach) (d ext idx : Nat) : Option Fetch :=
  match m.fetch? d ext idx with
  | some f => some f
  | none => (m.die d).tier.fetches.find? (fun f => decide (f.ext % 2 ^ 20 = ext) && decide (f.idx = idx))

def Mach.updFetch (m : Mach) (d ext idx : Nat) (f : Fetch → Fetch) : Mach :=
  m.updTier d (fun t => { t with fetches := updWhere (fun g => decide (g.ext = ext) && decide (g.idx = idx)) f t.fetches })

def Mach.pinnedIn (m : Mach) (d ext idx tier : Nat) : Bool :=
  (m.die d).tier.pins.any (fun p => decide (p.ext = ext) && decide (p.idx = idx) && (decide (p.tier = tier) || decide (tier = 2)))

/-- R106: every promotion of the frame that has begun ended before the eviction was decided. -/
def Mach.evictPasses (m : Mach) (d : Nat) (v : Evict) : Bool :=
  ((m.die d).tier.promos.filter (fun p => decide (p.ext = v.ext) && decide (p.idx = v.idx))).all (fun p =>
    match p.endedAt with | some t => decide (t < v.decided) | none => false)
  && !(match m.fetch? d v.ext v.idx with | some f => f.begunAt.isSome | none => false)

/-- An eviction that reaches its turn: carried out, cancelled, or pointless because the copy is gone already (R102, R106). -/
def Mach.evictNow (m : Mach) (d : Nat) (v : Evict) : Mach :=
  let e := m.entry d v.ext v.idx
  if !(if v.tier = 1 then e.inT1 else e.inT2) then m
  else if !m.evictPasses d v || m.pinnedIn d v.ext v.idx v.tier || !e.inT3 then m.bump d Reg.TIER_CANCEL_COUNT.COUNT
  else ((if v.tier = 1 then m.dropT1 d v.ext v.idx else m.dropT2 d v.ext v.idx).bump d Reg.TIER_EVICT_COUNT.COUNT).noteFrame d pEvict v.ext v.idx

/-- The evictions of some frames that were decided before an action which is about to execute go first (R104). A copy on a frozen
channel keeps its place (R112). -/
def Mach.hoistFirst (m : Mach) (d : Nat) (first : Evict → Bool) : Mach :=
  let now := (m.die d).tier.evicts.filter (fun v => first v && m.avail d v.ext v.idx v.tier)
  now.foldl (fun m v => (m.updTier d (fun t => { t with evicts := t.evicts.erase v })).evictNow d v) m

/-! ## Redirection (R112) -/

/-- Copies of coded frames of which any part lies on channel c: key, tier, and whether the frame is settled. -/
def Mach.copiesOn (m : Mach) (d c : Nat) : List (Nat × Nat × Bool) :=
  (m.die d).tier.map.flatMap (fun p =>
    if m.coded (p.1 / 4160) then
      (p.2.runs.filter (fun r => m.runOnChan d c r.2.1 r.2.2)).map (fun r => (p.1, r.1, p.2.inT3))
    else [])

/-- A fetch that waits in the hoist. -/
def newFetch (ext idx : Nat) (dst : FetchDst) (rank : Nat) (thenT1 : Bool) (loads : List LoadWait) (jobs : List (Nat × Nat)) : Fetch :=
  { ext := ext, idx := idx, dst := dst, rank := rank, begunAt := none, loc := 0, target := none, pages := [], ladder := none, done := false,
    retried := false, climb := none, data := none, lookup := false, missNoted := false, thenT1 := thenT1, loads := loads, jobs := jobs }

/-- A promotion whose source is unavailable starts again from T3: jobs to the stage, the T1 cache by way of a T2 copy (R112). -/
def Mach.restartPromo (m : Mach) (d : Nat) (p : Promo) : Mach :=
  match m.fetch? d p.ext p.idx with
  | some _ => m.updFetch d p.ext p.idx (fun f => { f with
      jobs := f.jobs ++ p.jobs.filter (fun j => !f.jobs.contains j), thenT1 := f.thenT1 || decide (p.dst = 1) })
  | none => m.updTier d (fun t => { t with fetches := t.fetches ++ [newFetch p.ext p.idx (if p.dst = 1 then .toT2 else .toT0) (if p.dst = 1 then 2 else 1) (decide (p.dst = 1)) [] p.jobs] })

/-- New targets on other channels for promotions and fetches whose target lies on channel c; where there is no space a T1 promotion
ends and a fetch keeps no T2 copy (R112). -/
def Mach.retarget (m : Mach) (d c : Nat) : Mach :=
  let ps := (m.die d).tier.promos.filter (fun p => p.endedAt.isNone && decide (p.dst = 1) && m.runOnChan d c (p.slot * 65536) 65536)
  let m := ps.foldl (fun m p => match m.alloc d 65536 65536 false with
    | some a => m.chosen.updTier d (fun t => { t with promos := t.promos.map (fun q => if q = p then { q with slot := a / 65536 } else q) })
    | none => m.updTier d (fun t => { t with promos := t.promos.erase p })) m
  let fs := (m.die d).tier.fetches.filter (fun f => match f.target with
    | some g => m.runOnChan d c (256 * g) (256 * (m.entry d f.ext f.idx).granules)
    | none => false)
  fs.foldl (fun m f =>
    let a := m.alloc d (256 * (m.entry d f.ext f.idx).granules) 256 false
    m.chosen.updFetch d f.ext f.idx (fun f => { f with target := a.map (· / 256), dst := if a.isSome then f.dst else .toHost })) m

/-- The redirection action at a freeze: evictions decided up to then go first; then copies of settled frames become unavailable,
running promotions from them restart from T3 and lost targets are replaced; one REDIRECT pennant (R104, R112). -/
def Mach.redirect (m : Mach) (d c : Nat) : Mach :=
  let m := m.hoistFirst d (fun v => (m.copiesOn d c).any (fun p => decide (p.1 = entryKey v.ext v.idx)) && decide (v.decided ≤ m.stamp d))
  let hit := (m.copiesOn d c).filter (fun p => p.2.2)
  let from2 (p : Promo) : Bool := p.endedAt.isNone && hit.any (fun h => decide (h.1 = entryKey p.ext p.idx) && decide (h.2.1 = 2))
  let back := (m.die d).tier.promos.filter from2
  let m := m.updTier d (fun t => { t with
    unavail := t.unavail ++ hit.map (fun p => (p.1, p.2.1, c)), promos := t.promos.filter (fun p => !from2 p) })
  ((back.foldl (fun m p => m.restartPromo d p) m).retarget d c).note d uTier pRedirect c [hit.length]

end Sys2Proof.Machine
end

