-- ==== Sys2Proof/Machine/Time.lean ====
section
/-! DEFINITION. Clocks and time: crystal, PLL, clock monitor, CLK_OUT (R417 to R424), halyard, time marks and ceilings
(R385 to R388), TB_TIME_SET (R415). -/

namespace Sys2Proof.Machine

/-- What recurs at a fixed interval on a die: 0 thermal sample, 1 clock monitor window, 2 halyard measurement, 3 heartbeat, 8 + i leak of
bucket i. -/
def dueLeak (i : Nat) : Nat := 8 + i

/-- The interval of what recurs as `key` counts from now. -/
def Mach.countFrom (m : Mach) (d key : Nat) : Mach :=
  m.upd d (fun x => { x with aux := { x.aux with last := SMap.set (fun _ => 0) x.aux.last key x.clk.now } })

/-- The clocks run on until `period` after this last happened, at the earliest after `start`; it happens now. -/
def Mach.every (m : Mach) (d key start period : Nat) : Mach :=
  (m.runTo d (max start (SMap.get (fun _ => 0) (m.die d).aux.last key) + period)).countFrom d key

/-- Ticks of `k` ITO cycles at 25 MHz. -/
def itoTicks (k : Nat) : Nat := 68 * k

/-- Crystal count complete (R418): the die runs from the crystal, the monitor starts (R422), ITO_TIME ends (R392). -/
def Mach.crystalStable (m : Mach) (d cycles : Nat) : Mach :=
  let m := m.runTo d ((m.die d).aux.itoStart + itoTicks cycles)
  let m := (m.wr d Reg.CLK_STATUS.XTAL_STABLE 1).wr d Reg.CLK_STATUS.SOURCE 1
  let m := (m.wr d Reg.CLK_STATUS.MON_ACTIVE 1).wr d Reg.CLK_XTAL_START.ITO_CYCLES cycles
  let m := (m.wr d Reg.TB_STATUS.ITO_TIME 0).upd d (fun x => { x with clk := { x.clk with ito := false } })
  (m.countFrom d 1).startStep d 2

/-- Is the crystal count of this start-up still running? -/
def Mach.counting (m : Mach) (d : Nat) : Bool :=
  decide (m.pw.phase = .startup) && decide (m.rd d Reg.PWR_START_STEP.STEP = 1)

/-- CRYSTAL_STABLE (R418). -/
def execCrystalStable (d cycles : Nat) (s : State) : Host.Outcome State Fault Refusal :=
  s.onDie d (fun m => m.when (m.counting d && decide (cycles < 250000)) (·.crystalStable d cycles))

/-- The switch to the ITO (R423): source, status, missing coarse periods added, the PLL relocks unless it is stopped in
furled (R444), the fine count holds (R383), CLOCK_FAIL is raised and sent on the sideband. -/
def Mach.switchToIto (m : Mach) (d missing : Nat) : Mach :=
  let m := m.upd d (fun x => { x with clk := { x.clk with coarse := x.clk.coarse + missing, ito := true } })
  let m := (m.wr d Reg.CLK_STATUS.SOURCE 0).wr d Reg.CLK_STATUS.MON_FAIL 1
  let m := (m.wr d Reg.CLK_STATUS.MON_ACTIVE 0).wr d Reg.TB_STATUS.ITO_TIME 1
  let m := if m.pw.phase = .furled then m else
    (m.wr d Reg.CLK_STATUS.PLL_LOCK 0).upd d (fun x => { x with clk := { x.clk with fineRuns := false, fineWait := false } })
  let m := m.wr d Reg.CLK_SWITCH_STAMP.STAMP (m.stamp d)
  (m.nmi d Reg.ERR_NMI_STATUS.CLOCK uAon pClockFail).send (.sideband d 2)

/-- NO_XTAL (R419): 250,000 ITO cycles without a stable crystal; start-up goes on from the ITO. -/
def execNoXtal (d : Nat) (s : State) : Host.Outcome State Fault Refusal :=
  s.onDie d (fun m => m.when (m.counting d) (fun m =>
    let m := m.runTo d ((m.die d).aux.itoStart + itoTicks 250000)
    ((m.wr d Reg.CLK_STATUS.NO_XTAL 1).switchToIto d 0).startStep d 2))

/-- The fine count restarts at the first coarse edge after the compute clock runs (R383). -/
def Mach.fineRestart (m : Mach) (d : Nat) : Mach :=
  m.upd d (fun x => { x with clk := { x.clk with fineWait := !x.clk.fineRuns } })

/-- At PLL lock the ensign die sets every worker's counters to its own time (R385). -/
def Mach.halyardSet (m : Mach) : Mach :=
  let c := (m.die m.ens).clk
  m.eachDie (fun m k => if k = m.ens then m
    else m.upd k (fun x => { x with clk := { x.clk with coarse := c.coarse, phase := c.phase, slew := 0, slewPhase := 0 } }))

/-- PLL_LOCK (R420): start-up step 3. Stage zeroing runs (R188); Bytrathal training starts. -/
def execPllLock (d : Nat) (s : State) : Host.Outcome State Fault Refusal :=
  s.onDie d (fun m => m.when (decide (m.pw.phase = .startup) && decide (m.rd d Reg.PWR_START_STEP.STEP = 2)) (fun m =>
    let m := (m.wr d Reg.CLK_STATUS.PLL_LOCK 1).fineRestart d
    let m := if d = m.ens then m.halyardSet else m
    m.startStep d 3))

/-- CLOCK_MONITOR_WINDOW (R422): a count outside 15,893 to 16,875 is a clock failure (R423). -/
def execClockMonitorWindow (d count : Nat) (s : State) : Host.Outcome State Fault Refusal :=
  s.onDie d (fun m => m.when (m.powered && m.on d Reg.CLK_STATUS.MON_ACTIVE) (fun m =>
    let m := (m.every d 1 (m.die d).aux.itoStart (itoTicks 4096)).wr d Reg.CLK_MON_COUNT.LAST (min count 32767)
    if 15893 ≤ count ∧ count ≤ 16875 then m
    else (m.wr d Reg.CLK_MON_COUNT.FAILED (min count 32767)).switchToIto d (256 - count / 64)))

/-- CLOCK_FAIL_MESSAGE (R423): as if its own monitor had failed. -/
def execClockFailMessage (d : Nat) (s : State) : Host.Outcome State Fault Refusal :=
  s.onDie d (fun m => m.when (m.powered && !m.on d Reg.CLK_STATUS.MON_FAIL) (·.switchToIto d 0))

/-- PLL_RELOCK (R423 step 3): the fine count restarts and the paused data plane resumes. -/
def execPllRelock (d : Nat) (s : State) : Host.Outcome State Fault Refusal :=
  s.onDie d (fun m => m.when (m.powered && m.on d Reg.CLK_STATUS.MON_FAIL && !m.on d Reg.CLK_STATUS.PLL_LOCK
      && m.pw.phase ≠ .furled && (!m.halted || d = m.ens)) (fun m =>
    let m := m.wr d Reg.CLK_STATUS.PLL_LOCK 1
    if m.halted then m else m.fineRestart d))

/-- Frequencies of the CLK_OUT sources in units of 100 Hz (R420, R445). -/
def clkOutFreq (src : Nat) : Nat :=
  match src with
  | 1 => 1000000 | 2 => 250000 | 3 => 68000000 | 4 => 17000000 | 5 => 17000000 | 6 => 4250000 | 7 => 15625 | _ => 0

/-- CLK_OUT as driven: in furled and half-mast only the crystal, the ITO and the always-on domain go on (R424). -/
def Mach.clkOutPin (m : Mach) : Option (Nat × Nat) :=
  match m.pw.clkOut with
  | none => none
  | some (src, dv) =>
    if m.serving || decide (m.pw.phase = .startup) || src = 1 || src = 2 || src = 7 then some (src, dv) else none

/-- CLK_OUT_CTRL (R424): only the ensign die drives CLK_OUT; a setting above 200 MHz holds it low. -/
def execClkOutCtrl (d : Nat) (v : Word) (s : State) : Host.Outcome State Fault Refusal :=
  s.onDie d (fun m => m.when m.powered (fun m =>
    let src := bits v.toNat 0 4
    let dv := bits v.toNat 4 16
    let m := (m.wr d Reg.CLK_OUT_CTRL.SOURCE src).wr d Reg.CLK_OUT_CTRL.DIV dv
    if d ≠ m.ens then m
    else if clkOutFreq src = 0 then { m with pw := { m.pw with clkOut := none } }
    else if 2000000 * (dv + 1) < clkOutFreq src then
      ({ m with pw := { m.pw with clkOut := none } }).wr d Reg.CLK_STATUS.CLKOUT_LIMIT 1
    else { m with pw := { m.pw with clkOut := some (src, dv + 1) } }))

/-- HALYARD_MEASURE (R385, R386): the offset is shown, slewed away, and above 16 ticks reported. -/
def execHalyardMeasure (d : Nat) (offset : Int) (s : State) : Host.Outcome State Fault Refusal :=
  s.onDie d (fun m => m.when (d ≠ m.ens && m.alive && m.fab.trained && m.pw.phase ≠ .furled) (fun m =>
    let mag := offset.natAbs
    let m := (m.every d 2 m.pw.startedAt (10 * Config.us)).wr d Reg.TB_HALYARD.OFFSET (unsigned 16 offset)
    let m := m.wr d Reg.TB_HALYARD.PEAK (max (m.rd d Reg.TB_HALYARD.PEAK) (min mag 65535))
    let m := m.upd d (fun x => { x with clk := { x.clk with slew := offset } })
    if 16 < mag then (m.wr d Reg.TB_STATUS.HALYARD_ERR 1).note d uAon pHalyardErr (unsigned 8 offset) else m))

/-! ## Time marks (R388) -/

/-- TB_MARK_PERIOD in ticks. -/
def Mach.markPeriod (m : Mach) (d : Nat) : Nat := clamp 100 10000 (m.rd d Reg.TB_MARK_PERIOD.MS) * Config.ms

/-- A new mark is journalled: C' = time + 2 periods, in furled also twice the time to the next scrub pass (R388, R432). -/
def Mach.journalMark (m : Mach) (d extra : Nat) : Mach :=
  let c := m.now d + 2 * m.markPeriod d + extra
  m.upd d (fun x => { x with clk := { x.clk with mark := some c } })

/-- A journalled mark becomes the durable ceiling. -/
def Mach.markDurable (m : Mach) (d : Nat) : Mach :=
  match (m.die d).clk.mark with
  | none => m
  | some c =>
    (m.wr d Reg.TB_CEILING.CEILING c).upd d (fun x =>
      { x with clk := { x.clk with mark := none }, fl := { x.fl with ceiling := some c, seg := x.fl.seg ++ [.mark c] } })

/-- The stamp of a die's next scrub pass: FLC_SCRUB_PERIOD after the last one of this start, or after the start (R354). -/
def Mach.scrubDue (m : Mach) (d : Nat) : Nat :=
  let last := (((m.die d).fl.history.getLast?).map (·.1)).getD 0
  max last m.pw.startedAt + clamp 1 720 (m.rd d Reg.FLC_SCRUB_PERIOD.HOURS) * 3600 * Config.sec

/-- The time mark of furled (R432), durable before the flash channels stop. -/
def Mach.furledMark (m : Mach) (d : Nat) : Mach := (m.journalMark d (2 * (m.scrubDue d - m.now d))).markDurable d

def Mach.established (m : Mach) (d : Nat) : Bool := m.on d Reg.TB_STATUS.ESTABLISHED

/-- TIME_MARK (R388): at C - TB_MARK_PERIOD the die journals a new ceiling. -/
def execTimeMark (d : Nat) (s : State) : Host.Outcome State Fault Refusal :=
  s.onDie d (fun m => m.when (m.alive && m.established d && (m.die d).clk.mark.isNone) (fun m =>
    let m := m.runTo d (m.rd d Reg.TB_CEILING.CEILING - m.markPeriod d)
    m.journalMark d 0))

/-- TIME_MARK_DURABLE (R388). -/
def execTimeMarkDurable (d : Nat) (s : State) : Host.Outcome State Fault Refusal :=
  s.onDie d (fun m => m.when m.alive (·.markDurable d))

/-- CEILING_REACHED (R388): no durable mark in time, half-mast with cause 8, at the last stamp below the ceiling (log entry 114). -/
def execCeilingReached (d : Nat) (s : State) : Host.Outcome State Fault Refusal :=
  s.onDie d (fun m => m.when (m.alive && m.established d) (fun m =>
    (m.runTo d (m.rd d Reg.TB_CEILING.CEILING - 1)).halfMast d 8))

/-- TB_TIME_SET (R415): defined in half-mast only, where it writes the counters and counts as a ceiling at the next start;
while a die is awake it is a case of R414. -/
def execTbTimeSet (d : Nat) (v : DWord) (s : State) : Host.Outcome State Fault Refusal :=
  if s.m.alive then .fault (.undefinedCase 7)
  else s.onDie d (fun m => m.when m.halted (fun m =>
    m.upd d (fun x => { x with clk := { x.clk.setTime v.toNat with timeSet := some v.toNat } })))

/-! ## Bytrathal (R22, R23, R26, R40) -/

/-- BYTRATHAL_TRAINING_DONE (R26): start-up step 4; a link that failed is treated as down. -/
def execBytrathalTrainingDone (failed : List (Nat × Nat)) (s : State) : Host.Outcome State Fault Refusal :=
  s.run (fun m => m.when (decide (m.pw.phase = .startup) && !m.fab.trained
      && (List.range m.n).all (fun d => decide (m.rd d Reg.PWR_START_STEP.STEP = 3))) (fun m =>
    let m := { m with fab := { m.fab with trained := true } }
    let m := m.eachDie (fun m d => m.startStep d 4)
    failed.foldl (fun m p => m.linkDown p.1 p.2) m))

/-- The flip armed on the sending end of a link corrupts the next flit (R411, TARGET 2). -/
def Mach.flipOnLink (m : Mach) (p i : Nat) : Bool :=
  m.on p Reg.ERR_FLIP_CTRL.ARMED && m.on p Reg.ERR_FLIP_CTRL.ALLOWED && decide (m.flipTarget p = 2)
    && decide (m.rd p Reg.ERR_FLIP_CTRL.INDEX = i)

/-- A flip has been applied: TEST pennant, ARMED clear, DONE set (R411). -/
def Mach.flipDone (m : Mach) (d unit : Nat) : Mach :=
  ((m.wr d Reg.ERR_FLIP_CTRL.ARMED 0).wr d Reg.ERR_FLIP_CTRL.DONE 1).note d unit pFlipApplied

/-- A retry of link `i` at receiver `d` fails; after 16 in succession the link is declared down (R23). -/
def Mach.retryFails (m : Mach) (d i : Nat) : Mach :=
  let k := linkKey d i
  let f := SMap.get (fun _ => 0) m.fab.failed k + 1
  let m := { m with fab := { m.fab with failed := SMap.set (fun _ => 0) m.fab.failed k f, replaying := k :: m.fab.replaying.erase k } }
  if 16 ≤ f then m.linkDown d i else m

/-- The sender's oldest flit arrives: it leaves the retry buffer and goes on toward its die (R22, R24). -/
def Mach.flitTaken (m : Mach) (d i : Nat) : Mach :=
  let q := linkKey (linkPeer d i) i
  match m.unacked q with
  | [] => m
  | f :: t => (m.setUnacked q t).forward d f

/-- A flit with a CRC error: a retry is asked for, and the sender replays it and every later unacknowledged flit (R22); an error in
a replay is a failed retry (R23). -/
def Mach.flitBad (m : Mach) (d i : Nat) : Mach :=
  let k := linkKey d i
  let p := linkPeer d i
  let m := (m.send (.flitRetry d i)).send (.flitReplay p i (m.unacked (linkKey p i)).length)
  if m.fab.replaying.contains k then m.retryFails d i else { m with fab := { m.fab with replaying := k :: m.fab.replaying } }

/-- FLIT_RECEIVE (R22): a good flit is acknowledged, and ends a replay as one correctable event. -/
def execFlitReceive (d i : Nat) (crcOk : Bool) (s : State) : Host.Outcome State Fault Refusal :=
  s.onUnit d i 3 (fun m => m.when (m.alive && m.linkUp d i) (fun m =>
    let p := linkPeer d i
    let hit := m.flipOnLink p i
    let spoiled := hit && (List.range 17).any (fun w => m.rd p (Reg.ERR_FLIP_MASK.MASK w) ≠ 0)
    let m := if hit then m.flipDone p (uLink i) else m
    let k := linkKey d i
    if crcOk && !spoiled then
      let m := (m.send (.flitAck d i)).flitTaken d i
      if m.fab.replaying.contains k then
        ({ m with fab := { m.fab with replaying := m.fab.replaying.erase k,
                                      failed := SMap.set (fun _ => 0) m.fab.failed k 0 } }).correctable d (52 + i)
      else m
    else m.flitBad d i))

/-- RETRY_FAILURE (R23): the receiver does not acknowledge the replayed flits. -/
def execRetryFailure (d i : Nat) (s : State) : Host.Outcome State Fault Refusal :=
  s.onUnit d i 3 (fun m => m.when (m.alive && m.linkUp d i) (·.retryFails d i))

/-- Heartbeats run: links up, not furled, not half-mast (R40). -/
def Mach.beating (m : Mach) : Bool := m.alive && m.fab.trained && m.pw.phase ≠ .furled

/-- HEARTBEAT_SEND (R40). -/
def execHeartbeatSend (d : Nat) (s : State) : Host.Outcome State Fault Refusal :=
  s.onDie d (fun m => m.when m.beating (fun m =>
    let m := m.every d 3 m.pw.startedAt Config.ms
    if d = m.ens then m.sendAll (((List.range m.n).filter (fun k => k ≠ d)).map (fun k => .heartbeat d k))
    else m.send (.heartbeat d m.ens)))

/-- A heartbeat partner of die `d`: the ensign die, or for the ensign die every worker. -/
def Mach.isPartner (m : Mach) (d p : Nat) : Bool := decide (p < m.n) && decide (p ≠ d) && (decide (d = m.ens) || decide (p = m.ens))

/-- The 100 ms count towards partner `p` starts afresh now. -/
def Mach.beatNow (m : Mach) (d p : Nat) : Mach :=
  m.upd d (fun x => { x with aux := { x.aux with beats := SMap.set (fun _ => 0) x.aux.beats p (x.clk.now) } })

/-- HEARTBEAT_RECEIVE (R40). -/
def execHeartbeatReceive (d p : Nat) (s : State) : Host.Outcome State Fault Refusal :=
  s.onDie d (fun m => m.when (m.beating && m.isPartner d p) (·.beatNow d p))

/-- HEARTBEAT_LOST (R40): 100 ms without one, a pennant and half-mast with cause 4. -/
def execHeartbeatLost (d p : Nat) (s : State) : Host.Outcome State Fault Refusal :=
  s.onDie d (fun m => m.when (m.beating && m.isPartner d p) (fun m =>
    let m := m.runTo d (SMap.get (fun _ => 0) (m.die d).aux.beats p + 100 * Config.ms)
    (m.note d uMgmt pHeartbeatLost).halfMast d 4))

/-- HALF_MAST_MESSAGE (R436): a die receives half-mast on the sideband. -/
def execHalfMastMessage (d cause : Nat) (s : State) : Host.Outcome State Fault Refusal :=
  s.onDie d (fun m => m.halfMast d cause)

/-- PWR_HALT (R435 cause 11): the key through the service port. -/
def execPwrHalt (via : Via) (d : Nat) (key : Word) (s : State) : Host.Outcome State Fault Refusal :=
  s.onDie d (fun m => m.when (decide (via = .service) && decide (key = 0x48414C54)) (·.halfMast d 11))

/-- The stamp at which the die became ready (PWR_START_LOG). -/
def Mach.readyAt (m : Mach) (d : Nat) : Nat := m.pw.startedAt + m.rd d (Reg.PWR_START_LOG.US 8) * Config.us

/-- The end of the next leak interval of a bucket, counted from the stamp at which the die became ready (R407). -/
def Mach.leakDue (m : Mach) (d i : Nat) : Nat :=
  let p := clamp 1 3600000 (m.rd d (Reg.ERR_BUCKET_LEAK.MS i)) * Config.ms
  let t := m.readyAt d
  t + ((SMap.get (fun _ => 0) (m.die d).aux.last (dueLeak i) - t) / p + 1) * p

/-- BUCKET_LEAK (R407): the leak of every interval that ends, on time or late. -/
def execBucketLeak (d i : Nat) (s : State) : Host.Outcome State Fault Refusal :=
  s.onUnit d i 55 (fun m => m.when (m.alive && m.on d Reg.OPS_STATUS.READY) (fun m =>
    let due := m.leakDue d i
    ((m.runTo d due).upd d (fun x => { x with aux := { x.aux with last := SMap.set (fun _ => 0) x.aux.last (dueLeak i) due } })).leak d i))

/-- THERMAL levels (R525): the level that the hottest reading asks for, and a level's threshold. -/
def thermalLevel (t : Int) : Nat :=
  if t < 95 then 0 else if t < 97 then 1 else if t < 99 then 2 else if t < 101 then 3 else 4

def levelThreshold (l : Nat) : Int := 93 + 2 * (l : Int)

/-- A reading as its register shows it. -/
def tempReg (t : Int) : Nat := min 255 t.toNat

/-- A change of throttle level with its pennant (R525). -/
def Mach.setLevel (m : Mach) (d l : Nat) : Mach :=
  let m := (m.wr d Reg.PWR_THERM_STATUS.LEVEL l).note d uAon pThrottle l
  m.upd d (fun x => { x with aux := { x.aux with coolSince := none } })

/-- The level after a sample of hottest reading `t`: it rises at once, and falls one level after 10 ms at 2 degrees below the
current level's threshold (R525). -/
def Mach.thermalStep (m : Mach) (d : Nat) (t : Int) : Mach :=
  let cur := m.rd d Reg.PWR_THERM_STATUS.LEVEL
  if cur < thermalLevel t then m.setLevel d (thermalLevel t)
  else if cur = 0 then m
  else if t ≤ levelThreshold cur - 2 then
    match (m.die d).aux.coolSince with
    | none => m.upd d (fun x => { x with aux := { x.aux with coolSince := some x.clk.now } })
    | some since => if since + 10 * Config.ms ≤ m.now d then m.setLevel d (cur - 1) else m
  else m.upd d (fun x => { x with aux := { x.aux with coolSince := none } })

/-- PWR_THROTTLE_TIME counts whole milliseconds at level 1 or above (R529). -/
def Mach.throttleTime (m : Mach) (d : Nat) : Mach :=
  if m.rd d Reg.PWR_THERM_STATUS.LEVEL = 0 then m.upd d (fun x => { x with aux := { x.aux with throttleSince := none } })
  else match (m.die d).aux.throttleSince with
    | none => m.upd d (fun x => { x with aux := { x.aux with throttleSince := some x.clk.now } })
    | some t0 =>
      let k := (m.now d - t0) / Config.ms
      (m.bump d Reg.PWR_THROTTLE_TIME.MS k).upd d (fun x => { x with aux := { x.aux with throttleSince := some (t0 + k * Config.ms) } })

/-- The index of the greatest reading, the first of several. -/
def hottest (rs : List Int) : Nat :=
  (rs.zipIdx.foldl (fun (acc : Nat × Int) p => if acc.2 < p.1 then (p.2, p.1) else acc) (0, rs.headD 0)).1

/-- THERMAL_SAMPLE (R523 to R526). -/
def execThermalSample (d : Nat) (rs : List Int) (s : State) : Host.Outcome State Fault Refusal :=
  s.onDie d (fun m => m.when (m.powered && decide (rs.length = 8)) (fun m =>
    let m := (m.every d 0 (m.die d).aux.itoStart (100 * Config.us)).throttleTime d
    let m := rs.zipIdx.foldl (fun m p => m.wr d (Reg.PWR_THERM_SENSOR.TEMP_C p.2) (tempReg p.1)) m
    let k := hottest rs
    let t := rs.getD k 0
    let m := (m.wr d Reg.PWR_THERM_STATUS.TEMP_C (tempReg t)).wr d Reg.PWR_THERM_STATUS.HOT_SENSOR k
    let m := m.wr d Reg.PWR_THERM_STATUS.PEAK_C (max (m.rd d Reg.PWR_THERM_STATUS.PEAK_C) (tempReg t))
    let m := if 105 ≤ t ∧ m.rd d Reg.PWR_THERM_STATUS.HOT = 0 then (m.wr d Reg.PWR_THERM_STATUS.HOT 1).note d uAon pThrottle 5
      else m.wr d Reg.PWR_THERM_STATUS.HOT (b2n (decide (105 ≤ t)))
    let m := (m.thermalStep d t).throttleTime d
    let hotOnes := (rs.zipIdx.filter (fun p => decide (115 ≤ p.1))).map (·.2)
    let trip := hotOnes.any (fun i => (m.die d).aux.tripSensors.contains i)
    let m := m.upd d (fun x => { x with aux := { x.aux with tripSensors := hotOnes } })
    if trip then
      let m := ({ m with pw := { m.pw with tripLow := true } }).wr d Reg.PWR_THERM_STATUS.TRIP 1
      (m.nmi d Reg.ERR_NMI_STATUS.THERMAL uAon pThermalTrip).halfMast d 9
    else m))

end Sys2Proof.Machine
end

