-- ==== Sys2Proof/Machine/Dmc.lean ====
section
/-! DEFINITION. The GDDR7 controller: runs, the write queue, the outer code, row counts, freeze (R287 to R318), and the
commands of a channel that need no host request. -/

namespace Sys2Proof.Machine

/-! ## Channel bookkeeping -/

def Mach.updChan (m : Mach) (d c : Nat) (f : Chan → Chan) : Mach :=
  m.upd d (fun x => { x with dram := { x.dram with chans := x.dram.chans.modify c f } })

/-- Physical rows per bank (R288). -/
def Mach.physRows (m : Mach) (d : Nat) : Nat := m.devBytes d / 2 ^ 17 / 15 * 16

/-- A command recorded on a channel (R316, R317). -/
def Mach.dramCmd (m : Mach) (d c cmd bank row sector port len : Nat) : Mach :=
  let e : DramCmd := ⟨m.now d, cmd, bank, row, sector, if row % 16 = 15 ∧ cmd = 1 ∨ row % 16 = 15 ∧ cmd = 2 then 7 else port, len,
    false, decide (row % 16 = 15) && decide (cmd < 4)⟩
  m.updChan d c (fun x => { x with cmds := e :: x.cmds.take 63, lastUse := e.stamp })

/-- The newest command of the record that `here` names reported the error (R317). -/
def Mach.markWhere (m : Mach) (d c : Nat) (here : DramCmd → Bool) : Mach :=
  m.updChan d c (fun x => { x with cmds := (x.cmds.zipIdx.map (fun p =>
    if here p.1 && !(x.cmds.take p.2).any here then { p.1 with err := true } else p.1)) })

/-- A read of a run that covers a sector (R317). -/
def DramCmd.reads (e : DramCmd) (bank row sector : Nat) : Bool :=
  decide (e.cmd = 1) && decide (e.bank = bank) && decide (e.row = row) && decide (e.sector ≤ sector) && decide (sector ≤ e.sector + e.len)

/-- The count of a row after one more activation, with the table kept at 32 entries a bank (R305). -/
def bumpCount (cs : List ActCount) (bank row : Nat) : List ActCount × Nat :=
  let mine := cs.filter (fun a => decide (a.bank = bank))
  match mine.find? (fun a => decide (a.row = row)) with
  | some a => (updWhere (fun b => decide (b.bank = bank) && decide (b.row = row)) (fun b => { b with count := b.count + 1 }) cs, a.count + 1)
  | none =>
    if mine.length < 32 then (cs ++ [⟨bank, row, 1⟩], 1)
    else match minBy (·.count) mine with
      | some a => (cs.map (fun b => if b = a then ⟨bank, row, a.count + 1⟩ else b), a.count + 1)
      | none => (cs, 1)

/-- The rows that TABLE activates about row r (R306). -/
def Mach.victims (m : Mach) (d r : Nat) : List Nat :=
  (if 2 ≤ r then [r - 2] else []) ++ (if 1 ≤ r then [r - 1] else []) ++
    ([r + 1, r + 2].filter (fun k => decide (k < m.physRows d)))

/-- An activation of a physical row, counted (R305); a row that passes the threshold meets RH_MODE's action (R306). A row held
by THROTTLE is activated in the next window, so it is not counted in this one (log entry 14). -/
def Mach.activate (m : Mach) (d c bank row port : Nat) : Mach :=
  let m := m.dramCmd d c 0 bank row 0 port 0
  if (m.chan d c).throttled.contains (bank, row) then m
  else
    let r := bumpCount (m.chan d c).counts bank row
    let m := m.updChan d c (fun x => { x with counts := r.1 })
    if r.2 ≤ max 500 (m.rd d Reg.DMC_RH_THRESH.THRESH) then m
    else
      let m := (m.bump d (Reg.DMC_RH_EVENTS.COUNT c)).note d (uDmc c) pRhEvent
      if m.rd d Reg.DMC_CONFIG.RH_MODE = 1 then
        let m := (m.victims d row).foldl (fun m v => (m.dramCmd d c 5 bank v 0 5 0).dramCmd d c 3 bank v 0 5 0) m
        m.updChan d c (fun x => { x with
          counts := updWhere (fun b => decide (b.bank = bank) && decide (b.row = row)) (fun b => { b with count := 0 }) x.counts })
      else m.updChan d c (fun x => { x with throttled := (bank, row) :: x.throttled })

/-- One run: activation, access, precharge (R294). -/
def Mach.run (m : Mach) (d c cmd bank row sector n port : Nat) : Mach :=
  ((m.activate d c bank row port).dramCmd d c cmd bank row sector port (n - 1)).dramCmd d c 3 bank row 0 port 0

/-- CHECK_DIRTY of a channel's status. -/
def Mach.showDirty (m : Mach) (d c : Nat) : Mach :=
  m.setBit d (Reg.DMC_CH_STATUS.CHECK_DIRTY c) ((m.chan d c).segs.any (·.dirty))

/-- The check segment of a data row is brought into the check cache, evicting the least recently used of 512 (R300). -/
def Mach.segment (m : Mach) (d c bank row : Nat) (dirty : Bool) : Mach :=
  let here (s : Segment) : Bool := decide (s.bank = bank) && decide (s.row = row)
  let was := (m.chan d c).segs.find? here
  let m := if was.isSome then m else m.run d c 1 bank (checkRow row) (2 * (row % 16)) 2 7
  let entry : Segment := ⟨bank, row, dirty || (match was with | some s => s.dirty | none => false)⟩
  let segs := entry :: dropWhere here (m.chan d c).segs
  let m := match (segs.drop 512).head? with
    | some s => if s.dirty then m.run d c 2 s.bank (checkRow s.row) (2 * (s.row % 16)) 2 7 else m
    | none => m
  (m.updChan d c (fun x => { x with segs := segs.take 512 })).showDirty d c

/-- Updated segments are written back when the channel is idle (R300). -/
def Mach.writeBackSegments (m : Mach) (d c : Nat) : Mach :=
  let m := ((m.chan d c).segs.filter (·.dirty)).foldl (fun m s => m.run d c 2 s.bank (checkRow s.row) (2 * (s.row % 16)) 2 7) m
  (m.updChan d c (fun x => { x with segs := x.segs.map (fun s => { s with dirty := false }) })).showDirty d c

/-- A channel in self-refresh is woken by a request (R303, R428). -/
def Mach.wakeChan (m : Mach) (d c : Nat) : Mach :=
  if m.chState d c = 4 then
    ((m.wr d (Reg.DMC_CH_STATUS.STATE c) 3).dramCmd d c 8 0 0 0 5 0).ungate d Reg.PWR_GATED.DMC c
  else m

/-! ## Freeze (R315 to R317) -/

/-- A channel freezes: the record is kept, the event raised, copies redirected, the QoS unit told, furled entry abandoned.
A second error on a frozen channel is only counted (R320). `cause` 1 data, 2 command, 3 check segment. -/
def Mach.freeze (m : Mach) (d c cause bank row sector len : Nat) (failing : List Nat) : Mach :=
  let m := if cause = 2 then m else (m.bump d (Reg.DMC_UE_COUNT.COUNT c)).note d (uDmc c) pDramUe
  if m.chState d c = 5 then m
  else
    let m := (m.wr d (Reg.DMC_CH_STATUS.STATE c) 5).wr d (Reg.DMC_ERR_ADDR.BANK c) bank
    let m := (m.wr d (Reg.DMC_ERR_ADDR.ROW c) row).wr d (Reg.DMC_ERR_ADDR.SECTOR c) sector
    let m := (m.wr d (Reg.DMC_ERR_ADDR.LEN c) len).wr d (Reg.DMC_ERR_ADDR.CAUSE c) cause
    let m := m.wr d (Reg.DMC_FREEZE_STAMP.STAMP c) (m.stamp d)
    let m := m.updChan d c (fun x => { x with frozenCmds := x.cmds, failing := failing, written := [], releasing := false })
    let m := m.nmi d Reg.ERR_NMI_STATUS.FREEZE (uDmc c) pFreeze c
    ((m.redirect d c).qosChannels d).furlAbandon 1

/-! ## Lines -/

/-- What a line read answers: its data and its poison bit, or nothing while the channel serves no request. -/
abbrev LineRead := Option (List Byte × Bool)

def Mach.rawLine (m : Mach) (d dda : Nat) : List Byte × List Byte :=
  (SMap.getRun zeroByte (m.die d).dram.data (dda / 64 * 64) 64, SMap.getRun zeroByte (m.die d).dram.check (dda / 64 * 4) 4)

/-- A queued write of the line (R295). -/
def Mach.queued (m : Mach) (d c dda : Nat) : Option WqEntry := (m.chan d c).wq.find? (fun e => decide (e.line = dda / 64))

/-- Decoding one line that a run has read (R299 to R302). -/
def Mach.decodeLine (m : Mach) (d dda : Nat) : LineRead × Mach :=
  let l := m.locate d dda
  let raw := m.rawLine d dda
  match rsDecode (m.rd d Reg.DMC_CONFIG.ECC_MODE) raw.1 raw.2 with
  | .clean x => (some (x, false), m)
  | .poison x => (some (x, true), m)
  | .corrected x => (some (x, false), (m.bump d (Reg.DMC_CE_COUNT.COUNT l.ch)).correctable d l.ch)
  | .uncorrectable => (none, (m.markWhere d l.ch (fun e => e.reads l.bank l.row (l.byte / 64))).freeze d l.ch 1 l.bank l.row (l.byte / 64) 0 [dda / 64 * 64])

/-- One line: answered from the write queue if it is there, from the array otherwise. -/
def Mach.oneLine (m : Mach) (d dda : Nat) : LineRead × Mach :=
  let c := (m.locate d dda).ch
  if !m.chanOpen d c then (none, m)
  else match m.queued d c dda with
    | some e => (some (e.data, e.poison), m.bump d (Reg.DMC_RAW_FWD.COUNT c))
    | none => m.decodeLine d dda

/-- A run of `n` lines within one row (R294, R300). -/
def Mach.readRun (m : Mach) (d port dda n : Nat) : List LineRead × Mach :=
  let l := m.locate d dda
  if !m.chanOpen d l.ch then (List.replicate n none, m)
  else
    let m := m.wakeChan d l.ch
    let addrs := (List.range n).map (fun i => dda / 64 * 64 + 64 * i)
    let m := if addrs.all (fun a => (m.queued d l.ch a).isSome) then m
      else (m.segment d l.ch l.bank l.row false).run d l.ch 1 l.bank l.row (l.byte / 64) n port
    addrs.foldl (fun acc a => let r := acc.2.oneLine d a; (acc.1 ++ [r.1], r.2)) ([], m)

def Mach.readLine (m : Mach) (d port dda : Nat) : LineRead × Mach :=
  let r := m.readRun d port dda 1
  (r.1.headD none, r.2)

/-- The stored form of a write: check bytes, the poison pattern, split-write mode (R412) and an armed flip (R411). -/
def Mach.storeLine (m : Mach) (d : Nat) (e : WqEntry) : Mach :=
  let dda := 64 * e.line
  let c := (m.locate d dda).ch
  let allowed := m.on d Reg.ERR_FLIP_CTRL.ALLOWED
  let split := allowed && m.on d Reg.ERR_SPLIT_CTRL.ARMED && decide (m.rd d Reg.ERR_SPLIT_CTRL.CHANNEL = c)
    && decide (m.rd d Reg.ERR_SPLIT_ADDR.DDA / 64 = e.line)
  let flip := allowed && m.on d Reg.ERR_FLIP_CTRL.ARMED && decide (m.flipTarget d = 0)
    && decide (m.rd d Reg.ERR_FLIP_CTRL.INDEX = c)
    && (!m.on d Reg.ERR_FLIP_CTRL.ADDR_MATCH || decide (m.rd d Reg.ERR_FLIP_ADDR.ADDR / 64 = e.line))
  let chk := rsCheck e.data
  let chk := if e.poison then xorBytes chk poisonPattern else chk
  let chk := if split then leBytes 4 (m.rd d Reg.ERR_SPLIT_CHECK.CHECK) else chk
  let mask (w : Nat) : List Byte := leBytes 4 (m.rd d (Reg.ERR_FLIP_MASK.MASK w))
  let data := if flip then xorBytes e.data ((List.range 16).flatMap mask) else e.data
  let chk := if flip then xorBytes chk (mask 16) else chk
  let m := m.upd d (fun x => { x with dram := { x.dram with
    data := SMap.setRun zeroByte x.dram.data dda data, check := SMap.setRun zeroByte x.dram.check (4 * e.line) chk } })
  let m := if split then ((m.wr d Reg.ERR_SPLIT_CTRL.ARMED 0).wr d Reg.ERR_SPLIT_CTRL.DONE 1).note d (uDmc c) pSplitApplied else m
  if flip then m.flipDone d (uDmc c) else m

/-- Entries of one port in adjacent sectors of one row, as one run; the rest. -/
def takeRun : List WqEntry → List WqEntry × List WqEntry
  | [] => ([], [])
  | e :: t =>
    let r := takeRun t
    match r.1 with
    | f :: _ => if f.line = e.line + 1 ∧ f.line / 32 = e.line / 32 ∧ f.port = e.port then (e :: r.1, r.2) else ([e], t)
    | [] => ([e], t)

/-- Queued entries written in runs; `fuel` bounds the number of runs. -/
def Mach.drainRuns (m : Mach) (d : Nat) : Nat → List WqEntry → Mach
  | 0, _ => m
  | fuel + 1, es =>
    match takeRun es with
    | ([], _) => m
    | (e :: run, rest) =>
      let l := m.locate d (64 * e.line)
      let m := (m.segment d l.ch l.bank l.row true).run d l.ch 2 l.bank l.row (l.byte / 64) (run.length + 1) e.port
      Mach.drainRuns ((e :: run).foldl (fun m e => m.storeLine d e) m) d fuel rest

/-- The write queue of a channel drains (R295). -/
def Mach.drain (m : Mach) (d c : Nat) : Mach :=
  let q := sortBy (·.line) (m.chan d c).wq
  (m.drainRuns d q.length q).updChan d c (fun x => { x with wq := [] })

/-- A full line enters the write queue: a later write of a queued line replaces it; at 48 entries the queue drains (R295). -/
def Mach.writeLine (m : Mach) (d port dda : Nat) (data : List Byte) (poison : Bool) : Mach :=
  let c := (m.locate d dda).ch
  let m := m.wakeChan d c
  let e : WqEntry := ⟨dda / 64, data, poison, port, m.now d⟩
  let m := m.updChan d c (fun x => { x with
    wq := if x.wq.any (fun w => decide (w.line = e.line)) then updWhere (fun w => decide (w.line = e.line)) (fun _ => e) x.wq
          else x.wq ++ [e] })
  if 48 ≤ (m.chan d c).wq.length then m.drain d c else m

/-- Bytes written into a line from `first` on: the whole line, or a read-modify-write (R296). A write into a poisoned line
leaves it poisoned unless it is whole. Not taken: the channel is frozen, or freezes at the read (R315). -/
def Mach.mergeLine (m : Mach) (d port dda first : Nat) (data : List Byte) (poison : Bool) : Bool × Mach :=
  let c := (m.locate d dda).ch
  if !m.chanOpen d c then (false, m)
  else if first = 0 ∧ 64 ≤ data.length then (true, m.writeLine d port dda (data.take 64) poison)
  else
    let r := m.readLine d port dda
    match r.1 with
    | none => (false, r.2)
    | some (old, p) => (true, r.2.writeLine d port dda ((old.take first ++ data ++ old.drop (first + data.length)).take 64) (p || poison))

/-! ## Runs of bytes -/

/-- `n` lines of DRAM from `a`, a multiple of 64, in order: one run for each row they lie in (R294). -/
def Mach.readLines (m : Mach) (d port a n : Nat) : Nat → List LineRead × Mach
  | 0 => ([], m)
  | fuel + 1 =>
    if n = 0 then ([], m)
    else
      let k := min n (32 - a / 64 % 32)
      let r := m.readRun d port a k
      let t := Mach.readLines r.2 d port (a + 64 * k) (n - k) fuel
      (r.1 ++ t.1, t.2)

/-- Bytes of DRAM: none if a line is not served; the poison bits are joined. -/
def Mach.getBytes (m : Mach) (d port a n : Nat) : Option (List Byte × Bool) × Mach :=
  let base := a / 64 * 64
  let lines := (a + n + 63) / 64 - a / 64
  let r := m.readLines d port base lines lines
  if r.1.all (·.isSome) then
    let bytes := r.1.flatMap (fun l => match l with | some x => x.1 | none => [])
    (some (sub bytes (a - base) n, r.1.any (fun l => match l with | some x => x.2 | none => false)), r.2)
  else (none, r.2)

/-- Bytes written to DRAM line by line, partial lines by read-modify-write; lines of a channel that takes none are left. -/
def Mach.putBytes (m : Mach) (d port a : Nat) (bs : List Byte) (poison : Bool) : Nat → Mach
  | 0 => m
  | fuel + 1 =>
    match bs with
    | [] => m
    | _ =>
      let k := min bs.length (64 - a % 64)
      let m1 := (m.mergeLine d port (a / 64 * 64) (a % 64) (bs.take k) poison).2
      Mach.putBytes m1 d port (a + k) (bs.drop k) poison fuel

def Mach.writeBytes (m : Mach) (d port a : Nat) (bs : List Byte) (poison : Bool := false) : Mach :=
  m.putBytes d port a bs poison (bs.length + 1)

/-- Does every channel that a run of bytes touches take requests? -/
def Mach.runOpen (m : Mach) (d a n : Nat) : Bool :=
  (List.range 12).all (fun c => m.chanOpen d c || !m.runOnChan d c a n)

/-! ## Training and devices -/

/-- A lane's windows are wide enough (R314). -/
def laneOk (l : Lane) : Bool := decide (8 ≤ l.rdEye) && decide (8 ≤ l.wrEye)

/-- A lane's result in DMC_TRAIN, kept in the always-on block (R312). -/
def Mach.setLane (m : Mach) (d c : Nat) (l : Lane) : Mach :=
  let m := (m.wr d (Reg.DMC_TRAIN.RD_DELAY c) l.rd).wr d (Reg.DMC_TRAIN.WR_DELAY c) l.wr
  let m := (m.wr d (Reg.DMC_TRAIN.RD_EYE c) l.rdEye).wr d (Reg.DMC_TRAIN.WR_EYE c) l.wrEye
  let m := (m.updChan d c (fun x => { x with retained := some (l.rd, l.wr), trainedAt := m.now d })).wr d Reg.DMC_TRAIN_STATUS.RETAINED 1
  (m.wr d Reg.DMC_TRAIN_STATUS.DONE (setBits (m.rd d Reg.DMC_TRAIN_STATUS.DONE) c 1 1)).dramCmd d c 9 0 0 0 6 0

/-- A lane that failed: its bit and a pennant that names the channel (R314). -/
def Mach.laneFail (m : Mach) (d c : Nat) : Mach :=
  (m.wr d Reg.DMC_TRAIN_STATUS.FAILED (setBits (m.rd d Reg.DMC_TRAIN_STATUS.FAILED) c 1 1)).note d (uDmc c) pTrainFail

/-- The lanes of several channels trained at start-up or wake; a failure is half-mast with cause 6. -/
def Mach.trainLanes (m : Mach) (d : Nat) (ls : List (Nat × Lane)) : Mach :=
  let m := ls.foldl (fun m p => if laneOk p.2 then m.setLane d p.1 p.2 else m.laneFail d p.1) m
  if ls.all (fun p => laneOk p.2) then m else m.halfMast d 6

/-- The retention-set check of R308, and the density check of R288. -/
def Mach.boardDramOk (m : Mach) (d density : Nat) : Bool :=
  decide (m.rd d Reg.DMC_CONFIG.DENSITY = density) && decide (m.retained d ≠ [])
    && decide (m.fixedBytes d + m.rd d Reg.TIER_PIN_LIMIT.MIB * 2 ^ 20 ≤ (m.retained d).length * m.devBytes d)

/-- The six selection bits are a one-to-one function of O[16:11] whatever the higher bits (R292). -/
def Mach.mapOneToOne (m : Mach) (d : Nat) : Bool :=
  (distinct ((List.range 64).map (fun v => selectBits (m.mask d) (v * 2 ^ 11)))).length = 64

/-- A device powered and initialised: every line reads as zeros (R311). -/
def Mach.initDevice (m : Mach) (d j : Nat) : Mach :=
  let D := m.devBytes d
  let m := m.upd d (fun x => { x with dram := { x.dram with
    data := SMap.dropRange x.dram.data (j * D) ((j + 1) * D), check := SMap.dropRange x.dram.check (j * D / 16) ((j + 1) * D / 16),
    origins := SMap.dropRange x.dram.origins (j * D / 64) ((j + 1) * D / 64) } })
  m.wr d Reg.DMC_DEV_STATUS.INIT_DONE (setBits (m.rd d Reg.DMC_DEV_STATUS.INIT_DONE) j 1 1)

/-- Step 6 is due: step 5 has ended, and the devices are not initialised (step 7 runs in parallel, R441). -/
def Mach.dramDue (m : Mach) (d : Nat) : Bool :=
  decide (m.pw.phase = .startup) && decide (5 ≤ m.rd d Reg.PWR_START_STEP.STEP) && decide (m.rd d Reg.DMC_DEV_STATUS.INIT_DONE = 0)

/-- Start-up step 6 on a die: board checks, power, training, zeroing (R441, R288, R308, R311, R312, R314). -/
def Mach.dramStart (m : Mach) (d density : Nat) (lanes : List Lane) : Mach :=
  if !m.boardDramOk d density then (m.note d uMgmt pCheckFail 3).halfMast d 5
  else
    let form := if m.on d Reg.DMC_TRAIN_STATUS.RETAINED then 2 else 1
    let m := m.wr d Reg.DMC_DEV_STATUS.POWERED 7
    let m := (List.range 12).foldl (fun m c => m.wr d (Reg.DMC_CH_STATUS.STATE c) 2) m
    let m := (m.wr d Reg.DMC_TRAIN_STATUS.FORM form).wr d Reg.DMC_TRAIN_STATUS.DONE 0
    let m := m.trainLanes d ((lanes.take 12).zipIdx.map (fun p => (p.2, p.1)))
    if m.halted then m
    else
      let m := [0, 1, 2].foldl (fun m j => m.initDevice d j) m
      let m := (List.range 12).foldl (fun m c => m.wr d (Reg.DMC_CH_STATUS.STATE c) 3) m
      let m := (m.wr d Reg.TIER_T2_CAP.MIB (m.t2CapMib d)).wr d Reg.TIER_MAP_CAP.MAPS m.mapCap
      m.startStep d 6

/-- DRAM_START_UP (R441 step 6). A map that is not one-to-one is a case of R414. -/
def execDramStartUp (d density : Nat) (lanes : List Lane) (s : State) : Host.Outcome State Fault Refusal :=
  if d < s.m.n ∧ s.m.dramDue d = true ∧ s.m.mapOneToOne d = false then .fault (.undefinedCase 4)
  else s.onDie d (fun m => m.when (m.dramDue d) (fun m => m.dramStart d density lanes))

/-! ## Commands of a channel -/

/-- WRITE_QUEUE_DRAIN (R295): at its threshold, its age limit, or on an idle channel, whose dirty check segments follow (R300). -/
def execWriteQueueDrain (d c : Nat) (s : State) : Host.Outcome State Fault Refusal :=
  s.onUnit d c 12 (fun m => m.when (m.chanOpen d c) (fun m => ((m.wakeChan d c).drain d c).writeBackSegments d c))

/-- REFRESH (R303, R304): in every state of a powered channel; recorded, nothing stored changes. -/
def execRefresh (d c bank : Nat) (s : State) : Host.Outcome State Fault Refusal :=
  s.onUnit d c 12 (fun m => m.when (decide (2 ≤ m.chState d c) && decide (bank < 16) && decide (m.chState d c ≠ 4))
    (fun m => m.dramCmd d c 4 bank 0 0 5 0))

/-- A channel enters self-refresh, its queue drained first; PWR_GATED shows it (R303, R428, R446). -/
def Mach.selfRefresh (m : Mach) (d c : Nat) : Mach :=
  let m := (((m.drain d c).writeBackSegments d c).dramCmd d c 7 0 0 0 5 0).wr d (Reg.DMC_CH_STATUS.STATE c) 4
  m.wr d Reg.PWR_GATED.DMC (setBits (m.rd d Reg.PWR_GATED.DMC) c 1 1)

/-- SELF_REFRESH_ENTRY (R303, R428): automatic self-refresh after DMC_SR_IDLE without a request. -/
def execSelfRefreshEntry (d c : Nat) (s : State) : Host.Outcome State Fault Refusal :=
  s.onUnit d c 12 (fun m => m.when (decide (m.chState d c = 3) && m.on d Reg.DMC_CONFIG.REFRESH && m.serving) (fun m =>
    let m := m.runTo d ((m.chan d c).lastUse + clamp 1 10000 (m.rd d Reg.DMC_SR_IDLE.IDLE_US) * Config.us)
    (m.selfRefresh d c).powerState d psDipped))

/-- REFRESH_WINDOW (R305): the counts of every bank return to 0, and throttled rows may be activated again. -/
def execRefreshWindow (d c : Nat) (s : State) : Host.Outcome State Fault Refusal :=
  s.onUnit d c 12 (fun m => m.when (decide (2 ≤ m.chState d c)) (fun m =>
    m.updChan d c (fun x => { x with counts := [], throttled := [] })))

/-- PERIODIC_RECENTRE (R313, R314): due 50 ms after the channel's last; a failed one keeps the previous delays and writes a
pennant, and the next is due an interval later. -/
def execPeriodicRecentre (d c : Nat) (lane : Lane) (s : State) : Host.Outcome State Fault Refusal :=
  s.onUnit d c 12 (fun m => m.when (decide (m.chState d c = 3)) (fun m =>
    let m := (m.runTo d ((m.chan d c).trainedAt + 50 * Config.ms)).wr d Reg.DMC_TRAIN_STATUS.FORM 2
    let m := m.updChan d c (fun x => { x with trainedAt := m.now d })
    if laneOk lane then m.setLane d c lane else m.laneFail d c))

/-- A channel freezes for a cause of R315, and the command that reported it is marked in the record unless the channel is frozen
already (R317, R320); a check segment is recorded by the data row it covers (log entry 29). -/
def Mach.freezeFor (m : Mach) (d c : Nat) (cause : FreezeCause) : Mach :=
  let mark (here : DramCmd → Bool) : Mach := if m.chState d c = 5 then m else m.markWhere d c here
  match cause with
  | .data dda =>
    let l := m.locate d dda
    if l.ch = c then (mark (fun e => e.reads l.bank l.row (l.byte / 64))).freeze d c 1 l.bank l.row (l.byte / 64) 0 [dda / 64 * 64] else m
  | .command bank row sector len =>
    (mark (fun e => decide (e.bank = bank) && decide (e.row = row) && decide (e.sector = sector))).freeze d c 2 bank row sector len
      (m.commandLines d c bank row sector (len % 32 + 1))
  | .checkSegment dda =>
    let l := m.locate d dda
    if l.ch = c then
      (mark (fun e => e.reads l.bank (checkRow l.row) (2 * (l.row % 16)))).freeze d c 3 l.bank l.row 0 31 (rowLines (dda / 2048 * 2048) 0 32)
    else m

/-- CHANNEL_FREEZE (R315): an error that the controller detects or the device reports. -/
def execChannelFreeze (d c : Nat) (cause : FreezeCause) (s : State) : Host.Outcome State Fault Refusal :=
  s.onUnit d c 12 (fun m => m.when (m.chanOpen d c || decide (m.chState d c = 5)) (fun m => m.freezeFor d c cause))

/-- CHANNEL_RELEASE (R319): RELEASE 1 to a frozen channel starts its retraining; to another it is ignored. -/
def execChannelRelease (d c : Nat) (v : Word) (s : State) : Host.Outcome State Fault Refusal :=
  s.onUnit d c 12 (fun m => m.when (m.alive && decide (m.chState d c = 5) && bit v.toNat 0) (fun m =>
    m.updChan d c (fun x => { x with releasing := true })))

/-- PWR_RAMP_EXPIRY (R310): after DMC_PWR_RAMP the initialisation of a device that was off begins. -/
def execPwrRampExpiry (d j : Nat) (s : State) : Host.Outcome State Fault Refusal :=
  s.onUnit d j 3 (fun m => m.when (m.serving && bit (m.rd d Reg.DMC_DEV_STATUS.POWERED) j
      && !bit (m.rd d Reg.DMC_DEV_STATUS.INIT_DONE) j && decide (m.chState d (4 * j) = 0)) (fun m =>
    let m := m.runTo d (SMap.get (fun _ => 0) (m.die d).aux.rampDue j)
    (List.range 4).foldl (fun m k => m.wr d (Reg.DMC_CH_STATUS.STATE (4 * j + k)) 1) m))

/-- DEVICE_INIT_COMPLETE (R310, R311, R314): initialised, re-centred, serving. -/
def execDeviceInitComplete (d j : Nat) (lanes : List Lane) (s : State) : Host.Outcome State Fault Refusal :=
  s.onUnit d j 3 (fun m => m.when (m.serving && decide (m.chState d (4 * j) = 1)) (fun m =>
    let m := m.initDevice d j
    let m := (m.wr d Reg.DMC_TRAIN_STATUS.FORM 2).trainLanes d ((lanes.take 4).zipIdx.map (fun p => (4 * j + p.2, p.1)))
    if m.halted then m
    else ((List.range 4).foldl (fun m k => m.wr d (Reg.DMC_CH_STATUS.STATE (4 * j + k)) 3) m).qosChannels d))

end Sys2Proof.Machine
end

