-- ==== Sys2Proof/Machine/Flash.lean ====
section
/-! DEFINITION. The flash controller (R323 to R357): geometry, remap and bad blocks, appending and durability, opening and
freeing superblocks, discovery, recovery, checkpoints. -/

namespace Sys2Proof.Machine

/-! ## Geometry (R327, R328) -/

def Mach.fl (m : Mach) (d : Nat) : Flash := (m.die d).fl

def Mach.updFl (m : Mach) (d : Nat) (f : Flash → Flash) : Mach := m.upd d (fun x => { x with fl := f x.fl })

def Mach.units (m : Mach) (d : Nat) : Nat := m.rd d Reg.FLC_GEOMETRY.UNITS
def Mach.ppb (m : Mach) (d : Nat) : Nat := m.rd d Reg.FLC_GEOMETRY.PPB
/-- Pages, granules and bytes of a superblock. -/
def Mach.sbPages (m : Mach) (d : Nat) : Nat := 8 * m.units d * m.ppb d
def Mach.sbGran (m : Mach) (d : Nat) : Nat := 64 * m.sbPages d
/-- The superblock of a granule address, and the channel and unit of a logical page. -/
def Mach.sbOf (m : Mach) (d g : Nat) : Nat := g / m.sbGran d
def pageChan (p : Nat) : Nat := p % 8
def Mach.pageUnit (m : Mach) (d p : Nat) : Nat := p / 8 % m.units d

def unitKey (c u : Nat) : Nat := 32 * c + u
def slotKey (c u s : Nat) : Nat := 65536 * unitKey c u + s
def blockKey (c u b : Nat) : Nat := 2097152 * unitKey c u + b

/-- The blocks of a unit without a factory marker, ascending. -/
def Flash.good (x : Flash) (c u : Nat) : List Nat :=
  (List.range x.blocks).filter (fun b => !x.factory.contains ⟨c, u, b⟩)

/-- The physical block that the remap table names (R328). -/
def Flash.phys (x : Flash) (c u s : Nat) : Nat :=
  let r := SMap.get (fun _ => 0) x.remap (slotKey c u s)
  if r = 0 then (x.good c u).getD s 0 else r - 1

def Flash.sb (x : Flash) (s : Nat) : Sb := SMap.get (fun _ => Sb.fresh) x.sbs s

def Flash.setSb (x : Flash) (s : Nat) (f : Sb → Sb) : Flash :=
  { x with sbs := SMap.set (fun _ => Sb.fresh) x.sbs s (f (x.sb s)) }

def Mach.sb (m : Mach) (d s : Nat) : Sb := (m.fl d).sb s
def Mach.setSb (m : Mach) (d s : Nat) (f : Sb → Sb) : Mach := m.updFl d (fun x => x.setSb s f)

/-- A superblock of a given kind: the open one of `which`. -/
def openState (w : OpenSb) : SbState := match w with | .settling => .settling | .relocation => .relocation

def Mach.openSb (m : Mach) (d : Nat) (w : OpenSb) : Option Nat :=
  ((m.fl d).sbs.find? (fun p => decide (p.2.st = openState w))).map (·.1)

/-- All (channel, unit) pairs. -/
def Mach.allUnits (m : Mach) (d : Nat) : List (Nat × Nat) :=
  (List.range 8).flatMap (fun c => (List.range (m.units d)).map (fun u => (c, u)))

/-- Sum of the P/E counts of a superblock's blocks; the mean divides by their number (R335, R345). -/
def Mach.peSum (m : Mach) (d s : Nat) : Nat :=
  sumOf ((m.allUnits d).map (fun p => SMap.get (fun _ => 0) (m.fl d).pe (blockKey p.1 p.2 ((m.fl d).phys p.1 p.2 s))))

def Mach.peMean (m : Mach) (d s : Nat) : Nat := m.peSum d s / (8 * m.units d)

/-- Superblock numbers that hold data: not system area, not retired. -/
def Mach.dataSbs (m : Mach) (d : Nat) : List Nat :=
  (List.range (m.fl d).s0).filter (fun s => (m.sb d s).st ≠ .system && (m.sb d s).st ≠ .retired)

def Mach.freeSbs (m : Mach) (d : Nat) : List Nat := (m.dataSbs d).filter (fun s => decide ((m.sb d s).st = .free))

/-- FLC_SUPERBLOCKS and FLC_PE_STATS. -/
def Mach.showSbs (m : Mach) (d : Nat) : Mach :=
  let total := ((List.range (m.fl d).s0).filter (fun s => (m.sb d s).st ≠ .retired)).length
  let means := (m.dataSbs d).map (m.peMean d)
  let m := (m.wr d Reg.FLC_SUPERBLOCKS.TOTAL total).wr d Reg.FLC_SUPERBLOCKS.FREE (m.freeSbs d).length
  (m.wr d Reg.FLC_PE_STATS.MAX (min 65535 (maxOf means))).wr d Reg.FLC_PE_STATS.MIN (min 65535 ((minBy id means).getD 0))

/-! ## Code levels (R333, R334) -/

def hardLimit (level : Nat) : Nat := [489, 791, 1110, 1275].getD level 1275

def spareNeed (level : Nat) : Nat := [1088, 1600, 2112, 2368].getD level 2368

def Mach.levelMax (m : Mach) (d : Nat) : Nat :=
  ((List.range 4).filter (fun l => decide (spareNeed l ≤ 8 * m.rd d Reg.FLC_GEOMETRY.SPARE_B8)
    && decide (l ≤ m.rd d Reg.FLC_CONFIG.STRENGTH_CAP))).getLastD 0

/-- The level that a data superblock is opened with; the mean P/E count is compared exactly (R334). -/
def Mach.levelFor (m : Mach) (d s : Nat) : Nat :=
  let top := m.levelMax d
  let rated := m.rd d Reg.FLC_WEAR.PE_RATED
  let blocks := 8 * m.units d
  if m.rd d Reg.FLC_CONFIG.AUTO_STRENGTH = 0 ∨ rated = 0 then top
  else if 100 * m.peSum d s < 50 * rated * blocks then top - 2
  else if 100 * m.peSum d s < 80 * rated * blocks then top - 1
  else top

/-! ## Live and stale granules (R340) -/

/-- Granule runs of T3 that something still needs: map entries, relocations' old places, headers, recoded and old versions,
copies on their way (R107, R133, R139). -/
def Mach.liveRuns (m : Mach) (d : Nat) : List (Nat × Nat) :=
  let x := m.die d
  let ofMap (t : SMap FrameEntry) : List (Nat × Nat) := (t.filter (fun p => p.2.inT3)).map (fun p => (p.2.t3Loc, p.2.granules))
  let hdr (e : Extent) (ls : List Nat) : List (Nat × Nat) := ls.map (fun l => (l, headerLen (headerTables e.format e.spanLog2) / 256 + 1))
  ofMap x.tier.map
    ++ (x.tier.relocs.filter (·.switchedAt.isSome)).map (fun r => (r.old, (x.entry r.ext r.idx).granules))
    ++ (m.lse.exts.filter (fun e => decide (e.home = d))).flatMap (fun e => hdr e e.hdrLocs)
    ++ (match x.xc.recode with | some r => ofMap r.frames ++ r.hdrLocs.map (fun l => (l, r.header.length / 256 + 1)) | none => [])
    ++ x.xc.old.flatMap (fun o => o.hdrLocs.map (fun l => (l, 131)))
    ++ x.fl.copies.filterMap (fun c => c.loc.map (fun l => (l, (c.data.length + 255) / 256)))

def Mach.liveIn (m : Mach) (d s : Nat) : Nat :=
  sumOf (((m.liveRuns d).filter (fun r => decide (m.sbOf d r.1 = s))).map (·.2))

/-- A fetch is reading the superblock (R107). -/
def Mach.readersIn (m : Mach) (d s : Nat) : Bool :=
  (m.die d).tier.fetches.any (fun f => f.begunAt.isSome && decide (m.sbOf d f.loc = s))

/-- Full superblocks with no live granule and no reader become free (R341). -/
def Mach.freeUp (m : Mach) (d : Nat) : Mach :=
  let hit := ((m.fl d).sbs.filter (fun p => decide (p.2.st = .full) && decide (m.liveIn d p.1 = 0) && !m.readersIn d p.1)).map (·.1)
  let m := hit.foldl (fun m s => m.setSb d s (fun b => { b with st := .free })) m
  let m := if hit.isEmpty then m else (m.wr d Reg.FLC_STATUS.FULL 0).showSbs d
  if m.rd d Reg.FLC_RECLAIM.LOW ≤ (m.freeSbs d).length then m.wr d Reg.FLC_STATUS.RECLAIM_ACTIVE 0 else m

/-- Granules that can still be written: free superblocks, stale ones in full superblocks, the rest of the settling one (R331). -/
def Mach.roomGran (m : Mach) (d : Nat) : Nat :=
  sumOf ((m.dataSbs d).map (fun s =>
    match (m.sb d s).st with
    | .free => m.sbGran d
    | .full => m.sbGran d - m.liveIn d s
    | .settling => m.sbGran d - (m.sb d s).next
    | _ => 0))

/-- Room for a new sealed extent (R331, R357). -/
def Mach.flashRoom (m : Mach) (d : Nat) : Bool :=
  m.on d Reg.FLC_STATUS.READY && !m.on d Reg.FLC_STATUS.READ_ONLY && !m.on d Reg.FLC_STATUS.FULL
    && decide (264 * 4096 + m.reclaimCrit d * m.sbGran d ≤ m.roomGran d)

/-! ## Bytes -/

def Mach.flashBytes (m : Mach) (d g n : Nat) : List Byte := SMap.getRun zeroByte (m.fl d).data (256 * g) n

/-- Ages (R353): powered seconds since the stamp in the entry are added. -/
def Mach.ageOf (m : Mach) (d s : Nat) : Nat := (m.sb d s).age + (m.now d - (m.sb d s).ageAt) / Config.sec

/-! ## Appending (R335 to R339) -/

/-- A copy's granules. -/
def granulesOf (data : List Byte) : Nat := (data.length + 255) / 256

/-- Data placed at the next position of an open superblock; full pages begin their program. None when it does not fit: the
rest is padding, and the superblock is complete (R336). -/
def Mach.place (m : Mach) (d s : Nat) (data : List Byte) : Option Nat × Mach :=
  let b := m.sb d s
  let n := granulesOf data
  if b.next + n ≤ m.sbGran d then
    let g := s * m.sbGran d + b.next
    let m := m.updFl d (fun x => { x with data := SMap.setRun zeroByte x.data (256 * g) data })
    (some g, m.setSb d s (fun b => { b with next := b.next + n, started := max b.started ((b.next + n) / 64), fedAt := m.now d }))
  else (none, m.setSb d s (fun b => { b with next := m.sbGran d, started := m.sbPages d }))

/-- The flash channels of a run of granules. -/
def chansOf (g n : Nat) : List Nat := distinct ((List.range ((g + n + 63) / 64 - g / 64)).map (fun i => pageChan (g / 64 + i)))

/-- Where the other copy of a header copy lies or goes: a place known already (R133). -/
def Mach.twin (m : Mach) (d : Nat) (k : CopyKind) : Option Nat :=
  let onWay (q : CopyKind) : Option Nat := ((m.fl d).copies.find? (fun c => decide (c.kind = q))).bind (·.loc)
  let first (a b : Option Nat) : Option Nat := match a with | some g => some g | none => b
  match k with
  | .header e i =>
    let j := i / 2 * 2 + (1 - i % 2)
    first (onWay (.header e j)) ((m.ext? e).bind (fun x => x.hdrLocs[j % 2]?))
  | .recodeHeader e i => first (onWay (.recodeHeader e (1 - i))) ((m.die d).xc.recode.bind (fun r => if r.ext = e then r.hdrLocs.head? else none))
  | _ => none

/-- A header copy starts where its pages lie on other channels than those of its twin; the pages skipped are padding (R133, R336). -/
def Mach.apart (m : Mach) (d s : Nat) (c : FCopy) : Mach :=
  match m.twin d c.kind with
  | none => m
  | some g =>
    let n := granulesOf c.data
    let next := (m.sb d s).next
    let starts := next :: (List.range 16).map (fun i => 64 * (next / 64 + 1 + i))
    match starts.find? (fun a => !(chansOf (s * m.sbGran d + a) n).any (chansOf g n).contains) with
    | some a => if a = next ∨ m.sbGran d < a + n then m else m.setSb d s (fun b => { b with next := a, started := max b.started (a / 64) })
    | none => m

/-- A copy appended without a tail merge, and recorded as on its way. -/
def Mach.append1 (m : Mach) (d : Nat) (c : FCopy) : Mach :=
  match m.openSb d c.which with
  | none => m.updFl d (fun x => { x with copies := x.copies ++ [{ c with loc := none }] })
  | some s =>
    let r := (m.apart d s c).place d s c.data
    r.2.updFl d (fun x => { x with copies := x.copies ++ [{ c with loc := r.1 }] })

/-- Does a granule run touch logical page p? -/
def touchesPage (g n p : Nat) : Bool := overlaps g n (64 * p) 64

/-- A relocation enters the hoist, its copy is appended to the relocation superblock (R107, R341). The copy that moves out of a
tail page goes to the superblock of that page (R339). -/
def Mach.relocate1 (m : Mach) (d ext idx : Nat) (w : OpenSb) : Mach :=
  let e := m.entry d ext idx
  if !e.inT3 || decide (2 ^ 20 ≤ ext) || (m.die d).tier.relocs.any (fun r => decide (r.ext = ext) && decide (r.idx = idx)) then m
  else
    let data := m.flashBytes d e.t3Loc (256 * e.granules)
    let m := m.updTier d (fun t => { t with relocs := t.relocs ++ [{ ext := ext, idx := idx, old := e.t3Loc, decided := m.stamp d, switchedAt := none }] })
    m.append1 d ⟨.reloc ext idx, w, none, data⟩

/-- A header's copies that have a granule where `hit` says move too (R133, R339). -/
def Mach.moveHeaders (m : Mach) (d : Nat) (w : OpenSb) (hit : Nat → Nat → Bool) : Mach :=
  (m.lse.exts.filter (fun x => decide (x.home = d))).foldl (fun m x =>
    let len := headerLen (headerTables x.format x.spanLog2)
    (x.hdrLocs.zipIdx.filter (fun p => hit p.1 ((len + 255) / 256))).foldl (fun m p =>
      if (m.fl d).copies.any (fun c => decide (c.kind = .header x.num (p.2 + 2))) then m
      else m.append1 d ⟨.header x.num (p.2 + 2), w, none, m.flashBytes d p.1 len⟩) m) m

/-- Recoded frames that have landed before the switch and have a granule where `hit` says (R138, R339). -/
def Mach.moveRecoded (m : Mach) (d : Nat) (w : OpenSb) (hit : Nat → Nat → Bool) : Mach :=
  match (m.die d).xc.recode with
  | none => m
  | some r => (r.frames.filter (fun p => p.2.inT3 && hit p.2.t3Loc p.2.granules)).foldl (fun m p =>
      if (m.fl d).copies.any (fun c => decide (c.kind = .recode r.ext p.1)) then m
      else m.append1 d ⟨.recode r.ext p.1, w, none, m.flashBytes d p.2.t3Loc (256 * p.2.granules)⟩) m

/-- Data after a partly filled page that has been programmed: the copies with a granule in that page are written whole at the
next logical position first (R339). -/
def Mach.tailMerge (m : Mach) (d s : Nat) (w : OpenSb) : Mach :=
  match (m.sb d s).tail with
  | none => m
  | some p =>
    let lp := s * m.sbPages d + p
    let m := m.setSb d s (fun b => { b with tail := none, next := max b.next (64 * b.started) })
    let hit (g n : Nat) : Bool := touchesPage g n lp
    let ents := (m.die d).tier.map.filter (fun q => q.2.inT3 && hit q.2.t3Loc q.2.granules)
    let m := ents.foldl (fun m q => m.relocate1 d (q.1 / 4160) (q.1 % 4160) w) m
    let m := (m.moveHeaders d w hit).moveRecoded d w hit
    let moving := (m.fl d).copies.filter (fun c => match c.loc with
      | some g => touchesPage g (granulesOf c.data) lp
      | none => false)
    let m := m.updFl d (fun x => { x with copies := x.copies.filter (fun c => !moving.contains c) })
    moving.foldl (fun m c => m.append1 d c) m

/-- A copy appended to the open superblock it belongs to. -/
def Mach.append (m : Mach) (d : Nat) (c : FCopy) : Mach :=
  match m.openSb d c.which with
  | some s => (m.tailMerge d s c.which).append1 d c
  | none => m.append1 d c

/-- A relocation decided by the flash controller (R107, R341): the tail page of the superblock it goes to is merged first (R339). -/
def Mach.relocate (m : Mach) (d ext idx : Nat) (w : OpenSb) : Mach :=
  (match m.openSb d w with
    | some s => m.tailMerge d s w
    | none => m).relocate1 d ext idx w

/-- A relocation whose source was uncorrectable goes on with data from the T2 copy (R344). -/
def Mach.relocateFrom (m : Mach) (d ext idx : Nat) (data : List Byte) : Mach :=
  let mine (r : Reloc) : Bool := decide (r.ext = ext) && decide (r.idx = idx) && r.waits
  if (m.die d).tier.relocs.any mine then
    (m.updTier d (fun t => { t with relocs := updWhere mine (fun r => { r with waits := false }) t.relocs })).append d ⟨.reloc ext idx, .relocation, none, data⟩
  else m

/-- Every live copy of a superblock is relocated (R341, R346, R348, R352, R354). -/
def Mach.relocAll (m : Mach) (d s : Nat) : Mach :=
  let hit (g _ : Nat) : Bool := decide (m.sbOf d g = s)
  let ents := (m.die d).tier.map.filter (fun p => p.2.inT3 && hit p.2.t3Loc 0)
  let m := match m.openSb d .relocation with
    | some o => m.tailMerge d o .relocation
    | none => m
  let m := ents.foldl (fun m p => m.relocate d (p.1 / 4160) (p.1 % 4160) .relocation) m
  (m.moveHeaders d .relocation hit).moveRecoded d .relocation hit

/-! ## Durability (R338) -/

/-- Is a copy at granule g durable? Its last page and DURABLE_LAG pages after it on each unit are programmed, or the
superblock is closed with its pages programmed. -/
def Mach.durable (m : Mach) (d g n : Nat) : Bool :=
  let s := m.sbOf d g
  let b := m.sb d s
  let last := (g + n - 1) / 64 - s * m.sbPages d
  if b.st = .full ∨ b.done = m.sbPages d then decide (last < b.done)
  else decide (last + m.rd d Reg.FLC_CONFIG.DURABLE_LAG * 8 * m.units d < b.done)

/-- Every frame of an extent is in T3, ZERO or LOST (R114). -/
def Mach.allSettled (m : Mach) (d ext : Nat) : Bool :=
  (m.die d).tier.map.all (fun p => decide (p.1 / 4160 ≠ ext) || p.2.inT3 || decide (p.2.state = .zero) || decide (p.2.state = .lost))

/-- An extent whose last frame has a T3 copy becomes settled (R53, R114). -/
def Mach.checkSettled (m : Mach) (d ext : Nat) : Mach :=
  match m.ext? ext with
  | some x => if (decide (x.state = .sealed) || decide (x.was = .sealed)) && !x.settled && m.allSettled d ext then m.updExt ext (fun x => { x with settled := true }) else m
  | none => m

/-- A durable copy takes effect through the journal (R87, R338). -/
def Mach.landed (m : Mach) (d : Nat) (c : FCopy) (g : Nat) : Mach :=
  match c.kind with
  | .settle ext idx =>
    if (m.ext? ext).isSome && (m.entry d ext idx).state ≠ .lost && (m.entry d ext idx).state ≠ .zero then
      ((m.updEntry d ext idx (fun e => { e with inT3 := true, t3Loc := g })).noteFrame d pSettle ext idx).checkSettled d ext
    else m
  | .reloc ext idx =>
    m.updTier d (fun t => { t with relocs := t.relocs.map (fun r =>
      if r.ext = ext ∧ r.idx = idx ∧ r.switchedAt.isNone then { r with written := some g } else r) })
  | .header ext k => m.updExt ext (fun x => { x with hdrLocs := if k < 2 then x.hdrLocs ++ [g] else x.hdrLocs.set (k - 2) g })
  | .recode _ idx => m.upd d (fun x => { x with xc := { x.xc with recode := x.xc.recode.map (fun r =>
      let n := SMap.get zeroEntry r.frames idx
      let keep := (x.entry r.ext idx).inT2
      { r with frames := SMap.set zeroEntry r.frames idx { n with inT3 := true, t3Loc := g, inT2 := n.inT2 && keep, t2Loc := if keep then n.t2Loc else 0 } }) } })
  | .recodeHeader _ _ => m.upd d (fun x => { x with xc := { x.xc with recode := x.xc.recode.map (fun r => { r with hdrLocs := r.hdrLocs ++ [g] }) } })
  | .repair ext idx _ =>
    if (m.entry d ext idx).state = .lost then
      let m := m.updEntry d ext idx (fun e => { e with state := .present, inT3 := true, t3Loc := g })
      (m.updTier d (fun t => { t with lostSeq := SMap.set (fun _ => 0) t.lostSeq (entryKey ext idx) 0 })).bump d Reg.OPS_REPAIRED_FRAMES.COUNT
    else m

/-- Every durable copy lands. -/
def Mach.landAll (m : Mach) (d : Nat) : Mach :=
  let ready := (m.fl d).copies.filter (fun c => match c.loc with | some g => m.durable d g (granulesOf c.data) | none => false)
  let m := m.updFl d (fun x => { x with copies := x.copies.filter (fun c => !ready.contains c) })
  ready.foldl (fun m c => match c.loc with | some g => m.landed d c g | none => m) m

/-! ## Bad blocks (R349 to R352) -/

/-- Blocks that a live superblock uses on a unit. -/
def Flash.used (x : Flash) (c u : Nat) : List Nat :=
  ((List.range x.s0).filter (fun s => (x.sb s).st ≠ .retired)).map (x.phys c u)

/-- The first spare of a unit. -/
def Flash.spareOf (x : Flash) (c u : Nat) : Option Nat :=
  (x.good c u).find? (fun b => !(x.used c u).contains b && !x.grown.contains ⟨c, u, b⟩)

/-- A pennant whose class the spec gives and whose code it does not: the code is a free choice (log entry 15). -/
def Mach.noteFree (m : Mach) (d unit cls : Nat) (detail : Nat := 0) (args : List Nat := []) : Mach :=
  m.chosen.note d unit ⟨cls, m.choice % 256⟩ detail args

/-- A block becomes grown bad: counted, with its pennant, and the NVM copy is stale (R350, R351). -/
def Mach.growBad (m : Mach) (d c u blk : Nat) : Mach :=
  if (m.fl d).grown.contains ⟨c, u, blk⟩ then m
  else
    let m := m.updFl d (fun x => { x with grown := x.grown ++ [⟨c, u, blk⟩] })
    let m := (m.bump d Reg.FLC_BAD_BLOCKS.GROWN).note d (uFlash c) pGrownBad
    if m.on d Reg.FLC_STATUS.NVM_BBT_STALE then m else (m.wr d Reg.FLC_STATUS.NVM_BBT_STALE 1).noteFree d uMgmt 0x08

/-- A superblock's slot moved to a spare of the same unit; without one its live copies are relocated and the whole superblock is retired
(R351, R352). -/
def Mach.remapSlot (m : Mach) (d c u s : Nat) : Mach :=
  match (m.fl d).spareOf c u with
  | some b => m.updFl d (fun x => { x with remap := SMap.set (fun _ => 0) x.remap (slotKey c u s) (b + 1) })
  | none => (((m.relocAll d s).setSb d s (fun b => { b with st := .retired })).showSbs d).noteFree d (uFlash c) 0x08

/-! ## Opening a superblock (R335) -/

/-- The free superblock of lowest mean P/E count, ties to the lower number. -/
def Mach.nextSb (m : Mach) (d : Nat) : Option Nat := minBy (fun s => m.peSum d s * 65536 + s) (m.freeSbs d)

/-- Every block erased: P/E + 1, read count 0, content gone (R335, R345, R348). -/
def Mach.eraseSb (m : Mach) (d s : Nat) : Mach :=
  let n := 256 * m.sbGran d
  m.updFl d (fun x =>
    let keys := (List.range 8).flatMap (fun c => (List.range (m.units d)).map (fun u => blockKey c u (x.phys c u s)))
    { x with
      pe := keys.foldl (fun p k => SMap.set (fun _ => 0) p k (satAdd 16 (SMap.get (fun _ => 0) p k) 1)) x.pe,
      reads := keys.foldl (fun p k => SMap.set (fun _ => x.readBase) p k 0) x.reads,
      data := SMap.dropRange x.data (s * n) ((s + 1) * n) })

/-- The open superblock of `w` is done with: complete and programmed, or there is none. -/
def Mach.openDone (m : Mach) (d : Nat) (w : OpenSb) : Bool :=
  match m.openSb d w with
  | none => true
  | some s => decide (m.sbGran d ≤ (m.sb d s).next) && decide ((m.sb d s).started ≤ (m.sb d s).done)

/-- Copies that wait for a place are appended. -/
def Mach.placeWaiting (m : Mach) (d : Nat) (w : OpenSb) : Mach :=
  let ws := (m.fl d).copies.filter (fun c => c.loc.isNone && decide (c.which = w))
  let m := m.updFl d (fun x => { x with copies := x.copies.filter (fun c => !(c.loc.isNone && decide (c.which = w))) })
  ws.foldl (fun m c => m.append d c) m

/-- With no free superblock and no stale granule left the tier is full (R341). -/
def Mach.checkFull (m : Mach) (d : Nat) : Mach :=
  if (m.freeSbs d).isEmpty && (m.dataSbs d).all (fun s => (m.sb d s).st ≠ .full || decide (m.sbGran d ≤ m.liveIn d s))
      && !m.on d Reg.FLC_STATUS.FULL then (m.wr d Reg.FLC_STATUS.FULL 1).noteFree d (uFlash 0) 0x08 else m

/-- The open superblock of `w` closes and the next one opens; below FLC_RECLAIM.CRIT settling waits until reclaim has freed enough
(R335, R341, log entry 112). -/
def Mach.openOne (m : Mach) (d : Nat) (w : OpenSb) (fails : List BlockAddr) : Mach :=
  let m := match m.openSb d w with
    | some s => m.setSb d s (fun b => { b with st := .full })
    | none => m
  let m := (m.landAll d).freeUp d
  let waits := decide (w = .settling) && decide ((m.freeSbs d).length < m.reclaimCrit d)
  match m.nextSb d, waits with
  | none, _ => m.checkFull d
  | some _, true => m
  | some s, false =>
    let bad := fails.filter (fun f => decide ((m.fl d).phys f.ch f.unit s = f.blk) && decide (f.ch < 8) && decide (f.unit < m.units d))
    let m := bad.foldl (fun m f => ((m.bump d (Reg.FLC_CH_FAILS.ERASE f.ch)).growBad d f.ch f.unit f.blk).remapSlot d f.ch f.unit s) m
    if (m.sb d s).st = .retired then m
    else
      let lv := m.levelFor d s
      let m := m.eraseSb d s
      let m := m.setSb d s (fun b => { b with
        st := openState w, level := lv, next := 0, started := 0, done := 0, tail := none, age := 0, ageAt := m.now d, fedAt := m.now d })
      let m := m.updFl d (fun x => { x with seg := x.seg ++ [.opened s] })
      (m.showSbs d).placeWaiting d w

/-- The flash serves: ready, and not read-only (R357). -/
def Mach.flashOk (m : Mach) (d : Nat) : Bool := m.on d Reg.FLC_STATUS.READY && !m.on d Reg.FLC_STATUS.READ_ONLY && m.alive

/-- SUPERBLOCK_OPEN (R335, R351, R352). -/
def execSuperblockOpen (d : Nat) (w : OpenSb) (fails : List BlockAddr) (s : State) : Host.Outcome State Fault Refusal :=
  s.onDie d (fun m => m.when (m.flashOk d && m.openDone d w) (·.openOne d w fails))

/-! ## Programs (R337, R338, R351) -/

/-- A program failure: the failed page's copies are written whole elsewhere, the superblock is closed, its block retired. -/
def Mach.programFail (m : Mach) (d s : Nat) (w : OpenSb) : Mach :=
  let b := m.sb d s
  let lp := s * m.sbPages d + b.done
  let c := pageChan lp
  let u := m.pageUnit d lp
  let m := (m.bump d (Reg.FLC_CH_FAILS.PROG c)).growBad d c u ((m.fl d).phys c u s)
  let m := m.setSb d s (fun b => { b with st := .full, started := b.done })
  let lost (k : FCopy) : Bool := match k.loc with
    | some g => decide (m.sbOf d g = s) && decide (64 * lp < g + granulesOf k.data)
    | none => false
  let m := m.updFl d (fun x => { x with copies := updWhere lost (fun k => { k with loc := none, which := w }) x.copies })
  ((m.remapSlot d c u s).landAll d).freeUp d

/-- PAGE_PROGRAM_COMPLETE (R338, R347, R351): the oldest page in program of the open superblock. -/
def execPageProgramComplete (d : Nat) (w : OpenSb) (ok : Bool) (s : State) : Host.Outcome State Fault Refusal :=
  s.onDie d (fun m => m.when (m.flashOk d) (fun m =>
    match m.openSb d w with
    | none => m
    | some sn =>
      if (m.sb d sn).started ≤ (m.sb d sn).done then m
      else if ok then ((m.setSb d sn (fun b => { b with done := b.done + 1 })).bump d Reg.FLC_PROG_BYTES.COUNT 16384).landAll d
      else m.programFail d sn w))

/-- The tail page and, while copies are not durable, padding pages begin their programs (R337, R338). -/
def Mach.tailFlush (m : Mach) (d : Nat) (w : OpenSb) : Mach :=
  match m.openSb d w with
  | none => m
  | some s =>
    let b := m.sb d s
    let m := if b.next % 64 ≠ 0 ∧ b.started ≤ b.next / 64 then
      m.setSb d s (fun b => { b with started := b.next / 64 + 1, tail := some (b.next / 64) }) else m
    let need := (m.fl d).copies.filterMap (fun c => match c.loc with
      | some g => if m.sbOf d g = s then
          some ((g + granulesOf c.data - 1) / 64 - s * m.sbPages d + m.rd d Reg.FLC_CONFIG.DURABLE_LAG * 8 * m.units d + 1) else none
      | none => none)
    m.setSb d s (fun b => { b with started := max b.started (min (m.sbPages d) (maxOf need)) })

/-- When FLC_TAIL_WAIT has passed since the last data of an open superblock (R337). -/
def Mach.tailDue (m : Mach) (d s : Nat) : Nat := (m.sb d s).fedAt + max 10 (m.rd d Reg.FLC_TAIL_WAIT.WAIT_US) * Config.us

/-- TAIL_WAIT_EXPIRY (R337). -/
def execTailWaitExpiry (d : Nat) (w : OpenSb) (s : State) : Host.Outcome State Fault Refusal :=
  s.onDie d (fun m => m.when (m.flashOk d) (fun m => match m.openSb d w with
    | some sn => (m.runTo d (m.tailDue d sn)).tailFlush d w
    | none => m))

/-! ## Checkpoints (R88, R329, R355) -/

/-- Host time at a stamp, by a port's PTM pair read in reverse (R275, R355): the lowest port that holds one. -/
def Mach.hostTimeAt (m : Mach) (t : Nat) : Option Nat :=
  ((List.range m.n).find? (fun k => (m.die k).aux.ptmPair)).map (fun k =>
    let l := m.rd k Reg.PORT_PTM_LOCAL.TICKS
    let h := m.rd k Reg.PORT_PTM_HOST.NS
    if l ≤ t then h + (t - l) * 10 / 17 else h - (l - t) * 10 / 17)

/-- The checkpoint of a die now. -/
def Mach.snapshot (m : Mach) (d : Nat) : Snapshot :=
  let x := m.die d
  { map := ((x.tier.map.filter (fun p => decide (p.1 / 4160 < 2 ^ 20))).map (fun p => (p.1, p.2.journalled))).filter (fun p => p.2 ≠ FrameEntry.zero), dir := m.lse, ceiling := x.fl.ceiling,
    pe := x.fl.pe, reads := x.fl.reads, sbs := x.fl.sbs.map (fun p => (p.1, { p.2 with age := m.ageOf d p.1, ageAt := 0 })),
    prog := m.rd d Reg.FLC_PROG_BYTES.COUNT, settle := m.rd d Reg.FLC_SETTLE_BYTES.COUNT, pck := m.stamp d,
    hck := m.hostTimeAt (m.stamp d) }

/-- A checkpoint completes: tail pages programmed, the journal cut to the other segment (R88, R329, R337). -/
def Mach.checkpoint (m : Mach) (d : Nat) : Mach :=
  let m := (m.tailFlush d .settling).tailFlush d .relocation
  let snap := m.snapshot d
  let m := m.updFl d (fun x => { x with newer := some snap, older := x.newer, prevSeg := x.seg, seg := [] })
  let m := m.wr d Reg.TIER_CKPT_STAMP.STAMP (m.stamp d)
  let r := m.choices 2
  r.2.note d uTier pCheckpoint 0 [r.1.getD 0 0 % 2 ^ 20, r.1.getD 1 0 % 4096]

/-- Three quarters of the 256 MiB journal are in use; the size of an entry is not stated (log entry 107). -/
def Mach.journalHigh (m : Mach) (d : Nat) : Bool := decide (3 * 2 ^ 26 ≤ Config.journalEntry * (m.fl d).seg.length)

/-- MAP_CHECKPOINT (R88): TIER_CKPT_PERIOD after the last one or the start, or at once when the journal is three-quarters full. -/
def execMapCheckpoint (d : Nat) (s : State) : Host.Outcome State Fault Refusal :=
  s.onDie d (fun m => m.when (m.flashOk d && m.serving) (fun m =>
    let last := max (m.rd d Reg.TIER_CKPT_STAMP.STAMP) m.pw.startedAt
    let due := last + max 10 (m.rd d Reg.TIER_CKPT_PERIOD.PERIOD_S) * Config.sec
    (if m.journalHigh d then m else m.runTo d due).checkpoint d))

/-! ## Discovery and recovery (R324 to R330, R349) -/

/-- The population word of a found channel, as the board section names it (R463). -/
def foundPop (f : FoundChannel) : Nat := f.targets + f.luns * 2 ^ 8 + f.ppb * 2 ^ 16 + f.spare * 2 ^ 32 + f.blocks * 2 ^ 48

/-- The limits of R323 and R324. -/
def popLimits (f : FoundChannel) : Bool :=
  decide (1 ≤ f.targets) && decide (f.targets ≤ 8) && decide (1 ≤ f.luns) && decide (f.luns ≤ 4)
    && decide (1088 ≤ f.spare) && decide (64 ≤ f.ppb) && decide (f.ppb ≤ 4096)
    && decide (f.targets * f.luns * f.blocks * f.ppb * 16384 ≤ 2 ^ 40)

def Mach.serial (m : Mach) : List Byte := m.nor.bytes norIdentity 16

/-- A cause of half-mast found by the flash, with the pennant that names the channel (R324, R325, R326). -/
def Mach.flashFail (m : Mach) (d c : Nat) : Mach := (m.note d (uFlash c) pCheckFail 3).halfMast d 7

/-- The signature's verdict (R326). -/
def Mach.signature (m : Mach) (d : Nat) (readable : Bool) : Mach :=
  match (m.fl d).sig with
  | none => m.updFl d (fun x => { x with phase := .first })
  | some sg =>
    if !readable then (m.noteFree d (uFlash 0) 0x08).halfMast d 7
    else if sg = m.serial then m.updFl d (fun x => { x with phase := .recognised })
    else if m.on d Reg.FLC_CONFIG.FOREIGN then m.updFl d (fun x => { x with phase := .first })
    else (m.noteFree d (uFlash 0) 0x08).halfMast d 7

/-- FLASH_DISCOVERY (R325, R326, R441 step 7). -/
def execFlashDiscovery (d : Nat) (found : List FoundChannel) (readable suspend : Bool) (s : State) : Host.Outcome State Fault Refusal :=
  s.onDie d (fun m => m.when (decide (m.pw.phase = .startup) && decide (5 ≤ m.rd d Reg.PWR_START_STEP.STEP)
      && decide ((m.fl d).phase = .off) && decide (found.length = 8)) (fun m =>
    let bad (f : FoundChannel) : Bool := decide (foundPop f ≠ m.cfg.flPop) || !popLimits f
    let m := found.zipIdx.foldl (fun m p => (m.wr d (Reg.FLC_CH_STATUS.TARGETS p.2) p.1.targets).wr d (Reg.FLC_CH_STATUS.STATE p.2) 2) m
    match found.zipIdx.find? (fun p => !p.1.ok), found.zipIdx.find? (fun p => bad p.1) with
    | some p, _ => (m.chosen.noteFree d (uFlash p.2) 0x08 (m.choice % 8)).halfMast d 7
    | none, some p => m.flashFail d p.2
    | none, none =>
      let f := found.headD ⟨0, 0, 0, 0, 0, true⟩
      let m := (m.wr d Reg.FLC_GEOMETRY.UNITS (f.targets * f.luns)).wr d Reg.FLC_GEOMETRY.PPB f.ppb
      let m := (m.wr d Reg.FLC_GEOMETRY.SPARE_B8 (f.spare / 8)).setBit d Reg.FLC_GEOMETRY.SUSPEND suspend
      let m := m.updFl d (fun x => { x with blocks := f.blocks })
      let m := (List.range 8).foldl (fun m c => m.wr d (Reg.FLC_CH_STATUS.STATE c) 3) m
      (m.signature d readable).startStep d 7))

/-- Superblocks of the system area (R329): two checkpoints of the map, 512 MiB of journal, and the tables (log entry 16). -/
def Mach.systemSbs (m : Mach) (d : Nat) : Nat :=
  (2 * m.mapCap * 98304 + 2 ^ 29) / (256 * m.sbGran d) + 1

/-- What first discovery leaves: the unusable blocks recorded, the superblocks set up, an empty map and a first snapshot (R326, R328, R329, R349). -/
def Mach.discover (m : Mach) (d : Nat) (factory : List BlockAddr) : Mach :=
  let u := m.units d
  let m := m.updFl d (fun x => { Flash.reset with
    phase := .ready, sig := some m.serial, blocks := x.blocks, firstAt := m.now d,
    factory := factory.filter (fun f => decide (f.ch < 8) && decide (f.unit < u) && decide (f.blk < x.blocks)) })
  let spares := max 4 ((2 * (m.fl d).blocks + 99) / 100)
  let least := (minBy id ((m.allUnits d).map (fun p => ((m.fl d).good p.1 p.2).length))).getD 0
  let m := m.updFl d (fun x => { x with s0 := least - spares })
  let m := (List.range (min (m.systemSbs d) (m.fl d).s0)).foldl (fun m k =>
    m.setSb d k (fun b => { b with st := .system, level := m.levelMax d })) m
  let m := m.upd d (fun x => { x with tier := { x.tier with map := [] } })
  let m := if d = m.ens then { m with lse := Lse.reset } else m
  let m := m.updFl d (fun x => { x with newer := some (m.snapshot d) })
  let m := (m.wr d Reg.FLC_BAD_BLOCKS.FACTORY (m.fl d).factory.length).wr d Reg.FLC_STATUS.FIRST_DISCOVERY 1
  let m := ((m.showSbs d).wr d Reg.FLC_STATUS.NVM_BBT_STALE 1).noteFree d uMgmt 0x08
  (m.wr d Reg.FLC_STATUS.READY 1).startStep d 8

/-- FIRST_DISCOVERY (R326, R328, R329, R349): the remap table is built, the system area and the signature are written. -/
def execFirstDiscovery (d : Nat) (factory : List BlockAddr) (s : State) : Host.Outcome State Fault Refusal :=
  s.onDie d (fun m => m.when (decide (m.pw.phase = .startup) && decide ((m.fl d).phase = .first)
      && decide (m.rd d Reg.DMC_DEV_STATUS.INIT_DONE = 7)) (fun m => m.discover d factory))

/-- P/E + 1 for every block of a superblock opened after the checkpoint. -/
def Mach.eraseCount (m : Mach) (d s : Nat) : Mach :=
  m.updFl d (fun x =>
    let keys := (List.range 8).flatMap (fun c => (List.range (m.units d)).map (fun u => blockKey c u (x.phys c u s)))
    { x with pe := keys.foldl (fun p k => SMap.set (fun _ => 0) p k (satAdd 16 (SMap.get (fun _ => 0) p k) 1)) x.pe })

/-- One journal entry replayed (R330, R345). -/
def Mach.replay (m : Mach) (d : Nat) (e : JEntry) : Mach :=
  match e with
  | .map k f => m.upd d (fun x => { x with tier := { x.tier with map := SMap.set zeroEntry x.tier.map k f.recovered } })
  | .dir l => if d = m.ens then { m with lse := l } else m
  | .opened s => (m.eraseCount d s).setSb d s (fun b => { b with st := .full, age := 0, ageAt := m.now d, next := m.sbGran d })
  | .mark c => m.updFl d (fun x => { x with ceiling := some c })

/-- What recovery starts from (R330): the newer slot and its segment, else the older and both; the last flag: a slot passed. -/
def Flash.source (x : Flash) (newerOk olderOk : Bool) : Option Snapshot × List JEntry :=
  match x.newer, x.older with
  | some a, b => if newerOk then (some a, x.seg) else match b with
    | some o => if olderOk then (some o, x.prevSeg ++ x.seg) else (none, [])
    | none => (none, [])
  | none, _ => (none, [])

/-- A block's bit in a bad-block table copy (R450). -/
def bbtBit (units blocks : Nat) (t : List Byte) (a : BlockAddr) : Bool :=
  let i := (a.ch * units + a.unit) * blocks + a.blk
  bit (t.getD (i / 8) 0).toNat (i % 8)

/-- Both copies of the bad-block table in the system area are unreadable: the die knows the blocks that the NVM copy marks (R350). -/
def Mach.bbtFromNvm (m : Mach) (d : Nat) : Mach :=
  let t := m.nor.bytes (norBbt d) (min 0x100000 (m.units d * (m.fl d).blocks))
  let known (a : BlockAddr) : Bool := bbtBit (m.units d) (m.fl d).blocks t a
  m.updFl d (fun x => { x with factory := x.factory.filter known, grown := x.grown.filter known })

/-- MAP_RECOVERY (R89, R329, R330, R345, R348, R350, R357). With no slot that passes nothing is recovered (log entry 17). -/
def execMapRecovery (d : Nat) (newerOk olderOk : Bool) (found : Found) (s : State) : Host.Outcome State Fault Refusal :=
  s.onDie d (fun m => m.when (decide (m.pw.phase = .startup) && decide ((m.fl d).phase = .recognised)
      && decide (m.rd d Reg.DMC_DEV_STATUS.INIT_DONE = 7)) (fun m =>
    let m := if found.tablesOk then m else m.bbtFromNvm d
    let src := (m.fl d).source newerOk olderOk
    let entries := match found.unreadable with | some k => src.2.take k | none => src.2
    let cut := entries.length < src.2.length
    let base (f : Snapshot → Mach → Mach) (m : Mach) : Mach := match src.1 with | some sn => f sn m | none => m
    let m := { m with lse := if d = m.ens then (match src.1 with | some sn => sn.dir | none => Lse.reset) else m.lse }
    let m := m.upd d (fun x => { x with
      tier := { Tier.reset with map := match src.1 with | some sn => sn.map.map (fun p => (p.1, p.2.recovered)) | none => [] },
      fl := { x.fl with copies := [], seg := entries, prevSeg := [] } })
    let m := base (fun sn m => m.updFl d (fun x => { x with
      pe := sn.pe, ceiling := sn.ceiling, readBase := x.readBase + clamp 1000 1000000 (m.rd d Reg.FLC_RD_THRESH.READS) / 4,
      reads := sn.reads.map (fun p => (p.1, p.2 + clamp 1000 1000000 (m.rd d Reg.FLC_RD_THRESH.READS) / 4)),
      sbs := sn.sbs.map (fun p => (p.1, { p.2 with
        st := match p.2.st with | .settling | .relocation => .full | o => o, ageAt := m.now d })) })) m
    let m := entries.foldl (fun m e => m.replay d e) m
    let m := base (fun sn m => (m.wr d Reg.FLC_PROG_BYTES.COUNT sn.prog).wr d Reg.FLC_SETTLE_BYTES.COUNT sn.settle) m
    let m := if cut || src.1.isNone then m.noteFree d (uFlash 0) 0x08 else m
    let m := m.updFl d (fun x => { x with phase := .ready, hostTime := false, hck := src.1.bind (·.hck) })
    let m := ((m.wr d Reg.FLC_BAD_BLOCKS.FACTORY (m.fl d).factory.length).wr d Reg.FLC_BAD_BLOCKS.GROWN (m.fl d).grown.length).freeUp d
    ((m.showSbs d).wr d Reg.FLC_STATUS.READY 1).startStep d 8))

/-- A bad-block table copy (R450): one bit per physical block, ordered by channel, unit and block, the lowest bit of the first
byte first; 1 marks a bad block. -/
def Flash.bbt (x : Flash) (units : Nat) : List Byte :=
  let bad (i : Nat) : Bool :=
    let a : BlockAddr := ⟨i / (units * x.blocks), i / x.blocks % units, i % x.blocks⟩
    decide (i < 8 * units * x.blocks) && (x.factory.contains a || x.grown.contains a)
  (List.range (units * x.blocks)).map (fun k => BitVec.ofNat 8 (sumOf ((List.range 8).map (fun j => b2n (bad (8 * k + j)) * 2 ^ j))))

/-- BBT_NVM_COPY (R350): only while presence holds; the ensign die writes the table of die `d` to its NVM area. -/
def execBbtNvmCopy (d : Nat) (s : State) : Host.Outcome State Fault Refusal :=
  s.onDie d (fun m => m.when (m.alive && m.pres.active && m.on d Reg.FLC_STATUS.NVM_BBT_STALE && m.nor.running.isNone) (fun m =>
    let t := (m.fl d).bbt (m.units d)
    ({ m with nor := m.nor.rewrite (norBbt d) (t.take 0x100000) }).wr d Reg.FLC_STATUS.NVM_BBT_STALE 0))

/-! ## Channel faults (R357) -/

/-- FLASH_COMMAND_TIMEOUT (R357): the channel retrains once. -/
def execFlashCommandTimeout (d c : Nat) (s : State) : Host.Outcome State Fault Refusal :=
  s.onUnit d c 8 (fun m => m.when (decide (m.rd d (Reg.FLC_CH_STATUS.STATE c) = 3) && m.alive) (fun m =>
    (m.wr d (Reg.FLC_CH_STATUS.STATE c) 2).updFl d (fun x => { x with retraining := c :: x.retraining })))

/-- FLASH_CHANNEL_RETRAIN (R357): serving again, or down with the die read-only. -/
def execFlashChannelRetrain (d c : Nat) (ok : Bool) (s : State) : Host.Outcome State Fault Refusal :=
  s.onUnit d c 8 (fun m => m.when ((m.fl d).retraining.contains c && m.alive) (fun m =>
    let m := m.updFl d (fun x => { x with retraining := x.retraining.filter (fun k => decide (k ≠ c)) })
    if ok then m.wr d (Reg.FLC_CH_STATUS.STATE c) 3
    else
      let m := (m.wr d (Reg.FLC_CH_STATUS.STATE c) 5).wr d Reg.FLC_STATUS.CH_DOWN (setBits (m.rd d Reg.FLC_STATUS.CH_DOWN) c 1 1)
      ((m.wr d Reg.FLC_STATUS.READ_ONLY 1).wr d Reg.FLC_STATUS.RECLAIM_ACTIVE 0).note d (uFlash c) pChDown))

end Sys2Proof.Machine
end

