-- ==== Sys2Proof/Machine/Tier.lean ====
section
/-! DEFINITION. The tier controller (R80 to R117) and the codec's state (R133 to R141): header copies, table slots, decoding of
copies, heat, space in DRAM, fetches, promotions, evictions, pins, relocations. -/

namespace Sys2Proof.Machine

/-! ## Reading without traffic -/

/-- The bytes that the outer code gives for a stored line, whatever it finds (R299). -/
def Mach.storedLine (m : Mach) (d a : Nat) : List Byte :=
  let raw := m.rawLine d a
  match rsDecode (m.rd d Reg.DMC_CONFIG.ECC_MODE) raw.1 raw.2 with
  | .clean x | .poison x | .corrected x => x
  | .uncorrectable => raw.1

/-- A line as a reader would get it, queued writes first; nothing is recorded. -/
def Mach.peekLine (m : Mach) (d a : Nat) : List Byte :=
  match m.queued d (m.locate d a).ch a with
  | some e => e.data
  | none => m.storedLine d a

def Mach.peekBytes (m : Mach) (d a n : Nat) : List Byte :=
  sub ((List.range ((a + n + 63) / 64 - a / 64)).flatMap (fun i => m.peekLine d (a / 64 * 64 + 64 * i))) (a % 64) n

/-- Is a line poisoned? -/
def Mach.peekPoison (m : Mach) (d a : Nat) : Bool :=
  match m.queued d (m.locate d a).ch a with
  | some e => e.poison
  | none =>
    let raw := m.rawLine d a
    decide (rsSyndromes raw.1 raw.2 = poisonSyndromes)

/-! ## Space (R293, R310) -/

/-- Is the T2 copy of a frame held and readable? -/
def Mach.hasT2 (m : Mach) (d ext idx : Nat) : Bool :=
  let e := m.entry d ext idx
  e.inT2 && m.avail d ext idx 2 && m.runOpen d (256 * e.t2Loc) (256 * e.granules)

/-- Bytes in use by tier: T2 with header copies, T1 cache (TIER_T2_USED, TIER_T1_CACHE_USED). -/
def Mach.t2Used (m : Mach) (d : Nat) : Nat :=
  sumOf (((m.die d).tier.map.filter (fun p => p.2.inT2)).map (fun p => 256 * p.2.granules)) + sumOf ((m.die d).tier.headers.map (·.len))

/-- Is a frame of an open extent, whose T1 frame is no cache? -/
def Mach.openExt (m : Mach) (e : Nat) : Bool := (m.ext? e).isSome && !m.coded e

def Mach.t1Used (m : Mach) (d : Nat) : Nat :=
  65536 * (((m.die d).tier.map.filter (fun p => p.2.inT1 && m.coded (p.1 / 4160))).length
    + ((m.die d).tier.promos.filter (fun p => p.endedAt.isNone && decide (p.dst = 1))).length)

def Mach.t2Cap (m : Mach) (d : Nat) : Nat := m.rd d Reg.TIER_T2_CAP.MIB * 2 ^ 20
def Mach.t1Max (m : Mach) (d : Nat) : Nat := m.t2Cap d * m.rd d Reg.TIER_T1_CACHE_MAX.PCT / 100

/-- The high and low marks of R100, in percent. -/
def Mach.markHigh (m : Mach) (d : Nat) : Nat := m.rd d Reg.TIER_T2_MARKS.HIGH
def Mach.markLow (m : Mach) (d : Nat) : Nat :=
  if m.markHigh d < m.rd d Reg.TIER_T2_MARKS.LOW then m.markHigh d - 1 else m.rd d Reg.TIER_T2_MARKS.LOW

/-! ## Header copies (R134) -/

def Extent.handle (x : Extent) : Nat := x.num % 2 ^ 20 + x.gen * 2 ^ 20

/-- The header of an extent from a DRAM copy. -/
def Mach.dramHeader (m : Mach) (d e : Nat) : Option (List Byte) :=
  ((m.die d).tier.headers.find? (fun h => decide (h.ext = e))).map (fun h => m.peekBytes d h.addr h.len)

/-- The header from T3: the first copy that passes (R134). -/
def Mach.flashHeader (m : Mach) (d : Nat) (x : Extent) : Option (List Byte) :=
  (x.hdrLocs.map (fun g => m.flashBytes d g (headerLen (headerTables x.format x.spanLog2)))).find? (headerOk x.handle)

def Mach.headerOf (m : Mach) (d : Nat) (x : Extent) : Option (List Byte) :=
  match m.dramHeader d x.num with
  | some h => some h
  | none => m.flashHeader d x

/-- A header copy placed in T2 space on a retention-set device; without space there is none, and what needs it waits (R134,
log entry 121). -/
def Mach.putHeader (m : Mach) (d e : Nat) (h : List Byte) : Mach :=
  match m.alloc d h.length 256 true with
  | some a =>
    let m := m.updTier d (fun t => { t with headers := ⟨e, a, h.length⟩ :: t.headers.filter (fun k => k.ext ≠ e) })
    m.writeBytes d 2 a h
  | none => m

/-! ## Table slots (R135 to R137) -/

def expanderSlots (x : Expander) : Nat := match x with | .operand => 512 | .load => 64

def Codec.slots (c : Codec) (x : Expander) : List TableSlot := match x with | .operand => c.op | .load => c.load

def Codec.setSlots (c : Codec) (x : Expander) (l : List TableSlot) : Codec :=
  match x with | .operand => { c with op := l } | .load => { c with load := l }

/-- A slot used by a block: it becomes the most recent, and the block is bound to it (R136). -/
def Codec.used (c : Codec) (x : Expander) (handle tidx tgen : Nat) : Codec :=
  let mine (t : TableSlot) : Bool := decide (t.handle = handle) && decide (t.tidx = tidx) && decide (t.tgen = tgen)
  let c := { c with uses := c.uses + 1 }
  c.setSlots x (updWhere mine (fun t => { t with lastUse := c.uses, inFlight := t.inFlight + 1 }) (c.slots x))

/-- The expander has consumed every block that was bound, whether or not it passed its checks (R136). -/
def Codec.consumed (c : Codec) : Codec :=
  { c with op := c.op.map (fun t => { t with inFlight := 0 }), load := c.load.map (fun t => { t with inFlight := 0 }) }

/-- The slot that holds a table: keyed by handle, TIDX and TGEN (R135). -/
def Mach.slotOf (m : Mach) (d : Nat) (x : Expander) (handle tidx tgen : Nat) : Option TableSlot :=
  ((m.die d).xc.slots x).find? (fun t => decide (t.handle = handle) && decide (t.tidx = tidx) && decide (t.tgen = tgen))

/-- A table loaded from the header into an empty slot, or the least recently used one whose in-flight count is zero; none: the load
waits for one (R137). -/
def Mach.loadTable (m : Mach) (d : Nat) (x : Expander) (e : Extent) (tidx : Nat) : Mach :=
  match (m.headerOf d e).bind (fun h => headerTable e.format h tidx) with
  | none => m
  | some b =>
    let c := (m.die d).xc
    let sl := c.slots x
    let fresh (gen : Nat) : TableSlot := ⟨e.handle, tidx, b.tgen, gen, b.lengths, c.uses, 0⟩
    let next : Option (List TableSlot) :=
      if sl.length < expanderSlots x then some (sl ++ [fresh 1])
      else (minBy (·.lastUse) (sl.filter (fun t => decide (t.inFlight = 0)))).map (fun v => sl.map (fun t => if t = v then fresh ((v.slotGen + 1) % 256) else t))
    match next with
    | none => m
    | some sl =>
      let m := m.upd d (fun y => { y with xc := y.xc.setSlots x sl })
      let m := match x with
        | .operand => m.wr d Reg.XC_SLOT_USED.OP sl.length
        | .load => m.wr d Reg.XC_SLOT_USED.LOAD sl.length
      m.bump d Reg.XC_TABLE_LOADS.COUNT

/-- The slot bound to a block of table tidx, loaded first if no slot holds it (R136, R137). -/
def Mach.bindTable (m : Mach) (d : Nat) (x : Expander) (e : Extent) (tidx : Nat) : Option Bound × Mach :=
  let m := if (m.slotOf d x e.handle tidx e.tgen).isSome then m else m.loadTable d x e tidx
  let m := m.upd d (fun y => { y with xc := y.xc.used x e.handle tidx e.tgen })
  ((m.slotOf d x e.handle tidx e.tgen).map (fun t => ⟨t.tidx, t.tgen, t.lengths⟩), m)

/-- The blocks bound on a die are consumed. -/
def Mach.consume (m : Mach) (d : Nat) : Mach := m.upd d (fun y => { y with xc := y.xc.consumed })

/-- The coded blocks of a copy are bound to their table's slot and consumed (R136, R137); raw and constant ones bind to none. -/
def Mach.bindCoded (m : Mach) (d : Nat) (x : Expander) (e : Extent) (ent : FrameEntry) (coded : List Byte) : Mach :=
  if (List.range 16).any (fun b => (blockTable (ent.counts.getD b 0) (sub coded (blockStart ent.counts b) (64 * ent.counts.getD b 0))).isSome) then
    (m.bindTable d x e ent.table).2.consume d
  else m

/-- Table loads of XC restart at every start and wake: no slot holds a table (R145). -/
def Mach.emptySlots (m : Mach) (d : Nat) : Mach :=
  ((m.upd d (fun y => { y with xc := { y.xc with op := [], load := [] } })).wr d Reg.XC_SLOT_USED.OP 0).wr d Reg.XC_SLOT_USED.LOAD 0

/-! ## Decoding copies -/

/-- A block's stored bytes decoded without effect: the table comes from the header. -/
def Mach.decodePure (m : Mach) (d : Nat) (x : Extent) (e : FrameEntry) (b : Nat) (stored : List Byte) : Except Nat (List Byte) :=
  let bound := match blockTable (e.counts.getD b 0) stored with
    | some (ti, _) => (m.headerOf d x).bind (fun h => headerTable x.format h ti)
    | none => none
  decodeBlock x.format (e.counts.getD b 0) e.table bound stored allLanes

/-- A whole coded copy decoded: the first failing block and check, or the 64 KiB. -/
def Mach.decodeCopy (m : Mach) (d : Nat) (x : Extent) (e : FrameEntry) (coded : List Byte) : Except (Nat × Nat) (List Byte) :=
  (List.range 16).foldl (fun acc b => match acc with
    | .error p => .error p
    | .ok bs => match m.decodePure d x e b (sub coded (blockStart e.counts b) (64 * e.counts.getD b 0)) with
      | .ok out => .ok (bs ++ out)
      | .error c => .error (b, c)) (.ok [])

/-- A failed block counted and captured, with its pennant (R141, XC_ERR_FIRST). `tier` as XC_ERR_FIRST.TIER. -/
def Mach.codecFail (m : Mach) (d ext idx block check tier unit : Nat) : Mach :=
  let m := m.bump d Reg.XC_ERR_COUNT.COUNT
  let m := if m.on d Reg.XC_ERR_FIRST.VALID then m else
    let m := ((m.wr d Reg.XC_ERR_FIRST.CHECK check).wr d Reg.XC_ERR_FIRST.TIER tier).wr d Reg.XC_ERR_FIRST.UNIT unit
    let m := ((m.wr d Reg.XC_ERR_FIRST.BLOCK block).wr d Reg.XC_ERR_FIRST.FRAME idx).wr d Reg.XC_ERR_FIRST.VALID 1
    m.wr d Reg.XC_ERR_EXTENT.EXTENT (ext % 2 ^ 20)
  m.note d (if unit = 0 then uOperand else uLoad) pCodecFail check

/-! ## Heat (R91) -/

/-- Heat is a frame's, whatever version of it is read. -/
def Mach.heat (m : Mach) (d ext idx : Nat) : Nat := SMap.get (fun _ => 0) (m.die d).tier.heat (entryKey (ext % 2 ^ 20) idx)

def Mach.touch (m : Mach) (d ext idx inc : Nat) : Mach :=
  let k := entryKey (ext % 2 ^ 20) idx
  m.updTier d (fun t => { t with heat := SMap.set (fun _ => 0) t.heat k (satAdd 8 (SMap.get (fun _ => 0) t.heat k) inc) })

/-- The channels of the frame-map region (R85, R293). -/
def Mach.mapChans (m : Mach) (d : Nat) : List Nat :=
  let devs := ((m.retained d).zipIdx.filter (fun p => decide (p.2 * m.devBytes d < m.mapBytes))).map (·.1)
  (List.range 12).filter (fun c => devs.contains (c / 4))

/-- HEAT_DECAY_WALK (R92, R432): every counter halved; the period in force applies from the next interval. In furled the channels of
the frame-map region leave self-refresh for the walk and enter it again. -/
def execHeatDecayWalk (d : Nat) (s : State) : Host.Outcome State Fault Refusal :=
  s.onDie d (fun m => m.when (m.alive && (m.on d Reg.OPS_STATUS.READY || decide (m.pw.phase = .furled))) (fun m =>
    let m := m.runTo d (m.die d).tier.decayDue
    let m := if m.pw.phase = .furled then (m.mapChans d).foldl (fun m c => (m.dramCmd d c 8 0 0 0 5 0).dramCmd d c 7 0 0 0 5 0) m else m
    m.updTier d (fun t => { t with
      heat := (t.heat.map (fun p => (p.1, p.2 / 2))).filter (fun p => p.2 ≠ 0),
      decayDue := t.decayDue + clamp 1 86400 (m.rd d Reg.TIER_HEAT_DECAY.PERIOD_S) * Config.sec })))

/-! ## Frames lost and dropped (R90, R103) -/

/-- A frame becomes LOST: one pennant, whose SEQ its readers name (R90, R246); what waits for it is answered by the caller. -/
def Mach.lose (m : Mach) (d ext idx : Nat) : Mach :=
  let q := (m.die d).nextSeq
  let m := (m.updEntry d ext idx (fun e => { e with state := .lost, inT1 := false, inT2 := false })).clearUnavail d ext idx [1, 2]
  let m := m.updTier d (fun t => { t with
    lostSeq := SMap.set (fun _ => 0) t.lostSeq (entryKey ext idx) (q + 1),
    relocs := t.relocs.filter (fun r => !(decide (r.ext = ext) && decide (r.idx = idx) && r.switchedAt.isNone)) })
  let m := m.wr d Reg.ERR_ALERT_CAUSE.LOST 1
  (m.noteFrame d pLost ext idx).checkSettled d ext

/-! ## Host answers -/

/-- The bytes of a poisoned response that carries no stored data (log entry 20). -/
def Mach.poisonOut (m : Mach) (ld dpa : Nat) : Mach :=
  let r := m.freeBytes 64
  r.2.send (.memData ld dpa r.1 true)

/-- A poisoned tier-miss response (R110): counted; the first of a fetch writes the pennant. -/
def Mach.missOut (m : Mach) (d ext idx ld dpa : Nat) : Mach :=
  let m := (m.poisonOut ld dpa).bump d Reg.TIER_MISS_COUNT.COUNT
  let here (f : Fetch) : Bool := decide (f.ext = ext) && decide (f.idx = idx)
  match (m.die d).tier.fetches.find? here with
  | some f => if f.missNoted then m else
      (m.updTier d (fun t => { t with fetches := updWhere here (fun f => { f with missNoted := true }) t.fetches })).noteFrame d pTierMiss ext idx
  | none => m.noteFrame d pTierMiss ext idx

/-! ## Fetch threads (R216) -/

def Mach.updStage (m : Mach) (d : Nat) (f : Stage → Stage) : Mach := m.upd d (fun x => { x with stage := f x.stage })

/-- Threads in use: each carries one frame or page into the stage, from T2 or, with a fetch record, from T3. -/
def Mach.threadsUsed (m : Mach) (d : Nat) : Nat :=
  ((m.die d).tier.promos.filter (fun p => p.endedAt.isNone && decide (p.dst = 0))).length
    + ((m.die d).tier.fetches.filter (fun f => f.begunAt.isSome && !f.jobs.isEmpty)).length

/-- PEAK of OPS_FETCH_THREADS follows (R223). -/
def Mach.threadsPeak (m : Mach) (d : Nat) : Mach := m.updStage d (fun s => { s with peak := max s.peak (m.threadsUsed d) })

/-! ## Fetches (R93 to R95) -/

/-- The logical pages of a granule run. -/
def pagesOf (g n : Nat) : List Nat := (List.range ((g + n + 63) / 64 - g / 64)).map (fun i => g / 64 + i)

/-- The pages of a fetch: the copy's, and the header's when no DRAM copy of it is held (R134). -/
def Mach.fetchPages (m : Mach) (d : Nat) (x : Extent) (e : FrameEntry) : List Nat :=
  let hdr := match (m.dramHeader d x.num), x.hdrLocs with
    | none, g :: _ => pagesOf g (headerLen (headerTables x.format x.spanLog2) / 256 + 1)
    | _, _ => []
  distinct (pagesOf e.t3Loc e.granules ++ hdr)

/-- Space in T2 for the target of a fetch; one that keeps no T2 copy needs none. -/
def Mach.fetchSpace (m : Mach) (d : Nat) (f : Fetch) : Option Nat :=
  if f.dst = .toT2 then m.alloc d (256 * (m.entry d f.ext f.idx).granules) 256 false else none

/-- May a waiting fetch begin as soon as a record is free: its frame is PRESENT (R90), the flash serves, and T2 has space or a job
waits, for which it goes to the stage (R102)? -/
def Mach.canBegin (m : Mach) (d : Nat) (f : Fetch) : Bool :=
  f.begunAt.isNone && decide ((m.entry d f.ext f.idx).state = .present) && m.on d Reg.FLC_STATUS.READY
    && (decide (f.dst ≠ .toT2) || !f.jobs.isEmpty || (m.fetchSpace d f).isSome)

/-- A fetch takes a record and begins (R94, R105): its T2 target is allocated, the frame moves to PROMOTING. -/
def Mach.beginFetch (m : Mach) (d ext idx : Nat) : Mach :=
  match m.fetch? d ext idx, m.ext? ext with
  | some f, some x =>
    let e := m.entry d ext idx
    let space := m.fetchSpace d f
    let m := if f.dst = .toT2 then m.chosen else m
    let dst := if f.dst = .toT2 && space.isNone then FetchDst.toT0 else f.dst
    let pages := m.fetchPages d x e
    let m := m.updFetch d ext idx (fun f => { f with
      begunAt := some (m.stamp d), loc := e.t3Loc, target := space.map (· / 256), dst := dst, pages := pages })
    (m.updEntry d ext idx (fun e => { e with state := .promoting })).threadsPeak d
  | _, _ => m

/-- The earliest nonzero deadline among a fetch's jobs, which gives their urgency. -/
def Mach.jobsDue (m : Mach) (js : List (Nat × Nat)) : Nat :=
  (minBy id ((js.filterMap (fun a => ((m.die a.1).jobs.find? (fun j => decide (j.num = a.2))).map (fun j => field j.desc 8 8))).filter
    (fun t => decide (t ≠ 0)))).getD (2 ^ 64)

/-- The highest urgency that jobs carry now (R372). -/
def Mach.jobsUrgency (m : Mach) (js : List (Nat × Nat)) : Nat :=
  maxOf (js.filterMap (fun a => ((m.die a.1).jobs.find? (fun j => decide (j.num = a.2))).map (fun j =>
    carriedUrgency j.accept (field j.desc 8 8) (m.now a.1))))

/-- Hoist order of waiting fetches: host demand, jobs by urgency, then PREFETCH, preload and PIN (R94, R372). -/
def Mach.fetchAhead (m : Mach) (g f : Fetch) : Bool :=
  decide (g.rank < f.rank) || (decide (g.rank = f.rank) && decide (f.rank = 1) && decide (m.jobsUrgency f.jobs < m.jobsUrgency g.jobs))

/-- A record is free and no fetch that could begin goes first; of equals the older one does (R94). -/
def Mach.mayBegin (m : Mach) (d ext idx : Nat) : Bool :=
  match m.fetch? d ext idx with
  | none => false
  | some f =>
    let fs := (m.die d).tier.fetches
    let older := fs.takeWhile (fun g => !(decide (g.ext = ext) && decide (g.idx = idx)))
    decide ((fs.filter (·.begunAt.isSome)).length < 2048) && m.canBegin d f
      && !fs.any (fun g => m.fetchAhead g f && m.canBegin d g) && !older.any (fun g => !m.fetchAhead f g && m.canBegin d g)

def Mach.tryFetch (m : Mach) (d ext idx : Nat) : Mach := if m.mayBegin d ext idx then m.beginFetch d ext idx else m

/-- A fetch that is to leave a T2 copy after all: a running one gets a target if there is space (R93). -/
def Mach.fetchToT2 (m : Mach) (d ext idx : Nat) : Mach :=
  match m.fetch? d ext idx with
  | none => m
  | some f =>
    if f.dst = .toT2 then m
    else if f.begunAt.isNone then m.updFetch d ext idx (fun f => { f with dst := .toT2 })
    else match m.fetchSpace d { f with dst := .toT2 } with
      | some a => m.chosen.updFetch d ext idx (fun f => { f with dst := .toT2, target := some (a / 256) })
      | none => m

/-- A miss starts a fetch of the frame or joins the one that runs (R94): waiters and destination are added. -/
def Mach.needFetch (m : Mach) (d ext idx rank : Nat) (dst : FetchDst) (thenT1 : Bool) (load : Option LoadWait) (job : Option (Nat × Nat)) : Mach :=
  match m.fetch? d ext idx with
  | some _ =>
    let m := m.updFetch d ext idx (fun f => { f with
      loads := f.loads ++ load.toList, jobs := if (job.toList.all f.jobs.contains) then f.jobs else f.jobs ++ job.toList,
      rank := min f.rank rank, thenT1 := f.thenT1 || thenT1 })
    ((if dst = .toT2 then m.fetchToT2 d ext idx else m).tryFetch d ext idx).threadsPeak d
  | none =>
    let f := newFetch ext idx dst rank thenT1 load.toList job.toList
    (m.updTier d (fun t => { t with fetches := t.fetches ++ [f] })).tryFetch d ext idx

/-- Where a fetch for a host read or a job goes, by the heat after the touch (R93). -/
def Mach.fetchDst (m : Mach) (d ext idx : Nat) (forJob : Bool) : FetchDst :=
  if m.rd d Reg.TIER_THRESH.T2_MIN ≤ m.heat d ext idx then .toT2 else if forJob then .toT0 else .toHost

/-- FETCH_START (R94): a fetch that waited takes a free record. -/
def execFetchStart (d ext idx : Nat) (s : State) : Host.Outcome State Fault Refusal :=
  s.onDie d (fun m => m.when m.alive (fun m => match m.fetchOf d ext idx with
    | some f => m.tryFetch d f.ext f.idx
    | none => m))

/-! ## Promotions and evictions (R105, R106) -/

/-- An ended promotion is kept while an eviction of its frame waits in the hoist, or may still be decided at the stamp of its end
(R106). -/
def Mach.keepEnd (m : Mach) (d : Nat) (p : Promo) : Mach :=
  let queued (q : Promo) (vs : List Evict) : Bool := vs.any (fun v => decide (v.ext = q.ext) && decide (v.idx = q.idx))
  m.updTier d (fun t => { t with
    promos := t.promos.filter (fun q => match q.endedAt with
      | some e => decide (m.stamp d ≤ e) || queued q t.evicts
      | none => true) ++ [p] })

/-- A promotion ends (R105): counted, with its end stamp. -/
def Mach.promoEnd (m : Mach) (d ext idx dst : Nat) : Mach :=
  (m.bump d Reg.TIER_PROMOTE_COUNT.COUNT).keepEnd d ⟨ext, idx, dst, 0, 0, some (m.stamp d), [], false⟩

/-- A promotion from DRAM begins (R105), joined by a job that wants the same (R94). -/
def Mach.beginPromo (m : Mach) (d ext idx dst slot : Nat) (jobs : List (Nat × Nat)) : Mach :=
  let here (p : Promo) : Bool := decide (p.ext = ext) && decide (p.idx = idx) && decide (p.dst = dst) && p.endedAt.isNone
  let m := m.updTier d (fun t => { t with
    promos := if t.promos.any here then updWhere here (fun p => { p with jobs := p.jobs ++ jobs.filter (fun j => !p.jobs.contains j) }) t.promos
      else t.promos ++ [⟨ext, idx, dst, slot, m.stamp d, none, jobs, false⟩] })
  if dst = 0 then m.threadsPeak d else m

/-- A promotion or fetch of the frame runs. -/
def Mach.promoting (m : Mach) (d ext idx : Nat) : Bool :=
  (m.die d).tier.promos.any (fun p => decide (p.ext = ext) && decide (p.idx = idx) && p.endedAt.isNone)
    || (match m.fetch? d ext idx with | some f => f.begunAt.isSome | none => false)

/-- May a copy be evicted (R102)? -/
def Mach.evictable (m : Mach) (d ext idx tier : Nat) : Bool :=
  let e := m.entry d ext idx
  (if tier = 1 then e.inT1 else e.inT2) && e.inT3 && m.coded ext && !m.pinnedIn d ext idx tier && !m.promoting d ext idx

/-- Heat class of R101. -/
def heatClass (h : Nat) : Nat :=
  if h = 0 then 0 else if h = 1 then 1 else if h < 4 then 2 else if h < 8 then 3 else if h < 16 then 4 else if h < 32 then 5
  else if h < 64 then 6 else if h < 128 then 7 else 8

/-- The evictable copies of a tier, coldest class first; the order within a class is a free choice (R101). -/
def Mach.coldest (m : Mach) (d tier : Nat) : List (Nat × Nat) × Mach :=
  let cs := ((m.die d).tier.map.filter (fun p => m.evictable d (p.1 / 4160) (p.1 % 4160) tier)).map (·.1)
  let r := m.choices cs.length
  let keyed := (cs.zip r.1).map (fun p => (heatClass (m.heat d (p.1 / 4160) (p.1 % 4160)) * 2 ^ 32 + p.2 % 2 ^ 32, p.1))
  ((sortBy (fun p : Nat × Nat => p.1) keyed).map (fun p => (p.2 / 4160, p.2 % 4160)), r.2)

/-- One more T1 slot would pass TIER_T1_CACHE_MAX (R93). -/
def Mach.t1Full (m : Mach) (d : Nat) : Bool := decide (m.t1Max d < m.t1Used d + 65536)

/-- A T1 slot for a promotion: a free one under TIER_T1_CACHE_MAX, else that of a colder frame, which is dropped (R93). -/
def Mach.t1Target (m : Mach) (d ext idx : Nat) (retained : Bool) : Option Nat × Mach :=
  match (m.alloc d 65536 65536 retained).filter (fun _ => !m.t1Full d) with
  | some a => (some (a / 65536), m.chosen)
  | none =>
    let c := m.coldest d 1
    match c.1.find? (fun p => decide (c.2.heat d p.1 p.2 < c.2.heat d ext idx)) with
    | some p =>
      let e := c.2.entry d p.1 p.2
      (some e.t1Slot, ((c.2.dropT1 d p.1 p.2).bump d Reg.TIER_EVICT_COUNT.COUNT).noteFrame d pEvict p.1 p.2)
    | none => (none, c.2)

/-- A T2 → T1 promotion begins if there is a slot. -/
def Mach.promoteT1 (m : Mach) (d ext idx : Nat) (retained : Bool := false) : Mach :=
  let e := m.entry d ext idx
  if e.inT1 || !e.inT2 || (m.die d).tier.promos.any (fun p => decide (p.ext = ext) && decide (p.idx = idx) && decide (p.dst = 1) && p.endedAt.isNone) then m
  else
    let r := m.t1Target d ext idx retained
    match r.1 with
    | some sl => r.2.beginPromo d ext idx 1 sl []
    | none => r.2

/-- The scanner's decisions for one tier: coldest copies until occupancy would be at the low mark, copies whose eviction is queued
counted as gone (R100). -/
def Mach.scanTier (m : Mach) (d tier used cap : Nat) : Mach :=
  let size (m : Mach) (p : Nat × Nat) : Nat := if tier = 1 then 65536 else 256 * (m.entry d p.1 p.2).granules
  let queued := (m.die d).tier.evicts.filter (fun v => decide (v.tier = tier))
  let used := used - sumOf (queued.map (fun v => if (if tier = 1 then (m.entry d v.ext v.idx).inT1 else (m.entry d v.ext v.idx).inT2) then
    size m (v.ext, v.idx) else 0))
  if 100 * used ≤ cap * m.markHigh d then m
  else
    let c := m.coldest d tier
    let m := c.2
    let fresh := c.1.filter (fun p => !queued.any (fun v => decide (v.ext = p.1) && decide (v.idx = p.2)))
    (fresh.foldl (fun (acc : Mach × Nat) p =>
      if 100 * acc.2 ≤ cap * m.markLow d then acc
      else (acc.1.updTier d (fun t => { t with evicts := t.evicts ++ [⟨p.1, p.2, tier, m.stamp d⟩] }), acc.2 - size m p)) (m, used)).1

/-- EVICTION_SCAN (R100, R101): T2, then the T1 cache. -/
def execEvictionScan (d : Nat) (s : State) : Host.Outcome State Fault Refusal :=
  s.onDie d (fun m => m.when (m.ready d) (fun m =>
    let m := m.scanTier d 2 (m.t2Used d) (m.t2Cap d)
    m.scanTier d 1 (m.t1Used d) (m.t1Max d)))

/-- EVICTION_EXECUTE (R102, R103, R106, R112): the eviction at the head of the hoist; one of a copy on a frozen channel waits. -/
def execEvictionExecute (d : Nat) (s : State) : Host.Outcome State Fault Refusal :=
  s.onDie d (fun m => m.when (m.ready d) (fun m =>
    match (m.die d).tier.evicts with
    | [] => m
    | v :: rest => if m.avail d v.ext v.idx v.tier then (m.updTier d (fun t => { t with evicts := rest })).evictNow d v else m))

/-! ## Pins (R97 to R99) -/

/-- Pinned bytes (TIER_PIN_USED): coded granules for T2, slots for T1, each frame and tier once. -/
def Mach.pinBytes (m : Mach) (d : Nat) : Nat :=
  sumOf ((distinct ((m.die d).tier.pins.map (fun p => (p.ext, p.idx, p.tier)))).map (fun k =>
    let e := m.entry d k.1 k.2.1
    if e.state = .zero then 0 else if k.2.2 = 1 then 65536 else 256 * e.granules))

/-- PINNED follows the pins of a frame. -/
def Mach.showPin (m : Mach) (d ext idx : Nat) : Mach :=
  let on := (m.die d).tier.pins.any (fun p => decide (p.ext = ext) && decide (p.idx = idx))
  if (m.entry d ext idx).pinned = on then m else m.updEntry d ext idx (fun e => { e with pinned := on })

/-- Pins are counted per ring and frame (R97), whatever their tier (log entry 103). -/
def Pin.same (p q : Pin) : Bool := decide (p.ring = q.ring) && decide (p.ext = q.ext) && decide (p.idx = q.idx)

/-- May a pin be made under the limit and the pin table (R98)? -/
def Mach.canPin (m : Mach) (d : Nat) (p : Pin) : Bool :=
  if (m.die d).tier.pins.any p.same then true
  else
    let e := m.entry d p.ext p.idx
    let counted := (m.die d).tier.pins.any (fun q => decide (q.ext = p.ext) && decide (q.idx = p.idx) && decide (q.tier = p.tier))
    let add := if counted ∨ e.state = .zero then 0 else if p.tier = 1 then 65536 else 256 * e.granules
    decide ((m.die d).tier.pins.length < 1048576) && decide (m.pinBytes d + add ≤ m.rd d Reg.TIER_PIN_LIMIT.MIB * 2 ^ 20)

/-- A pin made; an eviction of the frame that was decided earlier goes first (R104). -/
def Mach.addPin (m : Mach) (d : Nat) (p : Pin) : Mach :=
  if (m.die d).tier.pins.any p.same then m
  else
    let m := m.hoistFirst d (fun v => decide (v.ext = p.ext) && decide (v.idx = p.idx) && decide (v.decided < m.stamp d))
    (m.updTier d (fun t => { t with pins := t.pins ++ [p] })).showPin d p.ext p.idx

/-- Pins ended (R99); evictions of their frames that were decided earlier meet them still (R104). -/
def Mach.dropPins (m : Mach) (d : Nat) (which : Pin → Bool) : Mach :=
  let gone := (m.die d).tier.pins.filter which
  let m := m.hoistFirst d (fun v => gone.any (fun p => decide (v.ext = p.ext) && decide (v.idx = p.idx)) && decide (v.decided < m.stamp d))
  let m := m.updTier d (fun t => { t with pins := dropWhere which t.pins })
  gone.foldl (fun m p => m.showPin d p.ext p.idx) m

/-! ## Relocation (R107) -/

/-- The T2 copy of a frame as the source of a relocation (R344); while its channel serves no request the relocation waits. -/
def Mach.relocateT2 (m : Mach) (d ext idx n : Nat) : Mach :=
  match m.getBytes d 2 (256 * (m.entry d ext idx).t2Loc) n with
  | (some (bs, _), m) => m.relocateFrom d ext idx bs
  | (none, m) => m

/-- RELOCATION_SWITCH (R107, R112): the durable new copy is journalled and takes over. -/
def execRelocationSwitch (d ext idx : Nat) (s : State) : Host.Outcome State Fault Refusal :=
  s.onDie d (fun m => m.when (m.alive && m.flashOk d) (fun m =>
    match (m.die d).tier.relocs.find? (fun r => decide (r.ext = ext) && decide (r.idx = idx) && r.switchedAt.isNone) with
    | none => m
    | some r => match r.written with
      | none => if r.waits && m.hasT2 d ext idx then m.relocateT2 d ext idx (256 * (m.entry d ext idx).granules) else m
      | some g =>
        if (m.entry d ext idx).inT3 = false then
          m.updTier d (fun t => { t with relocs := t.relocs.erase r })
        else
          let m := m.updEntry d ext idx (fun e => { e with t3Loc := g })
          (m.updTier d (fun t => { t with relocs := t.relocs.map (fun q => if q = r then { q with switchedAt := some (m.stamp d) } else q) })).noteFrame d
            pRelocate ext idx))

/-- OLD_LOCATION_TRIM (R107, R340): once no promotion that began before the switch reads the old place. -/
def execOldLocationTrim (d ext idx : Nat) (s : State) : Host.Outcome State Fault Refusal :=
  s.onDie d (fun m => m.when m.alive (fun m =>
    match (m.die d).tier.relocs.find? (fun r => decide (r.ext = ext) && decide (r.idx = idx) && r.switchedAt.isSome) with
    | none => m
    | some r =>
      let reading := match m.fetch? d ext idx with
        | some f => f.begunAt.isSome && decide (f.loc = r.old)
        | none => false
      if reading then m else (m.updTier d (fun t => { t with relocs := t.relocs.erase r })).freeUp d))

/-! ## Settling (R114) -/

/-- The header's two T3 copies are appended before the extent's first frame, on different channels (R133). -/
def Mach.settleHeader (m : Mach) (d : Nat) (x : Extent) : Mach :=
  if !x.hdrLocs.isEmpty || (m.fl d).copies.any (fun c => decide (c.kind = .header x.num 0) || decide (c.kind = .header x.num 1)) then m
  else match m.dramHeader d x.num with
    | none => m
    | some h => (m.append d ⟨.header x.num 0, .settling, none, h⟩).append d ⟨.header x.num 1, .settling, none, h⟩

/-- SETTLE_FRAME (R87, R112, R114, R338, R357): the T2 copy is appended to the settling superblock; it is journalled when durable. -/
def execSettleFrame (d ext idx : Nat) (s : State) : Host.Outcome State Fault Refusal :=
  s.onDie d (fun m => m.when (m.flashOk d && (m.serving || decide (m.pw.phase = .run))) (fun m =>
    match m.ext? ext with
    | none => m
    | some x =>
      let e := m.entry d ext idx
      if x.home ≠ d ∨ ¬ x.coded ∨ x.state = .clearing ∨ e.inT3 ∨ e.inT2 = false ∨ e.state ≠ .present ∨ m.avail d ext idx 2 = false
          ∨ m.runOpen d (256 * e.t2Loc) (256 * e.granules) = false
          ∨ (m.fl d).copies.any (fun c => decide (c.kind = .settle ext idx)) then m
      else if (m.openSb d .settling).isNone ∧ (m.freeSbs d).length ≤ m.reclaimCrit d ∧ (m.freeSbs d).isEmpty then m.checkFull d
      else
        let m := m.settleHeader d x
        match m.getBytes d 2 (256 * e.t2Loc) (256 * e.granules) with
        | (some (data, _), m) => (m.append d ⟨.settle ext idx, .settling, none, data⟩).bump d Reg.FLC_SETTLE_BYTES.COUNT (256 * e.granules)
        | (none, m) => m))

/-! ## Queries (R117) -/

/-- The snapshot that TIER_FRAME_QUERY loads. -/
def Mach.frameQuery (m : Mach) (d ext frame : Nat) : Mach :=
  let home := match m.ext? ext with | some x => decide (x.home = d) | none => false
  let w := if home then (m.entry d ext frame).pack else FrameEntry.zero.pack
  let m := (m.wr d Reg.TIER_FRAME_HEAT.HEAT (if home then m.heat d ext frame else 0)).wr d Reg.TIER_FRAME_HEAT.VALID (b2n home)
  (List.range 6).foldl (fun m i => m.wr d (Reg.TIER_FRAME_ENTRY.ENTRY i) (bits w (32 * i) 32)) m

/-- TIER_FRAME_QUERY (R117). -/
def execTierFrameQuery (d : Nat) (v : Word) (s : State) : Host.Outcome State Fault Refusal :=
  s.onDie d (fun m => m.when m.alive (·.frameQuery d (bits v.toNat 0 20) (bits v.toNat 20 12)))

end Sys2Proof.Machine
end

