-- ==== Sys2Proof/Machine/Access.lean ====
section
/-! DEFINITION. CXL.mem requests (R43, R44, R74, R109 to R111, R270), coherence (R63 to R72), requests that wait on a frozen
channel (R316, R318) and its release (R113, R319), and the progress of fetches (R95, R342, R343). -/

namespace Sys2Proof.Machine

/-! ## Addresses and leases -/

/-- Region and slot of a DPA (R43, R44). -/
def Mach.slotOfDpa (m : Mach) (ld dpa : Nat) : Nat × Nat :=
  let r0 := SMap.get (fun _ => 0) m.cfg.region0 ld * 2 ^ 28
  if dpa < r0 then (0, dpa / 2 ^ 28) else (1, (dpa - r0) / 2 ^ 28)

/-- The lease last made at a slot. -/
def Mach.leaseAt (m : Mach) (ld region slot : Nat) : Option Lease :=
  m.lse.leases.reverse.find? (fun l => decide (l.ld = ld) && decide (l.region = region) && decide (l.slot = slot))

/-- Is a request of ingress stamp t within the lease: at or after the stamp from which it is held (R49), and before its end (R50,
R54, R74)? -/
def Lease.before (l : Lease) (t : Nat) : Bool :=
  match l.state with
  | .offered => false
  | .held => decide (l.heldAt ≤ t)
  | .noticed | .ended => decide (l.heldAt ≤ t) && decide (t < l.tr)

/-- A write of ingress stamp t comes after the lease's end, so that it is discarded and counted (R74). -/
def Lease.after (l : Lease) (t : Nat) : Bool :=
  match l.state with
  | .noticed | .ended => decide (l.tr ≤ t)
  | _ => false

/-- Line of the extent that a DPA names: slots are 256 MiB in both regions. -/
def lineOf (dpa : Nat) : Nat := dpa % 2 ^ 28 / 64

/-! ## Open frames (R57, R82) -/

/-- T1 slots in use by frames of open extents. -/
def Mach.openSlotsUsed (m : Mach) (d : Nat) : List Nat :=
  ((m.die d).tier.map.filter (fun p => p.2.inT1 && !m.coded (p.1 / 4160))).map (fun p => p.2.t1Slot)

/-- A slot of the open region for a new open frame; the first tried is a free choice (log entry 19), and one more than are used are tried. -/
def Mach.openSlotFor (m : Mach) (d : Nat) : Option Nat :=
  let n := m.openSlots d
  let used := m.openSlotsUsed d
  ((List.range (min n (used.length + 1))).map (fun i => m.openSlot d ((i + m.choice) % n))).find? (fun s => !used.contains s)

/-- A frame's 64 KiB written with zeros (R57). Without an armed injection the lines are set at once. -/
def Mach.zeroFill (m : Mach) (d slot : Nat) : Mach :=
  let a := 65536 * slot
  if m.on d Reg.ERR_FLIP_CTRL.ARMED || m.on d Reg.ERR_SPLIT_CTRL.ARMED then
    (List.range 1024).foldl (fun m i => m.writeLine d 0 (a + 64 * i) (List.replicate 64 0) false) m
  else m.upd d (fun x => { x with dram := { x.dram with
    data := SMap.dropRange x.dram.data a (a + 65536), check := SMap.dropRange x.dram.check (a / 16) (a / 16 + 4096),
    origins := SMap.dropRange x.dram.origins (a / 64) (a / 64 + 1024),
    chans := x.dram.chans.map (fun c => { c with wq := c.wq.filter (fun w => decide (w.line < a / 64) || decide (a / 64 + 1024 ≤ w.line)) }) } })

/-- The data address of a line of a frame held in T1. -/
def Mach.t1Addr (m : Mach) (d ext line : Nat) : Nat := 65536 * (m.entry d ext (line / 1024)).t1Slot + 64 * (line % 1024)

/-! ## Poison (R404, R405) -/

def Mach.poisonRead (m : Mach) (d : Nat) : Mach := m.bump d Reg.ERR_POISON_READS.COUNT

/-- The pennant that is a poisoned line's origin (R171, R404). -/
def Mach.setOrigin (m : Mach) (d a seq : Nat) : Mach :=
  m.upd d (fun x => { x with dram := { x.dram with origins := SMap.set (fun _ => 0) x.dram.origins (a / 64) (seq + 1) } })

def Mach.clearOrigin (m : Mach) (d a : Nat) : Mach :=
  m.upd d (fun x => { x with dram := { x.dram with origins := SMap.set (fun _ => 0) x.dram.origins (a / 64) 0 } })

/-- A line poisoned with its stored data beneath (R69, R318, R319). -/
def Mach.poisonStored (m : Mach) (d a : Nat) : Mach := m.writeLine d 4 a (m.peekLine d a) true

def Mach.updCoh (m : Mach) (d : Nat) (f : Coh → Coh) : Mach := m.upd d (fun x => { x with coh := f x.coh })

/-- Lines of a frame that were lost while it was in the zero state are poisoned once it is written (R69). -/
def Mach.bearLines (m : Mach) (d ext idx : Nat) : Mach :=
  let mine (u : Nat × Nat × Nat) : Bool := decide (u.1 = ext) && decide (u.2.1 / 1024 = idx)
  let us := (m.die d).coh.unborn.filter mine
  let m := m.updCoh d (fun k => { k with unborn := k.unborn.filter (fun u => !mine u) })
  us.foldl (fun m u =>
    let a := m.t1Addr d ext u.2.1
    let m := m.poisonStored d a
    if u.2.2 = 0 then m else m.setOrigin d a (u.2.2 - 1)) m

/-- The first write to a zero frame: a slot, zeros, PRESENT (R57, R90). None: no slot, or a channel of it is closed. -/
def Mach.materialise (m : Mach) (d ext idx : Nat) : Option Mach :=
  if (m.entry d ext idx).state ≠ .zero then some m
  else match m.openSlotFor d with
    | none => none
    | some sl =>
      if m.runOpen d (65536 * sl) 65536 then
        some (((m.chosen.zeroFill d sl).updEntry d ext idx (fun e => { e with state := .present, inT1 := true, t1Slot := sl })).bearLines d ext idx)
      else none

/-- The pennant of a poisoned line and its list entry (R70); `n` lines were poisoned before at this trigger. The SEQ of the pennant,
none where it writes none. -/
def Mach.notePoisoned (m : Mach) (d ext line n : Nat) : Option Nat × Mach :=
  if 65535 ≤ n then (none, m)
  else
    let q := (m.die d).nextSeq
    let m := m.note d uTier pPoisonedLine 0 [ext, line]
    (some q, if 65535 ≤ (m.die d).coh.plist.length then m.wr d Reg.LSE_HOSTLOSS.LIST_FULL 1
      else m.updCoh d (fun k => { k with plist := k.plist ++ [(ext, line, q)] }))

/-- The line of an extent lost with its holder: poisoned, its pennant and its list entry written (R69, R70). On a frozen channel the
line joins the stale list and is poisoned at release; in a zero frame that cannot be written yet it is poisoned with the frame's
first write. -/
def Mach.loseLine (m : Mach) (d ext line n : Nat) : Mach :=
  if m.coded ext then m
  else match m.materialise d ext (line / 1024) with
  | none =>
    let p := m.notePoisoned d ext line n
    p.2.updCoh d (fun k => { k with unborn := k.unborn ++ [(ext, line, match p.1 with | some q => q + 1 | none => 0)] })
  | some m =>
    let a := m.t1Addr d ext line
    let c := (m.locate d a).ch
    let m := if m.chanOpen d c then m.poisonStored d a else m.updChan d c (fun x => { x with stale := x.stale ++ [a] })
    let p := m.notePoisoned d ext line n
    match p.1 with
    | some q => p.2.setOrigin d a q
    | none => p.2

/-! ## The snoop filter (R64 to R69) -/

def Mach.sf? (m : Mach) (d ext line : Nat) : Option SfEntry :=
  (m.die d).coh.filter.find? (fun e => decide (e.ext = ext) && decide (e.line = line))

def Mach.showSf (m : Mach) (d : Nat) : Mach := m.wr d Reg.LSE_SF_USED.ENTRIES (m.die d).coh.filter.length

/-- The entry of a line replaced; without holders it is dropped. -/
def Mach.setSf (m : Mach) (d ext line : Nat) (holders : List Nat) (excl : Bool) : Mach :=
  (m.updCoh d (fun c => { c with filter :=
    (if holders.isEmpty then [] else [⟨ext, line, holders, excl⟩]) ++ dropWhere (fun e => decide (e.ext = ext) && decide (e.line = line)) c.filter })).showSf d

/-- An LD leaves the holders of a line. -/
def Mach.dropHolder (m : Mach) (d ext line ld : Nat) : Mach :=
  match m.sf? d ext line with
  | some e => m.setSf d ext line (e.holders.filter (fun h => h ≠ ld)) (e.excl && !e.holders.contains ld)
  | none => m

/-- A back-invalidate goes out, across the fabric to the LD's port die (R30, R64). -/
def Mach.snoop (m : Mach) (d ext line ld : Nat) (inv : Bool) (cause : BiCause) : Mach :=
  if (m.die d).coh.bis.any (fun b => decide (b.ext = ext) && decide (b.line = line) && decide (b.ld = ld)) then m
  else ((m.updCoh d (fun c => { c with bis := c.bis ++ [⟨ext, line, ld, m.now d, inv, cause⟩] })).cross (unitSource d uTier) ext d (ldPort ld)).send (.biSnp ld ext line !inv)

/-- The lines whose answers a request must await, the back-invalidates for them sent; an empty list when it may go on. None: the
filter is full and every entry has an action in progress, so that the request waits for one to become free (R64, R65). -/
def Mach.conflicts (m : Mach) (d ext line ld : Nat) (excl needEntry : Bool) : Option (List (Nat × Nat)) × Mach :=
  match m.sf? d ext line with
  | some e =>
    let others := e.holders.filter (fun h => h ≠ ld)
    let ask := if excl then others else if e.excl then others else []
    (some (if ask.isEmpty then [] else [(ext, line)]), ask.foldl (fun m h => m.snoop d ext line h excl .request) m)
  | none =>
    if needEntry && decide (16777216 ≤ (m.die d).coh.filter.length) then
      let busy (e : SfEntry) : Bool := (m.die d).coh.bis.any (fun b => decide (b.ext = e.ext) && decide (b.line = e.line))
        || (m.die d).coh.waits.any (fun w => w.lines.contains (e.ext, e.line))
      match m.pick ((m.die d).coh.filter.filter (fun e => !busy e)) with
      | some v => (some [(v.ext, v.line)], (v.holders.foldl (fun m h => m.snoop d v.ext v.line h true .victim) m.chosen).bump d Reg.LSE_SF_OVF_BI.COUNT v.holders.length)
      | none => (none, m)
    else (some [], m)

/-- A read grants the line: its entry in the filter (R64); the lines of a sealed extent are only ever shared. -/
def Mach.grant (m : Mach) (d ext line ld : Nat) (excl : Bool) : Mach :=
  match m.sf? d ext line with
  | some e => if excl then m.setSf d ext line [ld] true
      else m.setSf d ext line (if e.holders.contains ld then e.holders else e.holders ++ [ld]) (e.excl && decide (e.holders = [ld]))
  | none => m.setSf d ext line [ld] excl

/-! ## Serving a request at the home die -/

/-- A closed channel that a run of bytes touches. -/
def Mach.closedChan (m : Mach) (d a n : Nat) : Option Nat :=
  (List.range 12).find? (fun c => !m.chanOpen d c && m.runOnChan d c a n)

/-- A request waits on a closed channel; it keeps its ingress stamp (R256, R316). -/
def Mach.waitOn (m : Mach) (d c : Nat) (r : Waiting) (ingress : Nat) : Mach :=
  m.updChan d c (fun x => { x with waiting := x.waiting ++ [⟨r, m.now d, ingress⟩] })

/-- The tier-miss policy of the port that the load entered (R109). -/
def Mach.tierMiss (m : Mach) (d ext idx ld dpa line ingress : Nat) : Mach :=
  let p := ldPort ld
  let poison := m.on p Reg.TIER_MISS_POLICY.POLICY || decide (m.rd p Reg.TIER_MISS_HOLD.HOLD_US = 0)
  let dst := m.fetchDst d ext idx false
  if poison then (m.needFetch d ext idx 0 dst false none none).missOut d ext idx ld dpa
  else m.needFetch d ext idx 0 dst false (some ⟨ld, dpa, line, ingress⟩) none

/-- A decoded line's place in its block and lane (R126, R143). -/
def lineBlock (line : Nat) : Nat := line % 1024 / 64
def lineLane (line : Nat) : Nat := line % 64 / 2

/-- A line of a sealed frame read from its T2 copy by the load-path expander (R111, R140, R143): the line, or the check that
failed; none in the first place while a channel of the block serves no request. -/
def Mach.t2Line (m : Mach) (d : Nat) (x : Extent) (idx line : Nat) : Option (Except Nat (List Byte)) × Mach :=
  let e := m.entry d x.num idx
  let b := lineBlock line
  let k := e.counts.getD b 0
  let a := 256 * e.t2Loc + blockStart e.counts b
  match m.getBytes d 0 a (64 * k) with
  | (none, m) => (none, m)
  | (some (stored, poison), m) =>
    if poison then (some (.error 2), m)
    else
      let r := match blockTable k stored with
        | some _ => m.bindTable d .load x e.table
        | none => (none, m)
      let m := r.2.ungate d Reg.PWR_GATED.LOAD_EXP 0
      match decodeBlock x.format k e.table r.1 stored [lineLane line] with
      | .ok bs => (some (.ok (sub bs (64 * (line % 2)) 64)), (m.consume d).bump d Reg.XC_BLOCKS_DECODED.COUNT)
      | .error c => (some (.error c), m.consume d)

/-- A load of a line of a sealed extent on its home die (R90, R93, R109 to R112, R301). -/
def Mach.loadSealed (m : Mach) (d : Nat) (x : Extent) (ld dpa line ingress : Nat) (excl : Bool) : Mach :=
  let idx := line / 1024
  let m := m.touch d x.num idx (m.rd d Reg.TIER_THRESH.HOST_INC)
  let e := m.entry d x.num idx
  match e.state with
  | .zero => m.send (.memData ld dpa (List.replicate 64 0) false)
  | .lost => (m.poisonOut ld dpa).poisonRead d
  | _ =>
    let fromT2 (m : Mach) : Mach :=
      let e := m.entry d x.num idx
      if e.inT2 && m.avail d x.num idx 2 then
        match m.t2Line d x idx line with
        | (some (.ok bs), m) =>
          let m := m.send (.memData ld dpa bs false)
          if m.rd d Reg.TIER_THRESH.T1_MIN ≤ m.heat d x.num idx then m.promoteT1 d x.num idx else m
        | (some (.error c), m) =>
          let m := m.codecFail d x.num idx (lineBlock line) c 2 1
          if e.inT3 then (m.dropT2 d x.num idx).tierMiss d x.num idx ld dpa line ingress
          else ((m.lose d x.num idx).poisonOut ld dpa).poisonRead d
        | (none, m) =>
          if e.inT3 then m.tierMiss d x.num idx ld dpa line ingress
          else match m.closedChan d (256 * e.t2Loc) (256 * e.granules) with
            | some c => m.waitOn d c (.load ld dpa x.num line excl) ingress
            | none => m
      else m.tierMiss d x.num idx ld dpa line ingress
    if e.inT1 && m.avail d x.num idx 1 then
      match m.readLine d 0 (m.t1Addr d x.num line) with
      | (some (bs, false), m) => m.send (.memData ld dpa bs false)
      | (some (_, true), m) => fromT2 (m.dropT1 d x.num idx)
      | (none, m) => fromT2 m
    else fromT2 m

/-- A load of a line of an open extent (R57, R69, R71, R316). -/
def Mach.loadOpen (m : Mach) (d : Nat) (x : Extent) (ld dpa line ingress : Nat) (excl : Bool) : Mach :=
  if (m.entry d x.num (line / 1024)).state = .zero then
    if (m.die d).coh.unborn.any (fun u => decide (u.1 = x.num) && decide (u.2.1 = line)) then
      (m.send (.memData ld dpa (List.replicate 64 0) true)).poisonRead d
    else m.send (.memData ld dpa (List.replicate 64 0) false)
  else
    let a := m.t1Addr d x.num line
    match m.readLine d 0 a with
    | (some (bs, p), m) =>
      let m := m.send (.memData ld dpa bs p)
      if p then m.poisonRead d else m
    | (none, m) => m.waitOn d (m.locate d a).ch (.load ld dpa x.num line excl) ingress

/-- A store into an open extent (R57, R71, R72, R270, R296, R316): a full line clears poison, a write with the poison bit stores it. -/
def Mach.storeOpen (m : Mach) (d : Nat) (x : Extent) (ld dpa line first : Nat) (data : List Byte) (poison : Bool) (ingress : Nat) : Mach :=
  let wait (m : Mach) (a : Nat) : Mach :=
    m.waitOn d ((m.closedChan d a 64).getD (m.locate d a).ch) (.store ld dpa x.num line first data poison) ingress
  match m.materialise d x.num (line / 1024) with
  | none => wait m (m.retAddr d (m.mapBytes))
  | some m =>
    let a := m.t1Addr d x.num line
    match m.mergeLine d 0 a first data poison with
    | (false, m) => wait m a
    | (true, m) =>
      let m := if first = 0 ∧ 64 ≤ data.length then m.clearOrigin d a else m
      let m := if poison then
          let q := (m.die d).nextSeq
          (m.note d uTier pPoisonedLine 0 [x.num, line]).setOrigin d a q
        else m
      m.send (.memDone ld dpa)

/-- A store to a sealed extent (R62, R414): never persisted; whether it shows in the frame's cached T1 copy is a free choice. While
the extent is SEALING its T1 frame is what is encoded, so the data goes nowhere. -/
def Mach.storeSealed (m : Mach) (d : Nat) (x : Extent) (ld dpa line first : Nat) (data : List Byte) (poison : Bool) : Mach :=
  let show1 := decide (m.choice % 2 = 1) && x.coded && (m.entry d x.num (line / 1024)).inT1
  let m := m.chosen
  let m := if show1 then (m.mergeLine d 0 (m.t1Addr d x.num line) first data poison).2 else m
  m.send (.memDone ld dpa)

/-- Entries of the extent's lines are only ever shared: it is sealed, or being sealed (R59, R64). -/
def Extent.sharedOnly (x : Extent) : Bool := x.coded || decide (x.state = .sealing)

/-- A request that no back-invalidate holds up. -/
def Mach.serve (m : Mach) (d : Nat) (r : Waiting) (ingress : Nat) : Mach :=
  match r with
  | .load ld dpa ext line excl =>
    match m.ext? ext with
    | none => m.poisonOut ld dpa
    | some x =>
      let m := if x.shared then m.grant d ext line ld (excl && !x.sharedOnly) else m
      if x.coded then m.loadSealed d (m.versionAt x ingress) ld dpa line ingress excl else m.loadOpen d x ld dpa line ingress excl
  | .store ld dpa ext line first data poison =>
    match m.ext? ext with
    | none => m.send (.memDone ld dpa)
    | some x =>
      if x.coded || (decide (x.state = .sealing) && decide (x.sealedAt ≤ ingress)) then m.storeSealed d x ld dpa line first data poison
      else m.storeOpen d x ld dpa line first data poison ingress

/-- Source and extent of a request (R20, R21). -/
def Waiting.pair : Waiting → Nat × Nat
  | .load ld _ ext _ _ => (ld, ext)
  | .store ld _ ext _ _ _ _ => (ld, ext)

def Waiting.isStore : Waiting → Bool
  | .load _ _ _ _ _ => false
  | .store _ _ _ _ _ _ _ => true

/-- An earlier request of the same source to the same extent waits at the home die, so that this one may not take effect yet
(R21, R67). A sealed extent's loads change nothing there and need no order. -/
def Mach.behind (m : Mach) (d : Nat) (r : Waiting) : Bool :=
  !m.coded r.pair.2 && ((m.die d).coh.waits.any (fun w => decide (w.req.pair = r.pair)) || (m.die d).coh.held.any (fun w => decide (w.req.pair = r.pair))
    || (m.die d).dram.chans.any (fun c => c.waiting.any (fun w => decide (w.req.pair = r.pair))))

def Mach.hold1 (m : Mach) (d : Nat) (r : Waiting) (ingress : Nat) : Mach :=
  m.updCoh d (fun k => { k with held := k.held ++ [⟨[], r, ingress⟩] })

/-- A request whose turn it is at its home die: back-invalidates first, if other hosts hold the line or the filter is full (R63 to
R65). -/
def Mach.begin1 (m : Mach) (d : Nat) (r : Waiting) (ingress : Nat) : Mach :=
  let key : Nat × Nat × Nat × Bool × Bool := match r with
    | .load ld _ ext line excl => (ext, line, ld, excl, true)
    | .store ld _ ext line _ _ _ => (ext, line, ld, true, false)
  match m.ext? key.1 with
  | none => m.serve d r ingress
  | some x =>
    if !x.shared then m.serve d r ingress
    else
      let c := m.conflicts d key.1 key.2.1 key.2.2.1 (key.2.2.2.1 && !x.sharedOnly) key.2.2.2.2
      match c.1 with
      | none => c.2.hold1 d r ingress
      | some [] => c.2.serve d r ingress
      | some ls => c.2.updCoh d (fun k => { k with waits := k.waits ++ [⟨ls, r, ingress⟩] })

/-- A request at its home die, in the order of its source and extent (R21). -/
def Mach.request (m : Mach) (d : Nat) (r : Waiting) (ingress : Nat) : Mach :=
  if m.behind d r then m.hold1 d r ingress else m.begin1 d r ingress

/-- Requests that were held are tried again in their order (R21, R65). -/
def Mach.letGo (m : Mach) (d : Nat) : Mach :=
  let hs := (m.die d).coh.held
  hs.foldl (fun m w => m.request d w.req w.ingress) (m.updCoh d (fun k => { k with held := [] }))

/-- Requests whose back-invalidates are all answered go on (R65, R71), and then those held behind them. -/
def Mach.resume (m : Mach) (d : Nat) : Mach :=
  let open' (p : Nat × Nat) : Bool := (m.die d).coh.bis.any (fun b => decide ((b.ext, b.line) = p))
  let ready := (m.die d).coh.waits.filter (fun w => !w.lines.any open')
  let m := m.updCoh d (fun k => { k with waits := k.waits.filter (fun w => w.lines.any open') })
  (ready.foldl (fun m w => m.begin1 d w.req w.ingress) m).letGo d

/-! ## Ingress -/

/-- TRACE pennants (R401): at most 16 M pairs in a second of pennant time (log entry 21). -/
def Mach.trace (m : Mach) (ld dpa t : Nat) (wr : Bool) : Mach :=
  let p := ldPort ld
  if m.rd p Reg.ERR_TRACE_CTRL.ENABLE = 0 || !bit (m.rd p Reg.ERR_TRACE_CTRL.LDS) (ldIdx ld) then m
  else
    let sec := t / Config.sec
    let m := if (m.die p).log.traceSec = sec then m else
      m.upd p (fun x => { x with log := { x.log with traceSec := sec, tracePairs := 0 } })
    let code := if wr then pIngressWrite else pIngressRead
    if (m.die p).log.tracePairs < 16000000 then
      let m := if (m.die p).log.traceDropping then
          (m.note p uPort code 0 [dpa % 2 ^ 48 + ld % 128 * 2 ^ 48] fOverflow).upd p (fun x => { x with log := { x.log with traceDropping := false } })
        else m
      (m.note p uPort code 0 [dpa % 2 ^ 48 + ld % 128 * 2 ^ 48]).upd p (fun x => { x with log := { x.log with tracePairs := x.log.tracePairs + 1 } })
    else (m.bump p Reg.ERR_TRACE_DROPPED.COUNT).upd p (fun x => { x with log := { x.log with traceDropping := true } })

/-- A request enters a port: stamped, traced, counted as use of the package (R74, R384, R401, R429, R431). -/
def Mach.ingress (m : Mach) (ld dpa t : Nat) (wr : Bool) : Mach :=
  let p := ldPort ld
  let m := (m.runTo p t).issue p t
  let m := { m with pw := { m.pw with lastUse := m.now m.ens } }
  (m.trace ld dpa t wr).furlAbandon 3

/-- A port takes requests of the LD. -/
def Mach.portServes (m : Mach) (ld : Nat) : Bool := m.serving && m.assigned ld && m.ldUp ld

/-- A request of an LD for a leased extent goes to the home die that the ingress die's table gives (R29, R30). -/
def Mach.toHome (m : Mach) (h : Nat) (r : Waiting) (ingress : Nat) : Mach :=
  (m.cross r.pair.1 r.pair.2 (ldPort r.pair.1) h).request h r ingress

/-- HOST_LOAD (R29, R44, R49, R74, R109 to R111, R270). -/
def execHostLoad (ld dpa : Nat) (excl : Bool) (ingress : Nat) (s : State) : Host.Outcome State Fault Refusal :=
  s.onDie (ldPort ld) (fun m => m.when (m.portServes ld) (fun m =>
    let dpa := dpa / 64 * 64
    let m := m.ingress ld dpa ingress false
    let rs := m.slotOfDpa ld dpa
    match m.leaseAt ld rs.1 rs.2 with
    | some l =>
      match m.homeAt (ldPort ld) l.ext with
      | some h => if l.before ingress then m.toHome h (.load ld dpa l.ext (lineOf dpa) excl) ingress else m.poisonOut ld dpa
      | none => m.poisonOut ld dpa
    | none => m.poisonOut ld dpa))

/-- HOST_STORE (R29, R44, R49, R62, R74, R270, R296). -/
def execHostStore (ld dpa first : Nat) (data : List Byte) (poison : Bool) (ingress : Nat) (s : State) : Host.Outcome State Fault Refusal :=
  s.onDie (ldPort ld) (fun m => m.when (m.portServes ld && decide (first + data.length ≤ 64)) (fun m =>
    let dpa := dpa / 64 * 64
    let m := m.ingress ld dpa ingress true
    let rs := m.slotOfDpa ld dpa
    match m.leaseAt ld rs.1 rs.2 with
    | some l =>
      let h := m.homeAt (ldPort ld) l.ext
      if l.after ingress then (m.send (.memDone ld dpa)).bump (h.getD (ldPort ld)) Reg.LSE_DISCARD_COUNT.COUNT
      else match h with
        | some h => if l.before ingress then m.toHome h (.store ld dpa l.ext (lineOf dpa) first data poison) ingress else m.send (.memDone ld dpa)
        | none => m.send (.memDone ld dpa)
    | none => m.send (.memDone ld dpa)))

/-! ## Answers to back-invalidates -/

/-- A line into the stale-line list (R318). -/
def Mach.addStale (m : Mach) (d c a : Nat) : Mach :=
  let m := m.updChan d c (fun x => { x with written := if x.written.contains (a / 65536) then x.written else x.written ++ [a / 65536] })
  if (m.chan d c).stale.contains a then m
  else if 16384 ≤ (m.chan d c).stale.length then m.wr d (Reg.DMC_STALE_LINES.OVERFLOW c) 1
  else (m.updChan d c (fun x => { x with stale := x.stale ++ [a] })).wr d (Reg.DMC_STALE_LINES.LINES c) ((m.chan d c).stale.length + 1)

/-- Write-back data is written at the home die (R64, R75): into T1 of an open extent. -/
def Mach.writeBack (m : Mach) (d ext line : Nat) (bs : List Byte) : Mach :=
  match m.ext? ext with
  | none => m
  | some x =>
    if x.coded then m
    else match m.materialise d ext (line / 1024) with
      | none => m
      | some m =>
        let a := m.t1Addr d ext line
        match m.mergeLine d 0 a 0 bs false with
        | (true, m) => m.clearOrigin d a
        | (false, m) => m.addStale d (m.locate d a).ch a

/-- The die that awaits an answer. -/
def Mach.bi? (m : Mach) (ld ext line : Nat) : Option (Nat × BiWait) :=
  ((List.range m.n).filterMap (fun d =>
    ((m.die d).coh.bis.find? (fun b => decide (b.ext = ext) && decide (b.line = line) && decide (b.ld = ld))).map (fun b => (d, b)))).head?

/-- BI_RESPONSE (R64, R65, R75). -/
def execBiResponse (ld ext line : Nat) (wb : Option (List Byte)) (s : State) : Host.Outcome State Fault Refusal :=
  s.run (fun m => m.when m.alive (fun m =>
    match m.bi? ld ext line with
    | none => m
    | some (d, b) =>
      let m := m.updCoh d (fun k => { k with bis := k.bis.erase b })
      let held := match m.sf? d ext line with | some e => e.excl && e.holders.contains ld | none => false
      let m := match wb with
        | some bs => if held && decide (bs.length = 64) then m.writeBack d ext line bs else m
        | none => m
      let m := if b.inv then m.dropHolder d ext line ld
        else match m.sf? d ext line with
          | some e => m.setSf d ext line e.holders false
          | none => m
      m.resume d))

/-- LSE_HOSTLOSS after a trigger that poisoned `n` lines (R70). -/
def Mach.showLoss (m : Mach) (d ld n : Nat) : Mach :=
  let m := (m.wr d Reg.LSE_HOSTLOSS.LINES (min 65535 n)).wr d Reg.LSE_HOSTLOSS.LD ld
  if 65535 < n then
    let r := m.choices 2
    (r.2.wr d Reg.LSE_HOSTLOSS.OVERFLOW 1).note d uTier pPoisonedLine 0 [r.1.getD 0 0 % 2 ^ 20, r.1.getD 1 0 % 2 ^ 22] fOverflow
  else m

/-- BI_TIMEOUT (R66): for that line, the loss of the holder. -/
def execBiTimeout (ld ext line : Nat) (s : State) : Host.Outcome State Fault Refusal :=
  s.run (fun m => m.when m.alive (fun m =>
    match m.bi? ld ext line with
    | none => m
    | some (d, b) =>
      let m := m.runTo d (b.since + max 100 (m.rd d Reg.LSE_BI_TIMEOUT.TIMEOUT_US) * Config.us)
      let m := (m.updCoh d (fun k => { k with bis := k.bis.erase b })).note d uTier pBiTimeout ld
      let held := match m.sf? d ext line with | some e => e.excl && e.holders.contains ld | none => false
      let m := if held then (m.loseLine d ext line 0).showLoss d ld 1 else m
      (m.dropHolder d ext line ld).resume d))

/-- Host loss of an LD on one die (R68 to R70): the lines it held exclusive are poisoned, it leaves the other holders, and what
waited for its answers goes on (R71). -/
def Mach.hostLossDie (m : Mach) (d ld : Nat) : Mach :=
  let mine := (m.die d).coh.filter.filter (fun e => e.holders.contains ld)
  let excl := mine.filter (·.excl)
  let m := (excl.foldl (fun (acc : Mach × Nat) e => (acc.1.loseLine d e.ext e.line acc.2, acc.2 + 1)) (m, 0)).1
  let m := m.showLoss d ld excl.length
  let m := mine.foldl (fun m e => m.dropHolder d e.ext e.line ld) m
  (m.updCoh d (fun k => { k with bis := k.bis.filter (fun b => b.ld ≠ ld) })).resume d

/-- Host loss (R68, R69). Every die's filter acts; the record of the loss goes to the LD's warning log. -/
def Mach.hostLoss (m : Mach) (ld : Nat) : Mach := m.eachDie (fun m d => m.hostLossDie d ld)

/-! ## Fetch progress (R95, R342, R343, R246) -/

/-- A page read counts on its block (R348). -/
def Mach.countRead (m : Mach) (d p : Nat) : Mach :=
  let s := p / m.sbPages d
  m.updFl d (fun x =>
    let k := blockKey (pageChan p) (p / 8 % m.units d) (x.phys (pageChan p) (p / 8 % m.units d) s)
    { x with reads := SMap.set (fun _ => x.readBase) x.reads k (satAdd 24 (SMap.get (fun _ => x.readBase) x.reads k) 1) })

/-- What a fetch's waiters get when its frame is LOST (R90, R246). -/
def Mach.failFetch (m : Mach) (d : Nat) (f : Fetch) : Mach :=
  let m := m.updTier d (fun t => { t with fetches := t.fetches.filter (fun g => !(decide (g.ext = f.ext) && decide (g.idx = f.idx))) })
  let m := if (m.entry d f.ext f.idx).state = .lost then m else m.lose d f.ext f.idx
  let m := m.bump d Reg.OPS_LOST_WAITERS.COUNT (f.loads.length + f.jobs.length)
  (f.loads.foldl (fun m l => (m.poisonOut l.ld l.dpa).poisonRead d) m).freeUp d

/-- An uncorrectable page (R343, R349, R351): counted, its block retired, the other live copies of the block relocated. -/
def Mach.pageLost (m : Mach) (d p : Nat) : Mach :=
  let c := pageChan p
  let u := m.pageUnit d p
  let s := p / m.sbPages d
  let m := ((m.bump d (Reg.FLC_CH_UE_COUNT.COUNT c)).bump d Reg.FLC_LADDER_COUNT.FAILED).note d (uFlash c) pLadderFail
  if m.rd d (Reg.FLC_CH_STATUS.STATE c) = 5 then m
  else
    let m := m.growBad d c u ((m.fl d).phys c u s)
    let m := match (m.sb d s).st with
      | .settling | .relocation => m.setSb d s (fun b => { b with st := .full, started := b.done })
      | _ => m
    let others := (m.die d).tier.map.filter (fun q => q.2.inT3 && decide (q.2.state ≠ .lost) && decide (m.sbOf d q.2.t3Loc = s)
      && (pagesOf q.2.t3Loc q.2.granules).any (fun k => decide (pageChan k = c) && decide (m.pageUnit d k = u) && decide (k ≠ p)))
    let m := others.foldl (fun m q => m.relocate d (q.1 / 4160) (q.1 % 4160) .relocation) m
    m.remapSlot d c u s

/-- A member of the pool: the ensign package, or a worker that has joined (R477, R478). -/
def Mach.inPool (m : Mach) : Bool := decide (m.pool.role ≠ 0) && m.on m.ens Reg.POOL_STATUS.JOINED

/-- Origin package and handle of an extent (R484). -/
def Mach.originOf (m : Mach) (x : Extent) : Nat × Nat := x.origin.getD (m.pw.poolId, x.handle)

/-- Copies of an extent that the directory of the ensign package lists elsewhere than in package `asker` (R485). -/
def Mach.copiesOf (m : Mach) (asker : Nat) (o : Nat × Nat) : List ReplicaCopy :=
  m.pool.directory.filter (fun c => decide (c.originPkg = o.1) && decide (c.originHandle = o.2) && decide (c.pkg ≠ asker))

/-- A joined pool member asks the directory for a replica; the ensign package looks for itself (R246, R485). -/
def Mach.askReplica (m : Mach) (d : Nat) (f : Fetch) : Mach :=
  match m.ext? f.ext with
  | none => m.failFetch d f
  | some x =>
    let o := m.originOf x
    if !m.inPool || (decide (m.pool.role = 1) && (m.copiesOf m.pw.poolId o).isEmpty) then m.failFetch d f
    else
      let m := m.updFetch d f.ext f.idx (fun g => { g with lookup := true, ladder := none })
      if m.pool.role = 1 then m else m.send (.pool 5 0 (m.stamp m.ens) [o.1, o.2, f.idx])

/-- A relocation of the frame whose source page may still be read: its copy is not yet durable (R344). -/
def Mach.relocOf (m : Mach) (d ext idx page : Nat) : Option Reloc :=
  (m.die d).tier.relocs.find? (fun r => decide (r.ext = ext) && decide (r.idx = idx) && r.switchedAt.isNone && r.written.isNone && !r.waits
    && (pagesOf r.old (m.entry d ext idx).granules).contains page)

def Mach.updReloc (m : Mach) (d : Nat) (r : Reloc) (f : Reloc → Reloc) : Mach :=
  m.updTier d (fun t => { t with relocs := t.relocs.map (fun q => if q = r then f q else q) })

/-- A relocation whose source page is uncorrectable (R344, R349): it is cancelled and the frame keeps its place; it starts again from
the T2 copy, or waits for a fetch toward T2. -/
def Mach.relocLost (m : Mach) (d : Nat) (r : Reloc) (page : Nat) : Mach :=
  let e := m.entry d r.ext r.idx
  let m := m.updFl d (fun x => { x with copies := x.copies.filter (fun c => decide (c.kind ≠ .reloc r.ext r.idx)) })
  let again : Reloc := { r with ladder := none, waits := true, decided := m.stamp d }
  let m := (m.updReloc d r (fun _ => again)).pageLost d page
  if m.hasT2 d r.ext r.idx then m.relocateT2 d r.ext r.idx (256 * e.granules)
  else m.needFetch d r.ext r.idx 2 .toT2 false none none

/-- A source page read for a relocation ends: it passes, or climbs the ladder (R342, R343, R344). -/
def Mach.relocRead (m : Mach) (d : Nat) (r : Reloc) (page : Nat) (bits : Option Nat) : Mach :=
  let c := pageChan page
  let m := (m.countRead d page).ungate d Reg.PWR_GATED.FLASH c
  if m.rd d (Reg.FLC_CH_STATUS.STATE c) = 5 then m.relocLost d r page
  else match bits with
    | some b => m.bump d (Reg.FLC_CH_CE_BITS.COUNT c) b
    | none => ((m.bump d Reg.FLC_LADDER_COUNT.CLIMBS).bump d (Reg.FLC_CH_RETRIES.COUNT c)).updReloc d r (fun r => { r with ladder := some (page, 0) })

/-- A ladder step of a relocation's source page. -/
def Mach.relocStep (m : Mach) (d : Nat) (r : Reloc) (page k : Nat) (ok : Bool) : Mach :=
  let m := m.countRead d page
  if ok then (m.correctable d (12 + pageChan page)).updReloc d r (fun r => { r with ladder := none })
  else if k + 1 ≤ min 32 (m.rd d Reg.FLC_CONFIG.RETRY_LEN) then m.updReloc d r (fun r => { r with ladder := some (page, k + 1) })
  else m.relocLost d r page

/-- PAGE_READ_COMPLETE (R342, R343). -/
def execPageReadComplete (d ext idx page : Nat) (bits : Option Nat) (s : State) : Host.Outcome State Fault Refusal :=
  s.onDie d (fun m => m.when m.alive (fun m =>
    match m.fetchOf d ext idx with
    | none => match m.relocOf d ext idx page with
      | some r => if r.ladder.isSome then m else m.relocRead d r page bits
      | none => m
    | some f =>
      if f.begunAt.isNone || f.ladder.isSome || f.lookup || !f.pages.contains page then m
      else
        let c := pageChan page
        let m := (m.countRead d page).ungate d Reg.PWR_GATED.FLASH c
        let down := decide (m.rd d (Reg.FLC_CH_STATUS.STATE c) = 5)
        match bits, down with
        | some b, false =>
          let rest := f.pages.erase page
          (m.bump d (Reg.FLC_CH_CE_BITS.COUNT c) b).updFetch d f.ext idx (fun g => { g with pages := rest, done := rest.isEmpty })
        | _, true => (m.pageLost d page).askReplica d f
        | none, false =>
          ((m.bump d Reg.FLC_LADDER_COUNT.CLIMBS).bump d (Reg.FLC_CH_RETRIES.COUNT c)).updFetch d f.ext idx (fun g =>
            { g with pages := page :: f.pages.erase page, ladder := some 0 })))

/-- A step of a fetch's ladder: the page at the head, or all pages of a failing block together (R343). -/
def Mach.fetchStep (m : Mach) (d : Nat) (f : Fetch) (k : Nat) (ok : Bool) : Mach :=
  match f.pages with
  | [] => m
  | p :: rest =>
    let more := decide (k + 1 ≤ min 32 (m.rd d Reg.FLC_CONFIG.RETRY_LEN))
    if f.climb.isSome then
      let m := f.pages.foldl (fun m p => m.countRead d p) m
      if ok then (m.correctable d (12 + pageChan p)).updFetch d f.ext f.idx (fun g => { g with pages := [], ladder := none, done := true })
      else if more then m.updFetch d f.ext f.idx (fun g => { g with ladder := some (k + 1), climb := some (k + 1) })
      else (m.pageLost d p).askReplica d f
    else
      let m := m.countRead d p
      if ok then (m.correctable d (12 + pageChan p)).updFetch d f.ext f.idx (fun g => { g with pages := rest, ladder := none, done := rest.isEmpty })
      else if more then m.updFetch d f.ext f.idx (fun g => { g with ladder := some (k + 1) })
      else if (pagesOf f.loc (m.entry d f.ext f.idx).granules).contains p then (m.pageLost d p).askReplica d f
      else (m.pageLost d p).updFetch d f.ext f.idx (fun g => { g with pages := rest, ladder := none, done := rest.isEmpty })

/-- What a pool replica sends for a frame: bytes that the model knows nothing of until they are checked (R246, log entry 107). -/
def Mach.fromReplica (m : Mach) (d : Nat) (f : Fetch) : Mach :=
  let r := m.freeBytes (256 * (m.entry d f.ext f.idx).granules)
  r.2.updFetch d f.ext f.idx (fun g => { g with lookup := false, done := true, pages := [], data := some r.1 })

/-- READ_RETRY_STEP (R343, R246, R344): a retry read or the strongest decode; while a lookup is out, the replica's frame. -/
def execReadRetryStep (d ext idx : Nat) (ok : Bool) (s : State) : Host.Outcome State Fault Refusal :=
  s.onDie d (fun m => m.when m.alive (fun m =>
    match m.fetchOf d ext idx with
    | none => match (m.die d).tier.relocs.find? (fun r => decide (r.ext = ext) && decide (r.idx = idx) && r.ladder.isSome) with
      | some r => match r.ladder with
        | some (page, k) => m.relocStep d r page k ok
        | none => m
      | none => m
    | some f =>
      if f.lookup then (if ok then m.fromReplica d f else m.failFetch d f)
      else match f.ladder with
        | some k => m.fetchStep d f k ok
        | none => m))

/-- LOOKUP_TIMEOUT (R485): no replica; the frame is LOST (R246). -/
def execLookupTimeout (d ext idx : Nat) (s : State) : Host.Outcome State Fault Refusal :=
  s.onDie d (fun m => m.when m.alive (fun m =>
    match m.fetchOf d ext idx with
    | some f => if f.lookup then m.failFetch d f else m
    | none => m))

/-- Both header copies failed (R134): every frame LOST, one pennant. -/
def Mach.headerLost (m : Mach) (d : Nat) (x : Extent) : Mach :=
  let q := (m.die d).nextSeq
  let m := m.note d uLoad pHeaderFail
  let mine := (m.die d).tier.map.filter (fun p => decide (p.1 / 4160 = x.num) && decide (p.2.state ≠ .zero))
  let m := mine.foldl (fun m p =>
    (m.updEntry d x.num (p.1 % 4160) (fun e => { e with state := .lost, inT1 := false, inT2 := false })).updTier d (fun t => { t with
      lostSeq := SMap.set (fun _ => 0) t.lostSeq p.1 (q + 1) })) m
  let fs := (m.die d).tier.fetches.filter (fun f => decide (f.ext = x.num))
  let m := m.updTier d (fun t => { t with fetches := t.fetches.filter (fun f => f.ext ≠ x.num) })
  (fs.foldl (fun m f => f.loads.foldl (fun m l => (m.poisonOut l.ld l.dpa).poisonRead d) m) m).wr d Reg.ERR_ALERT_CAUSE.LOST 1

/-- The header copy of an extent is at hand in DRAM: one that fails its checks is replaced from T3. None: there is no T2 space for it
yet; false: both T3 copies failed (R134). -/
def Mach.ensureHeader (m : Mach) (d : Nat) (x : Extent) : Option Bool × Mach :=
  match (m.dramHeader d x.num).filter (headerOk x.handle) with
  | some _ => (some true, m)
  | none => match m.flashHeader d x with
    | some h =>
      let m := m.updTier d (fun t => { t with headers := t.headers.filter (fun k => decide (k.ext ≠ x.num)) })
      let p := m.putHeader d x.num h
      (if (p.dramHeader d x.num).isSome then some true else none, p)
    | none => (some false, m)

/-- TIER_MISS_HOLD_EXPIRY (R109, R110). -/
def execTierMissHoldExpiry (d ext idx ld line : Nat) (s : State) : Host.Outcome State Fault Refusal :=
  s.onDie d (fun m => m.when m.alive (fun m =>
    match m.fetchOf d ext idx with
    | none => m
    | some f => match f.loads.find? (fun l => decide (l.ld = ld) && decide (l.line = line)) with
      | none => m
      | some l =>
        let m := m.runTo d (l.ingress + min 500 (m.rd (ldPort ld) Reg.TIER_MISS_HOLD.HOLD_US) * Config.us)
        (m.updFetch d f.ext idx (fun g => { g with loads := g.loads.erase l })).missOut d f.ext idx ld l.dpa))

/-! ## The end of a freeze (R113, R318, R319) -/

/-- A waiting request that has waited for DMC_FREEZE_HOLD completes (R318). -/
def Mach.holdOver (m : Mach) (d c : Nat) (r : Waiting) : Mach :=
  match r with
  | .load ld dpa _ _ _ => m.poisonOut ld dpa
  | .store ld dpa ext line _ _ _ =>
    let m := m.send (.memDone ld dpa)
    if (m.entry d ext (line / 1024)).inT1 then m.addStale d c (m.t1Addr d ext line) else m

/-- FREEZE_HOLD_EXPIRY (R316, R318): the requests whose hold has passed at the oldest one's due time. -/
def execFreezeHoldExpiry (d c : Nat) (s : State) : Host.Outcome State Fault Refusal :=
  s.onUnit d c 12 (fun m => m.when (m.alive && decide (m.chState d c = 5)) (fun m =>
    match (m.chan d c).waiting with
    | [] => m
    | w :: _ =>
      let hold := min 1000 (m.rd d Reg.DMC_FREEZE_HOLD.HOLD_MS) * Config.ms
      let m := m.runTo d (w.since + hold)
      let due (x : WaitEntry) : Bool := decide (x.since + hold ≤ m.now d)
      let gone := (m.chan d c).waiting.filter due
      let m := m.updChan d c (fun x => { x with waiting := dropWhere due x.waiting })
      (gone.foldl (fun m x => m.holdOver d c x.req) m).letGo d))

/-- Does a run of bytes hold one of some lines? -/
def holdsLine (a n : Nat) (ls : List Nat) : Bool := ls.any (fun l => decide (a ≤ l + 63) && decide (l < a + n))

/-- A copy with the failing location at the release of a channel (R113): a settled frame's is dropped with its pennant and a T2 copy
fetched again, an unsettled frame is LOST. -/
def Mach.badAtRelease (m : Mach) (d c ext idx tier : Nat) (settled : Bool) : Mach :=
  let e := m.entry d ext idx
  if !settled then (if e.state = .lost then m else m.lose d ext idx)
  else if tier = 1 then (if e.inT1 then (m.dropT1 d ext idx).note d uTier pRedirect (c + 128) [ext, idx] else m)
  else if e.inT2 then ((m.dropT2 d ext idx).note d uTier pRedirect (c + 128) [ext, idx]).needFetch d ext idx 2 .toT2 false none none
  else m

/-- The T1 copy that a settled frame lost at a release is promoted again, from its T2 copy or from the fetch that brings one (log
entry 104). -/
def Mach.renewT1 (m : Mach) (d ext idx : Nat) : Mach :=
  match m.fetch? d ext idx with
  | some _ => m.updFetch d ext idx (fun f => { f with thenT1 := true })
  | none => m.promoteT1 d ext idx

/-- Copies at the release of a channel (R113): those with the failing location are dropped, the others available again. -/
def Mach.restoreCopies (m : Mach) (d c : Nat) (failing : List Nat) : Mach :=
  let hit := (m.die d).tier.map.flatMap (fun p =>
    if m.coded (p.1 / 4160) then (p.2.runs.filter (fun r => holdsLine r.2.1 r.2.2 failing)).map (fun r => (p.1, r.1, p.2.inT3)) else [])
  let m := m.updTier d (fun t => { t with unavail := t.unavail.filter (fun u => u.2.2 ≠ c) })
  let m := hit.foldl (fun m h => m.badAtRelease d c (h.1 / 4160) (h.1 % 4160) h.2.1 h.2.2) m
  (hit.filter (fun h => decide (h.2.1 = 1) && h.2.2)).foldl (fun m h => m.renewT1 d (h.1 / 4160) (h.1 % 4160)) m

/-- RELEASE_RETRAIN_DONE (R319, R113, R318). -/
def execReleaseRetrainDone (d c : Nat) (lane : Lane) (s : State) : Host.Outcome State Fault Refusal :=
  s.onUnit d c 12 (fun m => m.when (m.alive && decide (m.chState d c = 5) && (m.chan d c).releasing) (fun m =>
    let m := (m.updChan d c (fun x => { x with releasing := false })).wr d Reg.DMC_TRAIN_STATUS.FORM 1
    if !laneOk lane then m.laneFail d c
    else
      let ch := m.chan d c
      let m := ((m.setLane d c lane).wr d (Reg.DMC_CH_STATUS.STATE c) 3).drain d c
      let q := (m.die d).nextSeq
      let m := m.note d (uDmc c) pChRelease
      let extra := if m.on d (Reg.DMC_STALE_LINES.OVERFLOW c) then
          ch.written.flatMap (fun s => ((List.range 1024).map (fun i => 65536 * s + 64 * i)).filter (fun a => decide ((m.locate d a).ch = c)))
        else []
      let m := (distinct (ch.failing ++ ch.stale ++ extra)).foldl (fun m a => (m.poisonStored d a).setOrigin d a q) m
      let m := m.updChan d c (fun x => { x with failing := [], stale := [], written := [], waiting := [] })
      let m := (m.wr d (Reg.DMC_STALE_LINES.LINES c) 0).restoreCopies d c ch.failing
      ((ch.waiting.foldl (fun m w => m.serve d w.req w.ingress) m).letGo d).qosChannels d))

/-! ## The poisoned-line list (R70) -/

/-- What LSE_PLIST_POP reads: the oldest entry, packed. -/
def plistWord : List (Nat × Nat × Nat) → Nat
  | [] => 0
  | p :: _ => p.2.1 % 2 ^ 22 + p.1 % 2 ^ 20 * 2 ^ 22 + p.2.2 % 2 ^ 16 * 2 ^ 42 + 2 ^ 63

/-- The read of LSE_PLIST_POP (R70, R9): the low word, with the high word latched and the entry removed. -/
def Mach.plistPop (m : Mach) (d : Nat) : Nat × Mach :=
  let w := plistWord (m.die d).coh.plist
  (w % 2 ^ 32, (m.updCoh d (fun k => { k with plist := k.plist.drop 1 })).latchHigh d 0x808030 (w / 2 ^ 32))

/-- LSE_PLIST_POP (R70, R79, R9). -/
def execLsePlistPop (d : Nat) (s : State) : Host.Outcome State Fault Refusal :=
  s.onDie d (fun m => m.when m.alive (fun m =>
    let r := m.plistPop d
    r.2.send (.regRead d 0x808030 (BitVec.ofNat 32 r.1))))

end Sys2Proof.Machine
end

