-- ==== Sys2Proof/Machine/Numerics.lean ====
section
/-! DEFINITION. Exact arithmetic on the data formats (R151), and the bounds of R218 and R250 within which the engine's results
are free: a free candidate inside the bound stands, any other is replaced by the rounded exact value. -/

namespace Sys2Proof.Machine

/-! ## Values -/

/-- A binary format: exponent bits, fraction bits, the unit's exponent above 2^-149 of a subnormal, and whether its last exponent
holds infinities (OCP E4M3 has none, and one NaN). -/
structure FpFormat where
  ebits : Nat
  mbits : Nat
  shift : Nat
  infs : Bool
deriving DecidableEq, Repr

def fpFormat (f : Nat) : FpFormat :=
  match f with
  | 1 => ⟨8, 7, 16, true⟩
  | 2 => ⟨5, 10, 125, true⟩
  | 3 => ⟨4, 3, 140, false⟩
  | 4 => ⟨5, 2, 133, true⟩
  | _ => ⟨8, 23, 0, true⟩

/-- Bytes of an element (R151). -/
def fmtBytes (f : Nat) : Nat := if f = 8 then 4 else if f = 1 ∨ f = 2 then 2 else 1

def signInt (neg : Bool) (n : Nat) : Int := if neg then -(n : Int) else n

/-- The value of an element. -/
def fpVal (f v : Nat) : Val :=
  let F := fpFormat f
  let m := bits v 0 F.mbits
  let e := bits v F.mbits F.ebits
  let neg := bit v (F.mbits + F.ebits)
  if e = 2 ^ F.ebits - 1 ∧ F.infs then (if m = 0 then .inf neg else .nan)
  else if e = 2 ^ F.ebits - 1 ∧ m = 2 ^ F.mbits - 1 then .nan
  else if e = 0 then .num (signInt neg (m * 2 ^ F.shift))
  else .num (signInt neg ((2 ^ F.mbits + m) * 2 ^ (F.shift + e - 1)))

/-- An E2M1 element under its E8M0 scale (R225). -/
def mxVal (scale el : Nat) : Val :=
  if scale = 255 then .nan
  else .num (signInt (bit el 3) (([0, 1, 2, 3, 4, 6, 8, 12].getD (el % 8) 0) * 2 ^ (scale + 21)))

def Val.neg? (v : Val) : Bool := match v with | .num n => decide (n < 0) | .inf s => s | .nan => false

def Val.mul (a b : Val) : Val :=
  match a, b with
  | .nan, _ | _, .nan => .nan
  | .num x, .num y => .num (x * y)
  | .inf s, .num y => if y = 0 then .nan else .inf (s != decide (y < 0))
  | .num x, .inf s => if x = 0 then .nan else .inf (s != decide (x < 0))
  | .inf s, .inf t => .inf (s != t)

def Val.add (a b : Val) : Val :=
  match a, b with
  | .nan, _ | _, .nan => .nan
  | .num x, .num y => .num (x + y)
  | .inf s, .inf t => if s = t then .inf s else .nan
  | .inf s, _ | _, .inf s => .inf s

def Val.abs (a : Val) : Val := match a with | .num x => .num x.natAbs | .inf _ => .inf false | .nan => .nan

/-- The greater of two values; a NaN stays. -/
def Val.max (a b : Val) : Val :=
  match a, b with
  | .nan, _ | _, .nan => .nan
  | .num x, .num y => .num (if x ≤ y then y else x)
  | .inf true, v | v, .inf true => v
  | .inf false, _ | _, .inf false => .inf false

def Val.min (a b : Val) : Val :=
  match a, b with
  | .nan, _ | _, .nan => .nan
  | .num x, .num y => .num (if x ≤ y then x else y)
  | .inf false, v | v, .inf false => v
  | .inf true, _ | _, .inf true => .inf true

def vsum (l : List Val) : Val := l.foldl Val.add (.num 0)

/-- Σ a_i b_i and Σ |a_i b_i|. -/
def dot (a b : List Val) : Val × Val :=
  let ps := List.zipWith Val.mul a b
  (vsum ps, vsum (ps.map Val.abs))

/-! ## Rounding (nearest, ties to even) -/

def roundDiv (n d : Nat) : Nat :=
  let q := n / d
  let r := n % d
  if d < 2 * r ∨ (2 * r = d ∧ q % 2 = 1) then q + 1 else q

/-- The bits of fp32 (`f` = 8) or bf16 (`f` = 1) nearest to n · 2^-u; too large a value becomes an infinity. -/
def roundFp (f : Nat) (n : Int) (u : Nat) : Nat :=
  let F := fpFormat f
  let a := n.natAbs
  let minQ : Int := (F.shift : Int) - 149
  let E : Int := (Nat.log2 a : Int) - u
  let q : Int := if E - F.mbits ≤ minQ then minQ else E - F.mbits
  let s : Int := q + u
  let mant := if s ≤ 0 then a * 2 ^ s.natAbs else roundDiv a (2 ^ s.natAbs)
  let r := (q - minQ).natAbs * 2 ^ F.mbits + mant
  let top := (2 ^ F.ebits - 1) * 2 ^ F.mbits
  (if a = 0 then 0 else min r top) + (if n < 0 then 2 ^ (F.ebits + F.mbits) else 0)

def fpInf (f : Nat) (neg : Bool) : Nat :=
  let F := fpFormat f
  (2 ^ F.ebits - 1) * 2 ^ F.mbits + (if neg then 2 ^ (F.ebits + F.mbits) else 0)

/-- A free NaN: the candidate if it is one. -/
def fpNan (f cand : Nat) : Nat := if fpVal f cand = .nan then cand else fpInf f false + 1

/-- Least c with T ≤ 2^c. -/
def clog2 (T : Nat) : Nat := if T ≤ 1 then 0 else Nat.log2 (T - 1) + 1

/-- An order of fp32 bit patterns by value, zeros equal. -/
def fpKey (b : Nat) : Int := if b < 2 ^ 31 then (b : Int) else -((b : Int) - 2 ^ 31)

/-! ## LINEAR (R250) -/

/-- An output element from its exact sum E and Σ|xw| = A over K products, and a free candidate. -/
def linearOut (f K : Nat) (E A : Val) (cand : Nat) : Nat :=
  match E, A with
  | .num e, .num a =>
    match fpVal f (cand % 2 ^ (8 * fmtBytes f)) with
    | .num c =>
      let err : Int := ((c * 2 ^ 149 - e).natAbs : Int) * 2 ^ 33
      let b : Int := (clog2 K + 2) * a
      let slack : Int := if f = 1 then 2 ^ 24 * (e.natAbs : Int) + b else 0
      if err ≤ b * 2 ^ 9 + slack then cand % 2 ^ (8 * fmtBytes f) else roundFp f e 298
    | _ => roundFp f e 298
  | .inf s, _ => fpInf f s
  | _, _ => fpNan f (cand % 2 ^ (8 * fmtBytes f))

/-! ## The exponential -/

/-- Fraction bits of the working precision. -/
def expF : Nat := 160

/-- Σ z^k / k! up to `fuel` terms, z in working precision. -/
def expSeries (z : Nat) : Nat → Nat → Nat → Nat
  | 0, _, _ => 0
  | fuel + 1, k, term => term + expSeries z fuel (k + 1) (term * z / 2 ^ expF / (k + 1))

def expSquare : Nat → Nat → Nat
  | 0, r => r
  | n + 1, r => expSquare n (r * r / 2 ^ expF)

/-- e^-y in working precision, to a relative error below 2^-100; 0 from y = 200 on. -/
def expNeg (y : Nat) : Nat :=
  if 200 * 2 ^ expF ≤ y then 0
  else expSquare 9 (2 ^ (2 * expF) / expSeries (y / 2 ^ 9) 40 0 (2 ^ expF))

/-! ## ATTEND (R189 to R193, R218) -/

def Val.int (v : Val) : Int := match v with | .num n => n | _ => 0
def Val.isNum (v : Val) : Bool := match v with | .num _ => true | _ => false

def maxInt (l : List Int) : Int := match l with | [] => 0 | a :: t => t.foldl (fun x y => if x ≤ y then y else x) a

/-- A score that takes part: −∞ has weight 0 (R192, R193, log entry 106). -/
def Token.live (t : Token) : Bool := t.s.isNum

/-- The element i of O over some tokens of finite score with their weights and of score −∞, as IEEE 754 has it where a value is an
infinity or a NaN (R192): none where every value is a number. -/
def oddElem (live : List (Nat × Val)) (dead : List Val) : Option Val :=
  if live.all (fun p => p.2.isNum) && dead.all Val.isNum then none
  else some (live.foldl (fun a p => Val.add a (match p.2 with | .num _ => .num 0 | v => if p.1 = 0 then .nan else v))
    (if dead.all Val.isNum then .num 0 else .nan))

/-- The bits of a value that is no finite number, in format f; a NaN is free. -/
def oddBits (f cand : Nat) (v : Val) : Nat := match v with | .inf s => fpInf f s | _ => fpNan f cand

/-- m, l and O of a row as bits, from its tokens and free candidates: m, l, then O. The row of no token (R191) is exact. Infinities and
NaNs propagate under IEEE 754 (R192): a NaN score makes every result a NaN, a score of +∞ makes m +∞ and the rest NaNs, and a score of
−∞ has weight 0. -/
def attendRow (f dim : Nat) (ts : List Token) (cand : List Nat) : Nat × Nat × List Nat :=
  let c32 (i : Nat) : Nat := cand.getD i 0 % 2 ^ 32
  let cO (i : Nat) : Nat := cand.getD (2 + i) 0 % 2 ^ (8 * fmtBytes f)
  let nans : List Nat := (List.range dim).map (fun i => fpNan f (cO i))
  if ts.any (fun t => decide (t.s = .nan)) then (fpNan 8 (c32 0), fpNan 8 (c32 1), nans)
  else if ts.any (fun t => decide (t.s = .inf false)) then (fpInf 8 false, fpNan 8 (c32 1), nans)
  else
    let live := ts.filter Token.live
    let dead := ts.filter (fun t => !t.live)
    if live.isEmpty then
      (0xFF800000, 0, (List.range dim).map (fun i => match oddElem [] (dead.map (fun t => t.v.getD i (.num 0))) with
        | some v => oddBits f (cO i) v
        | none => 0))
    else
      let mx := maxInt (live.map (·.s.int))
      -- Δ and ε in units of 2^-468
      let delta : Int := maxInt (live.map (·.a.int))
      let eps : Int := (clog2 ts.length + 6) * 2 ^ 444
      let mBits := match fpVal 8 (c32 0) with
        | .num c => if ((c * 2 ^ 319 - mx * 2 ^ 21).natAbs : Int) ≤ delta then c32 0 else roundFp 8 mx 447
        | _ => roundFp 8 mx 447
      let ws := live.map (fun t => expNeg ((mx - t.s.int).natAbs * 2 ^ expF / 2 ^ 447))
      let l : Int := (sumOf ws : Nat)
      let rel : Int := delta + eps
      let lBits := match fpVal 8 (c32 1) with
        | .num c => if (((c * 2 ^ 11 - l).natAbs : Int)) * (2 ^ 468 : Int) ≤ l * rel + (l + 2 ^ 60) * (2 ^ 368 : Int) then c32 1 else roundFp 8 l expF
        | _ => roundFp 8 l expF
      let lc := (fpVal 8 lBits).int
      let elem (i : Nat) : Nat :=
        let vs := live.map (fun t => t.v.getD i (.num 0))
        match oddElem (ws.zip vs) (dead.map (fun t => t.v.getD i (.num 0))) with
        | some v => oddBits f (cO i) v
        | none =>
          let y : Int := (List.zipWith (fun (w : Nat) (v : Val) => (w : Int) * v.int) ws vs).foldl (· + ·) 0
          let vmax := maxInt (vs.map (fun v => ((v.int).natAbs : Int)))
          let back := roundFp f (y * lc / (if l = 0 then 1 else l)) 298
          match fpVal f (cO i) with
          | .num o =>
            let err : Int := ((o * l * 2 ^ 149 - y * lc).natAbs : Int)
            let b : Int := 2 * rel * vmax * lc.natAbs * l
            let ylc : Int := ((y * lc).natAbs : Int)
            let slack : Int := ylc * 2 ^ 368 + (if f = 1 then ylc * 2 ^ 459 + b / 2 ^ 9 else 0)
            if err * 2 ^ 468 ≤ b + slack then cO i else back
          | _ => back
      (mBits, lBits, (List.range dim).map elem)

/-! ## SELECT (R197, R200, R218) -/

/-- Summary of some key vectors: element-wise minimum, then maximum (R197). -/
def minVec (ks : List (List Val)) (dim : Nat) : List Val :=
  (List.range dim).map (fun i => match ks.map (fun k => k.getD i (.num 0)) with | [] => .num 0 | a :: t => t.foldl Val.min a)
def maxVec (ks : List (List Val)) (dim : Nat) : List Val :=
  (List.range dim).map (fun i => match ks.map (fun k => k.getD i (.num 0)) with | [] => .num 0 | a :: t => t.foldl Val.max a)

/-- The fp32 number next below one that is no infinity. -/
def fpNextDown (b : Nat) : Nat := if b = 0 ∨ b = 2 ^ 31 then 2 ^ 31 + 1 else if b < 2 ^ 31 then b - 1 else b + 1

/-- n · 2^-u as fp32, never above it. -/
def roundDown (n : Int) (u : Nat) : Nat :=
  let b := roundFp 8 n u
  match fpVal 8 b with
  | .num c => if c * 2 ^ u ≤ n * 2 ^ 149 then b else fpNextDown b
  | .inf false => fpNextDown b
  | _ => b

/-- The bound of a block against a row, as fp32 bits, from a candidate; none for NaN (R204). It may lie below the exact bound by the
tolerance of R218, never above it. -/
def selectBound (scale : Val) (q mn mx : List Val) (cand : Nat) : Option Nat :=
  let hi := vsum ((List.zipWith Val.mul q mn).zip (List.zipWith Val.mul q mx) |>.map (fun p => Val.max p.1 p.2))
  let ab := vsum ((List.zipWith (fun a b => Val.max (Val.abs a) (Val.abs b)) mn mx).zip q |>.map (fun p => Val.mul (Val.abs p.2) p.1))
  match Val.mul scale hi with
  | .num u =>
    match fpVal 8 (cand % 2 ^ 32) with
    | .num c =>
      let below : Int := u - c * 2 ^ 298
      let near : Bool := match Val.mul scale ab with | .num b => decide (below * 2 ^ 21 ≤ b) | _ => true
      if 0 ≤ below ∧ near = true then some (cand % 2 ^ 32) else some (roundDown u 447)
    | _ => some (roundDown u 447)
  | .inf s => some (fpInf 8 s)
  | .nan => none

end Sys2Proof.Machine
end

