-- ==== Sys2Proof/Machine/RingMem.lean ====
section
/-! DEFINITION. Rings and their memory (R153 to R160): which die and LD a ring belongs to, where its memory lies, and what
happens to it when that memory is lost. -/

namespace Sys2Proof.Machine

/-! ## Numbers (R31, R153) -/

def Mach.ringsPerDie (m : Mach) : Nat := 16384 / m.n
def Mach.ringDie (m : Mach) (r : Nat) : Nat := r / m.ringsPerDie
def Mach.ringLoc (m : Mach) (r : Nat) : Nat := r % m.ringsPerDie

/-- The assignment of a ring: the last entry that covers it (R466). -/
def Mach.ringAssign (m : Mach) (r : Nat) : Option RingAssign :=
  m.cfg.assigns.reverse.find? (fun a => decide (a.first ≤ r) && decide (r < a.first + a.count))

/-- The ring's LD and class (R153, R154); a ring assigned to an LD of an unused port is unassigned (R285). -/
def Mach.ringLd (m : Mach) (r : Nat) : Option Nat :=
  match m.ringAssign r with
  | some a => if m.on (ldPort a.ld) Reg.PORT_CTRL.ENABLE then some a.ld else none
  | none => none
def Mach.ringCls (m : Mach) (r : Nat) : Nat := match m.ringAssign r with | some a => a.cls | none => 0

/-- A field of a ring's block. -/
def Mach.rr (m : Mach) (r : Nat) (f : Nat → Fld) : Nat := m.rd (m.ringDie r) (f (m.ringLoc r))
def Mach.wrr (m : Mach) (r : Nat) (f : Nat → Fld) (v : Nat) : Mach := m.wr (m.ringDie r) (f (m.ringLoc r)) v

def Mach.ringOn (m : Mach) (r : Nat) : Bool := decide (m.rr r Reg.RING_STATUS.ENABLED = 1)

/-- Sizes of the two rings (RING_CTRL: values outside 6 to 16 act as the nearer limit). -/
def Mach.sqSize (m : Mach) (r : Nat) : Nat := 2 ^ clamp 6 16 (m.rr r Reg.RING_CTRL.SQ_LOG2)
def Mach.cqSize (m : Mach) (r : Nat) : Nat := 2 ^ clamp 6 16 (m.rr r Reg.RING_CTRL.CQ_LOG2)
def Mach.sqBase (m : Mach) (r : Nat) : Nat := m.rr r Reg.RING_SQ_BASE.DPA
def Mach.cqBase (m : Mach) (r : Nat) : Nat := m.rr r Reg.RING_CQ_BASE.DPA

/-! ## Jobs -/

def Mach.jobs (m : Mach) (d : Nat) : List Job := (m.die d).jobs

def Mach.job? (m : Mach) (d j : Nat) : Option Job := (m.jobs d).find? (fun k => decide (k.num = j))

def Mach.updJob (m : Mach) (d j : Nat) (f : Job → Job) : Mach :=
  m.upd d (fun x => { x with jobs := updWhere (fun k => decide (k.num = j)) f x.jobs })

/-- Accepted jobs of a ring that have not completed (RING_INFLIGHT). -/
def Mach.ringJobs (m : Mach) (r : Nat) : List Job :=
  (m.jobs (m.ringDie r)).filter (fun k => decide (k.ring = r) && !k.orphan && !k.pre)

/-- RING_STATUS.ACTIVE and RING_INFLIGHT follow the jobs; with them OPS_JOBS_INFLIGHT. -/
def Mach.showRing (m : Mach) (r : Nat) : Mach :=
  let n := (m.ringJobs r).length
  let d := m.ringDie r
  let m := (m.wrr r Reg.RING_INFLIGHT.JOBS n).wrr r Reg.RING_STATUS.ACTIVE (if n = 0 then 0 else 1)
  m.wr d Reg.OPS_JOBS_INFLIGHT.ACCEPTED ((m.jobs d).filter (fun k => !k.orphan && !k.pre)).length

/-! ## Ring memory lost (R159) -/

/-- Rings that an LD has enabled. -/
def Mach.ldRings (m : Mach) (ld : Nat) : List Nat :=
  distinct ((m.cfg.assigns.filter (fun a => decide (a.ld = ld))).flatMap (fun a =>
    ((List.range a.count).map (a.first + ·)).filter (fun r => decide (r < 16384) && decide (m.ringLd r = some ld))))

/-- Ring `i` of an LD, which numbers its rings in ascending order of their package numbers (R153). -/
def Mach.ldRing (m : Mach) (ld i : Nat) : Option Nat :=
  let rs := m.ldRings ld
  rs.find? (fun r => decide ((rs.filter (fun k => decide (k < r))).length = i))

/-- A ring stops accepting (R158): a descriptor that is not accepted yet is dropped, and nothing waits for an entry (R163). -/
def Mach.ringStop (m : Mach) (r : Nat) : Mach :=
  (((m.wrr r Reg.RING_CTRL.ENABLE 0).wrr r Reg.RING_STATUS.ENABLED 0).wrr r Reg.RING_STATUS.CQ_STALL 0).upd (m.ringDie r) (fun x => { x with
    jobs := x.jobs.filter (fun k => !(decide (k.ring = r) && k.pre)) })

/-- The completions of a ring's accepted jobs are no longer written to it (R159). -/
def Mach.noEntries (m : Mach) (r : Nat) : Mach :=
  m.upd (m.ringDie r) (fun x => { x with jobs := updWhere (fun k => decide (k.ring = r)) (fun k => { k with noRing := true }) x.jobs })

/-- A ring disabled by the device: MEM_LOST and a pennant, whose TAG is free since no job is named (log entry 23); its completions are no longer written to it (R159). -/
def Mach.ringLost (m : Mach) (r : Nat) : Mach :=
  let d := m.ringDie r
  (((m.ringStop r).wrr r Reg.RING_STATUS.MEM_LOST 1).chosen.note d uRing pRingDisabled 0 [r, m.choice % 2 ^ 32]).noEntries r

/-- Rings of an LD with memory at a slot are lost; of one that is disabled already, the jobs that run still lose their entries. -/
def Mach.slotLost (m : Mach) (ld region slot : Nat) : Mach :=
  let here (r : Nat) : Bool :=
    decide (m.slotOfDpa ld (m.sqBase r) = (region, slot)) || decide (m.slotOfDpa ld (m.cqBase r) = (region, slot))
  ((m.ldRings ld).filter here).foldl (fun m r => if m.ringOn r then m.ringLost r else m.noEntries r) m

/-- An extent leaves OPEN: every ring in it is lost. -/
def Mach.extLost (m : Mach) (e : Nat) : Mach :=
  (m.lse.leases.filter (fun l => decide (l.ext = e))).foldl (fun m l => m.slotLost l.ld l.region l.slot) m

end Sys2Proof.Machine
end

