-- ==== Sys2Proof/Machine/Lease.lean ====
section
/-! DEFINITION. The extent directory and the lease table of the ensign die (R45 to R56, R73 to R78, R465). -/

namespace Sys2Proof.Machine

/-! ## Counts -/

/-- An extent's leases that have not ended. -/
def Mach.liveLeases (m : Mach) (e : Nat) : List Lease := m.lse.leases.filter (fun l => decide (l.ext = e) && decide (l.state ≠ .ended))

/-- Held or noticed (LSE_EXT_STATE.LEASES). -/
def Lease.counts (l : Lease) : Bool := decide (l.state = .held) || decide (l.state = .noticed)

def Mach.homed (m : Mach) (d : Nat) : List Extent := m.lse.exts.filter (fun x => decide (x.home = d))

/-- LSE_OPEN_COUNT, LSE_SEALED_COUNT, TIER_MAP_USED. -/
def Mach.openCount (m : Mach) (d : Nat) : Nat := ((m.homed d).filter (·.budgeted)).length
def Mach.sealedCount (m : Mach) (d : Nat) : Nat := ((m.homed d).filter (fun x => decide (x.state = .sealed))).length
def Mach.mapUsed (m : Mach) (d : Nat) : Nat := (m.homed d).length

def ExtState.code : ExtState → Nat
  | .free => 0 | .offered => 1 | .opened => 2 | .sealing => 3 | .sealed => 4 | .releasing => 5 | .clearing => 6

/-- Slots of an LD's region (R43). -/
def Mach.regionSlots (m : Mach) (ld region : Nat) : Nat :=
  if region = 0 then SMap.get (fun _ => 0) m.cfg.region0 ld else if region = 1 then SMap.get (fun _ => 0) m.cfg.region1 ld else 0

/-- A running INGEST or a PUSH being received holds the slot for the lease it will offer (R236, R486). -/
def Mach.slotHeld (m : Mach) (ld region slot : Nat) : Bool :=
  m.pool.rx.any (fun r => decide (r.ld = ld) && decide (r.region = region) && decide (r.slot = slot)) ||
  m.dies.any (fun x => x.jobs.any (fun j => decide (j.ld = ld) && decide (j.resv = some (region, slot))))

def Mach.slotTaken (m : Mach) (ld region slot : Nat) : Bool :=
  m.slotHeld ld region slot || m.lse.leases.any (fun l => decide (l.ld = ld) && decide (l.region = region) && decide (l.slot = slot) && decide (l.state ≠ .ended))

/-- The slot of a new lease: the named one if it is free, else the lowest free one (R48). -/
def Mach.slotFor (m : Mach) (ld region : Nat) (slot : Option Nat) : Option Nat :=
  match slot with
  | some k => if k < m.regionSlots ld region && !m.slotTaken ld region k then some k else none
  | none => (List.range (min (m.regionSlots ld region) (m.lse.leases.length + sumOf (m.dies.map (·.jobs.length)) + m.pool.rx.length + 1))).find? (fun k => !m.slotTaken ld region k)

def Mach.ldLeases (m : Mach) (ld : Nat) : List Lease := m.lse.leases.filter (fun l => decide (l.ld = ld) && decide (l.state ≠ .ended))

def Mach.quotaOk (m : Mach) (ld : Nat) : Bool :=
  let q := SMap.get (fun _ => 0) m.cfg.quota ld
  let reserved := sumOf (m.dies.map (fun x => (x.jobs.filter (fun j => decide (j.ld = ld) && j.resv.isSome)).length))
    + (m.pool.rx.filter (fun r => decide (r.ld = ld))).length
  decide (q = 0) || decide ((m.ldLeases ld).length + reserved < q)

/-! ## Placement (R28, R48, R56, R86, R331) (log entry 95). -/

def Mach.openRoom (m : Mach) (d : Nat) : Bool := decide (m.openCount d < m.rd d Reg.LSE_OPEN_BUDGET.BUDGET)

/-- A free extent map beyond those reserved for the open budget (R86). -/
def Mach.mapRoom (m : Mach) (d : Nat) : Bool :=
  decide (((m.homed d).filter (fun x => !x.budgeted)).length + m.rd d Reg.LSE_OPEN_BUDGET.BUDGET < m.rd d Reg.TIER_MAP_CAP.MAPS)

def Mach.sealedRoom (m : Mach) (d : Nat) : Bool := m.flashRoom d && m.mapRoom d

/-- The home die of a new extent of LD `ld`, among those with room (R28). -/
def Mach.placement (m : Mach) (ld : Nat) (room : Nat → Bool) : Option Nat :=
  let striped := minBy (fun d => (m.homed d).length) ((List.range m.n).filter room)
  if m.cfg.portLocal && decide (ldPort ld < m.n) && room (ldPort ld) then some (ldPort ld) else striped

/-! ## New extents and leases -/

/-- A free extent number: which one is a free choice (log entry 22). -/
def Mach.freeNumber (m : Mach) : Option Nat :=
  ((List.range (m.lse.exts.length + 1)).map (fun i => (m.choice + i) % 1048576)).find? (fun k => !m.lse.exts.any (fun x => decide (x.num = k)))

def Mach.extPennant (m : Mach) (x : Extent) (st : ExtState) : Mach := m.note x.home uTier pExtState st.code

/-- An extent's state changes, with its pennant on the home die (R51, R53). -/
def Mach.extState (m : Mach) (e : Nat) (st : ExtState) : Mach :=
  match m.ext? e with
  | some x => (m.updExt e (fun x => { x with state := st })).extPennant x st
  | none => m

/-- A number taken for a new extent (R45), on its home die. -/
def Mach.newExtent (m : Mach) (num home : Nat) (st : ExtState) (shared budgeted : Bool) : Mach :=
  let g := (SMap.get (fun _ => 0) m.lse.gens num + 1) % 256
  let x : Extent := { num := num, gen := g, state := st, shared := shared, home := home, settled := false, budgeted := budgeted, was := .free,
                      sealedAt := 0, lastRevoke := 0, format := 0, spanLog2 := 12, dim := 0, hdrLocs := [], tgen := 0, origin := none }
  let m := m.setLse { m.lse with exts := m.lse.exts ++ [x], gens := SMap.set (fun _ => 0) m.lse.gens num g,
                                 leases := m.lse.leases.filter (fun l => l.ext ≠ num) }
  (m.writeHome num (home + 1)).extPennant x st

/-- A lease added at a slot, replacing what an ended lease there left. -/
def Mach.addLease (m : Mach) (l : Lease) : Mach :=
  m.setLse { m.lse with leases := (m.lse.leases.filter (fun k =>
    !(decide (k.ld = l.ld) && decide (k.region = l.region) && decide (k.slot = l.slot)))) ++ [l] }

def Mach.updLease (m : Mach) (l : Lease) (f : Lease → Lease) : Mach :=
  m.setLse { m.lse with leases := m.lse.leases.map (fun k => if k = l then f k else k) }

def Mach.handleOf (m : Mach) (e : Nat) : Nat := match m.ext? e with | some x => x.handle | none => 0

/-- A LEASE pennant of the ensign die: handle and LD (R51, R397). -/
def Mach.notePair (m : Mach) (pc : PCode) (e ld : Nat) : Mach := m.note m.ens uMgmt pc 0 [m.handleOf e, ld]

/-- The tag of an extent record (R46): HANDLE, STATE, SHARED, HOME. An extent that is offered is going to be open. -/
def Extent.tag (x : Extent) : List Nat :=
  [x.handle, if x.state = .offered then ExtState.opened.code else x.state.code, b2n x.shared, x.home]

/-- A Dynamic Capacity record for a slot: region, slot and the extent's tag (R46). -/
def Mach.dcEvent (m : Mach) (ld kind region slot e : Nat) : Mach :=
  m.event ld .dcd kind ([region, slot] ++ ((m.ext? e).map Extent.tag).getD [])

/-- An offer: the lease, its pennant, the Add Capacity event (R49). -/
def Mach.offer (m : Mach) (ld region slot e : Nat) : Mach :=
  let m := m.addLease ⟨ld, region, slot, e, .offered, m.now m.ens, false, 0, 0, 0⟩
  (m.notePair pOffer e ld).dcEvent ld 2 region slot e

/-- A lease held without an offer, from the stamp at which it is created (R49, R52, R465). -/
def Mach.hold (m : Mach) (ld region slot e : Nat) : Mach :=
  m.addLease ⟨ld, region, slot, e, .held, m.now m.ens, false, 0, 0, m.stamp m.ens⟩

/-- A refused lease: a pennant with the number of the check (R48). -/
def Mach.refuse (m : Mach) (check : Nat) : Mach := m.note m.ens uMgmt pLeaseRefused check

/-- The extent of a handle whose GENERATION is current (R45). -/
def Mach.byHandle (m : Mach) (h : Nat) : Option Extent := m.lse.exts.find? (fun x => decide (x.handle = h))

/-- Check 5 of R48. -/
def Mach.shareOk (m : Mach) (ld region : Nat) (x : Extent) : Bool :=
  x.shared && decide (region = 1) && (decide (x.state = .opened) || decide (x.state = .sealed))
    && decide ((m.liveLeases x.num).length < 128) && !(m.liveLeases x.num).any (fun l => decide (l.ld = ld))

/-- The checks of R48 for an open extent or a share: the check that fails, or the slot, and the home of a new extent. -/
def Mach.leaseChecks (m : Mach) (ld region : Nat) (slot : Option Nat) (share : Option (Option Extent)) : Except Nat (Nat × Option Nat) :=
  match m.slotFor ld region slot with
  | none => .error 1
  | some k =>
    if !m.quotaOk ld then .error 2
    else match share with
      | none => match m.placement ld m.openRoom with
        | some h => .ok (k, some h)
        | none => .error 3
      | some none => .error 5
      | some (some x) => if m.shareOk ld region x then .ok (k, none) else .error 5

/-- FM_ADD_DYNAMIC_CAPACITY (R48, R49, R53). -/
def execFmAddDynamicCapacity (ld region : Nat) (slot share : Option Nat) (s : State) : Host.Outcome State Fault Refusal :=
  s.run (fun m => m.when (m.serving && m.assigned ld) (fun m =>
    match m.leaseChecks ld region slot (share.map m.byHandle) with
    | .error c => (m.refuse c).send (.fm c 0)
    | .ok (k, none) =>
      match share.bind m.byHandle with
      | some x => (m.offer ld region k x.num).send (.fm 0 x.handle)
      | none => m
    | .ok (k, some home) =>
      match m.freeNumber with
      | none => (m.refuse 3).send (.fm 3 0)
      | some num =>
        let m := m.chosen.newExtent num home .offered (decide (region = 1)) true
        (m.offer ld region k num).send (.fm 0 (m.handleOf num))))

/-! ## Ends of leases -/

def Pin.ofLd (m : Mach) (ld : Nat) (p : Pin) : Bool :=
  match p.ring with | some r => decide (m.ringLd r = some ld) | none => false

/-- A recode of an extent that is released stops (R138). -/
def Mach.stopRecode (m : Mach) (d e : Nat) : Mach :=
  match (m.die d).xc.recode with
  | some r => if r.ext = e then
      let keep := fun (c : FCopy) => match c.kind with | .recode k _ | .recodeHeader k _ => decide (k ≠ e) | _ => true
      let m := m.upd d (fun x =>
        let fl := { x.fl with copies := x.fl.copies.filter keep }
        { x with xc := { x.xc with recode := none }, fl := fl })
      ((m.wr d Reg.XC_RECODE_STATUS.BUSY 0).wr d Reg.XC_RECODE_STATUS.FAILED 1).freeUp d
    else m
  | none => m

/-- The last lease of an extent has ended at stamp t: RELEASING (R53, R76, R99). A withdrawn offer of an extent that was never
held returns it to FREE at once (log entry 94). -/
def Mach.lastEnd (m : Mach) (e t : Nat) : Mach :=
  if !(m.liveLeases e).isEmpty then m
  else match m.ext? e with
    | none => m
    | some x =>
      match x.state with
      | .offered =>
        ((m.extPennant x .free).setLse { m.lse with exts := m.lse.exts.filter (fun y => y.num ≠ e) }).writeHome e 0
      | .opened | .sealing | .sealed =>
        let m := if x.state = .opened then m.extLost e else m
        let m := (m.updExt e (fun y => { y with state := .releasing, was := x.state, lastRevoke := t, budgeted := x.budgeted })).extPennant x .releasing
        (m.dropPins x.home (fun p => decide (p.ext = e))).stopRecode x.home e
      | _ => m

/-- A PUSH that the package receives ends: its incomplete extent is released, to be cleared without an offer (R487). -/
def Mach.endRx (m : Mach) (r : RxPush) : Mach :=
  let m := { m with pool := { m.pool with rx := m.pool.rx.erase r } }
  match m.ext? r.ext with
  | none => m
  | some x => (m.updExt r.ext (fun y => { y with state := .releasing, was := .sealing, lastRevoke := m.stamp m.ens })).extPennant x .releasing

/-- An offer is withdrawn (R49, R54). -/
def Mach.withdraw (m : Mach) (l : Lease) : Mach :=
  let m := m.notePair pWithdraw l.ext l.ld
  (m.setLse { m.lse with leases := m.lse.leases.erase l }).lastEnd l.ext (m.stamp m.ens)

/-- A lease ends at stamp t: what the LD holds of a shared extent is invalidated, its pins on the extent drop (R50, R75, R99). -/
def Mach.endLease (m : Mach) (l : Lease) (t : Nat) : Mach :=
  let m := (m.slotLost l.ld l.region l.slot).updLease l (fun k => { k with state := .ended, tr := t, revoking := false })
  let m := match m.ext? l.ext with
    | none => m
    | some x =>
      let m := m.dropPins x.home (fun p => decide (p.ext = l.ext) && Pin.ofLd m l.ld p)
      if x.shared then
        (((m.die x.home).coh.filter.filter (fun (e : SfEntry) => decide (e.ext = l.ext) && e.holders.contains l.ld)).foldl
          (fun (m : Mach) (e : SfEntry) => m.snoop x.home e.ext e.line l.ld true .revoke) m)
      else m
  m.lastEnd l.ext t

def Mach.offeredAt (m : Mach) (ld : Nat) (r : SlotRef) : Option Lease :=
  m.lse.leases.find? (fun l => decide (l.ld = ld) && decide (l.region = r.region) && decide (l.slot = r.slot) && decide (l.state = .offered))

def Mach.heldAt (m : Mach) (ld : Nat) (r : SlotRef) : Option Lease :=
  m.lse.leases.find? (fun l => decide (l.ld = ld) && decide (l.region = r.region) && decide (l.slot = r.slot) && l.counts)

/-- An offer accepted: the lease is held, a new open extent becomes OPEN (R49, R53, R54). -/
def Mach.accept (m : Mach) (l : Lease) : Mach :=
  let m := (m.updLease l (fun k => { k with state := .held, heldAt := m.stamp m.ens })).notePair pAccept l.ext l.ld
  match m.ext? l.ext with
  | some x => if x.state = .offered then m.extState l.ext .opened else m
  | none => m

/-- ADD_DYNAMIC_CAPACITY_RESPONSE (R49). -/
def execAddDynamicCapacityResponse (ld : Nat) (accepted rejected : List SlotRef) (s : State) : Host.Outcome State Fault Refusal :=
  s.run (fun m => m.when (m.ldAnswers ld) (fun m =>
    let m := accepted.foldl (fun m r => match m.offeredAt ld r with | some l => m.accept l | none => m) m
    let m := rejected.foldl (fun m r => match m.offeredAt ld r with | some l => m.withdraw l | none => m) m
    m.send (.mailbox ld 4 0 [])))

/-- OFFER_TIMEOUT (R49). -/
def execOfferTimeout (ld region slot : Nat) (s : State) : Host.Outcome State Fault Refusal :=
  s.run (fun m => m.when m.alive (fun m =>
    match m.offeredAt ld ⟨region, slot⟩ with
    | some l => (m.runTo m.ens (l.offeredAt + Config.sec)).withdraw l
    | none => m))

/-- RELEASE_DYNAMIC_CAPACITY (R50, R54, R77): a slot without a held lease changes no lease at all. -/
def execReleaseDynamicCapacity (ld : Nat) (slots : List SlotRef) (ingress : Nat) (s : State) : Host.Outcome State Fault Refusal :=
  s.run (fun m => m.when (m.ldAnswers ld) (fun m =>
    let m := (m.runTo (ldPort ld) ingress).issue (ldPort ld) ingress
    if slots.all (fun r => (m.heldAt ld r).isSome) then
      let m := slots.foldl (fun m r => match m.heldAt ld r with
        | some l => (m.notePair pRelease l.ext ld).endLease l ingress
        | none => m) m
      m.send (.mailbox ld 5 0 [])
    else m.send (.mailbox ld 5 2 [])))

/-! ## Revocation (R73 to R77) -/

/-- INITIATE_DYNAMIC_CAPACITY_RELEASE (R54, R73, R77). -/
def execInitiateDynamicCapacityRelease (ld region slot : Nat) (s : State) : Host.Outcome State Fault Refusal :=
  s.run (fun m => m.when m.serving (fun m =>
    match m.offeredAt ld ⟨region, slot⟩, m.heldAt ld ⟨region, slot⟩ with
    | some l, _ => (m.withdraw l).send (.fm 0 (m.handleOf l.ext))
    | none, some l => (m.updLease l (fun k => { k with revoking := true })).send (.fm 0 (m.handleOf l.ext))
    | none, none => m))

/-- The grace period in ticks (LSE_GRACE of the ensign die). -/
def Mach.grace (m : Mach) : Nat := min 10000000 (m.rd m.ens Reg.LSE_GRACE.GRACE_US) * Config.us

/-- A notice at stamp tn: T_r = T_n + G; for a lease already NOTICED only an earlier T_r counts (R73, R77). -/
def Mach.notice (m : Mach) (l : Lease) (tn : Nat) : Mach :=
  if l.state = .noticed then m.updLease l (fun k => { k with revoking := false, tr := min k.tr (tn + m.grace) })
  else
    let m := m.updLease l (fun k => { k with state := .noticed, revoking := false, noticeAt := tn, tr := tn + m.grace })
    (m.notePair pNotice l.ext l.ld).dcEvent l.ld 3 l.region l.slot l.ext

/-- REVOKE_ACKNOWLEDGED (R73). -/
def execRevokeAcknowledged (ld region slot : Nat) (s : State) : Host.Outcome State Fault Refusal :=
  s.run (fun m => m.when m.alive (fun m =>
    match m.heldAt ld ⟨region, slot⟩ with
    | some l => if l.revoking then m.notice l (m.stamp m.ens) else m
    | none => m))

/-- REVOKE_STAMP_REACHED (R54, R75). -/
def execRevokeStampReached (ld region slot : Nat) (s : State) : Host.Outcome State Fault Refusal :=
  s.run (fun m => m.when m.alive (fun m =>
    match m.heldAt ld ⟨region, slot⟩ with
    | some l =>
      if l.state = .noticed then
        let m := m.runTo m.ens l.tr
        let m := (m.notePair pRevoke l.ext ld).dcEvent ld 4 region slot l.ext
        m.endLease l l.tr
      else m
    | none => m))

/-- LINKDOWN_REVOKE_EXPIRY (R465): every lease of the LD is revoked, the notice stamp taken when the period ends. -/
def execLinkdownRevokeExpiry (ld : Nat) (s : State) : Host.Outcome State Fault Refusal :=
  s.run (fun m => m.when (m.alive && decide (m.cfg.linkdownS ≠ 0)) (fun m =>
    match (m.ld ld).linkDownAt with
    | none => m
    | some t =>
      let m := m.runTo m.ens (t + m.cfg.linkdownS * Config.sec)
      (m.ldLeases ld).foldl (fun m l => if l.state = .offered then m.withdraw l else m.notice l (m.stamp m.ens)) m))

/-! ## Queries (R79) -/

/-- What LSE_EXT_QUERY loads on die d. -/
def Mach.extQuery (m : Mach) (d num : Nat) : Mach :=
  let set (m : Mach) (st sh se home ls g : Nat) : Mach :=
    let m := ((m.wr d Reg.LSE_EXT_STATE.STATE st).wr d Reg.LSE_EXT_STATE.SHARED sh).wr d Reg.LSE_EXT_STATE.SETTLED se
    ((m.wr d Reg.LSE_EXT_STATE.HOME home).wr d Reg.LSE_EXT_STATE.LEASES ls).wr d Reg.LSE_EXT_STATE.GENERATION g
  match m.ext? num with
  | some x =>
    if d = m.ens ∨ x.home = d then
      set m x.state.code (b2n x.shared) (b2n (decide (x.state = .sealed) && x.settled)) x.home ((m.liveLeases num).filter Lease.counts).length x.gen
    else set m 15 0 0 0 0 0
  | none => if d = m.ens then set m 0 0 0 0 0 (SMap.get (fun _ => 0) m.lse.gens num) else set m 15 0 0 0 0 0

/-- LSE_EXT_QUERY (R79). -/
def execLseExtQuery (d : Nat) (v : Word) (s : State) : Host.Outcome State Fault Refusal :=
  s.onDie d (fun m => m.when m.alive (·.extQuery d (bits v.toNat 0 20)))

end Sys2Proof.Machine
end

