-- ==== Sys2Proof/Machine/Content.lean ====
section
/-! DEFINITION. What the lines of an extent hold, for those that read without a host request (jobs, the encoder, preload):
open frames from T1, sealed frames decoded from their T2 or T3 copies (R82, R90, R140, R143, R170, R405). -/

namespace Sys2Proof.Machine

/-- What a line holds: its bytes, or poison with the pennant of its origin. -/
inductive LineVal where
  | ok (bs : List Byte)
  | poison (bs : List Byte) (origin : Option NoteRef)
deriving DecidableEq, Repr

def LineVal.bytes (v : LineVal) : List Byte := match v with | .ok bs | .poison bs _ => bs

def zeroLine : List Byte := List.replicate 64 0

/-- The pennant that a stored SEQ + 1 names, on die d. -/
def seqRef (d s : Nat) : Option NoteRef := if s = 0 then none else some ⟨d, s - 1⟩

/-- A line of an open frame in T1, poison and all; on a channel that serves no request it is what R318 answers. -/
def Mach.openLine (m : Mach) (d a : Nat) : LineVal :=
  let bs := m.peekLine d a
  if !m.chanOpen d (m.locate d a).ch then .poison bs none
  else if m.peekPoison d a then .poison bs (seqRef d (SMap.get (fun _ => 0) (m.die d).dram.origins (a / 64))) else .ok bs

/-- A stored block of a frame's copy in T2, or the check that its lines fail (R141): a poisoned line fails check 2. -/
def Mach.t2Block (m : Mach) (d : Nat) (e : FrameEntry) (b : Nat) : Except Nat (List Byte) :=
  let a := 256 * e.t2Loc + blockStart e.counts b
  let n := 64 * e.counts.getD b 0
  if (List.range (e.counts.getD b 0)).any (fun i => m.peekPoison d (a + 64 * i)) then .error 2 else .ok (m.peekBytes d a n)

def Mach.t3Block (m : Mach) (d : Nat) (e : FrameEntry) (b : Nat) : List Byte :=
  sub (m.flashBytes d (e.t3Loc + blockStart e.counts b / 256) (blockStart e.counts b % 256 + 64 * e.counts.getD b 0))
    (blockStart e.counts b % 256) (64 * e.counts.getD b 0)

/-- The table that a stored block names, from the header of the extent. -/
def Mach.tableOf (m : Mach) (d : Nat) (x : Extent) (count : Nat) (stored : List Byte) : Option Bound :=
  match blockTable count stored with
  | some (ti, _) => (m.headerOf d x).bind (fun h => headerTable x.format h ti)
  | none => none

/-- Lanes of a stored block decoded with the tables of the header. -/
def Mach.decodeLanes (m : Mach) (d : Nat) (x : Extent) (e : FrameEntry) (b : Nat) (lanes : List Nat) (stored : List Byte) : Except Nat (List Byte) :=
  decodeBlock x.format (e.counts.getD b 0) e.table (m.tableOf d x (e.counts.getD b 0) stored) stored lanes

/-- A block of a T0 copy. -/
def T0Copy.block (k : T0Copy) (b : Nat) : List Byte := sub k.coded (blockStart k.ent.counts b) (64 * k.ent.counts.getD b 0)

/-- A copy of a frame in the stage. -/
def Mach.stagedCopy (m : Mach) (d ext idx : Nat) : Option T0Copy :=
  (m.die d).stage.copies.find? (fun k => decide (k.ext = ext) && decide (k.idx = idx))

/-- Lanes of a block of a coded frame: from a copy in the stage, else from T2 if it holds a copy that passes, else from T3. -/
def Mach.codedLanes (m : Mach) (d : Nat) (x : Extent) (idx b : Nat) (lanes : List Nat) : Except Nat (List Byte) :=
  let e := m.entry d x.num idx
  let t3 (c : Nat) : Except Nat (List Byte) := if e.inT3 then m.decodeLanes d x e b lanes (m.t3Block d e b) else .error c
  let t2 : Except Nat (List Byte) :=
    if m.hasT2 d x.num idx then
      match m.t2Block d e b with
      | .ok stored => match m.decodeLanes d x e b lanes stored with
        | .ok bs => .ok bs
        | .error c => t3 c
      | .error c => t3 c
    else t3 2
  match m.stagedCopy d x.num idx with
  | none => t2
  | some k => match m.decodeLanes d x k.ent b lanes (k.block b) with
    | .ok bs => .ok bs
    | .error _ => t2

/-- Line `line` of extent x on its home die. -/
def Mach.lineVal (m : Mach) (d : Nat) (x : Extent) (line : Nat) : LineVal :=
  let idx := line / 1024
  let e := m.entry d x.num idx
  match e.state with
  | .zero => .ok zeroLine
  | .lost => .poison zeroLine (seqRef d (SMap.get (fun _ => 0) (m.die d).tier.lostSeq (entryKey x.num idx)))
  | _ =>
    if x.coded then
      match m.codedLanes d x idx (lineBlock line) [lineLane line] with
      | .ok bs => .ok (sub bs (64 * (line % 2)) 64)
      | .error _ => .poison zeroLine none
    else m.openLine d (m.t1Addr d x.num line)

/-- A run of an extent's logical bytes with the poisoned lines among them: line, origin. -/
structure RunVal where
  bytes : List Byte
  bad : List (Nat × Option NoteRef)
deriving DecidableEq, Repr

def Mach.runVal (m : Mach) (d : Nat) (x : Extent) (lo n : Nat) : RunVal :=
  let first := lo / 64
  let k := if n = 0 then 0 else (lo + n + 63) / 64 - first
  let vs := (List.range k).map (fun i => (first + i, m.lineVal d x (first + i)))
  ⟨sub (vs.flatMap (fun v => v.2.bytes)) (lo - 64 * first) n,
   vs.filterMap (fun v => match v.2 with | .poison _ o => some (v.1, o) | .ok _ => none)⟩

/-- Every block of a T0 copy decoded: the first block and check that fail (R140, R141). -/
def Mach.copyCheck (m : Mach) (d : Nat) (x : Extent) (k : T0Copy) : Option (Nat × Nat) :=
  (List.range 16).findSome? (fun b => match m.decodeLanes d x k.ent b allLanes (k.block b) with
    | .ok _ => none
    | .error c => some (b, c))

/-! ## Coherence with hosts (R170) -/

/-- Filter entries of an extent that stand in the way of reading (an exclusive holder) or writing (any holder) lines lo to hi - 1. -/
def Mach.inWay (m : Mach) (d ext lo hi : Nat) (write : Bool) : List SfEntry :=
  (m.die d).coh.filter.filter (fun e => decide (e.ext = ext) && decide (lo ≤ e.line) && decide (e.line < hi) && (write || e.excl))

/-- The lines obtained from hosts: true once none stands in the way; otherwise the back-invalidates go out. -/
def Mach.obtain (m : Mach) (d ext lo hi : Nat) (write : Bool) : Bool × Mach :=
  let es := m.inWay d ext lo hi write
  (es.isEmpty, es.foldl (fun (m : Mach) (e : SfEntry) => e.holders.foldl (fun m h => m.snoop d ext e.line h write .request) m) m)

end Sys2Proof.Machine
end

