-- ==== Sys2Proof/Machine/Ring.lean ====
section
/-! DEFINITION. Rings (R153 to R178): enabling, doorbells, acceptance with its three checks, and the writing of completions. -/

namespace Sys2Proof.Machine

/-! ## Enabling (R154 to R159) -/

/-- A class that is disabled on any die, or not defined (R154). -/
def Mach.classOff (m : Mach) (c : Nat) : Bool :=
  (List.range m.n).any (fun d => m.on d (Reg.OPS_CLASS_STAGE.DISABLED c))

/-- The open extent leased to the LD that holds a run of DPAs whole (R155, R157). -/
def Mach.openRun (m : Mach) (ld dpa len : Nat) : Option Extent :=
  let a := m.slotOfDpa ld dpa
  match m.leaseAt ld a.1 a.2 with
  | none => none
  | some l => if a = m.slotOfDpa ld (dpa + len - 1) ∧ l.before (m.now (ldPort ld)) = true then
      match m.ext? l.ext with
      | some x => if x.state = .opened then some x else none
      | none => none
    else none

/-- The checks of an enable (R157). -/
def Mach.enableOk (m : Mach) (r ld : Nat) : Bool :=
  (m.openRun ld (m.sqBase r) (256 * m.sqSize r)).isSome && (m.openRun ld (m.cqBase r) (32 * m.cqSize r)).isSome
    && decide (m.sqBase r % 4096 = 0) && decide (m.cqBase r % 4096 = 0) && !m.classOff (m.ringCls r)
    && decide (m.rr r Reg.RING_STATUS.ACTIVE = 0)

/-- A write to RING_CTRL (R157, R158): the sizes while the ring is disabled, then ENABLE. -/
def Mach.ringCtrl (m : Mach) (r v : Nat) : Mach :=
  let m := if m.ringOn r then m
    else (m.wrr r Reg.RING_CTRL.SQ_LOG2 (bits v 4 5)).wrr r Reg.RING_CTRL.CQ_LOG2 (bits v 12 5)
  if bit v 0 then
    if m.ringOn r then m
    else match m.ringLd r with
      | some ld =>
        if m.enableOk r ld then
          let m := ((m.wrr r Reg.RING_CTRL.ENABLE 1).wrr r Reg.RING_STATUS.ENABLED 1).wrr r Reg.RING_STATUS.PHASE 1
          let m := ((m.wrr r Reg.RING_SQ_HEAD.HEAD 0).wrr r Reg.RING_DOORBELL.TAIL 0).wrr r Reg.RING_CQ_TAIL.TAIL 0
          (m.wrr r Reg.RING_CQ_HEAD.HEAD 0).upd (m.ringDie r) (fun x => { x with
            unreleased := SMap.set (fun _ => 0) x.unreleased (m.ringLoc r) 0 })
        else m.wrr r Reg.RING_STATUS.ENABLE_FAILED 1
      | none => m.wrr r Reg.RING_STATUS.ENABLE_FAILED 1
  else m.ringStop r

/-- A ring block answers (R185), and no FLR of its LD runs (R282). -/
def Mach.ringReady (m : Mach) (r : Nat) : Bool :=
  m.ready (m.ringDie r) && (match m.ringLd r with
    | some ld => !m.on (ldPort ld) (Reg.PORT_LD_STATUS.FLR_ACTIVE (ldIdx ld))
    | none => true)

/-- Ring `r` of the package, on its accepting die. -/
def State.onRing (s : State) (r : Nat) (f : Mach → Mach) : Host.Outcome State Fault Refusal :=
  if r < 16384 then s.onDie (s.m.ringDie r) (fun m => m.when (m.ringReady r) f) else .fault (.absentUnit r)

/-- RING_ENABLE (R157): a write of RING_CTRL with ENABLE 1. -/
def execRingEnable (r : Nat) (v : Word) (s : State) : Host.Outcome State Fault Refusal :=
  s.onRing r (fun m => m.ringCtrl r v.toNat)

/-- RING_DISABLE (R158): a write of RING_CTRL with ENABLE 0. -/
def execRingDisable (r : Nat) (v : Word) (s : State) : Host.Outcome State Fault Refusal :=
  s.onRing r (fun m => m.ringCtrl r v.toNat)

/-! ## Doorbells and released entries (R162, R174) -/

/-- A write of RING_DOORBELL (R162, R429, R431). -/
def Mach.ringDoorbell (m : Mach) (r v : Nat) : Mach :=
  let m := ({ m with pw := { m.pw with lastUse := m.now m.ens } }).furlAbandon 3
  let t := bits v 0 16
  if !m.ringOn r || decide (m.sqSize r ≤ t) then m.wrr r Reg.RING_STATUS.BAD_DB 1
  else m.wrr r Reg.RING_DOORBELL.TAIL t

/-- RING_DOORBELL (R162). -/
def execRingDoorbell (r : Nat) (v : Word) (s : State) : Host.Outcome State Fault Refusal :=
  s.onRing r (fun m => m.ringDoorbell r v.toNat)

def Mach.unreleased (m : Mach) (r : Nat) : Nat := SMap.get (fun _ => 0) (m.die (m.ringDie r)).unreleased (m.ringLoc r)

def Mach.setUnreleased (m : Mach) (r k : Nat) : Mach :=
  m.upd (m.ringDie r) (fun x => { x with unreleased := SMap.set (fun _ => 0) x.unreleased (m.ringLoc r) k })

/-- Acceptance needs a completion entry (R163). -/
def Mach.cqRoom (m : Mach) (r : Nat) : Bool := decide ((m.ringJobs r).length + m.unreleased r < m.cqSize r)

/-- RING_STATUS.CQ_STALL (R163). -/
def Mach.showStall (m : Mach) (r : Nat) : Mach :=
  m.wrr r Reg.RING_STATUS.CQ_STALL
    (b2n (m.ringOn r && decide (m.rr r Reg.RING_SQ_HEAD.HEAD ≠ m.rr r Reg.RING_DOORBELL.TAIL) && !m.cqRoom r))

/-- A write of RING_CQ_HEAD (R174): values of 2^CQ_LOG2 or above are ignored. -/
def Mach.ringCqHead (m : Mach) (r v : Nat) : Mach :=
  let h := bits v 0 16
  if m.cqSize r ≤ h then m
  else
    let k := (h + m.cqSize r - m.rr r Reg.RING_CQ_HEAD.HEAD) % m.cqSize r
    ((m.wrr r Reg.RING_CQ_HEAD.HEAD h).setUnreleased r (m.unreleased r - k)).showStall r

/-- RING_CQ_HEAD (R174). -/
def execRingCqHead (r : Nat) (v : Word) (s : State) : Host.Outcome State Fault Refusal :=
  s.onRing r (fun m => m.ringCqHead r v.toNat)

/-! ## Descriptors (R167, R168, R179) -/

/-- A buffer reference (R168). -/
structure Buf where
  addr : Nat
  len : Nat
  kind : Nat
deriving DecidableEq, Repr

def bufAt (ds : List Byte) (off : Nat) : Buf := ⟨field ds off 8, field ds (off + 8) 4, field ds (off + 12) 1⟩

/-- A frame-span reference (R168). -/
structure FrameSpan where
  handle : Nat
  first : Nat
  count : Nat
deriving DecidableEq, Repr

def spanAt (ds : List Byte) (off : Nat) : FrameSpan := ⟨field ds off 4, field ds (off + 4) 4, field ds (off + 8) 4⟩

def descOp (ds : List Byte) : Nat := field ds 0 1
def descTag (ds : List Byte) : Nat := field ds 16 4
def descDeadline (ds : List Byte) : Nat := field ds 8 8

/-- The opcodes of level 1 (R179). -/
def opcodes : List Nat := [0x00, 0x01, 0x10, 0x11, 0x20, 0x30, 0x31, 0x32, 0x40, 0x41, 0x42, 0x43, 0x50]

def linGrouped (ds : List Byte) : Bool := bit (field ds 33 1) 4

/-- The buffer references that a descriptor uses. -/
def descBufs (ds : List Byte) : List Buf :=
  match descOp ds with
  | 0x10 | 0x11 => [bufAt ds 48, bufAt ds 64, bufAt ds 80, bufAt ds 96, bufAt ds 112]
  | 0x20 => [bufAt ds 48, bufAt ds 64] ++ (if linGrouped ds then [bufAt ds 80, bufAt ds 96] else [])
  | 0x30 => [bufAt ds 48]
  | 0x31 | 0x32 => [bufAt ds 48, bufAt ds 64]
  | 0x50 => [bufAt ds 64]
  | _ => []

/-- The buffer from which the device reads handles, with its length (R165, R220, R232). -/
def listBuf (ds : List Byte) : Option (Buf × Nat) :=
  match descOp ds with
  | 0x10 | 0x11 => some (bufAt ds 112, 16 * bits (field ds 35 1) 0 7)
  | 0x20 => if linGrouped ds then some (bufAt ds 96, 16 * field ds 116 4) else none
  | _ => none

/-- The frame spans in a body. -/
def descSpans (ds : List Byte) : List FrameSpan :=
  match descOp ds with
  | 0x20 => if linGrouped ds then [] else (List.range (min 8 (bits (field ds 34 1) 0 4))).map (fun i => spanAt ds (128 + 16 * i))
  | 0x41 | 0x42 | 0x43 => (List.range (min 12 (field ds 33 1))).map (fun i => spanAt ds (48 + 16 * i))
  | _ => []

/-- The handles in a body. -/
def descHandles (ds : List Byte) : List Nat :=
  match descOp ds with
  | 0x30 | 0x40 | 0x50 => [field ds 32 4]
  | _ => (descSpans ds).map (·.handle)

/-! ## Buffers in device and host memory -/

/-- Slots that a device-kind buffer touches: the 256 MiB pages of its range (R165). -/
def Mach.bufSlots (m : Mach) (ld : Nat) (b : Buf) : List (Nat × Nat) :=
  if b.kind ≠ 0 ∨ b.len = 0 then []
  else (List.range ((b.addr + b.len - 1) / 2 ^ 28 - b.addr / 2 ^ 28 + 1)).map (fun i => m.slotOfDpa ld ((b.addr / 2 ^ 28 + i) * 2 ^ 28))

/-- The slots with what is leased there. -/
def Mach.resolve (m : Mach) (ld : Nat) (bs : List Buf) : List (Nat × Nat × Nat) :=
  (distinct (bs.flatMap (m.bufSlots ld))).filterMap (fun s => (m.leaseAt ld s.1 s.2).map (fun l => (s.1, s.2, l.ext)))

/-- The version of an extent that a job reads: one accepted before T_c of a recode reads the old frames (R139). -/
def Mach.jobExt (m : Mach) (j : Job) (x : Extent) : Extent := m.versionAt x j.accept

/-- The extent of a DPA under resolved slots, for a reader of stamp t. -/
def Mach.slotExt (m : Mach) (ld : Nat) (slots : List (Nat × Nat × Nat)) (t dpa : Nat) : Option Extent :=
  let s := m.slotOfDpa ld dpa
  (slots.find? (fun t => decide (t.1 = s.1) && decide (t.2.1 = s.2))).bind (fun q => (m.ext? q.2.2).map (fun x => m.versionAt x t))

/-- What a buffer holds: its bytes, and the stretches that are poisoned: offset in the buffer, length, origin. -/
structure BufVal where
  bytes : List Byte
  bad : List (Nat × Nat × Option NoteRef)
deriving DecidableEq, Repr

/-- The first poison in a part of a buffer. -/
def BufVal.badIn (v : BufVal) (lo n : Nat) : Option (Option NoteRef) :=
  (v.bad.find? (fun b => overlaps b.1 b.2.1 lo n)).map (·.2.2)

/-- The lines of a device-kind buffer. -/
def Mach.devVal (m : Mach) (ld : Nat) (slots : List (Nat × Nat × Nat)) (t : Nat) (b : Buf) (n : Nat) : BufVal :=
  let base := b.addr / 64 * 64
  let k := if n = 0 then 0 else (b.addr + n + 63) / 64 - b.addr / 64
  let vs := (List.range k).map (fun i => match m.slotExt ld slots t (base + 64 * i) with
    | some x => (i, m.lineVal x.home x (lineOf (base + 64 * i)))
    | none => (i, .poison zeroLine none))
  ⟨sub (vs.flatMap (fun v => v.2.bytes)) (b.addr - base) n,
   vs.filterMap (fun v => match v.2 with
     | .poison _ o => some (64 * v.1 - (b.addr - base), if v.1 = 0 then 64 - (b.addr - base) else 64, o)
     | .ok _ => none)⟩

/-- Host data of one pass over a buffer: what has come, 64 bytes at a time poisoned where no good data came. -/
def hostVal (cs : List HostChunk) (b : Buf) (n : Nat) : BufVal :=
  let at' (a : Nat) : Byte := match cs.find? (fun c => decide (c.addr ≤ a) && decide (a < c.addr + c.data.length)) with
    | some c => c.data.getD (a - c.addr) 0
    | none => 0
  ⟨(List.range n).map (fun i => at' (b.addr + i)),
   cs.filterMap (fun c => if c.poison && overlaps c.addr c.data.length b.addr n then
     some (max c.addr b.addr - b.addr, c.addr + c.data.length - max c.addr b.addr, c.origin) else none)⟩

/-- A buffer of a job. -/
def Mach.bufVal (m : Mach) (j : Job) (b : Buf) (n : Nat) : BufVal :=
  if b.kind = 1 then hostVal j.host b n else m.devVal j.ld j.slots j.accept b n

/-! ## Completions (R171 to R175) -/

/-- The 32 bytes of a completion (R171). -/
def completion (index status : Nat) (phase split dropped notStarted : Bool) (tag accept start finish : Nat) (why : Option NoteRef)
    (pkg reason : Nat) : List Byte :=
  let info := match why with
    | some w => w.seq % 65536 + w.die % 8 * 2 ^ 16 + pkg % 32 * 2 ^ 19 + 2 ^ 27
    | none => 0
  leBytes 2 index ++ leBytes 1 status ++ leBytes 1 (b2n phase + 2 * b2n split + 4 * b2n dropped + 8 * b2n notStarted)
    ++ leBytes 4 tag ++ leBytes 8 accept ++ leBytes 6 (min (2 ^ 48 - 1) start) ++ leBytes 6 (min (2 ^ 48 - 1) finish)
    ++ leBytes 4 (info + reason % 8 * 2 ^ 24)

/-- The extent of the completion ring. -/
def Mach.cqExt (m : Mach) (r : Nat) : Option Extent :=
  match m.ringLd r with
  | none => none
  | some ld =>
    let s := m.slotOfDpa ld (m.cqBase r)
    (m.leaseAt ld s.1 s.2).bind (fun l => m.ext? l.ext)

/-- May the next entry be written: its channel serves, and no host holds its line (R170)? -/
def Mach.cqReady (m : Mach) (r : Nat) : Bool × Mach :=
  match m.cqExt r with
  | none => (true, m)
  | some x =>
    let line := lineOf (m.cqBase r + 32 * m.rr r Reg.RING_CQ_TAIL.TAIL)
    let o := if x.shared then m.obtain x.home x.num line (line + 1) true else (true, m)
    let open' := match m.materialise x.home x.num (line / 1024) with
      | none => false
      | some m => m.chanOpen x.home (m.locate x.home (m.t1Addr x.home x.num line)).ch
    (o.1 && open', o.2)

/-- An entry into the completion ring (R173): RING_CQ_TAIL advances, PHASE changes with each pass. -/
def Mach.putEntry (m : Mach) (r : Nat) (e : List Byte) : Mach :=
  let t := m.rr r Reg.RING_CQ_TAIL.TAIL
  let dpa := m.cqBase r + 32 * t
  let m := match m.cqExt r with
    | some x => match m.materialise x.home x.num (lineOf dpa / 1024) with
      | some m => m.writeBytes x.home 4 (m.t1Addr x.home x.num (lineOf dpa) + dpa % 64) e
      | none => m
    | none => m
  let nxt := (t + 1) % m.cqSize r
  let m := m.wrr r Reg.RING_CQ_TAIL.TAIL nxt
  let m := if nxt = 0 then m.wrr r Reg.RING_STATUS.PHASE (1 - m.rr r Reg.RING_STATUS.PHASE) else m
  m.setUnreleased r (m.unreleased r + 1)

/-- What a completion needs to know. -/
structure Done where
  status : Nat
  split : Bool
  started : Bool
  start : Nat
  finish : Nat
  why : Option NoteRef
  reason : Nat
  /-- The ring may be written (R159); IRQ and CHOST are honoured (R166, R280). -/
  entry : Bool
  honour : Bool

/-- A completion: device-memory entry, host copy, vector, counters (R173, R184) (log entry 99). -/
def Mach.complete (m : Mach) (r ld index accept : Nat) (ds : List Byte) (x : Done) : Mach :=
  let fl := field ds 2 1
  let chost := bit fl 1 && x.honour
  let bme := m.bme ld
  let e := completion index x.status (decide (m.rr r Reg.RING_STATUS.PHASE = 1)) x.split (bit fl 1 && !(chost && bme) && x.entry)
    (!x.started && decide (x.status ≠ 5)) (if x.reason = 4 then 0 else descTag ds) accept x.start x.finish x.why m.pw.poolId x.reason
  let m := if x.entry then m.putEntry r e else m
  let m := if chost && bme then m.send (.hostWrite ld (field ds 24 8) (if x.entry then e else e) false) else m
  let m := if bit fl 0 && x.honour then m.raiseVec ld (bits (field ds 4 2) 0 11) else m
  let d := m.ringDie r
  let m := match x.status with
    | 1 => m.bump d Reg.OPS_LATE_COUNT.COUNT
    | 2 => m.bump d Reg.OPS_POISONED_COUNT.COUNT
    | 5 => m.bump d Reg.OPS_REFUSED_COUNT.COUNT
    | _ => m
  m.showStall r

/-- A JOB pennant: ring and TAG (R397). -/
def Mach.noteJob (m : Mach) (d : Nat) (pc : PCode) (r tag : Nat) (detail : Nat := 0) : Mach := m.note d uRing pc detail [r, tag]

/-! ## Acceptance (R163 to R166) -/

/-- Handles in a list: entries in poisoned lines reference nothing (R165). -/
def listHandles (v : BufVal) (n : Nat) : List Nat :=
  (List.range (n / 16)).filterMap (fun i => if (v.badIn (16 * i) 16).isSome then none else some (field v.bytes (16 * i) 4))

/-- Is an extent leased to the LD, for a request at stamp t (R165, R74)? -/
def Mach.leasedTo (m : Mach) (ld e t : Nat) : Bool :=
  m.lse.leases.any (fun l => decide (l.ld = ld) && decide (l.ext = e) && l.before t)

/-- Check 3: handles and buffer slots. -/
def Mach.leaseCheck (m : Mach) (ld t : Nat) (hs : List Nat) (bs : List Buf) : Bool :=
  hs.all (fun h => match m.byHandle h with | some x => m.leasedTo ld x.num t | none => false)
    && (m.resolve ld bs).all (fun s => (m.ext? s.2.2).isNone || m.leasedTo ld s.2.2 t)

/-- The first check that fails (R165), 0 for none. -/
def Mach.descCheck (m : Mach) (ld t : Nat) (ds : List Byte) (hs : List Nat) : Nat :=
  if field ds 1 1 ≠ 1 then 1
  else if !opcodes.contains (descOp ds) then 2
  else if !m.leaseCheck ld t (hs ++ descHandles ds) (descBufs ds) then 3
  else 0

/-- The first free record among the 12,288 for acceptance (R164). -/
def Mach.freeRec (m : Mach) (d : Nat) : Option Nat := firstFree ((m.jobs d).map (·.num)) 12288

/-- Head of the submission ring passes one descriptor. -/
def Mach.passHead (m : Mach) (r : Nat) : Mach :=
  (m.wrr r Reg.RING_SQ_HEAD.HEAD ((m.rr r Reg.RING_SQ_HEAD.HEAD + 1) % m.sqSize r)).showStall r

/-- A refused descriptor (R166). -/
def Mach.refuseDesc (m : Mach) (r ld index : Nat) (ds : List Byte) (reason : Nat) : Mach :=
  let d := m.ringDie r
  let t := m.stamp d (some (m.die d).clk.last)
  let q := (m.die d).nextSeq
  let tag := if reason = 4 then 0 else descTag ds
  let m := m.note d uRing pJobRefused reason [r, tag] 0 (some (m.die d).clk.last)
  (m.complete r ld index t ds ⟨5, false, false, 0, 0, some ⟨d, q⟩, reason, true, decide (reason ≠ 4)⟩).passHead r

def newJob (num r ld index accept : Nat) (ds : List Byte) : Job :=
  { num := num, ring := r, ld := ld, index := index, accept := accept, desc := ds, slots := [], exts := [], start := none, phase := 0,
    subs := [], reads := [], host := [], abort := none, orphan := false, ext := none, resv := none, chosen := [], part := false,
    why := none, blocked := none, sending := false, replica := none, taken := [], reached := [], short := [], noRing := false, pre := false }

/-- An accepted descriptor: the record, the accept stamp and its pennant (R165, R175). -/
def Mach.acceptJob (m : Mach) (j : Job) (hs : List Nat) : Mach :=
  let d := m.ringDie j.ring
  let t := m.stamp d (some (m.die d).clk.last)
  let slots := m.resolve j.ld (descBufs j.desc)
  let exts := distinct ((hs ++ descHandles j.desc).filterMap (fun h => (m.byHandle h).map (·.num)) ++ slots.map (·.2.2))
  let j := { j with accept := t, slots := slots, exts := exts, pre := false }
  let m := m.upd d (fun x => { x with jobs := x.jobs.filter (fun k => k.num ≠ j.num) ++ [j] })
  let m := m.note d uRing pJobAccept 0 [j.ring, descTag j.desc] 0 (some (m.die d).clk.last)
  let m := ((m.bump d Reg.OPS_ACCEPT_COUNT.COUNT).wrr j.ring Reg.RING_LAST_ACCEPT.STAMP t).showRing j.ring
  (m.wr d Reg.OPS_STATUS.RECORDS_FULL (b2n (m.freeRec d).isNone)).passHead j.ring

/-- A read of host memory goes out for a job (R271). -/
def Mach.hostRead (m : Mach) (d : Nat) (j : Job) (b : Buf) (n pass : Nat) : Mach :=
  (m.updJob d j.num (fun k => { k with reads := k.reads ++ [⟨b.addr, n, pass, m.now (ldPort j.ld), 0⟩] })).send (.hostRead j.ld d j.num b.addr n)

/-- The checks, with the handles that a list gives. -/
def Mach.decide3 (m : Mach) (j : Job) (hs : List Nat) : Mach :=
  let d := m.ringDie j.ring
  let t := m.stamp d (some (m.die d).clk.last)
  match m.descCheck j.ld t j.desc hs with
  | 0 => m.acceptJob j hs
  | k => ((m.upd d (fun x => { x with jobs := x.jobs.filter (fun i => i.num ≠ j.num) })).refuseDesc j.ring j.ld j.index j.desc k)

/-- A descriptor read from the submission ring: its 4 lines. -/
def Mach.takeDesc (m : Mach) (r ld num : Nat) (vs : List LineVal) : Mach :=
  let index := m.rr r Reg.RING_SQ_HEAD.HEAD
  let ds := vs.flatMap LineVal.bytes
  if vs.any (fun v => match v with | .poison _ _ => true | .ok _ => false) then m.refuseDesc r ld index ds 4
  else
    let j := newJob num r ld index 0 ds
    let d := m.ringDie r
    if field ds 1 1 ≠ 1 || !opcodes.contains (descOp ds) then m.decide3 j []
    else match listBuf ds with
      | none => m.decide3 j []
      | some (b, n) =>
        if b.len = 0 ∨ n = 0 ∨ 1 < b.kind then m.decide3 j []
        else if b.kind = 1 then
          if m.bme ld then
            (m.upd d (fun x => { x with jobs := x.jobs ++ [{ j with pre := true }] })).hostRead d j b n 1
          else m.decide3 { j with abort := some 3 } []
        else
          let v := m.devVal ld (m.resolve ld [b]) (m.stamp d) b n
          m.decide3 j (listHandles v n)

/-- The device address of the next descriptor of a ring (R163). -/
def Mach.headDpa (m : Mach) (r : Nat) : Nat := m.sqBase r + 256 * m.rr r Reg.RING_SQ_HEAD.HEAD

/-- The lines of a device-kind list in open extents are obtained from hosts, and their channels serve (R165, R170, R316). -/
def Mach.listReady (m : Mach) (ld : Nat) (ds : List Byte) : Bool × Mach :=
  match listBuf ds with
  | none => (true, m)
  | some (b, n) =>
    if field ds 1 1 ≠ 1 ∨ b.kind ≠ 0 ∨ b.len = 0 ∨ n = 0 then (true, m)
    else
      let lines := (List.range ((b.addr + n + 63) / 64 - b.addr / 64)).map (fun i => 64 * (b.addr / 64 + i))
      lines.foldl (fun (acc : Bool × Mach) a => match acc.2.slotExt ld (acc.2.resolve ld [b]) (2 ^ 64) a with
        | none => acc
        | some x =>
          if x.coded then acc
          else
            let m := acc.2
            let o := if x.shared then m.obtain x.home x.num (lineOf a) (lineOf a + 1) false else (true, m)
            let e := m.entry x.home x.num (lineOf a / 1024)
            let serves := decide (e.state = .zero) || m.chanOpen x.home (m.locate x.home (m.t1Addr x.home x.num (lineOf a))).ch
            (acc.1 && o.1 && serves, o.2)) (true, m)

/-- The descriptor of four lines at `line` of its extent is read and checked, once its lines are held and a completion entry can be
written. -/
def Mach.fetchDesc (m : Mach) (r ld num : Nat) (x : Extent) (line : Nat) : Mach :=
  let o := if x.shared then m.obtain x.home x.num line (line + 4) false else (true, m)
  let q := o.2.cqReady r
  if !o.1 || !q.1 then q.2
  else
    let m := q.2
    let e := m.entry x.home x.num (line / 1024)
    let g := if e.state = .zero then (some ([], false), m) else m.getBytes x.home 4 (m.t1Addr x.home x.num line) 256
    match g.1 with
    | none => g.2
    | some _ =>
      let vs := (List.range 4).map (fun i => g.2.lineVal x.home x (line + i))
      let l := g.2.listReady ld (vs.flatMap LineVal.bytes)
      if l.1 then l.2.takeDesc r ld num vs else l.2

/-- A descriptor whose upstream list is being read goes on to check 3 once the list is whole. -/
def Mach.resumePre (m : Mach) (j : Job) : Mach :=
  if !j.reads.isEmpty then m
  else match listBuf j.desc with
    | some (b, n) => m.decide3 j (if j.abort.isSome then [] else listHandles (hostVal j.host b n) n)
    | none => m

/-- The next descriptor, where the ring's memory is there to be read. -/
def Mach.fetchNext (m : Mach) (r ld num : Nat) : Mach :=
  match m.openRun ld (m.headDpa r) 256 with
  | none => m
  | some x => m.fetchDesc r ld num x (lineOf (m.headDpa r))

/-- One acceptance at a ring's head. -/
def Mach.acceptNext (m : Mach) (r : Nat) : Mach :=
  let d := m.ringDie r
  let m := m.showStall r
  match m.ringLd r, m.freeRec d with
  | some ld, some num =>
    if !m.cqRoom r then m
    else match (m.jobs d).find? (fun k => decide (k.ring = r) && k.pre) with
      | some j => m.resumePre j
      | none => m.fetchNext r ld num
  | _, _ => m.wr d Reg.OPS_STATUS.RECORDS_FULL (b2n (m.freeRec d).isNone)

/-- DESCRIPTOR_ACCEPT (R163, R165, R166, R170, R430): the next descriptor of a ring. A host-kind list is read first; the checks
are then made when the command comes again. -/
def execDescriptorAccept (r : Nat) (s : State) : Host.Outcome State Fault Refusal :=
  s.onRing r (fun m => m.when (m.ringOn r && decide (m.pw.phase = .run)
      && decide (m.rr r Reg.RING_SQ_HEAD.HEAD ≠ m.rr r Reg.RING_DOORBELL.TAIL)) (fun m => m.acceptNext r))

end Sys2Proof.Machine
end

