-- ==== Sys2Proof/Machine/Jobs.lean ====
section
/-! DEFINITION. Running jobs: starting (R33, R175, R177, R214), the frames they need (R93, R94, R141), buntings and the stage
(R208 to R213), and the outputs they write (R169, R170, R249). -/

namespace Sys2Proof.Machine

/-! ## Readiness -/

/-- Whether something can go on: it can; it waits for an event; it waits for a frozen channel. -/
inductive Ready where
  | yes | wait | frozen
deriving DecidableEq, Repr

def Ready.both (a b : Ready) : Ready :=
  match a, b with
  | .wait, _ | _, .wait => .wait
  | .frozen, _ | _, .frozen => .frozen
  | .yes, .yes => .yes

/-- Several parts made ready one after another. -/
def readyAll {α : Type} (m : Mach) (f : Mach → α → Ready × Mach) (l : List α) : Ready × Mach :=
  l.foldl (fun (acc : Ready × Mach) a => let r := f acc.2 a; (acc.1.both r.1, r.2)) (.yes, m)

/-! ## The stage (R187, R212 to R217) -/

def Mach.stageGrant (m : Mach) (d c : Nat) : Nat := m.rd d (Reg.OPS_CLASS_STAGE.MIB c) * 2 ^ 20

/-- The ring class of a job, and the classes of some that still run. -/
def Mach.classOf (m : Mach) (a : Nat × Nat) : Option Nat := (m.job? a.1 a.2).map (fun j => m.ringCls j.ring)
def Mach.classesOf (m : Mach) (js : List (Nat × Nat)) : List Nat := distinct (js.filterMap m.classOf)

/-- The T0 copy of a frame in a class's allocation. -/
def Mach.t0? (m : Mach) (d c ext idx : Nat) : Option T0Copy :=
  (m.die d).stage.copies.find? (fun k => decide (k.cls = c) && decide (k.ext = ext) && decide (k.idx = idx))
def Mach.hasT0 (m : Mach) (d c ext idx : Nat) : Bool := (m.t0? d c ext idx).isSome

/-- A T0 copy used: it becomes the most recent. -/
def Mach.useT0 (m : Mach) (d c ext idx : Nat) : Mach :=
  m.updStage d (fun s => { s with uses := s.uses + 1, copies := s.copies.map (fun k =>
    if k.cls = c ∧ k.ext = ext ∧ k.idx = idx then { k with lastUse := s.uses } else k) })

/-- A frame's T0 copies dropped. -/
def Mach.dropT0 (m : Mach) (d ext idx : Nat) : Mach :=
  m.updStage d (fun s => { s with copies := s.copies.filter (fun k => !(decide (k.ext = ext) && decide (k.idx = idx))) })

/-- A bunting of the class on the frame is open or waits to run. -/
def Mach.bunted (m : Mach) (d c ext idx : Nat) : Bool :=
  (m.die d).stage.buntings.any (fun b => decide (b.cls = c) && decide (b.ext = ext) && decide (b.idx = idx))

/-- Rows of a job wait in a bunting on the frame. -/
def Mach.rowsOn (m : Mach) (d ext idx : Nat) (a : Nat × Nat) : Bool :=
  (m.die d).stage.buntings.any (fun b => decide (b.ext = ext) && decide (b.idx = idx) && b.members.any (fun k => decide ((k.die, k.job) = a)))

/-- A job has an open bunting on a KV head (R213). -/
def Mach.headOpen (m : Mach) (d : Nat) (a : Nat × Nat) (head : Nat) : Bool :=
  (m.die d).stage.buntings.any (fun b => !b.closed && b.members.any (fun k => decide ((k.die, k.job) = a) && decide (k.head = head)))

/-- Running partials of a class's jobs that lie in the stage of die d: accepting die and job, head, bytes. -/
def Mach.stageParts (m : Mach) (d c : Nat) : List ((Nat × Nat) × Nat × Nat) :=
  (List.range m.n).flatMap (fun p => (m.jobs p).flatMap (fun j =>
    if m.ringCls j.ring = c then (j.subs.filter (fun s => decide (s.home = d))).flatMap (fun s =>
      (s.parts.filter (fun q => q.spilled.isNone)).map (fun q => ((p, j.num), q.head, q.size))) else []))

/-- Bytes of a class's allocation in use: copies, frames on their way, running partials (R80, R105, R187). -/
def Mach.stageUsed (m : Mach) (d c : Nat) : Nat :=
  let t := (m.die d).tier
  sumOf (((m.die d).stage.copies.filter (fun k => decide (k.cls = c))).map (fun k => k.coded.length))
    + sumOf ((t.promos.filter (fun p => p.endedAt.isNone && decide (p.dst = 0) && (m.classesOf p.jobs).contains c)).map
        (fun p => 256 * (m.entry d p.ext p.idx).granules))
    + sumOf ((t.fetches.filter (fun f => f.begunAt.isSome && (m.classesOf f.jobs).contains c)).map (fun f => 256 * (m.entry d f.ext f.idx).granules))
    + sumOf ((m.stageParts d c).map (·.2.2))

def Mach.stageFits (m : Mach) (d c size : Nat) : Bool := decide (m.stageUsed d c + size ≤ m.stageGrant d c)

/-- Room made in a class's allocation: all T0 frames of the extent used least recently go, one whole extent at a time; extents with a
bunting that still needs a frame stay (R212). -/
def Mach.dropExtents (m : Mach) (d c size : Nat) : Nat → Mach
  | 0 => m
  | n + 1 =>
    let mine := (m.die d).stage.copies.filter (fun k => decide (k.cls = c))
    let idle := (distinct (mine.map (·.ext))).filter (fun e => (mine.filter (fun k => decide (k.ext = e))).all (fun k => !m.bunted d c e k.idx))
    let use (e : Nat) : Nat := maxOf ((mine.filter (fun k => decide (k.ext = e))).map (·.lastUse))
    match minBy use idle with
    | some e =>
      if m.stageFits d c size then m
      else Mach.dropExtents (m.updStage d (fun s => { s with copies := s.copies.filter (fun k => !(decide (k.cls = c) && decide (k.ext = e))) })) d c size n
    | none => m

def Mach.updPart (m : Mach) (a : Nat × Nat) (home head : Nat) (f : HeadPart → HeadPart) : Mach :=
  m.updJob a.1 a.2 (fun j => { j with
    subs := updWhere (fun s => decide (s.home = home)) (fun s => { s with parts := updWhere (fun q => decide (q.head = head)) f s.parts }) j.subs })

/-- A job's partial of one head spilled into the scratch region, at a free place there (R213, log entry 105). -/
def Mach.spill (m : Mach) (d : Nat) (a : Nat × Nat) (head size : Nat) : Mach :=
  let at' := m.scratchBase d + m.choice % (m.scratchBytes d - size + 1)
  (m.chosen.updPart a d head (fun q => { q with spilled := some at' })).bump d Reg.OPS_SPILL_BYTES.COUNT size

/-- Partials of heads without an open bunting are spilled until the class has room (R213). -/
def Mach.spillParts (m : Mach) (d c size : Nat) : Mach :=
  ((m.stageParts d c).filter (fun q => !m.headOpen d q.1 q.2.1)).foldl (fun m q =>
    if m.stageFits d c size then m else m.spill d q.1 q.2.1 q.2.2) m

/-- A frame's copy on its way needs `size` bytes of the class: room made if need be. -/
def Mach.stageRoom (m : Mach) (d c size : Nat) : Bool × Mach :=
  let m := m.dropExtents d c size ((m.die d).stage.copies.length + 1)
  let m := if m.stageFits d c size then m else m.spillParts d c size
  (m.stageFits d c size, m)

/-! ## Fetches into the stage (R93, R94, R105, R216) -/

/-- A frame that only a frozen channel holds: an unsettled T2 copy (R112). -/
def Mach.stuck (m : Mach) (d ext idx : Nat) : Bool :=
  let e := m.entry d ext idx
  decide (e.state ≠ .zero) && decide (e.state ≠ .lost) && !e.inT3 && !m.hasT2 d ext idx

/-- Run order: the earliest deadline of the jobs that wait, none last, then the opening stamp (R210, R216). Two wants equal in both
have equal urgency. -/
def Mach.wantKey (m : Mach) (w : T0Want) : Nat := m.jobsDue w.jobs * 2 ^ 64 + w.since

/-- Where a job's fetch goes: a frame whose T2 copy a freeze has made unavailable goes to the stage (R112). -/
def Mach.jobDst (m : Mach) (d ext idx : Nat) : FetchDst := if (m.entry d ext idx).inT2 then .toT0 else m.fetchDst d ext idx true

/-- A thread takes a waiting fetch: from T2, or from T3 with a fetch record. -/
def Mach.startWant (m : Mach) (d : Nat) (w : T0Want) : Mach :=
  let m := m.updStage d (fun s => { s with queue := s.queue.erase w })
  let e := m.entry d w.ext w.idx
  if e.state = .zero ∨ e.state = .lost then m
  else if m.hasT2 d w.ext w.idx then m.beginPromo d w.ext w.idx 0 0 w.jobs
  else w.jobs.foldl (fun m a => m.needFetch d w.ext w.idx 1 (m.jobDst d w.ext w.idx) false none (some a)) m

/-- Waiting fetches issued in run order, as far as threads and the room of their classes go; within a class none overtakes. -/
def Mach.issue1 (m : Mach) (d : Nat) : List T0Want → List Nat → Mach
  | [], _ => m
  | w :: ws, full =>
    if decide (4096 ≤ m.threadsUsed d) || full.contains w.cls || m.stuck d w.ext w.idx then Mach.issue1 m d ws full
    else
      let r := m.stageRoom d w.cls (256 * (m.entry d w.ext w.idx).granules)
      if r.1 then Mach.issue1 (r.2.startWant d w) d ws full else Mach.issue1 r.2 d ws (w.cls :: full)

def Mach.pump (m : Mach) (d : Nat) : Mach := m.issue1 d (sortBy m.wantKey (m.die d).stage.queue) []

/-- Copies that no bunting needs go, unless their class is RESIDENT (R212); room and threads that are free are used. -/
def Mach.tidyT0 (m : Mach) (d : Nat) : Mach :=
  (m.updStage d (fun s => { s with copies := s.copies.filter (fun k => m.on d (Reg.OPS_CLASS_ATT.RESIDENT k.cls) || m.bunted d k.cls k.ext k.idx) })).pump d

/-- The tables that a copy's blocks name are bound in the operand expander (R136, R137). -/
def Mach.bindCopy (m : Mach) (d : Nat) (x : Extent) (k : T0Copy) : Mach := m.bindCoded d .operand x k.ent k.coded

/-- The pages of a fetched frame that hold a failing block climb the read-retry ladder together (R141, R343). -/
def Mach.climbBlock (m : Mach) (d ext idx b : Nat) (step : Nat := 0) : Mach :=
  let e := m.entry d ext idx
  m.updFetch d ext idx (fun f => if f.begunAt.isNone then f else { f with
    done := false, ladder := some step, climb := some step,
    pages := pagesOf (f.loc + blockStart e.counts b / 256) ((blockStart e.counts b % 256 + 64 * e.counts.getD b 0 + 255) / 256) })

/-- A copy in the stage fails a check at its use (R141): counted, dropped; a T2 source is dropped too, and the frame comes again from
T3, or is LOST. One from T3 takes the failing block through the ladder. -/
def Mach.copyFails (m : Mach) (d : Nat) (x : Extent) (idx b c : Nat) (fromT3 : Bool) (jobs : List (Nat × Nat)) : Mach :=
  let e := m.entry d x.num idx
  let jobs := distinct (jobs ++ ((m.die d).stage.buntings.filter (fun b => decide (b.ext = x.num) && decide (b.idx = idx))).flatMap (fun b =>
    b.members.map (fun k => (k.die, k.job))))
  let m := (m.codecFail d x.num idx b c (b2n fromT3) 0).dropT0 d x.num idx
  let again (m : Mach) : Mach := jobs.foldl (fun m a => m.needFetch d x.num idx 1 (m.jobDst d x.num idx) false none (some a))
    (if jobs.isEmpty then m.needFetch d x.num idx 1 (m.jobDst d x.num idx) false none none else m)
  if e.state = .lost then m
  else if !e.inT3 then m.lose d x.num idx
  else if !fromT3 then again (m.dropT2 d x.num idx)
  else (again m).climbBlock d x.num idx b

/-- A job reads a copy as soon as it is there, so that the stage need not hold all its frames at once (R231), unless its rows use it in
a bunting; every block is checked at this use (R140). -/
def Mach.takeCopy (m : Mach) (d : Nat) (x : Extent) (a : Nat × Nat) (k : T0Copy) : Mach :=
  match m.job? a.1 a.2 with
  | none => m
  | some j =>
    if m.rowsOn d k.ext k.idx a || j.taken.any (fun t => decide (t.1 = d) && decide (t.2.ext = k.ext) && decide (t.2.idx = k.idx)) then m
    else
      let m := m.bindCopy d x k
      match m.copyCheck d x k with
      | none => (m.updJob a.1 a.2 (fun j => { j with taken := j.taken ++ [(d, k)] })).bump d Reg.XC_BLOCKS_DECODED.COUNT 16
      | some (b, c) => m.copyFails d x k.idx b c k.fromT3 [a]

/-- A frame's bytes come into the stage: a copy for the class of each job that waits; jobs that need not bunt read it at once. -/
def Mach.installT0 (m : Mach) (d : Nat) (x : Extent) (idx : Nat) (coded : List Byte) (fromT3 : Bool) (jobs : List (Nat × Nat)) : Mach :=
  let e := m.entry d x.num idx
  let copy (m : Mach) (c : Nat) : T0Copy := ⟨c, x.num, idx, e, coded, fromT3, (m.die d).stage.uses⟩
  let m := (m.classesOf jobs).foldl (fun m c => m.updStage d (fun s => { s with
    uses := s.uses + 1,
    copies := s.copies.filter (fun k => !(decide (k.cls = c) && decide (k.ext = x.num) && decide (k.idx = idx))) ++ [copy m c] })) m
  let m := jobs.foldl (fun m a => match m.classOf a with
    | some c => match m.t0? d c x.num idx with
      | some k => m.takeCopy d x a k
      | none => m
    | none => m) m
  m.tidyT0 d

/-- A job's frame is asked for (R93, R94, R208): touched, and brought into the class's stage space unless it is there; a fetch that
runs or waits is joined. -/
def Mach.needFrame (m : Mach) (d : Nat) (x : Extent) (idx c : Nat) (acc : Nat × Nat) : Mach :=
  let e := m.entry d x.num idx
  if e.state = .zero ∨ e.state = .lost ∨ ¬ x.coded then m
  else match m.t0? d c x.num idx with
    | some k => (m.useT0 d c x.num idx).takeCopy d x acc k
    | none =>
      let m := m.touch d x.num idx (m.rd d Reg.TIER_THRESH.JOB_INC)
      if (m.fetch? d x.num idx).isSome then m.needFetch d x.num idx 1 (m.jobDst d x.num idx) false none (some acc)
      else if (m.die d).tier.promos.any (fun p => decide (p.ext = x.num) && decide (p.idx = idx) && decide (p.dst = 0) && p.endedAt.isNone) then
        m.beginPromo d x.num idx 0 0 [acc]
      else
        let mine (w : T0Want) : Bool := decide (w.cls = c) && decide (w.ext = x.num) && decide (w.idx = idx)
        let add (w : T0Want) : T0Want := { w with jobs := if w.jobs.contains acc then w.jobs else w.jobs ++ [acc] }
        let m := if (m.die d).stage.queue.any mine then m.updStage d (fun s => { s with queue := updWhere mine add s.queue })
          else m.updStage d (fun s => { s with queue := s.queue ++ [⟨c, x.num, idx, m.stamp d, [acc]⟩] })
        m.pump d

/-- Is a job still on the waiter list of a fetch, promotion or waiting fetch of the frame? -/
def Mach.listed (m : Mach) (d ext idx : Nat) (acc : Nat × Nat) : Bool :=
  (match m.fetch? d ext idx with | some f => f.jobs.contains acc | none => false)
    || (m.die d).tier.promos.any (fun p => decide (p.ext = ext) && decide (p.idx = idx) && decide (p.dst = 0) && p.endedAt.isNone && p.jobs.contains acc)
    || (m.die d).stage.queue.any (fun w => decide (w.ext = ext) && decide (w.idx = idx) && w.jobs.contains acc)

/-- Has a job read a frame out of the stage? -/
def Mach.hasTaken (m : Mach) (d ext idx : Nat) (acc : Nat × Nat) : Bool :=
  match m.job? acc.1 acc.2 with
  | some j => j.taken.any (fun t => decide (t.1 = d) && decide (t.2.ext = ext) && decide (t.2.idx = idx))
  | none => false

/-- A frame that a job reads at its end is at hand once the job has read it out of the stage; one that is not on its way is asked
for. An unsettled frame on a frozen channel waits as open data does (R112). -/
def Mach.useFrame (m : Mach) (d : Nat) (x : Extent) (acc : Nat × Nat) (idx : Nat) : Ready × Mach :=
  let e := m.entry d x.num idx
  let wait (m : Mach) : Ready × Mach := (if m.hasTaken d x.num idx acc then .yes else if m.stuck d x.num idx then .frozen else .wait, m)
  if e.state = .zero ∨ e.state = .lost ∨ ¬ x.coded ∨ m.hasTaken d x.num idx acc then (.yes, m)
  else if m.listed d x.num idx acc then wait (m.pump d)
  else match m.classOf acc with
    | some c => wait (m.needFrame d x idx c acc)
    | none => (.yes, m)

/-- The frames that a job has read stand in for copies in the stage while its result is computed, and go again. -/
def Mach.lend (m : Mach) (j : Job) : Mach :=
  j.taken.foldl (fun m t => m.updStage t.1 (fun s => { s with copies := { t.2 with cls := 99 } :: s.copies })) m
def Mach.unlend (m : Mach) : Mach := m.eachDie (fun m d => m.updStage d (fun s => { s with copies := s.copies.filter (fun k => decide (k.cls ≠ 99)) }))

/-! ## Stage errors (R187, R217, R411) -/

/-- An injection on a stage bank meets a write into the stage: whether the write goes to that bank is a free choice, as where
frames lie in the banks is not stated. One flipped bit is corrected, more are uncorrectable: true (R187). -/
def Mach.stageWrite (m : Mach) (h : Nat) : Bool × Mach :=
  if m.on h Reg.ERR_FLIP_CTRL.ARMED && m.on h Reg.ERR_FLIP_CTRL.ALLOWED && decide (m.flipTarget h = 1) && decide (m.choice % 2 = 1) then
    let bank := m.rd h Reg.ERR_FLIP_CTRL.INDEX
    let flips := sumOf ((List.range 8).map (fun w => popcount 32 (m.rd h (Reg.ERR_FLIP_MASK.MASK w))))
      + popcount 10 (bits (m.rd h (Reg.ERR_FLIP_MASK.MASK 16)) 0 10)
    let word := if m.on h Reg.ERR_FLIP_CTRL.ADDR_MATCH then m.rd h Reg.ERR_FLIP_ADDR.ADDR else m.chosen.choice % 393216
    let m := m.chosen.chosen.flipDone h uStage
    if flips = 0 then (false, m)
    else if flips = 1 then (false, m.correctable h (20 + bank))
    else (true, (m.bump h Reg.OPS_STAGE_UE_COUNT.COUNT).note h uStage pStageUe 0 [bank, word])
  else if m.on h Reg.ERR_FLIP_CTRL.ARMED && m.on h Reg.ERR_FLIP_CTRL.ALLOWED && decide (m.flipTarget h = 1) then (false, m.chosen)
  else (false, m)

/-- The first block of a T2 copy with a poisoned line. -/
def Mach.poisonBlock (m : Mach) (d : Nat) (e : FrameEntry) : Nat :=
  ((List.range 16).find? (fun b => (List.range (e.counts.getD b 0)).any (fun i => m.peekPoison d (256 * e.t2Loc + blockStart e.counts b + 64 * i)))).getD 0

/-- A T2 copy is read as the source of a promotion (R105, R140, R141): into T1 decoded, into the stage as it is. -/
def Mach.promoInstall (m : Mach) (d : Nat) (p : Promo) (x : Extent) (bs : List Byte) (poison : Bool) : Mach :=
  let e := m.entry d p.ext p.idx
  if p.dst = 1 then
    let m := m.bindCoded d .load x e bs
    match (if poison then .error (m.poisonBlock d e, 2) else m.decodeCopy d x e bs) with
    | .error (b, c) =>
      let m := m.codecFail d p.ext p.idx b c 2 1
      if e.inT3 then (m.dropT2 d p.ext p.idx).needFetch d p.ext p.idx 2 .toT2 true none none else m.lose d p.ext p.idx
    | .ok bytes =>
      let m := (m.writeBytes d 2 (65536 * p.slot) bytes).updEntry d p.ext p.idx (fun e => { e with inT1 := true, t1Slot := p.slot })
      ((m.bump d Reg.XC_BLOCKS_DECODED.COUNT 16).noteFrame d pPromote p.ext p.idx).promoEnd d p.ext p.idx 1
  else if poison then m.copyFails d x p.idx (m.poisonBlock d e) 2 false p.jobs
  else
    let w := m.stageWrite d
    if w.1 && !p.retried then w.2.updTier d (fun t => { t with promos := { p with retried := true } :: t.promos })
    else if w.1 then w.2.copyFails d x p.idx 0 2 false p.jobs
    else (w.2.promoEnd d p.ext p.idx 0).installT0 d x p.idx bs false p.jobs

/-- PROMOTION_END (R105, R112): the copy of a DRAM-sourced promotion is installed. The frame of one that has become LOST meanwhile
gets no copy (R90); one whose source lies on a frozen channel goes on. -/
def execPromotionEnd (d ext idx dst : Nat) (s : State) : Host.Outcome State Fault Refusal :=
  s.onDie d (fun m => m.when m.alive (fun m =>
    match (m.die d).tier.promos.find? (fun p => decide (p.ext = ext) && decide (p.idx = idx) && decide (p.dst = dst) && p.endedAt.isNone), m.ext? ext with
    | some p, some x =>
      let m := m.updTier d (fun t => { t with promos := t.promos.erase p })
      let e := m.entry d ext idx
      if e.state = .lost ∨ e.inT2 = false then m.promoEnd d ext idx dst
      else
        let g := m.getBytes d (if dst = 1 then 2 else 1) (256 * e.t2Loc) (256 * e.granules)
        match g.1 with
        | none => g.2.updTier d (fun t => { t with promos := p :: t.promos })
        | some (bs, poison) => g.2.promoInstall d p x bs poison
    | _, _ => m))

/-- A fetched frame that has passed its checks: the T2 copy, the host loads that wait, the stage copies of the jobs (R90, R93, R105). -/
def Mach.fetchDone (m : Mach) (d : Nat) (f : Fetch) (x : Extent) (coded bytes : List Byte) : Mach :=
  let m := m.updTier d (fun t => { t with fetches := t.fetches.filter (fun g => !(decide (g.ext = f.ext) && decide (g.idx = f.idx))) })
  let m := match f.target with
    | some g => (m.writeBytes d 2 (256 * g) coded).updEntry d f.ext f.idx (fun e => { e with state := .present, inT2 := true, t2Loc := g })
    | none => m.updEntry d f.ext f.idx (fun e => { e with state := .present })
  let m := m.clearUnavail d f.ext f.idx (if f.target.isSome then [2] else [])
  let m := f.loads.foldl (fun m l =>
    (m.send (.memData l.ld l.dpa (sub bytes (64 * (l.line % 1024)) 64) false)).bump d Reg.XC_BLOCKS_DECODED.COUNT) m
  let m := if f.target.isSome then m.noteFrame d pPromote f.ext f.idx else m
  let m := m.promoEnd d f.ext f.idx 2
  let m := if f.thenT1 then m.promoteT1 d f.ext f.idx else m
  let m := if f.target.isSome then m.relocateFrom d f.ext f.idx coded else m
  (m.installT0 d x f.idx coded true f.jobs).freeUp d

/-- The frame that a fetch has read, checked, and installed (R90, R93, R95, R134, R141, R217, R343): a block that fails climbs the
ladder from where it stood, then a pool replica is asked for; a replica's frame that fails leaves the frame LOST. -/
def Mach.fetchCheck (m : Mach) (d : Nat) (f : Fetch) (x : Extent) : Mach :=
  let e := m.entry d f.ext f.idx
  let coded := f.data.getD (m.flashBytes d f.loc (256 * e.granules))
  let unit : Expander := if f.rank = 0 then .load else .operand
  let m := m.bindCoded d unit x e coded
  let bad (m : Mach) (b c : Nat) : Mach :=
    let m := m.codecFail d f.ext f.idx b c 3 (if f.rank = 0 then 1 else 0)
    if f.data.isSome then m.failFetch d f
    else match f.climb with
      | none => m.climbBlock d f.ext f.idx b
      | some k => if k + 1 ≤ min 32 (m.rd d Reg.FLC_CONFIG.RETRY_LEN) then m.climbBlock d f.ext f.idx b (k + 1) else m.askReplica d f
  match m.decodeCopy d x e coded with
  | .error (b, c) => bad m b c
  | .ok bytes =>
    let w := if f.jobs.isEmpty then (false, m) else m.stageWrite d
    if w.1 && !f.retried then w.2.updFetch d f.ext f.idx (fun g => { g with done := false, retried := true, pages := pagesOf f.loc e.granules })
    else if w.1 then bad w.2 0 2
    else w.2.fetchDone d f x coded bytes

/-- FETCH_INSTALL (R95, R105, R134). -/
def execFetchInstall (d ext idx : Nat) (s : State) : Host.Outcome State Fault Refusal :=
  s.onDie d (fun m => m.when m.alive (fun m =>
    match m.fetchOf d ext idx with
    | none => m
    | some f => match m.ext? f.ext with
      | none => m
      | some x =>
        if !f.done then m
        else
          let h := m.ensureHeader d x
          match h.1 with
          | some true => h.2.fetchCheck d f x
          | some false => h.2.headerLost d x
          | none => h.2))

/-- Lines lo to hi - 1 of an open extent: obtained from hosts, read from T1 (R170, R316). -/
def Mach.useLines (m : Mach) (x : Extent) (lo hi : Nat) : Ready × Mach :=
  let d := x.home
  let o := if x.shared then m.obtain d x.num lo hi false else (true, m)
  if !o.1 then (.wait, o.2)
  else readyAll o.2 (fun m line =>
    if (m.entry d x.num (line / 1024)).state = .zero ∨ (m.entry d x.num (line / 1024)).inT1 = false then (.yes, m)
    else
      let r := m.readLine d 1 (m.t1Addr d x.num line)
      if r.1.isSome then (.yes, r.2) else (.frozen, r.2)) ((List.range (hi - lo)).map (lo + ·))

/-- A run of bytes of an extent made ready for a job: frames of a coded extent, lines of an open one. -/
def Mach.useRun (m : Mach) (x : Extent) (acc : Nat × Nat) (lo n : Nat) : Ready × Mach :=
  if n = 0 then (.yes, m)
  else if x.coded then
    readyAll m (fun m f => m.useFrame x.home x acc f) ((List.range ((lo + n + 65535) / 65536 - lo / 65536)).map (lo / 65536 + ·))
  else m.useLines x (lo / 64) ((lo + n + 63) / 64)

/-- The frames of a run asked for. -/
def Mach.needRun (m : Mach) (x : Extent) (acc : Nat × Nat) (c lo n : Nat) : Mach :=
  if n = 0 then m
  else ((List.range ((lo + n + 65535) / 65536 - lo / 65536)).map (lo / 65536 + ·)).foldl (fun m f => m.needFrame x.home x f c acc) m

/-- Parts of a device-kind buffer by extent: extent, first byte, length. -/
def Mach.devParts (m : Mach) (j : Job) (b : Buf) (n : Nat) : List (Extent × Nat × Nat) :=
  if b.kind ≠ 0 ∨ n = 0 then []
  else (List.range ((b.addr + n - 1) / 2 ^ 28 - b.addr / 2 ^ 28 + 1)).filterMap (fun i =>
    let page := (b.addr / 2 ^ 28 + i) * 2 ^ 28
    let lo := max b.addr page
    let hi := min (b.addr + n) (page + 2 ^ 28)
    (m.slotExt j.ld j.slots j.accept page).map (fun x => (x, lo - page, hi - lo)))

/-- An input buffer made ready: host data has come, device lines are at hand. -/
def Mach.useBuf (m : Mach) (j : Job) (acc : Nat × Nat) (b : Buf) (n : Nat) : Ready × Mach :=
  if b.kind = 1 then (.yes, m) else readyAll m (fun m p => m.useRun p.1 acc p.2.1 p.2.2) (m.devParts j b n)

/-- Poison that a job met is counted on the die that holds it (R405). -/
def Mach.countPoison (m : Mach) (d k : Nat) : Mach := if k = 0 then m else m.bump d Reg.ERR_POISON_READS.COUNT k

/-! ## Starting -/

def Job.op (j : Job) : Nat := descOp j.desc
def Job.deadline (j : Job) : Nat := descDeadline j.desc
/-- The job has parts on several home dies; before it starts it has none (log entry 100). -/
def Job.split (j : Job) : Bool := decide (1 < j.subs.length)

/-- Only FENCE orders the jobs of a ring (R176, R177). -/
def Mach.mayStart (m : Mach) (d : Nat) (j : Job) : Bool :=
  j.start.isNone && !j.pre && j.abort.isNone && !j.orphan &&
    !(m.jobs d).any (fun k => decide (k.ring = j.ring) && decide (k.accept < j.accept) && !k.orphan && !k.pre && decide (k.op = 1))

/-- Scratch reserved on a die (R214), by jobs of every accepting die. -/
def Mach.scratchUsed (m : Mach) (h : Nat) : Nat :=
  sumOf (m.dies.map (fun x => sumOf (x.jobs.map (fun j => sumOf ((j.subs.filter (fun s => decide (s.home = h))).map (·.scratch))))))

/-- RESERVED_MIB rounds up (log entry 89). -/
def Mach.showScratch (m : Mach) (h : Nat) : Mach :=
  m.wr h Reg.OPS_SCRATCH.RESERVED_MIB ((m.scratchUsed h + 2 ^ 20 - 1) / 2 ^ 20)

/-- Sub-jobs of other dies that hold records on die h (R164). -/
def Mach.subRecords (m : Mach) (h : Nat) : Nat :=
  sumOf ((List.range m.n).map (fun d => if d = h then 0 else
    sumOf ((m.jobs d).map (fun j => (j.subs.filter (fun s => decide (s.home = h) && s.returned.isNone)).length))))

def Mach.showSubs (m : Mach) : Mach := m.eachDie (fun m h => m.wr h Reg.OPS_JOBS_INFLIGHT.SUBJOBS (min 4096 (m.subRecords h)))

/-- The dies on which a job's scratch does not fit, or where an earlier accepted job of any ring waits for scratch: reservations go in
accept order (R214, R230). -/
def Mach.scratchShort (m : Mach) (j : Job) (homes : List Nat) (scratch : Nat → Nat) : List Nat :=
  homes.filter (fun h => decide (scratch h ≠ 0) && (decide (m.scratchBytes h < m.scratchUsed h + scratch h)
    || m.dies.any (fun x => x.jobs.any (fun k => k.short.contains h && decide (k.accept < j.accept)))))

/-- May the parts start: a record on every other die (R164)? -/
def Mach.roomFor (m : Mach) (d : Nat) (homes : List Nat) : Bool :=
  homes.all (fun h => decide (h = d) || decide (m.subRecords h < 4096))

/-- A job starts once it can reserve its scratch on every die, and otherwise waits (R214, R230). -/
def Mach.withScratch (m : Mach) (d : Nat) (j : Job) (homes : List Nat) (scratch : Nat → Nat) (go : Mach → Mach) : Mach :=
  match m.scratchShort j homes scratch with
  | [] => go (m.updJob d j.num (fun k => { k with short := [] }))
  | hs => m.updJob d j.num (fun k => { k with short := hs })

/-- What a job reads at its start, its lists, is at hand; lines on a frozen channel are waited for until FREEZE_HOLD (R170, R249). -/
def Mach.withLists (m : Mach) (d : Nat) (j : Job) (bs : List (Buf × Nat)) (go : Mach → Mach) : Mach :=
  let r := readyAll m (fun m b => m.useBuf j (d, j.num) b.1 b.2) (bs.filter (fun b => decide (b.1.kind = 0)))
  match r.1, j.blocked with
  | .yes, _ => go (r.2.updJob d j.num (fun k => { k with blocked := none }))
  | .wait, _ => r.2
  | .frozen, none => r.2.updJob d j.num (fun k => { k with blocked := some (r.2.now d) })
  | .frozen, some t => go ((r.2.runTo d (t + min 1000 (m.rd d Reg.DMC_FREEZE_HOLD.HOLD_MS) * Config.ms)).updJob d j.num (fun k => { k with blocked := none }))

/-- The parts start (R33, R175): a START pennant on each home die, later than the accept stamp; the job's start stamp is the
earliest. -/
def Mach.startParts (m : Mach) (d : Nat) (j : Job) (homes : List Nat) (scratch : Nat → Nat) : Mach :=
  let step (acc : Mach × List SubJob) (h : Nat) : Mach × List SubJob :=
    let carried := if h = d then none else some j.accept
    let m0 := acc.1.cross (unitSource d uRing) 0 d h
    let t := m0.stamp h carried
    let m := m0.note h uRing pJobStart 0 [j.ring, descTag j.desc] 0 carried
    (m, acc.2 ++ [⟨h, some t, none, none, scratch h, false, none, [], false, []⟩])
  let r := homes.foldl step (m, [])
  let first := (minBy id (r.2.filterMap (·.start))).getD (m.stamp d)
  let m := r.1.updJob d j.num (fun k => { k with start := some first, phase := 2, subs := r.2 })
  homes.foldl (fun m h => m.showScratch h) m.showSubs

/-- The first upstream request of a job while Bus Master Enable is clear decides it (R278). -/
def Mach.abortBus (m : Mach) (d : Nat) (j : Job) : Mach := m.updJob d j.num (fun k => { k with abort := some 3, reads := [] })

/-- Input buffers asked for: frames of sealed extents are fetched, host-kind buffers read upstream (R271), one read for each
buffer and pass. -/
def Mach.readInputs (m : Mach) (d : Nat) (j : Job) (bs : List (Buf × Nat × Nat)) : Mach :=
  let m := bs.foldl (fun m b => (m.devParts j b.1 b.2.1).foldl (fun m p => if p.1.coded then m.needRun p.1 (d, j.num) (m.ringCls j.ring) p.2.1 p.2.2 else m) m) m
  let host := bs.filter (fun b => decide (b.1.kind = 1) && decide (0 < b.2.1))
  if host.isEmpty then m
  else if !m.bme j.ld then m.abortBus d j
  else host.foldl (fun m b => m.hostRead d j b.1 b.2.1 b.2.2) m

/-- A meaning for job `j` of accepting die `d`, of the given opcode. -/
def State.onJob (s : State) (d n op : Nat) (f : Mach → Job → Mach) : Host.Outcome State Fault Refusal :=
  s.onDie d (fun m => m.when m.serving (fun m => match m.job? d n with
    | some j => if j.op = op && m.mayStart d j then f m j else m
    | none => m))

/-- As `onJob`, for descriptors whose fields have ranges: one outside them is a case of R414. -/
def State.onJobIf (s : State) (d n op : Nat) (ok : Mach → Job → Bool) (f : Mach → Job → Mach) : Host.Outcome State Fault Refusal :=
  match s.m.job? d n with
  | some j =>
    if d < s.m.dies.length && j.op = op && s.m.mayStart d j && s.m.serving && !ok s.m j then .fault (.undefinedCase 6)
    else s.onJob d n op f
  | none => s.onJob d n op f

/-! ## Buntings (R208 to R211) -/

def Bunting.rows (b : Bunting) : Nat := sumOf (b.members.map (·.rows))

/-- The close stamp that a member asks for: its deadline less the lead (R209). -/
def Mach.leadStamp (m : Mach) (h deadline : Nat) : Nat := deadline - m.rd h Reg.OPS_ATT_LEAD.LEAD_US * Config.us

def Mach.attWindow (m : Mach) (h : Nat) : Nat := min 2000 (m.rd h Reg.OPS_ATT_WINDOW.WINDOW_US) * Config.us

/-- A close stamp reached closes the bunting; one that a deadline set before the window ends is counted (R209, R223). -/
def Mach.closeBunting (m : Mach) (h id : Nat) : Mach :=
  match (m.die h).stage.buntings.find? (fun b => decide (b.id = id)) with
  | none => m
  | some b =>
    if b.closed then m
    else
      let m := m.updStage h (fun s => { s with buntings := updWhere (fun k => decide (k.id = id)) (fun k => { k with closed := true }) s.buntings })
      if b.cut then m.bump h Reg.OPS_BUNTING_CUT.COUNT else m

/-- A member's effect on a bunting: its rows are in; its deadline may bring the close stamp forward, before the window's end; 256 rows
close it now (R209). -/
def Mach.takeMember (m : Mach) (h now : Nat) (b : Bunting) (mem : BMember) : Bunting :=
  let lead := m.leadStamp h mem.deadline
  let b := { b with members := b.members ++ [mem] }
  let b := if mem.deadline = 0 ∨ b.closeAt ≤ lead then b else { b with closeAt := lead, cut := true }
  if b.rows = 256 ∧ now < b.closeAt then { b with closeAt := now, cut := false } else b

/-- Rows of one KV head join a bunting on a frame that accepts rows still, or open one (R208, R209). -/
def Mach.joinBunting (m : Mach) (h c fmt ext idx : Nat) (mem : BMember) : Mach :=
  let now := m.stamp h
  let due := ((m.die h).stage.buntings.filter (fun b => !b.closed && decide (b.closeAt ≤ now))).map (·.id)
  let m := due.foldl (fun m id => m.closeBunting h id) m
  let fits (b : Bunting) : Bool := !b.closed && decide (b.cls = c) && decide (b.fmt = fmt) && decide (b.ext = ext) && decide (b.idx = idx)
    && decide (b.rows + mem.rows ≤ 256)
  match (m.die h).stage.buntings.find? fits with
  | some b =>
    let b' := m.takeMember h now b mem
    let m := m.updStage h (fun s => { s with buntings := updWhere (fun k => decide (k.id = b.id)) (fun _ => b') s.buntings })
    if b'.closeAt ≤ now then m.closeBunting h b.id else m
  | none =>
    let id := (m.die h).stage.nextId
    let b := m.takeMember h now ⟨id, c, fmt, ext, idx, now, now + m.attWindow h, false, false, []⟩ mem
    let m := m.updStage h (fun s => { s with buntings := s.buntings ++ [b], nextId := id + 1 })
    if b.closeAt ≤ now then m.closeBunting h id else m

/-- BUNTING_CLOSE (R209). -/
def execBuntingClose (d id : Nat) (s : State) : Host.Outcome State Fault Refusal :=
  s.onDie d (fun m => m.when m.serving (fun m =>
    match (m.die d).stage.buntings.find? (fun b => decide (b.id = id) && !b.closed) with
    | some b => (m.runTo d b.closeAt).closeBunting d id
    | none => m))

/-- Rows of a job still wait in a bunting of die h. -/
def Mach.inBuntings (m : Mach) (h : Nat) (acc : Nat × Nat) : Bool :=
  (m.die h).stage.buntings.any (fun b => b.members.any (fun k => decide ((k.die, k.job) = acc)))

/-- A job's rows leave every bunting (R209, R284); an empty bunting is gone. -/
def Mach.leaveBuntings (m : Mach) (acc : Nat × Nat) : Mach :=
  m.eachDie (fun m h => m.updStage h (fun s => { s with
    buntings := (s.buntings.map (fun b => { b with members := b.members.filter (fun k => decide ((k.die, k.job) ≠ acc)) })).filter
      (fun b => !b.members.isEmpty) }))

/-- The job leaves every waiter list (R277, R280); a fetch into the stage that nobody waits for is not issued. -/
def Mach.leaveFetches (m : Mach) (acc : Nat × Nat) : Mach :=
  m.eachDie (fun m h =>
    let m := m.updTier h (fun t => { t with
      fetches := t.fetches.map (fun f => { f with jobs := f.jobs.filter (fun k => decide (k ≠ acc)) }),
      promos := t.promos.map (fun p => { p with jobs := p.jobs.filter (fun k => decide (k ≠ acc)) }) })
    m.updStage h (fun s => { s with
      queue := (s.queue.map (fun w => { w with jobs := w.jobs.filter (fun k => decide (k ≠ acc)) })).filter (fun w => !w.jobs.isEmpty) }))

/-- Run order: earliest member deadline, none last, then opening (R210). -/
def Bunting.key (b : Bunting) : Nat × Nat :=
  (((minBy (fun t : Nat => t) ((b.members.map (·.deadline)).filter (fun t => decide (t ≠ 0)))).getD (2 ^ 64)), b.opened)

def Bunting.before (a b : Bunting) : Bool :=
  decide (a.key.1 < b.key.1) || (decide (a.key.1 = b.key.1) && (decide (a.key.2 < b.key.2) || (decide (a.key.2 = b.key.2) && decide (a.id < b.id))))

/-- A bunting's frame or page is present in the stage, or has no coded copy: it is zero, LOST or open (R196, R210). -/
def Mach.staged (m : Mach) (h : Nat) (b : Bunting) : Bool :=
  let e := m.entry h b.ext b.idx
  !m.coded b.ext || decide (e.state = .zero) || decide (e.state = .lost) || m.hasT0 h b.cls b.ext b.idx

/-! ## Outputs (R169, R170, R173, R249) -/

/-- A part of an output buffer: offset, bytes, and which stretches of it are poisoned. -/
structure OutSeg where
  buf : Buf
  off : Nat
  bytes : List Byte
  bad : List (Nat × Nat)
deriving DecidableEq, Repr

def OutSeg.poisoned (s : OutSeg) (lo n : Nat) : Bool := s.bad.any (fun b => overlaps b.1 b.2 lo n)

/-- A segment cut at 64-byte lines of its destination: address, bytes, poison. -/
def OutSeg.lines (s : OutSeg) : List (Nat × List Byte × Bool) :=
  let a := s.buf.addr + s.off
  let n := s.bytes.length
  if n = 0 then []
  else (List.range ((a + n + 63) / 64 - a / 64)).map (fun i =>
    let lo := max a ((a / 64 + i) * 64)
    let hi := min (a + n) ((a / 64 + i + 1) * 64)
    (lo, sub s.bytes (lo - a) (hi - lo), s.poisoned (lo - a) (hi - lo)))

/-- A device-kind output made ready: hosts' copies gone, channels open. -/
def Mach.outReady (m : Mach) (j : Job) (s : OutSeg) : Ready × Mach :=
  readyAll m (fun m p =>
    let x := p.1
    let o := if x.shared then m.obtain x.home x.num (p.2.1 / 64) ((p.2.1 + p.2.2 + 63) / 64) true else (true, m)
    if !o.1 then (.wait, o.2)
    else
      let open' := ((List.range ((p.2.1 + p.2.2 + 63) / 64 - p.2.1 / 64)).map (p.2.1 / 64 + ·)).all (fun line =>
        match o.2.materialise x.home x.num (line / 1024) with
        | none => false
        | some m => m.chanOpen x.home (m.locate x.home (m.t1Addr x.home x.num line)).ch)
      (if open' then .yes else .frozen, o.2)) (m.devParts j ⟨s.buf.addr + s.off, s.bytes.length, s.buf.kind⟩ s.bytes.length)

/-- One line written to device memory; on a channel that takes none the line becomes stale (R249). -/
def Mach.putLine (m : Mach) (j : Job) (w : Nat × List Byte × Bool) : Mach :=
  match m.slotExt j.ld j.slots j.accept w.1 with
  | none => m
  | some x =>
    let line := lineOf w.1
    match m.materialise x.home x.num (line / 1024) with
    | none => m
    | some m =>
      let a := m.t1Addr x.home x.num line
      match m.mergeLine x.home 1 a (w.1 % 64) w.2.1 w.2.2 with
      | (true, m) =>
        let m := if w.2.1.length = 64 ∧ ¬ w.2.2 then m.clearOrigin x.home a else m
        match w.2.2, j.why with
        | true, some o => if o.die = x.home then m.setOrigin x.home a o.seq else m
        | _, _ => m
      | (false, m) => m.addStale x.home (m.locate x.home a).ch a

/-- A segment written: to device memory, or upstream with the EP bit of its poisoned lines (R271). -/
def Mach.putSeg (m : Mach) (j : Job) (s : OutSeg) : Mach :=
  s.lines.foldl (fun m w => if s.buf.kind = 1 then m.send (.hostWrite j.ld w.1 w.2.1 w.2.2) else m.putLine j w) m

end Sys2Proof.Machine
end

