-- ==== Sys2Proof/Machine/Encoder.lean ====
section
/-! DEFINITION. The encoder (R58 to R61, R130 to R133, R144, R197, R198): tables, coded frames, headers and block summaries of
a new sealed extent. -/

namespace Sys2Proof.Machine

/-! ## Block summaries (R194, R197, R198) -/

/-- Head dimension of a DIM or SUMMARY_DIM code: 1 is 64, 2 is 128, 3 is 256 (OPS_CLASS_ATT). -/
def dimOf (code : Nat) : Nat := if code = 0 then 0 else 32 * 2 ^ code

/-- The lesser of two elements by value; a NaN stays. -/
def elMin (f a b : Nat) : Nat :=
  if fpVal f a = .nan then a else if fpVal f b = .nan then b
  else if Val.min (fpVal f a) (fpVal f b) = fpVal f a then a else b

def elMax (f a b : Nat) : Nat :=
  if fpVal f a = .nan then a else if fpVal f b = .nan then b
  else if Val.max (fpVal f a) (fpVal f b) = fpVal f a then a else b

/-- The 1 KiB of summaries of a frame's keys. -/
def frameSummary (f dim : Nat) (bytes : List Byte) : List Byte :=
  let v := fmtBytes f
  let keys := toValues v 16384 (bytes.take 32768)
  let n := 32768 / (64 * dim * v)
  (List.range n).flatMap (fun j =>
    let blk := (keys.drop (64 * dim * j)).take (64 * dim)
    let col (pick : Nat → Nat → Nat) (i : Nat) : Nat :=
      ((List.range 64).map (fun t => blk.getD (t * dim + i) 0)).tail.foldl pick (blk.getD i 0)
    ((List.range dim).map (col (elMin f))).flatMap (leBytes v) ++ ((List.range dim).map (col (elMax f))).flatMap (leBytes v))

/-- Summary page p: frames 64p to 64p + 63. -/
def summaryPage (f dim p : Nat) (frames : List (Nat × List Byte)) : List Byte :=
  (List.range 64).flatMap (fun i => match frames.find? (fun q => decide (q.1 = 64 * p + i)) with
    | some q => frameSummary f dim q.2
    | none => List.replicate 1024 0)

/-! ## Tables (R130) -/

/-- One table's code lengths for each span, over the frames given. -/
def spanTables (format span : Nat) (frames : List (Nat × List Byte)) : List (List Nat) :=
  match valueFormat format with
  | none => []
  | some f =>
    (List.range (4096 / 2 ^ span)).map (fun t =>
      let mine := frames.filter (fun q => decide (q.1 / 2 ^ span = t))
      let hist := mine.foldl (fun h q => (frameBlocks q.2).foldl (fun h b => blockHist format b h) h) (List.replicate (2 ^ f.symBits) 0)
      buildLengths hist f.maxlen)

/-- SPAN_LOG2 of a descriptor, or XC_CTRL's (R130, R181). -/
def Mach.spanOf (m : Mach) (d s : Nat) : Nat := if s = 0 then clamp 4 12 (m.rd d Reg.XC_CTRL.SPAN_LOG2) else clamp 4 12 s

/-! ## Storing -/

/-- A frame or summary page stored in T2 from its coded bytes; none without space (R61). -/
def Mach.storeT2 (m : Mach) (d ext idx port : Nat) (counts : List Nat) (table : Nat) (coded : List Byte) : Option Mach :=
  match m.alloc d ((coded.length + 255) / 256 * 256) 256 false with
  | none => none
  | some a =>
    let m := m.chosen.updEntry d ext idx (fun _ => { FrameEntry.zero with
      sectors := packSectors counts, state := .present, inT2 := true, table := table, t2Loc := a / 256 })
    some (m.writeBytes d port a coded)

/-- A frame encoded (R121, R144): all zero stays ZERO. -/
def Mach.encodeOne (m : Mach) (d ext format span : Nat) (tables : List (List Nat)) (q : Nat × List Byte) : Option Mach :=
  if frameZero q.2 then some (m.updEntry d ext q.1 (fun _ => FrameEntry.zero))
  else
    let t := if format = 0 then 0 else q.1 / 2 ^ span
    let c := encodeFrame format t 0 (tables.getD t []) q.2
    (m.storeT2 d ext q.1 3 c.1 t c.2).map (fun m =>
      ((m.bump d Reg.XC_BLOCKS_ENCODED.COUNT 16).bump d Reg.XC_LOGICAL_BYTES.COUNT 65536).bump d Reg.XC_CODED_BYTES.COUNT c.2.length)

/-- A source frame: index, bytes, and whether a line of it is poisoned. -/
structure SrcFrame where
  idx : Nat
  bytes : List Byte
  bad : Bool
deriving DecidableEq, Repr

/-- Both passes over the source frames of an extent (R60, R130, R237, R239): tables, header, coded frames in T2, LOST frames,
summaries for the class's dimension. None: T2 has no space, and nothing has happened. -/
def Mach.encodeExtent (m : Mach) (d : Nat) (x : Extent) (format span dim : Nat) (src : List SrcFrame) : Option Mach :=
  let good := (src.filter (fun q => !q.bad)).map (fun q => (q.idx, q.bytes))
  let tables := spanTables format span good
  let m := m.updExt x.num (fun x => { x with format := format, spanLog2 := span, dim := if format = 0 then 0 else dim, tgen := 0, hdrLocs := [] })
  let m := m.putHeader d x.num (buildHeader x.handle format span 0 tables)
  if (m.dramHeader d x.num).isNone then none
  else
    let m := good.foldl (fun (acc : Option Mach) q => acc.bind (fun m => m.encodeOne d x.num format span tables q)) (some m)
    let pages := if format = 0 ∨ dim = 0 then [] else List.range 64
    let m := pages.foldl (fun (acc : Option Mach) p => acc.bind (fun m =>
      m.storeT2 d x.num (4096 + p) 3 (List.replicate 16 64) 0 (summaryPage format (dimOf dim) p good))) m
    m.map (fun m => (src.filter (·.bad)).foldl (fun m q => m.lose d x.num q.idx) m)

/-- The extent is sealed: its coded copy is complete in T2 (R53, R60, R237); a RELEASING one is cleared as SEALED
(R76). Its filter entries are shared (R64). -/
def Mach.sealDone (m : Mach) (e : Nat) : Mach :=
  match m.ext? e with
  | none => m
  | some x =>
    let m := if x.state = .releasing then m.updExt e (fun y => { y with was := .sealed, budgeted := false })
      else (m.updExt e (fun y => { y with state := .sealed, budgeted := false })).extPennant x .sealed
    let m := m.upd x.home (fun y => { y with coh := { y.coh with filter := updWhere (fun k => decide (k.ext = e)) (fun k => { k with excl := false }) y.coh.filter } })
    m.checkSettled x.home e

end Sys2Proof.Machine
end

