-- ==== Sys2Proof/Machine/Attend.lean ====
section
/-! DEFINITION. ATTEND and SELECT (R189 to R222): their descriptors, the frames they need, selection, and their outputs. -/

namespace Sys2Proof.Machine

/-! ## Descriptors (R219 to R221) -/

structure AttP where
  qfmt : Nat
  ofmt : Nat
  dim : Nat
  group : Nat
  nspan : Nat
  qtok : Nat
  hl : Nat
  head0 : Nat
  heads : Nat
  mode : Nat
  k : Nat
  scale : Nat
  q : Buf
  o : Buf
  ml : Buf
  bound : Buf
  spans : Buf
  ff : Nat
  fl : Nat
deriving DecidableEq, Repr

def attP (ds : List Byte) : AttP :=
  { qfmt := bits (field ds 32 1) 0 4, ofmt := bits (field ds 32 1) 4 4, dim := 64 * 2 ^ bits (field ds 33 1) 0 2,
    group := bits (field ds 34 1) 0 5, nspan := bits (field ds 35 1) 0 7, qtok := field ds 36 2, hl := bits (field ds 38 1) 0 3,
    head0 := bits (field ds 39 1) 0 6, heads := bits (field ds 40 1) 0 7, mode := bits (field ds 41 1) 0 1, k := field ds 42 2,
    scale := field ds 44 4, q := bufAt ds 48, o := bufAt ds 64, ml := bufAt ds 80, bound := bufAt ds 96, spans := bufAt ds 112,
    ff := field ds 128 2, fl := field ds 130 2 }

def AttP.rows (p : AttP) : Nat := p.qtok * p.heads * p.group
def AttP.units (p : AttP) : Nat := if p.mode = 1 then p.qtok else p.qtok * p.heads

/-- A KV span (R220): its number, extent, tokens, position. -/
structure KvSpan where
  s : Nat
  x : Extent
  first : Nat
  count : Nat
  pos : Nat
deriving DecidableEq, Repr

/-- The span list; poison in it leaves none (R217). -/
def Mach.kvSpans (m : Mach) (j : Job) : List KvSpan :=
  let p := attP j.desc
  let v := m.bufVal j p.spans (16 * p.nspan)
  if !v.bad.isEmpty then []
  else (List.range p.nspan).filterMap (fun i =>
    (m.byHandle (field v.bytes (16 * i) 4)).map (fun x =>
      ⟨i, m.jobExt j x, field v.bytes (16 * i + 4) 4, field v.bytes (16 * i + 8) 4, field v.bytes (16 * i + 12) 4⟩))

/-- Format in which an extent's keys and values are read (R194, R196). -/
def AttP.fmtOf (p : AttP) (x : Extent) : Nat := if x.coded then x.format else p.qfmt

/-- Tokens per block and per frame (R194). -/
def AttP.tpb (p : AttP) (x : Extent) : Nat := 4096 / fmtBytes (p.fmtOf x) / p.dim
def AttP.tpf (p : AttP) (x : Extent) : Nat := 8 * p.tpb x

/-- The frame of token t of a KV head (R194). -/
def AttP.frameOf (p : AttP) (x : Extent) (t head : Nat) : Nat := t / p.tpf x * 2 ^ p.hl + head

/-- First byte of a token's key in the extent; its value lies 32 KiB further on. -/
def AttP.keyAt (p : AttP) (x : Extent) (t head : Nat) : Nat :=
  let u := t % p.tpf x
  65536 * p.frameOf x t head + 4096 * (u / p.tpb x) + u % p.tpb x * p.dim * fmtBytes (p.fmtOf x)

/-- The KV heads of the job. -/
def AttP.headList (p : AttP) : List Nat := (List.range p.heads).map (p.head0 + ·)

/-- A buffer of the job is of a known kind, long enough, and as an output lies in open extents (R169). -/
def Mach.bufOk (m : Mach) (j : Job) (b : Buf) (n : Nat) (out : Bool) : Bool :=
  decide (b.kind ≤ 1) && decide (n ≤ b.len) &&
    (!(out && decide (b.kind = 0)) || ((m.devParts j b b.len).all (fun q => !q.1.coded)
      && decide ((m.devParts j b b.len).length = (m.bufSlots j.ld b).length)))

/-- Every field of an ATTEND or SELECT descriptor lies in its range (R219 to R221, R414). -/
def Mach.attOk (m : Mach) (j : Job) : Bool :=
  let p := attP j.desc
  let sel := decide (j.op = 0x11)
  let vb := fmtBytes p.qfmt
  decide (1 ≤ p.qfmt) && decide (p.qfmt ≤ 4) && (sel || decide (p.ofmt = 8) || decide (p.ofmt = 1)) && decide (p.dim ≤ 256)
    && decide (1 ≤ p.group) && decide (p.group ≤ 16) && decide (1 ≤ p.nspan) && decide (p.nspan ≤ 64)
    && decide (1 ≤ p.qtok) && decide (p.qtok * p.group ≤ 256) && decide (p.hl ≤ 6) && decide (1 ≤ p.heads)
    && decide (p.head0 + p.heads ≤ 2 ^ p.hl) && decide (p.k ≤ 1024) && (!sel || decide (1 ≤ p.k))
    && (!sel && decide (p.k = 0) || decide (p.ff + p.fl ≤ p.k)) && decide (0 < p.scale) && decide (p.scale < 0x7F800000)
    && m.bufOk j p.q (p.rows * p.dim * vb) false && decide (16 * p.nspan ≤ p.spans.len) && decide (p.spans.kind ≤ 1)
    && (decide (p.bound.len = 0) || m.bufOk j p.bound (4 * p.qtok) false)
    && (if sel then m.bufOk j p.o (p.units * p.k * 4) true && (decide (p.ml.len = 0) || m.bufOk j p.ml (p.units * p.k * 4) true)
        else m.bufOk j p.o (p.rows * p.dim * fmtBytes p.ofmt) true && m.bufOk j p.ml (p.rows * 8) true)
    && (m.kvSpans j).all (fun s => (!s.x.coded || (decide (1 ≤ s.x.format) && decide (s.x.format ≤ 4)))
      && decide (1 ≤ s.count) && decide (s.first + s.count ≤ 4096 / 2 ^ p.hl * p.tpf s.x))

/-! ## Position bounds and tokens (R190) -/

/-- BOUND[j], or none. -/
def AttP.boundAt (p : AttP) (v : BufVal) (j : Nat) : Option Nat := if p.bound.len = 0 then none else some (field v.bytes (4 * j) 4)

def underBound (b : Option Nat) (pos : Nat) : Bool := match b with | some k => decide (pos ≤ k) | none => true

/-! ## Frames -/

/-- Frames that an ATTEND reads on a home die: extent, frame, head; with a budget only those of chosen blocks (R207). -/
def Mach.attFrames (m : Mach) (j : Job) (home : Nat) : List (Extent × Nat × Nat) :=
  let p := attP j.desc
  (((m.kvSpans j).filter (fun s => decide (s.x.home = home))).flatMap (fun s =>
    p.headList.flatMap (fun h =>
      if p.k = 0 then
        let c0 := s.first / p.tpf s.x
        let c1 := (s.first + s.count - 1) / p.tpf s.x
        (List.range (c1 - c0 + 1)).map (fun c => (s.x, (c0 + c) * 2 ^ p.hl + h, h))
      else
        distinct ((j.chosen.filter (fun c => decide (c.2.1 = s.s) && decide (c.1 % p.heads = h - p.head0))).map (fun c =>
          (s.x, p.frameOf s.x (64 * c.2.2) h, h)))))).eraseDups

/-- Summary pages that a selection reads on a home die: extent, page entry, head (R197, R198, R204). -/
def Mach.selPages (m : Mach) (j : Job) (home : Nat) : List (Extent × Nat × Nat) :=
  let p := attP j.desc
  (((m.kvSpans j).filter (fun s => decide (s.x.home = home) && s.x.coded && decide (dimOf s.x.dim = p.dim))).flatMap (fun s =>
    p.headList.flatMap (fun h =>
      let c0 := s.first / p.tpf s.x
      let c1 := (s.first + s.count - 1) / p.tpf s.x
      (List.range (c1 - c0 + 1)).map (fun c => (s.x, 4096 + ((c0 + c) * 2 ^ p.hl + h) / 64, h))))).eraseDups

/-- Rows of one KV head, and their bytes as running partials (R214). -/
def AttP.headRows (p : AttP) : Nat := p.qtok * p.group
def AttP.partBytes (p : AttP) : Nat := p.headRows * (4 * p.dim + 8)

/-- Two partials of one row over disjoint tokens merge (R193). -/
def RowPart.merge (a b : RowPart) : RowPart := ⟨a.toks ++ b.toks, match a.bad with | some o => some o | none => b.bad⟩

/-- What a job's rows of one head have taken in joins their running partials, which are reloaded if they were spilled (R192, R213). -/
def Mach.addRows (m : Mach) (home : Nat) (a : Nat × Nat) (head size : Nat) (rs : List RowPart) : Mach :=
  m.updJob a.1 a.2 (fun j => { j with
    subs := updWhere (fun s => decide (s.home = home)) (fun s => { s with
      parts := if s.parts.any (fun q => decide (q.head = head)) then
          updWhere (fun q => decide (q.head = head)) (fun q => { q with rows := List.zipWith RowPart.merge q.rows rs, spilled := none }) s.parts
        else s.parts ++ [⟨head, size, rs, none⟩] }) j.subs })

/-- Every row of a job's KV head is poisoned (R217). -/
def Mach.poisonHead (m : Mach) (home : Nat) (a : Nat × Nat) (head : Nat) (p : AttP) (why : Option NoteRef) : Mach :=
  m.addRows home a head p.partBytes (List.replicate p.headRows ⟨[], some why⟩)

/-- The pennant of a LOST frame. -/
def Mach.lostRef (m : Mach) (h ext idx : Nat) : Option NoteRef :=
  seqRef h (SMap.get (fun _ => 0) (m.die h).tier.lostSeq (entryKey ext idx))

/-- Rows join the buntings of frames or pages on a home die; their fetches begin (R208, R209). -/
def Mach.joinAll (m : Mach) (d : Nat) (j : Job) (home : Nat) (fs : List (Extent × Nat × Nat)) : Mach :=
  let p := attP j.desc
  let c := m.ringCls j.ring
  fs.foldl (fun m f =>
    let e := m.entry home f.1.num f.2.1
    if e.state = .lost then (if f.2.1 < 4096 then m.poisonHead home (d, j.num) f.2.2 p (m.lostRef home f.1.num f.2.1) else m)
    else (m.joinBunting home c p.qfmt f.1.num f.2.1 ⟨d, j.num, f.2.2, p.headRows, j.deadline⟩).needFrame home f.1 f.2.1 c (d, j.num)) m

/-! ## Selection (R200 to R206) -/

/-- The bound of a block of one head against a row, with the cause of R204 if there is none (log entry 40). -/
def Mach.blockBound (m : Mach) (p : AttP) (x : Extent) (blk head : Nat) (q : List Byte) : Except Nat Nat :=
  let f := p.frameOf x (64 * blk) head
  let v := fmtBytes x.format
  if !x.coded then .error 3
  else if x.dim = 0 then .error 1
  else if dimOf x.dim ≠ p.dim then .error 2
  else
    let d := x.home
    let lo := 65536 * (4096 + f / 64) + f % 64 * 1024 + blk % (p.tpf x / 64) * 2 * p.dim * v
    let raw : RunVal := if (m.entry d x.num f).state = .zero then ⟨List.replicate (2 * p.dim * v) 0, []⟩ else m.runVal d x lo (2 * p.dim * v)
    if !raw.bad.isEmpty then .error 4
    else
      let vals := (toValues v (2 * p.dim) raw.bytes).map (fpVal x.format)
      let qs := (toValues (fmtBytes p.qfmt) p.dim q).map (fpVal p.qfmt)
      match selectBound (fpVal 8 p.scale) qs (vals.take p.dim) (vals.drop p.dim) (Config.boundOf q raw.bytes p.scale) with
      | some b => .ok b
      | none => .error 5

/-- The greatest of some bounds, +∞ where a cause of R204 stands in the way. -/
def topBound (bs : List (Except Nat Nat)) : Nat :=
  if bs.any (fun b => match b with | .error _ => true | .ok _ => false) then 0x7F800000
  else (bs.filterMap (fun b => match b with | .ok v => some v | .error _ => none)).foldl (fun a b => if fpKey a < fpKey b then b else a) 0xFF800000

/-- The first cause among some bounds. -/
def firstCause (bs : List (Except Nat Nat)) : Option Nat := bs.findSome? (fun b => match b with | .error c => some c | .ok _ => none)

/-- A block that lacks a usable summary (R204): extent, block, KV head, cause. -/
structure Miss where
  ext : Nat
  blk : Nat
  head : Nat
  cause : Nat
deriving DecidableEq, Repr

/-- Candidates of a home die (R202), with the blocks that lack a usable summary. -/
def Mach.candidates (m : Mach) (j : Job) (home : Nat) : List (Cand × List Miss) :=
  let p := attP j.desc
  let qv := m.bufVal j p.q (p.rows * p.dim * fmtBytes p.qfmt)
  let bv := m.bufVal j p.bound (if p.bound.len = 0 then 0 else 4 * p.qtok)
  let rowBytes := p.dim * fmtBytes p.qfmt
  let row (jq h k : Nat) : List Byte := sub qv.bytes (((jq * p.heads + h) * p.group + k) * rowBytes) rowBytes
  ((m.kvSpans j).filter (fun s => decide (s.x.home = home))).flatMap (fun s =>
    let b0 := s.first / 64
    let b1 := (s.first + s.count - 1) / 64
    (List.range p.units).flatMap (fun u =>
      let jq := if p.mode = 1 then u else u / p.heads
      let hs := if p.mode = 1 then List.range p.heads else [u % p.heads]
      (List.range (b1 - b0 + 1)).filterMap (fun i =>
        let blk := b0 + i
        let t0 := max s.first (64 * blk)
        if underBound (p.boundAt bv jq) (s.pos + (t0 - s.first)) then
          let bs := hs.map (fun h => (h, (List.range p.group).map (fun k => m.blockBound p s.x blk (p.head0 + h) (row jq h k))))
          some (⟨u, s.s, blk, topBound (bs.flatMap (·.2))⟩,
            bs.filterMap (fun b => (firstCause b.2).map (fun c => ⟨s.x.num, blk, p.head0 + b.1, c⟩)))
        else none)))

/-- (s, β) in ascending order. -/
def Cand.place (c : Cand) : Nat := c.span * 2 ^ 26 + c.blk

/-- A unit's list (R203): forced blocks with bound +∞, then the others in descending bound, at most K. -/
def rank (p : AttP) (cs : List Cand) : List Cand :=
  let cs := sortBy Cand.place cs
  let firsts := (cs.filter (fun c => decide (c.span = 0))).take p.ff
  let lasts := let l := cs.filter (fun c => decide (c.span = p.nspan - 1)); l.drop (l.length - p.fl)
  let forced := cs.filter (fun c => firsts.contains c || lasts.contains c)
  let rest := cs.filter (fun c => !forced.contains c)
  let keyed := sortBy (fun c : Cand => ((2 ^ 33 : Int) - fpKey c.bound).toNat * 2 ^ 32 + c.place) rest
  (forced.map (fun (c : Cand) => { c with bound := 0x7F800000 }) ++ keyed).take p.k

/-- A home die's selection ends (R204, R206): each block missed is counted there, with one pennant for each extent. -/
def Mach.selectPart (m : Mach) (j : Job) (home : Nat) : List Cand × Bool × Mach :=
  let cs := m.candidates j home
  let missed := cs.flatMap (·.2)
  let m := m.bump home Reg.OPS_SUMMARY_MISS.COUNT (distinct (missed.map (fun c => (c.ext, c.blk, c.head)))).length
  let m := (distinct (missed.map (·.ext))).foldl (fun m e =>
    let cause := ((missed.find? (fun c => decide (c.ext = e))).map (·.cause)).getD 0
    m.note home uRing pSummaryMiss cause [j.ring, descTag j.desc, m.handleOf e]) m
  (cs.map (·.1), !missed.isEmpty, m)

/-- The selection on every home die of an unsplit job, over the summary pages that the job has read. -/
def Mach.selectAll (m : Mach) (j : Job) : List Cand × Bool × Mach :=
  j.subs.foldl (fun (acc : List Cand × Bool × Mach) s => let q := acc.2.2.selectPart j s.home; (acc.1 ++ q.1, acc.2.1 || q.2.1, q.2.2)) ([], false, m)

/-- The blocks that a budget chooses (R207): unit, span, block. -/
def chooseBlocks (p : AttP) (cs : List Cand) : List (Nat × Nat × Nat) :=
  let p0 : AttP := { p with mode := 0 }
  (List.range (p.qtok * p.heads)).flatMap (fun u =>
    (rank p0 (cs.filter (fun (c : Cand) => decide (c.unit = u)))).map (fun (c : Cand) => (u, c.span, c.blk)))

/-- Index and bound lists of every unit, padded (R203, R205). -/
def selectLists (p : AttP) (cs : List Cand) : List Byte × List Byte :=
  let lists := (List.range p.units).map (fun u =>
    let l := rank p (cs.filter (fun c => decide (c.unit = u)))
    (l.map (fun c => (c.place, c.bound))) ++ List.replicate (p.k - l.length) (0xFFFFFFFF, 0xFF800000))
  (lists.flatMap (fun l => l.flatMap (fun e => leBytes 4 e.1)), lists.flatMap (fun l => l.flatMap (fun e => leBytes 4 e.2)))

/-! ## The attention part (R189 to R193) -/

/-- A token as a row reads it. -/
structure KvTok where
  s : Nat
  t : Nat
  pos : Nat
  key : List Val
  val : List Val
  bad : Option (Option NoteRef)
deriving DecidableEq, Repr

/-- The tokens of one frame that the spans of a job name, read for one KV head (R194, R196). -/
def Mach.frameToks (m : Mach) (j : Job) (x : Extent) (idx head : Nat) : List KvTok :=
  let p := attP j.desc
  let f := p.fmtOf x
  let n := p.dim * fmtBytes f
  let c := idx / 2 ^ p.hl
  ((m.kvSpans j).filter (fun s => decide (s.x.num = x.num))).flatMap (fun s =>
    let lo := max s.first (c * p.tpf x)
    let hi := min (s.first + s.count) ((c + 1) * p.tpf x)
    ((List.range (hi - lo)).map (lo + ·)).map (fun t =>
      let k := m.runVal x.home x (p.keyAt x t head) n
      let v := m.runVal x.home x (p.keyAt x t head + 32768) n
      ⟨s.s, t, s.pos + (t - s.first), (toValues (fmtBytes f) p.dim k.bytes).map (fpVal f),
        (toValues (fmtBytes f) p.dim v.bytes).map (fpVal f), ((k.bad ++ v.bad).head?).map (·.2)⟩))

/-- What one frame adds to the running partials of a job's rows of one KV head: the tokens that each row includes (R190, R207). -/
def Mach.frameRows (m : Mach) (j : Job) (x : Extent) (idx head : Nat) : List RowPart :=
  let p := attP j.desc
  let qv := m.bufVal j p.q (p.rows * p.dim * fmtBytes p.qfmt)
  let bv := m.bufVal j p.bound (if p.bound.len = 0 then 0 else 4 * p.qtok)
  let rowBytes := p.dim * fmtBytes p.qfmt
  let sc := fpVal 8 p.scale
  let h := head - p.head0
  let toks := m.frameToks j x idx head
  (List.range p.headRows).map (fun r =>
    let jq := r / p.group
    let row := (jq * p.heads + h) * p.group + r % p.group
    let q := (toValues (fmtBytes p.qfmt) p.dim (sub qv.bytes (row * rowBytes) rowBytes)).map (fpVal p.qfmt)
    let mine := toks.filter (fun t => underBound (p.boundAt bv jq) t.pos && (decide (p.k = 0) || j.chosen.contains (jq * p.heads + h, t.s, t.t / 64)))
    ⟨mine.map (fun t => let s := dot q t.key; ⟨Val.mul sc s.1, Val.mul sc s.2, t.val⟩), mine.findSome? (·.bad)⟩)

/-- A spilled partial that lies on a channel that serves no request (R217). -/
def Mach.partFrozen (m : Mach) (home : Nat) (q : HeadPart) : Bool :=
  match q.spilled with | some a => !m.runOpen home a q.size | none => false

/-- A bunting that cannot run while a channel is frozen: its frame lies there, or a spilled partial of a member (R112, R196, R217). -/
def Mach.buntStuck (m : Mach) (h : Nat) (b : Bunting) : Bool :=
  let e := m.entry h b.ext b.idx
  let spilled := b.members.any (fun k => match m.job? k.die k.job with
    | some j => j.subs.any (fun s => decide (s.home = h) && s.parts.any (fun q => decide (q.head = k.head) && m.partFrozen h q))
    | none => false)
  spilled || (if m.coded b.ext then m.stuck h b.ext b.idx && !m.staged h b
    else decide (e.state = .present) && e.inT1 && !m.runOpen h (65536 * e.t1Slot) 65536)

/-- After FREEZE_HOLD a job leaves the buntings that a frozen channel holds up: the rows of a frame's KV head are poisoned (R217), a
summary page counts as unreadable (R204). -/
def Mach.leaveStuck (m : Mach) (a : Nat × Nat) (p : AttP) : Mach :=
  m.eachDie (fun m h =>
    let bs := (m.die h).stage.buntings.filter (fun b => b.members.any (fun k => decide ((k.die, k.job) = a)) && m.buntStuck h b)
    bs.foldl (fun m b =>
      let mine := b.members.filter (fun k => decide ((k.die, k.job) = a))
      let m := if b.idx < 4096 then mine.foldl (fun m k => m.poisonHead h a k.head p none) m else m
      m.updStage h (fun s => { s with
        buntings := (updWhere (fun k => decide (k.id = b.id)) (fun k => { k with members := k.members.filter (fun y => decide ((y.die, y.job) ≠ a)) })
          s.buntings).filter (fun k => !k.members.isEmpty) })) m)

/-- The running partial of a row: those of every home die merged (R34, R193); a spilled one that cannot be read is poison. -/
def Mach.rowPart (m : Mach) (j : Job) (head r : Nat) : RowPart :=
  ((j.subs.flatMap (fun s => (s.parts.filter (fun q => decide (q.head = head))).map (fun q =>
    let row := q.rows.getD r ⟨[], none⟩
    if m.partFrozen s.home q then { row with bad := some none } else row))).foldl RowPart.merge ⟨[], none⟩)

/-- What a computing job delivers: its output segments, the origin of the first poison among them, poison reads by die. -/
structure Result where
  segs : List OutSeg
  poison : Option (Option NoteRef)
  reads : List (Nat × Nat)
deriving DecidableEq, Repr

/-- The poison that stands before a whole ATTEND or SELECT: in the span list or the bound buffer (R217). -/
def Mach.attAll (m : Mach) (j : Job) : Option (Option NoteRef) :=
  let p := attP j.desc
  let sv := m.bufVal j p.spans (16 * p.nspan)
  let bv := m.bufVal j p.bound (if p.bound.len = 0 then 0 else 4 * p.qtok)
  ((sv.bad ++ bv.bad).head?).map (·.2.2)

/-- The O, m and l of a job's rows, with free values within R218; poisoned rows are free. -/
def Mach.attendOut (m : Mach) (j : Job) : Result × Mach :=
  let p := attP j.desc
  let qv := m.bufVal j p.q (p.rows * p.dim * fmtBytes p.qfmt)
  let rowBytes := p.dim * fmtBytes p.qfmt
  let whole := m.attAll j
  let one (acc : List (List Byte × List Byte × Option (Option NoteRef)) × Mach) (r : Nat) : List (List Byte × List Byte × Option (Option NoteRef)) × Mach :=
    let h := r / p.group % p.heads
    let jq := r / p.group / p.heads
    let part := m.rowPart j (p.head0 + h) (jq * p.group + r % p.group)
    let bad := match whole, qv.badIn (r * rowBytes) rowBytes with
      | some o, _ => some o
      | none, some o => some o
      | none, none => part.bad
    let c := acc.2.choices (2 + p.dim)
    let w := 8 * fmtBytes p.ofmt
    let out := if bad.isSome then (c.1.getD 0 0 % 2 ^ 32, c.1.getD 1 0 % 2 ^ 32, (List.range p.dim).map (fun i => c.1.getD (2 + i) 0 % 2 ^ w))
      else attendRow p.ofmt p.dim part.toks c.1
    (acc.1 ++ [(out.2.2.flatMap (leBytes (fmtBytes p.ofmt)), leBytes 4 out.1 ++ leBytes 4 out.2.1, bad)], c.2)
  let rs := (List.range p.rows).foldl one ([], m)
  let ob := p.dim * fmtBytes p.ofmt
  let badRows := rs.1.zipIdx.filterMap (fun x => if x.1.2.2.isSome then some x.2 else none)
  (⟨[⟨p.o, 0, rs.1.flatMap (·.1), badRows.map (fun r => (r * ob, ob))⟩, ⟨p.ml, 0, rs.1.flatMap (·.2.1), badRows.map (fun r => (8 * r, 8))⟩],
    rs.1.findSome? (·.2.2), []⟩, rs.2)

/-- The lists of a SELECT; units with a poisoned query row are poisoned. -/
def Mach.selectOut (m : Mach) (j : Job) (cs : List Cand) : Result :=
  let p := attP j.desc
  let qv := m.bufVal j p.q (p.rows * p.dim * fmtBytes p.qfmt)
  let rowBytes := p.dim * fmtBytes p.qfmt
  let whole := m.attAll j
  let rowsPer := if p.mode = 1 then p.heads * p.group else p.group
  let badUnit (u : Nat) : Option (Option NoteRef) := match whole with
    | some o => some o
    | none => qv.badIn (u * rowsPer * rowBytes) (rowsPer * rowBytes)
  let l := selectLists p cs
  let bad := (List.range p.units).filterMap (fun u => (badUnit u).map (fun o => (u, o)))
  let stretch := bad.map (fun b => (b.1 * p.k * 4, p.k * 4))
  ⟨⟨p.o, 0, l.1, stretch⟩ :: (if p.ml.len = 0 then [] else [⟨p.ml, 0, l.2, stretch⟩]), (bad.head?).map (·.2), []⟩

/-! ## Starting -/

/-- Home dies of the spans; the accepting die where the span list is poisoned. -/
def Mach.attHomes (m : Mach) (d : Nat) (j : Job) : List Nat :=
  match distinct ((m.kvSpans j).map (·.x.home)) with
  | [] => [d]
  | hs => hs

/-- Scratch of an ATTEND or SELECT on each die (R214). -/
def AttP.scratch (p : AttP) : Nat := p.heads * p.qtok * p.group * (4 * p.dim + 8)

/-- Host-kind inputs of an ATTEND or SELECT. -/
def AttP.inputs (p : AttP) : List (Buf × Nat × Nat) :=
  [(p.q, p.rows * p.dim * fmtBytes p.qfmt, 1), (p.bound, if p.bound.len = 0 then 0 else 4 * p.qtok, 1)]

/-- The attention phase opens or joins buntings on the frames of the job (R207, R211). -/
def Mach.openAttention (m : Mach) (d : Nat) (j : Job) : Mach :=
  let m := m.updJob d j.num (fun k => { k with phase := 2 })
  (j.subs.map (·.home)).foldl (fun m h => m.joinAll d j h (m.attFrames j h)) m

/-- The selection of an unsplit ATTEND is over: its blocks are chosen and the attention begins (R207). -/
def Mach.endSelection (m : Mach) (d n : Nat) : Mach :=
  match m.job? d n with
  | none => m
  | some j =>
    if j.op = 0x10 ∧ j.phase = 1 ∧ j.split = false ∧ m.dies.length ≠ 0 ∧ (j.subs.all (fun s => !m.inBuntings s.home (d, n))) then
      let r := (m.lend j).selectAll j
      let m := r.2.2.unlend.updJob d n (fun k => { k with chosen := chooseBlocks (attP j.desc) r.1, part := k.part || r.2.1 })
      match m.job? d n with
      | some j => m.openAttention d j
      | none => m
    else m

/-- ATTEND and SELECT start (R211, R214). -/
def Mach.attStart (m : Mach) (d : Nat) (j : Job) : Mach :=
  let p := attP j.desc
  let homes := m.attHomes d j
  if !m.roomFor d homes then m
  else m.withLists d j [(p.spans, 16 * p.nspan)] (fun m => m.withScratch d j homes (fun _ => p.scratch) (fun m =>
    let m := (m.readInputs d j p.inputs).startParts d j homes (fun _ => p.scratch)
    let selecting := decide (j.op = 0x11) || decide (p.k ≠ 0)
    let m := homes.foldl (fun m h => m.ungate h Reg.PWR_GATED.ENGINE 0) m
    match m.job? d j.num with
    | none => m
    | some j =>
      if selecting then
        let m := m.updJob d j.num (fun k => { k with phase := 1 })
        let m := homes.foldl (fun m h => m.joinAll d j h (m.selPages j h)) m
        if (p.inputs.any (fun b => decide (b.1.kind = 1) && decide (0 < b.2.1))) then m else m.endSelection d j.num
      else m.openAttention d j))

/-- ATTEND (R189, R207, R211, R219). -/
def execAttend (d n : Nat) (s : State) : Host.Outcome State Fault Refusal := s.onJobIf d n 0x10 Mach.attOk (fun m j => m.attStart d j)

/-- SELECT (R200 to R206, R211). -/
def execSelect (d n : Nat) (s : State) : Host.Outcome State Fault Refusal := s.onJobIf d n 0x11 Mach.attOk (fun m j => m.attStart d j)

/-! ## Running a bunting (R208 to R213, R217) -/

/-- A member's share of a bunting: its rows take in the frame; a LOST frame poisons them; a selection keeps the summary page. -/
def Mach.runMember (m : Mach) (h : Nat) (b : Bunting) (x : Extent) (k : BMember) : Mach :=
  match m.job? k.die k.job with
  | none => m
  | some j =>
    let p := attP j.desc
    if b.idx < 4096 then
      if (m.entry h b.ext b.idx).state = .lost then m.poisonHead h (k.die, k.job) k.head p (m.lostRef h b.ext b.idx)
      else m.addRows h (k.die, k.job) k.head p.partBytes ((m.lend j).frameRows j x b.idx k.head)
    else match m.t0? h b.cls b.ext b.idx with
      | some c => if j.taken.any (fun t => decide (t.1 = h) && decide (t.2.ext = b.ext) && decide (t.2.idx = b.idx)) then m
          else m.updJob k.die k.job (fun j => { j with taken := j.taken ++ [(h, c)] })
      | none => m

/-- An uncorrectable stage error in query rows, accumulators or partials: the rows affected, a free choice among those that run, are
poisoned (R217). -/
def Mach.spoilRow (m : Mach) (h : Nat) (b : Bunting) : Mach :=
  match m.pick b.members with
  | none => m
  | some k =>
    let m := m.chosen
    let row := m.choice % max 1 k.rows
    match m.job? k.die k.job with
    | some j => m.chosen.addRows h (k.die, k.job) k.head (attP j.desc).partBytes
        ((List.range k.rows).map (fun i => ⟨[], if i = row then some none else none⟩))
    | none => m

/-- The rows of a bunting use its frame, which is decoded once for all of them. -/
def Mach.runRows (m : Mach) (h : Nat) (b : Bunting) (x : Extent) (copy : Option T0Copy) : Mach :=
  let m := (m.ungate h Reg.PWR_GATED.ENGINE 0).ungate h Reg.PWR_GATED.STAGE 0
  let m := match copy with
    | some k => let m := m.useT0 h b.cls b.ext b.idx
      if b.idx < 4096 then (m.bindCopy h x k).bump h Reg.XC_BLOCKS_DECODED.COUNT 16 else m
    | none => m
  let m := (m.bump h Reg.OPS_BUNTING_COUNT.COUNT).bump h Reg.OPS_BUNTING_ROWS.COUNT b.rows
  let m := b.members.foldl (fun m k => m.runMember h b x k) m
  let w := m.stageWrite h
  let m := if w.1 && decide (b.idx < 4096) then w.2.spoilRow h b else w.2
  let m := (m.updStage h (fun s => { s with buntings := s.buntings.filter (fun k => decide (k.id ≠ b.id)) })).tidyT0 h
  (distinct (b.members.map (fun k => (k.die, k.job)))).foldl (fun m a => m.endSelection a.1 a.2) m

/-- A closed bunting runs (R210): the blocks of its copy are checked at this use; an open frame is read from T1 (R196). -/
def Mach.runBunting (m : Mach) (h : Nat) (b : Bunting) (x : Extent) : Mach :=
  let e := m.entry h x.num b.idx
  if e.state = .lost ∨ e.state = .zero then m.runRows h b x none
  else if x.coded then
    match m.t0? h b.cls x.num b.idx with
    | none => m
    | some k => match m.copyCheck h x k with
      | none => m.runRows h b x (some k)
      | some (i, c) => m.copyFails h x b.idx i c k.fromT3 (distinct (b.members.map (fun q => (q.die, q.job))))
  else
    let u := m.useLines x (1024 * b.idx) (1024 * b.idx + 1024)
    match u.1 with
    | .yes => u.2.runRows h b x none
    | _ => u.2

/-- The query and bound buffers of a bunting's rows are at hand; lines on a frozen channel are waited for until FREEZE_HOLD. -/
def Mach.rowsReady (m : Mach) (b : Bunting) : Ready × Mach :=
  readyAll m (fun m k => match m.job? k.die k.job with
    | none => (.yes, m)
    | some j =>
      let r := readyAll m (fun m i => m.useBuf j (k.die, k.job) i.1 i.2.1) (attP j.desc).inputs
      let past := match j.blocked with | some t => decide (t + min 1000 (m.rd k.die Reg.DMC_FREEZE_HOLD.HOLD_MS) * Config.ms ≤ m.now k.die) | none => false
      (if !j.reads.isEmpty then .wait else match r.1 with | .frozen => if past then .yes else .frozen | a => a, r.2)) b.members

def execBuntingRun (d id : Nat) (s : State) : Host.Outcome State Fault Refusal :=
  s.onDie d (fun m => m.when m.serving (fun m =>
    match (m.die d).stage.buntings.find? (fun b => decide (b.id = id) && b.closed) with
    | none => m
    | some b =>
      let rival (k : Bunting) : Bool := k.closed && k.before b && m.staged d k
      if !m.staged d b then m.pump d
      else if m.buntStuck d b || (m.die d).stage.buntings.any rival then m
      else
        let r := m.rowsReady b
        match r.1, m.ext? b.ext with
        | .yes, some x => r.2.runBunting d b x
        | _, _ => r.2))

end Sys2Proof.Machine
end

