-- ==== Sys2Proof/Machine/Linear.lean ====
section
/-! DEFINITION. LINEAR, plain and grouped (R224 to R235, R247, R249, R250). -/

namespace Sys2Proof.Machine

/-! ## Descriptor (R234, R235) -/

structure LinP where
  xfmt : Nat
  ofmt : Nat
  wfmt : Nat
  grouped : Bool
  rows : Nat
  k : Nat
  n : Nat
  x : Buf
  y : Buf
  route : Buf
  experts : Buf
  tokens : Nat
  nexp : Nat
deriving DecidableEq, Repr

def linP (ds : List Byte) : LinP :=
  { xfmt := bits (field ds 32 1) 0 4, ofmt := bits (field ds 32 1) 4 4, wfmt := bits (field ds 33 1) 0 4, grouped := linGrouped ds,
    rows := field ds 36 4, k := field ds 40 4, n := field ds 44 4, x := bufAt ds 48, y := bufAt ds 64, route := bufAt ds 80,
    experts := bufAt ds 96, tokens := field ds 112 4, nexp := field ds 116 4 }

/-- Bytes of a column (R225). -/
def LinP.cb (p : LinP) : Nat := if p.wfmt = 1 then 2 * p.k else if p.wfmt = 9 then 17 * p.k / 32 else p.k

/-- Rows of x, its bytes, and the other buffers' bytes (R235). -/
def LinP.xrows (p : LinP) : Nat := if p.grouped then p.tokens else p.rows
def LinP.rowBytes (p : LinP) : Nat := p.k * fmtBytes p.xfmt
def LinP.xBytes (p : LinP) : Nat := p.xrows * p.rowBytes
def LinP.yBytes (p : LinP) : Nat := p.rows * p.n * fmtBytes p.ofmt
def LinP.routeBytes (p : LinP) : Nat := if p.grouped then 8 * p.rows else 0
def LinP.expertBytes (p : LinP) : Nat := if p.grouped then 16 * p.nexp else 0

/-! ## Weights (R224, R225) -/

/-- A run of weight bytes: where it starts among the weight bytes, its extent, first byte there, length. -/
structure WSeg where
  off : Nat
  x : Extent
  lo : Nat
  len : Nat
deriving DecidableEq, Repr

/-- Frame spans one after another, cut at `total` weight bytes. -/
def Mach.segsOf (m : Mach) (j : Job) (total : Nat) (ss : List FrameSpan) : List WSeg :=
  (ss.foldl (fun (acc : List WSeg × Nat) s =>
    let n := min (65536 * s.count) (total - acc.2)
    match m.byHandle s.handle with
    | some x => (acc.1 ++ [⟨acc.2, m.jobExt j x, 65536 * s.first, n⟩], acc.2 + 65536 * s.count)
    | none => (acc.1, acc.2 + 65536 * s.count)) ([], 0)).1

/-- Routing entries: token, expert; or the poison that hides the entry (R232, R249). -/
def Mach.routes (m : Mach) (j : Job) : List (Except (Option NoteRef) (Nat × Nat)) :=
  let p := linP j.desc
  let v := m.bufVal j p.route p.routeBytes
  (List.range p.rows).map (fun r => match v.badIn (8 * r) 8 with
    | some o => .error o
    | none => .ok (field v.bytes (8 * r) 4, field v.bytes (8 * r + 4) 2))

/-- The poison of the expert list: it poisons the whole job (R249). -/
def Mach.expertPoison (m : Mach) (j : Job) : Option (Option NoteRef) :=
  let p := linP j.desc
  (((m.bufVal j p.experts p.expertBytes).bad.head?).map (·.2.2))

def Mach.expertSegs (m : Mach) (j : Job) (e : Nat) : List WSeg :=
  let p := linP j.desc
  let v := m.bufVal j p.experts p.expertBytes
  m.segsOf j (p.n * p.cb) [spanAt v.bytes (16 * e)]

/-- Experts that the routing list names. -/
def Mach.named (m : Mach) (j : Job) : List Nat :=
  distinct ((m.routes j).filterMap (fun r => match r with | .ok q => some q.2 | .error _ => none))

/-- The weight runs of a job: of its spans, or of every named expert; none where the expert list is poisoned. -/
def Mach.weightSegs (m : Mach) (j : Job) : List WSeg :=
  let p := linP j.desc
  if p.grouped then (if (m.expertPoison j).isSome then [] else (m.named j).flatMap (m.expertSegs j))
  else m.segsOf j (p.n * p.cb) (descSpans j.desc)

/-- The bytes of column `c` of one matrix: pieces in order. -/
def columnParts (segs : List WSeg) (cb c : Nat) : List (Extent × Nat × Nat) :=
  segs.filterMap (fun s =>
    let lo := max s.off (c * cb)
    let hi := min (s.off + s.len) ((c + 1) * cb)
    if lo < hi then some (s.x, s.lo + (lo - s.off), hi - lo) else none)

/-- A column's values, or the poison of one of its bytes (R247). -/
def Mach.column (m : Mach) (p : LinP) (segs : List WSeg) (c : Nat) : Except (Option NoteRef) (List Val) :=
  let vs := (columnParts segs p.cb c).map (fun q => m.runVal q.1.home q.1 q.2.1 q.2.2)
  match vs.findSome? (fun v => (v.bad.head?).map (·.2)) with
  | some o => .error o
  | none =>
    let bs := vs.flatMap (·.bytes)
    if p.wfmt = 9 then
      .ok ((List.range p.k).map (fun i =>
        mxVal ((bs.getD (i / 32) 0).toNat) (bits (bs.getD (p.k / 32 + i / 2) 0).toNat (4 * (i % 2)) 4)))
    else .ok ((toValues (fmtBytes p.wfmt) p.k bs).map (fpVal p.wfmt))

/-- Columns with bytes on two dies (R229). -/
def Mach.straddles (m : Mach) (j : Job) : Nat :=
  let p := linP j.desc
  if p.grouped then 0
  else
    let segs := m.weightSegs j
    let bounds := (List.zip segs segs.tail).filter (fun q => decide (q.1.x.home ≠ q.2.x.home) && decide (q.2.off % p.cb ≠ 0) && decide (0 < q.2.len))
    (distinct (bounds.map (fun q => q.2.off / p.cb))).length

/-- Scale bytes of straddling MXFP4 columns that lie on another die than the elements which die h holds of them (R229). -/
def Mach.scaleSegs (m : Mach) (j : Job) (h : Nat) : List WSeg :=
  let p := linP j.desc
  if p.grouped ∨ p.wfmt ≠ 9 then []
  else
    let segs := m.weightSegs j
    (List.zip segs segs.tail).filterMap (fun q =>
      let c := q.2.off / p.cb * p.cb
      let e := c + p.k / 32
      let lo := max q.2.off e
      let hi := min (q.2.off + q.2.len) (c + p.cb)
      let a := c + (lo - e) / 16
      let b := min q.2.off (c + (hi - 1 - e) / 16 + 1)
      if q.1.x.home ≠ h ∧ q.2.x.home = h ∧ lo < hi ∧ a < b ∧ q.1.off ≤ a then some ⟨a, q.1.x, q.1.lo + (a - q.1.off), b - a⟩ else none)

/-- The smallest shape that R234 and R235 allow; a routing list still to be read from the host is not judged. -/
def Mach.linOk (m : Mach) (j : Job) : Bool :=
  let p := linP j.desc
  let fmtOk (x : Extent) : Bool := !x.coded || decide (x.format = if p.wfmt = 1 then 1 else 0)
  let shape := decide (1 ≤ p.xfmt) && decide (p.xfmt ≤ 4) && (decide (p.ofmt = 8) || decide (p.ofmt = 1))
    && [1, 3, 4, 9].contains p.wfmt && decide (32 ≤ p.k) && decide (p.k ≤ 65536) && decide (p.k % 32 = 0)
    && decide (1 ≤ p.n) && decide (p.n ≤ 65536) && decide (1 ≤ p.rows) && decide (p.rows ≤ (if p.grouped then 65536 else 4096))
    && m.bufOk j p.x p.xBytes false && m.bufOk j p.y p.yBytes true
  let spans := descSpans j.desc
  let count := bits (field j.desc 34 1) 0 4
  if p.grouped then
    let there := decide (p.route.kind = 0) || j.host.any (fun c => decide (p.route.addr ≤ c.addr) && decide (c.addr < p.route.addr + max 1 p.routeBytes))
    shape && decide (count = 0) && decide (1 ≤ p.tokens) && decide (p.tokens ≤ 65536) && decide (1 ≤ p.nexp) && decide (p.nexp ≤ 1024)
      && m.bufOk j p.route p.routeBytes false && m.bufOk j p.experts p.expertBytes false
      && (!there || ((m.routes j).all (fun r => match r with | .ok q => decide (q.1 < p.tokens) && decide (q.2 < p.nexp) | .error _ => true)
        && (m.weightSegs j).all (fun s => fmtOk s.x && decide (p.n * p.cb ≤ s.len))))
  else
    shape && decide (1 ≤ count) && decide (count ≤ 8) && decide (p.n * p.cb ≤ sumOf (spans.map (fun s => 65536 * s.count)))
      && spans.all (fun s => decide (s.first < 4096) && decide (1 ≤ s.count) && decide (s.first + s.count ≤ 4096))
      && (m.segsOf j (p.n * p.cb) spans).all (fun s => fmtOk s.x)

/-! ## Starting (R229, R230, R233) -/

def LinP.inputs (p : LinP) : List (Buf × Nat × Nat) := [(p.x, p.xBytes, 1)]

/-- Home dies of the weights; the accepting die where nothing is named. -/
def Mach.linHomes (m : Mach) (d : Nat) (j : Job) : List Nat :=
  let p := linP j.desc
  let hs := if p.grouped then (m.weightSegs j).map (·.x.home)
    else (descSpans j.desc).filterMap (fun s => (m.byHandle s.handle).map (·.home))
  match distinct hs with
  | [] => [d]
  | hs => hs

/-- Scratch on the accepting die for the straddling columns of a split job. -/
def Mach.linScratch (m : Mach) (j : Job) : Nat := (linP j.desc).rows * 4 * m.straddles j

/-- The accepting die's scratch is held by a part of its own if it is no home. -/
def Mach.holdScratch (m : Mach) (d : Nat) (j : Job) (homes : List Nat) (n : Nat) : Mach :=
  if n = 0 ∨ homes.contains d then m
  else (m.updJob d j.num (fun k => { k with subs := k.subs ++ [⟨d, none, some 0, none, n, false, none, [], false, []⟩] })).showScratch d

/-- A LINEAR starts: its parts, its weight frames, x (R229, R230). -/
def Mach.linStart (m : Mach) (d : Nat) (j : Job) : Mach :=
  let p := linP j.desc
  let homes := m.linHomes d j
  let need := if homes.length ≤ 1 then 0 else m.linScratch j
  let onDie (h : Nat) : Nat := if h = d then need else 0
  if !m.roomFor d homes then m
  else m.withLists d j [(p.route, p.routeBytes), (p.experts, p.expertBytes)] (fun m => m.withScratch d j (if need = 0 then [] else [d]) onDie (fun m =>
    let m := ((m.readInputs d j p.inputs).startParts d j homes onDie).holdScratch d j homes need
    let m := homes.foldl (fun m h => (m.ungate h Reg.PWR_GATED.ENGINE 0).bump h Reg.OPS_LIN_JOBS.COUNT) m
    (m.weightSegs j).foldl (fun m s => if s.x.coded then m.needRun s.x (d, j.num) (m.ringCls j.ring) s.lo s.len else m) m))

/-- A plain LINEAR that the arm of `LINEAR` starts; grouped ones are the next meaning's. -/
def execLinear (d n : Nat) (s : State) : Host.Outcome State Fault Refusal :=
  s.onJobIf d n 0x20 (fun m j => linGrouped j.desc || m.linOk j) (fun m j => if linGrouped j.desc then m else m.linStart d j)

/-- A routing list in host memory is read before the job's home dies are known (R232, R233, R271). -/
def Job.routeHere (j : Job) : Bool :=
  let p := linP j.desc
  decide (p.route.kind = 0) || j.host.any (fun c => decide (p.route.addr ≤ c.addr) && decide (c.addr < p.route.addr + max 1 p.routeBytes))

/-- GROUPED_LINEAR (R232, R233). -/
def execGroupedLinear (d n : Nat) (s : State) : Host.Outcome State Fault Refusal :=
  s.onJobIf d n 0x20 (fun m j => !linGrouped j.desc || m.linOk j) (fun m j =>
    let p := linP j.desc
    if !linGrouped j.desc || !j.reads.isEmpty then m
    else if j.routeHere then m.linStart d j
    else if !m.bme j.ld then m.abortBus d j
    else m.hostRead d j p.route p.routeBytes 1)

/-! ## Output (R228, R247, R249, R250) -/

/-- One output row: its elements, and the poisoned ones with the first origin. -/
structure LinRow where
  vals : List Nat
  bad : List Nat
  why : Option (Option NoteRef)
deriving DecidableEq, Repr

/-- A poisoned row: its bytes are free values (log entry 20). -/
def Mach.poisonRow (m : Mach) (p : LinP) (o : Option NoteRef) : LinRow × Mach :=
  let c := m.choices p.n
  (⟨c.1.map (· % 2 ^ (8 * fmtBytes p.ofmt)), List.range p.n, some o⟩, c.2)

/-- Row `x` times the columns, each element within R250. -/
def Mach.linRow (m : Mach) (p : LinP) (xs : List Val) (cols : List (Except (Option NoteRef) (List Val))) : LinRow × Mach :=
  let c := m.choices p.n
  let one (i : Nat) : Nat := match cols.getD i (.error none) with
    | .ok w => let s := dot xs w; linearOut p.ofmt p.k s.1 s.2 (c.1.getD i 0)
    | .error _ => c.1.getD i 0 % 2 ^ (8 * fmtBytes p.ofmt)
  let bad := (List.range p.n).filter (fun i => match cols.getD i (.error none) with | .ok _ => false | .error _ => true)
  (⟨(List.range p.n).map one, bad, cols.findSome? (fun w => match w with | .ok _ => none | .error o => some o)⟩, c.2)

/-- The columns of the matrix that row r uses. -/
def Mach.linColumns (m : Mach) (p : LinP) (segs : List WSeg) : List (Except (Option NoteRef) (List Val)) :=
  (List.range p.n).map (m.column p segs)

/-- An uncorrectable stage error in x rows or accumulators poisons the output elements affected, a free run of one row (R249). -/
def Mach.spoilLinear (m : Mach) (p : LinP) (rs : List LinRow) : List LinRow × Mach :=
  let c := m.choices (3 + p.n)
  let row := c.1.getD 0 0 % max 1 rs.length
  let lo := c.1.getD 1 0 % max 1 p.n
  let hit := (List.range (1 + c.1.getD 2 0 % max 1 (p.n - lo))).map (lo + ·)
  (rs.zipIdx.map (fun x => if x.2 = row then
    ⟨x.1.vals.zipIdx.map (fun v => if hit.contains v.2 then c.1.getD (3 + v.2) 0 % 2 ^ (8 * fmtBytes p.ofmt) else v.1),
      distinct (x.1.bad ++ hit), match x.1.why with | some o => some o | none => some none⟩ else x.1), c.2)

/-- The stage writes of a LINEAR's x rows and accumulators on its home dies (R187, R249). -/
def Mach.linStage (m : Mach) (j : Job) (p : LinP) (rs : List LinRow) : List LinRow × Mach :=
  ((j.subs.filter (fun s => s.start.isSome)).map (·.home)).foldl (fun (acc : List LinRow × Mach) h =>
    let w := acc.2.stageWrite h
    if w.1 then w.2.spoilLinear p acc.1 else (acc.1, w.2)) (rs, m)

/-- y of a LINEAR. -/
def Mach.linearResult (m : Mach) (j : Job) : Result × Mach :=
  let p := linP j.desc
  let xv := m.bufVal j p.x p.xBytes
  let xRow (t : Nat) : Except (Option NoteRef) (List Val) := match xv.badIn (t * p.rowBytes) p.rowBytes with
    | some o => .error o
    | none => .ok ((toValues (fmtBytes p.xfmt) p.k (sub xv.bytes (t * p.rowBytes) p.rowBytes)).map (fpVal p.xfmt))
  let plain := if p.grouped then [] else m.linColumns p (m.weightSegs j)
  let per : List (Nat × List (Except (Option NoteRef) (List Val))) :=
    if p.grouped then (m.named j).map (fun e => (e, m.linColumns p (m.expertSegs j e))) else []
  let routes := if p.grouped then m.routes j else (List.range p.rows).map (fun r => Except.ok (r, 0))
  let all := if p.grouped then m.expertPoison j else none
  let one (acc : List LinRow × Mach) (r : Except (Option NoteRef) (Nat × Nat)) : List LinRow × Mach :=
    let q : LinRow × Mach := match all, r with
      | some o, _ => acc.2.poisonRow p o
      | none, .error o => acc.2.poisonRow p o
      | none, .ok (t, e) => match xRow t with
        | .error o => acc.2.poisonRow p o
        | .ok xs => acc.2.linRow p xs (if p.grouped then ((per.find? (fun w => decide (w.1 = e))).map (·.2)).getD [] else plain)
    (acc.1 ++ [q.1], q.2)
  let rs := routes.foldl one ([], m)
  let rs := rs.2.linStage j p rs.1
  let ob := fmtBytes p.ofmt
  let bad := (rs.1.zipIdx.flatMap (fun x => x.1.bad.map (fun i => ((x.2 * p.n + i) * ob, ob))))
  (⟨[⟨p.y, 0, rs.1.flatMap (fun r => r.vals.flatMap (leBytes ob)), bad⟩], rs.1.findSome? (·.why), []⟩, rs.2)

/-- Coded weight bytes delivered on a home die (OPS_LIN_WBYTES): each coded frame once, times one more than a free choice,
since how often W is read again is the device's (R231). -/
def Mach.countWeights (m : Mach) (j : Job) (h : Nat) : Mach :=
  let frames := distinct (((m.weightSegs j).filter (fun s => decide (s.x.home = h) && s.x.coded && decide (0 < s.len))).flatMap (fun s =>
    (List.range ((s.lo + s.len + 65535) / 65536 - s.lo / 65536)).map (fun i => (s.x.num, s.lo / 65536 + i))))
  let n := sumOf (frames.map (fun f =>
    let e := m.entry h f.1 f.2
    if e.state = .zero ∨ e.state = .lost then 0 else 64 * sumOf e.counts))
  (m.bump h Reg.OPS_LIN_WBYTES.COUNT (n * (1 + m.choice % 256))).chosen

end Sys2Proof.Machine
end

