-- ==== Sys2Proof/Machine/DataOps.lean ====
section
/-! DEFINITION. The other operations' starts and progress: SEAL (R58 to R62), PREFETCH, PIN, UNPIN (R96 to R99), GATHER, COPY
(R240 to R242), INGEST (R236 to R239), REPLICATE (R243 to R245, R486). -/

namespace Sys2Proof.Machine

/-- What a job delivers: its output segments, the first poison, whether it did only part and the pennant that says why. -/
structure JobEnd where
  segs : List OutSeg
  poison : Option (Option NoteRef)
  part : Bool
  why : Option NoteRef
deriving DecidableEq, Repr

def JobEnd.plain : JobEnd := ⟨[], none, false, none⟩

def Job.acc (j : Job) (d : Nat) : Nat × Nat := (d, j.num)

/-- The LOST frames of an extent, in order. -/
def Mach.lostFrames (m : Mach) (h ext : Nat) : List Nat :=
  ((m.die h).tier.map.filter (fun p => decide (p.1 / 4160 = ext) && decide (p.2.state = .lost) && decide (p.1 % 4160 < 4096))).map (·.1 % 4160)

/-- Poison of an extent's LOST frames, as a job that leaves them meets it. -/
def Mach.lostPoison (m : Mach) (h ext : Nat) : Option (Option NoteRef) := ((m.lostFrames h ext).head?).map (m.lostRef h ext)

/-- The dimension code of block summaries for a ring class (R198). -/
def Mach.classDim (m : Mach) (d c : Nat) : Nat := m.rd d (Reg.OPS_CLASS_ATT.SUMMARY_DIM c)

/-- The sum of the sector counts of an extent's stored frames (R239's result record). -/
def Mach.sectorSum (m : Mach) (h ext : Nat) : Nat :=
  sumOf (((m.die h).tier.map.filter (fun p => decide (p.1 / 4160 = ext) && decide (p.1 % 4160 < 4096) && (p.2.inT2 || p.2.inT3))).map
    (fun p => sumOf p.2.counts))

/-! ## SEAL -/

def sealOk (_ : Mach) (j : Job) : Bool :=
  decide (field j.desc 36 1 ≤ 4) && (decide (field j.desc 37 1 = 0) || (decide (4 ≤ field j.desc 37 1) && decide (field j.desc 37 1 ≤ 12)))

/-- Is the extent still open data, so that a SEAL seals it? -/
def Extent.sealable (x : Extent) : Bool := decide (x.state = .opened) || (decide (x.state = .releasing) && decide (x.was = .opened))

/-- The job has its extent; every host copy of a shared extent is back-invalidated (R59). -/
def Mach.beginSeal (m : Mach) (d : Nat) (j : Job) (x : Extent) (ts : Nat) : Mach :=
  let m := (m.updJob d j.num (fun k => { k with ext := some x.num })).ungate x.home Reg.PWR_GATED.ENCODER 0
  let m := if x.state = .opened then
      ((m.extLost x.num).updExt x.num (fun y => { y with state := .sealing, sealedAt := ts })).extPennant x .sealing
    else m.updExt x.num (fun y => { y with was := .sealing, sealedAt := ts })
  let m := m.note x.home uTier pSeal 0 [x.handle, ts]
  ((m.die x.home).coh.filter.filter (fun (e : SfEntry) => decide (e.ext = x.num))).foldl (fun (m : Mach) (e : SfEntry) =>
    e.holders.foldl (fun m h => m.snoop x.home x.num e.line h true .seal) m) m

/-- The SEAL starts on the home die: its start stamp is the seal stamp (R58); on an extent that is SEALING or SEALED it changes
nothing (R61). -/
def Mach.sealStart (m : Mach) (d : Nat) (j : Job) : Mach :=
  match m.byHandle (field j.desc 32 4) with
  | none => m.startParts d j [d] (fun _ => 0)
  | some x =>
    let m := m.startParts d j [x.home] (fun _ => 0)
    if x.sealable then m.beginSeal d j x (((m.job? d j.num).bind (·.start)).getD 0) else m

/-- SEAL (R58, R59, R61). -/
def execSeal (d n : Nat) (s : State) : Host.Outcome State Fault Refusal := s.onJobIf d n 0x40 sealOk (fun m j => m.sealStart d j)

/-- Frames with a T1 copy to encode. -/
def Mach.openFrames (m : Mach) (h ext : Nat) : List Nat :=
  ((m.die h).tier.map.filter (fun p => decide (p.1 / 4160 = ext) && p.2.inT1 && decide (p.1 % 4160 < 4096))).map (·.1 % 4160)

/-- Every answer has come, no earlier write of the extent waits, and every frame can be read (R58 to R60). -/
def Mach.sealReady (m : Mach) (h ext : Nat) : Ready × Mach :=
  let ts := ((m.ext? ext).map (·.sealedAt)).getD 0
  let early (r : Waiting) (t : Nat) : Bool := r.isStore && decide (r.pair.2 = ext) && decide (t < ts)
  if (m.die h).coh.bis.any (fun b => decide (b.ext = ext)) || (m.die h).coh.waits.any (fun w => early w.req w.ingress)
      || (m.die h).coh.held.any (fun w => early w.req w.ingress)
      || (m.die h).dram.chans.any (fun c => c.waiting.any (fun w => early w.req w.ingress)) then (.wait, m)
  else readyAll m (fun m f =>
    let g := m.getBytes h 3 (65536 * (m.entry h ext f).t1Slot) 65536
    (if g.1.isSome then .yes else .wait, g.2)) (m.openFrames h ext)

def Mach.sealSource (m : Mach) (h ext : Nat) : List SrcFrame :=
  (m.openFrames h ext).map (fun f =>
    let a := 65536 * (m.entry h ext f).t1Slot
    ⟨f, m.peekBytes h a 65536, (List.range 1024).any (fun i => m.peekPoison h (a + 64 * i))⟩)

/-- The SEAL's two passes and its end; none while T2 has no space (R60, R61). -/
def Mach.sealEnd (m : Mach) (j : Job) : Option JobEnd × Mach :=
  match j.ext.bind m.ext? with
  | none => (some JobEnd.plain, m)
  | some x =>
    let h := x.home
    let src := m.sealSource h x.num
    let m := m.countPoison h (src.filter (·.bad)).length
    match m.encodeExtent h x (field j.desc 36 1) (m.spanOf h (field j.desc 37 1)) (m.classDim h (m.ringCls j.ring)) src with
    | none => (none, m)
    | some m =>
      let m := m.sealDone x.num
      (some ⟨[], m.lostPoison h x.num, false, none⟩, m)

/-! ## PREFETCH, PIN, UNPIN -/

/-- Shape of R182's body; TIER 1 or 2, or 0 for UNPIN. -/
def tierOk (_ : Mach) (j : Job) : Bool :=
  let t := field j.desc 32 1
  let n := field j.desc 33 1
  (if j.op = 0x43 then decide (t = 0) else decide (t = 1) || decide (t = 2)) && decide (1 ≤ n) && decide (n ≤ 12)
    && (descSpans j.desc).all (fun s => decide (s.first < 4096) && decide (1 ≤ s.count) && decide (s.first + s.count ≤ 4096))

/-- The frames of sealed extents that the spans name, in order (R96 to R98). -/
def Mach.tierFrames (m : Mach) (j : Job) : List (Extent × Nat) :=
  (descSpans j.desc).flatMap (fun s => match m.byHandle s.handle with
    | some x => if x.coded then (List.range s.count).map (fun i => (x, s.first + i)) else []
    | none => [])

def Mach.tierHomes (m : Mach) (d : Nat) (j : Job) : List Nat :=
  match distinct ((descSpans j.desc).filterMap (fun s => (m.byHandle s.handle).map (·.home))) with
  | [] => [d]
  | hs => hs

/-- Does the frame hold what a job asked for in tier t? A LOST or ZERO frame has nothing to hold. -/
def Mach.inTier (m : Mach) (x : Extent) (idx t : Nat) : Bool :=
  let e := m.entry x.home x.num idx
  decide (e.state = .zero) || decide (e.state = .lost)
    || (if t = 1 then e.inT1 && m.avail x.home x.num idx 1 else m.hasT2 x.home x.num idx)

/-- A frame asked for in tier t (R94, R96, R97). -/
def Mach.wantFrame (m : Mach) (acc : Nat × Nat) (x : Extent) (idx t : Nat) (retained : Bool) : Mach :=
  let e := m.entry x.home x.num idx
  if m.inTier x idx t then m
  else if t = 1 && m.hasT2 x.home x.num idx then m.promoteT1 x.home x.num idx retained
  else if e.inT3 then m.needFetch x.home x.num idx 2 .toT2 (decide (t = 1)) none (some acc)
  else m

/-- PREFETCH starts (R96). -/
def Mach.prefetchStart (m : Mach) (d : Nat) (j : Job) : Mach :=
  let m := m.startParts d j (m.tierHomes d j) (fun _ => 0)
  (m.tierFrames j).foldl (fun m f =>
    (m.touch f.1.home f.1.num f.2 (m.rd f.1.home Reg.TIER_THRESH.JOB_INC)).wantFrame (j.acc d) f.1 f.2 (field j.desc 32 1) false) m

/-- PREFETCH (R96, R182). -/
def execPrefetch (d n : Nat) (s : State) : Host.Outcome State Fault Refusal := s.onJobIf d n 0x41 tierOk (fun m j => m.prefetchStart d j)

def Job.pinOf (j : Job) (f : Extent × Nat) : Pin := ⟨some j.ring, f.1.num, f.2, field j.desc 32 1⟩

/-- A pinned frame that is not in its tier is fetched, which touches it (R91, R97). -/
def Mach.touchWant (m : Mach) (acc : Nat × Nat) (x : Extent) (idx t : Nat) : Mach :=
  if m.inTier x idx t then m
  else (m.touch x.home x.num idx (m.rd x.home Reg.TIER_THRESH.JOB_INC)).wantFrame acc x idx t true

/-- A home die's pins, in order, up to the first that may not be made (R98). -/
def Mach.pinPart (m : Mach) (d : Nat) (j : Job) (h : Nat) : Mach :=
  let step (acc : Bool × Mach) (f : Extent × Nat) : Bool × Mach :=
    if acc.1 || decide (f.1.home ≠ h) || decide ((acc.2.entry h f.1.num f.2).state = .lost) then acc
    else if acc.2.canPin h (j.pinOf f) then (false, (acc.2.addPin h (j.pinOf f)).touchWant (j.acc d) f.1 f.2 (field j.desc 32 1))
    else (true, acc.2)
  let r := (m.tierFrames j).foldl step (false, m)
  if r.1 then r.2.updJob d j.num (fun k => { k with
    subs := updWhere (fun s => decide (s.home = h)) (fun s => { s with missed := true }) k.subs, part := true })
  else r.2

/-- PIN starts (R97, R98). -/
def Mach.pinStart (m : Mach) (d : Nat) (j : Job) : Mach :=
  let hs := m.tierHomes d j
  hs.foldl (fun m h => m.pinPart d j h) (m.startParts d j hs (fun _ => 0))

/-- PIN (R97, R98, R182). -/
def execPin (d n : Nat) (s : State) : Host.Outcome State Fault Refusal := s.onJobIf d n 0x42 tierOk (fun m j => m.pinStart d j)

/-- UNPIN starts: the ring's pins on the frames end (R99). -/
def Mach.unpinStart (m : Mach) (d : Nat) (j : Job) : Mach :=
  let hs := m.tierHomes d j
  let m := m.startParts d j hs (fun _ => 0)
  let fs := m.tierFrames j
  hs.foldl (fun m h => m.dropPins h (fun p => decide (p.ring = some j.ring)
    && fs.any (fun f => decide (f.1.home = h) && decide (f.1.num = p.ext) && decide (f.2 = p.idx)))) m

/-- UNPIN (R99, R182). -/
def execUnpin (d n : Nat) (s : State) : Host.Outcome State Fault Refusal := s.onJobIf d n 0x43 tierOk (fun m j => m.unpinStart d j)

/-- Is a DRAM byte on a retention-set device? -/
def Mach.onRetained (m : Mach) (d a : Nat) : Bool := (m.retained d).contains (a / m.devBytes d)

/-- A pinned copy moves onto a retention-set device (R83, R97); none while there is no place. -/
def Mach.moveT2 (m : Mach) (h ext idx : Nat) : Option Mach :=
  let e := m.entry h ext idx
  if m.onRetained h (256 * e.t2Loc) then some m
  else match m.alloc h (256 * e.granules) 256 true with
    | none => none
    | some a =>
      let g := m.chosen.getBytes h 2 (256 * e.t2Loc) (256 * e.granules)
      match g.1 with
      | none => none
      | some (bs, p) => some ((g.2.writeBytes h 2 a bs p).updEntry h ext idx (fun e => { e with t2Loc := a / 256 }))

def Mach.moveT1 (m : Mach) (h ext idx : Nat) : Option Mach :=
  let e := m.entry h ext idx
  if m.onRetained h (65536 * e.t1Slot) then some m
  else match m.alloc h 65536 65536 true with
    | none => none
    | some a =>
      let g := m.chosen.getBytes h 2 (65536 * e.t1Slot) 65536
      match g.1 with
      | none => none
      | some (bs, p) => some ((g.2.writeBytes h 2 a bs p).updEntry h ext idx (fun e => { e with t1Slot := a / 65536 }))

/-- A frame's copies moved to devices whose content is kept: T2's, and T1's for a T1 pin; it waits for space. -/
def Mach.moveTo (m : Mach) (x : Extent) (idx t : Nat) : Ready × Mach :=
  match (m.moveT2 x.home x.num idx).bind (fun m => if t = 1 then m.moveT1 x.home x.num idx else some m) with
  | some m => (.yes, m)
  | none => (.wait, m)

/-- A pinned frame is where its pin wants it. -/
def Mach.settlePin (m : Mach) (acc : Nat × Nat) (x : Extent) (idx t : Nat) : Ready × Mach :=
  let e := m.entry x.home x.num idx
  if e.state = .zero ∨ e.state = .lost then (.yes, m)
  else if !m.inTier x idx t then (.wait, m.wantFrame acc x idx t true)
  else m.moveTo x idx t

/-- A home die's part of a PREFETCH or PIN. -/
def Mach.tierPart (m : Mach) (d : Nat) (j : Job) (h : Nat) : Ready × Mach :=
  let t := field j.desc 32 1
  let fs := (m.tierFrames j).filter (fun f => decide (f.1.home = h))
  match j.op with
  | 0x41 => readyAll m (fun m f => if m.inTier f.1 f.2 t || j.reached.contains (t, f.1.num, f.2) then (.yes, m) else (.wait, m.wantFrame (j.acc d) f.1 f.2 t false)) fs
  | 0x42 => readyAll m (fun m f => if (m.die h).tier.pins.any (j.pinOf f).same then m.settlePin (j.acc d) f.1 f.2 t else (.yes, m)) fs
  | _ => (.yes, m)

/-- The LOST frames that a PREFETCH or PIN met (R96, R98) (log entry 96). -/
def Mach.tierPoison (m : Mach) (j : Job) : Option (Option NoteRef) :=
  if j.op = 0x43 then none
  else (m.tierFrames j).findSome? (fun f =>
    if (m.entry f.1.home f.1.num f.2).state = .lost then some (m.lostRef f.1.home f.1.num f.2) else none)

/-! ## GATHER and COPY -/

def gatherLo (j : Job) : Nat := field j.desc 40 8
def gatherDst (j : Job) : Buf := bufAt j.desc 48

def gatherOk (m : Mach) (j : Job) : Bool :=
  let b := gatherDst j
  decide (gatherLo j % 64 = 0) && decide (b.len % 64 = 0) && decide (gatherLo j + b.len ≤ 2 ^ 28) && m.bufOk j b b.len true

/-- The source of a GATHER, as the job reads it. -/
def Mach.gatherSrc (m : Mach) (j : Job) : Option Extent := (m.byHandle (field j.desc 32 4)).map (m.jobExt j)

/-- GATHER starts on the source's home die: frames held only in T3 are fetched (R240). -/
def Mach.gatherStart (m : Mach) (d : Nat) (j : Job) : Mach :=
  match m.gatherSrc j with
  | none => m.startParts d j [d] (fun _ => 0)
  | some x =>
    let m := m.startParts d j [x.home] (fun _ => 0)
    if x.coded then m.needRun x (j.acc d) (m.ringCls j.ring) (gatherLo j) (gatherDst j).len else m

/-- GATHER (R240). -/
def execGather (d n : Nat) (s : State) : Host.Outcome State Fault Refusal := s.onJobIf d n 0x30 gatherOk (fun m j => m.gatherStart d j)

def copySrc (j : Job) : Buf := bufAt j.desc 48
def copyDst (j : Job) : Buf := bufAt j.desc 64

def copyOk (m : Mach) (j : Job) : Bool :=
  let a := copySrc j
  let b := copyDst j
  decide (a.len = b.len) && decide (a.len % 64 = 0) && m.bufOk j a a.len false && m.bufOk j b b.len true
    && !(decide (a.kind = b.kind) && overlaps a.addr a.len b.addr b.len)

/-- Home dies of a device-kind source; the accepting die for host memory. -/
def Mach.copyHomes (m : Mach) (d : Nat) (j : Job) : List Nat :=
  match distinct ((m.devParts j (copySrc j) (copySrc j).len).map (·.1.home)) with
  | [] => [d]
  | hs => hs

/-- COPY starts (R241, R242). -/
def Mach.copyStart (m : Mach) (d : Nat) (j : Job) : Mach :=
  (m.readInputs d j [(copySrc j, (copySrc j).len, 1)]).startParts d j (m.copyHomes d j) (fun _ => 0)

/-- COPY (R241, R242). -/
def execCopy (d n : Nat) (s : State) : Host.Outcome State Fault Refusal := s.onJobIf d n 0x32 copyOk (fun m j => m.copyStart d j)

/-- The bytes written by a home die count there (OPS_DATA_BYTES). -/
def Mach.countData (m : Mach) (h n : Nat) : Mach := m.bump h Reg.OPS_DATA_BYTES.COUNT n

def Mach.gatherEnd (m : Mach) (j : Job) : Option JobEnd × Mach :=
  match m.gatherSrc j with
  | none => (some JobEnd.plain, m)
  | some x =>
    let n := (gatherDst j).len
    let v := m.runVal x.home x (gatherLo j) n
    let bad := v.bad.map (fun b => (64 * b.1 - gatherLo j, 64))
    (some ⟨[⟨gatherDst j, 0, v.bytes, bad⟩], (v.bad.head?).map (·.2), false, none⟩, (m.countData x.home n).countPoison x.home v.bad.length)

def Mach.copyEnd (m : Mach) (d : Nat) (j : Job) : Option JobEnd × Mach :=
  let a := copySrc j
  let v := m.bufVal j a a.len
  let parts := m.devParts j a a.len
  let m := if parts.isEmpty then m.countData d a.len else parts.foldl (fun m p => m.countData p.1.home p.2.2) m
  let m := parts.foldl (fun m p => m.countPoison p.1.home (m.runVal p.1.home p.1 p.2.1 p.2.2).bad.length) m
  (some ⟨[⟨copyDst j, 0, v.bytes, v.bad.map (fun b => (b.1, b.2.1))⟩], (v.bad.head?).map (·.2.2), false, none⟩, m)

/-! ## INGEST (R236 to R239) -/

def ingestSrc (j : Job) : Buf := bufAt j.desc 48
def resBuf (j : Job) : Buf := bufAt j.desc 64

def ingestOk (m : Mach) (j : Job) : Bool :=
  let b := ingestSrc j
  decide (64 ≤ b.len) && decide (b.len ≤ 2 ^ 28) && decide (b.len % 64 = 0) && m.bufOk j b b.len false && m.bufOk j (resBuf j) 16 true
    && sealOk m { j with desc := j.desc.take 36 ++ [j.desc.getD 32 0, j.desc.getD 33 0] } && decide (field j.desc 34 1 ≤ 1)

/-- Checks 1, 2 and 4 of R48, the last after the home die is chosen: the check that fails, or slot and home. -/
def Mach.ingestChecks (m : Mach) (j : Job) : Except Nat (Nat × Nat) :=
  let sl := field j.desc 36 4
  match m.slotFor j.ld (field j.desc 34 1) (if sl = 0xFFFFFFFF then none else some sl) with
  | none => .error 1
  | some k =>
    if !m.quotaOk j.ld then .error 2
    else match m.placement j.ld m.sealedRoom with
      | none => .error 4
      | some h => .ok (k, h)

/-- INGEST starts on the accepting die. -/
def Mach.ingestStart (m : Mach) (d : Nat) (j : Job) : Mach :=
  let m := m.startParts d j [d] (fun _ => 0)
  match m.ingestChecks j with
  | .error c =>
    let q := (m.die m.ens).nextSeq
    (m.refuse c).updJob d j.num (fun k => { k with part := true, why := some ⟨m.ens, q⟩ })
  | .ok (k, h) => match m.freeNumber with
    | none => m
    | some num =>
      let m := (m.chosen.newExtent num h .sealing (decide (field j.desc 34 1 = 1)) false).ungate h Reg.PWR_GATED.ENCODER 0
      let m := m.updJob d j.num (fun x => { x with ext := some num, resv := some (field j.desc 34 1, k) })
      let m := m.updExt num (fun x => { x with sealedAt := m.stamp h })
      m.readInputs d j [(ingestSrc j, (ingestSrc j).len, 1)]

/-- INGEST (R236, R237). -/
def execIngest (d n : Nat) (s : State) : Host.Outcome State Fault Refusal := s.onJobIf d n 0x31 ingestOk (fun m j => m.ingestStart d j)

/-- A result record (R239). -/
def resultRecord (handle slot sectors : Nat) : List Byte := leBytes 4 handle ++ leBytes 4 slot ++ leBytes 4 sectors ++ leBytes 4 0

/-- The record of a job that made nothing: the words beside HANDLE are free. -/
def Mach.failRecord (m : Mach) : List Byte × Mach :=
  let c := m.choices 2
  (resultRecord 0xFFFFFFFF (c.1.getD 0 0) (c.1.getD 1 0), c.2)

/-- Source frames, zeros beyond LENGTH (R237). -/
def srcFrames (v : BufVal) (n : Nat) : List SrcFrame :=
  (List.range ((n + 65535) / 65536)).map (fun f =>
    let bs := sub v.bytes (65536 * f) 65536
    ⟨f, bs ++ List.replicate (65536 - bs.length) 0, (v.badIn (65536 * f) 65536).isSome⟩)

/-- The encoder's passes over the source, the seal, the offer and the record; none while T2 has no space. -/
def Mach.ingestEnd (m : Mach) (j : Job) : Option JobEnd × Mach :=
  match j.ext.bind m.ext?, j.resv with
  | some x, some (region, slot) =>
    let h := x.home
    let n := (ingestSrc j).len
    let v := m.bufVal j (ingestSrc j) n
    match m.encodeExtent h x (field j.desc 32 1) (m.spanOf h (field j.desc 33 1)) (m.classDim h (m.ringCls j.ring)) (srcFrames v n) with
    | none => (none, m)
    | some m =>
      let m := ((m.sealDone x.num).countData h n).offer j.ld region slot x.num
      (some ⟨[⟨resBuf j, 0, resultRecord x.handle slot (m.sectorSum h x.num), []⟩],
        ((v.bad.head?).map (·.2.2)), false, none⟩, m)
  | _, _ =>
    let r := m.failRecord
    (some ⟨[⟨resBuf j, 0, r.1, []⟩], none, true, j.why⟩, r.2)

/-! ## REPLICATE (R243 to R245, R486, R487) -/

/-- MODE of a REPLICATE descriptor (R243): 0 PUSH, 1 REPAIR. -/
def replMode (j : Job) : Nat := field j.desc 36 1

/-- PACKAGE of a REPLICATE descriptor (R243). -/
def replPkg (j : Job) : Nat := field j.desc 37 1

def replOk (m : Mach) (j : Job) : Bool :=
  decide (replMode j ≤ 1) && (match m.byHandle (field j.desc 32 4) with | some x => x.coded | none => false)
    && (if replMode j = 0 then decide (replPkg j ≤ 31) && decide (field j.desc 38 1 ≤ 1) && decide (field j.desc 40 2 ≤ 127)
          && m.bufOk j (resBuf j) 16 true
        else decide (replPkg j ≤ 31) || decide (replPkg j = 255))

/-- REPLICATE jobs of extents homed on die h: all of them, as (accepting die, job). -/
def Mach.replJobs (m : Mach) (h : Nat) : List Job :=
  (List.range m.n).flatMap (fun d => (m.jobs d).filter (fun j => decide (j.op = 0x50) && !j.pre
    && (match m.byHandle (field j.desc 32 4) with | some x => decide (x.home = h) | none => false)))

/-- OPS_REPL_STATUS. -/
def Mach.showRepl (m : Mach) (h : Nat) : Mach :=
  let js := m.replJobs h
  (m.wr h Reg.OPS_REPL_STATUS.RUNNING (min 16 (js.filter (·.start.isSome)).length)).wr h Reg.OPS_REPL_STATUS.WAITING
    (min 65535 (js.filter (fun j => j.start.isNone && j.abort.isNone)).length)

/-- At most 16 run on a die; the others start in accept order (R243). -/
def Mach.replTurn (m : Mach) (h : Nat) (j : Job) : Bool :=
  let js := m.replJobs h
  decide ((js.filter (·.start.isSome)).length < 16)
    && !js.any (fun k => k.start.isNone && k.abort.isNone && decide (k.accept < j.accept))

/-- Is PACKAGE a joined member? A worker learns it from the ensign package: a free choice. -/
def Mach.memberPkg (m : Mach) (p : Nat) : Bool × Mach :=
  if !m.inPool || p = m.pw.poolId then (false, m)
  else if m.pool.role = 1 then (m.pool.members.any (fun k => decide (k.pkg = p)), m)
  else (decide (m.choice % 2 = 1), m.chosen)

/-- A PUSH fails: its pennant, and PARTIAL (R244, R397). -/
def Mach.pushFail (m : Mach) (d : Nat) (j : Job) (x : Extent) (detail : Nat) : Mach :=
  let q := (m.die x.home).nextSeq
  (m.note x.home uMgmt pPushFail detail [x.handle, replPkg j]).updJob d j.num (fun k => { k with part := true, why := some ⟨x.home, q⟩ })

/-- Jobs that push an extent and have begun to send. -/
def Mach.pushesOf (m : Mach) (x : Extent) : List (Nat × Job) :=
  (List.range m.n).flatMap (fun d => ((m.jobs d).filter (fun j => decide (j.op = 0x50) && decide (replMode j = 0) && j.sending && !j.part
    && decide (field j.desc 32 4 = x.handle))).map (fun j => (d, j)))

/-- A REPLICATE starts, or without Bus Master Enable is stopped (R243). -/
def Mach.replStart (m : Mach) (d : Nat) (j : Job) (f : Mach → Extent → Mach) : Mach :=
  match m.byHandle (field j.desc 32 4) with
  | none => m
  | some x =>
    if !m.replTurn x.home j then m.showRepl x.home
    else if !m.bme j.ld then (m.abortBus d j).showRepl x.home
    else (f (m.startParts d j [x.home] (fun _ => 0)) x).showRepl x.home

/-- REPLICATE_PUSH (R243, R244). -/
def execReplicatePush (d n : Nat) (s : State) : Host.Outcome State Fault Refusal :=
  s.onJobIf d n 0x50 (fun m j => decide (replMode j ≠ 0) || replOk m j) (fun m j =>
    if replMode j ≠ 0 then m
    else m.replStart d j (fun m x => let r := m.memberPkg (replPkg j); if r.1 then r.2 else r.2.pushFail d j x 5))

/-- REPLICATE_REPAIR (R243, R245). -/
def execReplicateRepair (d n : Nat) (s : State) : Host.Outcome State Fault Refusal :=
  s.onJobIf d n 0x50 (fun m j => decide (replMode j ≠ 1) || replOk m j) (fun m j =>
    if replMode j ≠ 1 then m else m.replStart d j (fun m _ => m))

/-- The OPEN message and the frames' coded sectors leave for the target (R486 steps 1, 3, 4, 6). Message kinds 7 OPEN, 8
FRAME_DONE, 9 CLOSE. -/
def Mach.sendPush (m : Mach) (j : Job) (x : Extent) : Mach :=
  let h := x.home
  let p := replPkg j
  let m := m.send (.pool 7 p (m.stamp h) ([(m.originOf x).1, (m.originOf x).2, x.handle, x.format, x.dim, field j.desc 40 2, field j.desc 38 1, field j.desc 48 4]
    ++ ((m.headerOf h x).getD []).map BitVec.toNat))
  let stored := (m.die h).tier.map.filter (fun q => decide (q.1 / 4160 = x.num))
  let m := stored.zipIdx.foldl (fun m q =>
    let e := q.1.2
    let idx := q.1.1 % 4160
    let bs := if e.state = .lost then [] else if e.inT3 then m.flashBytes h e.t3Loc (64 * sumOf e.counts) else m.peekBytes h (256 * e.t2Loc) (64 * sumOf e.counts)
    (m.send (.poolFrame p (q.2 % 16) idx (bs.map BitVec.toNat))).send (.pool 8 p (m.stamp h) (idx :: (if e.state = .lost then [] else e.counts)))) m
  m.send (.pool 9 p (m.stamp h) [x.handle])

/-- The PUSH goes on: it waits until the extent is settled, sends, and then hears from the target, which is a free choice:
confirmed with the target's handle and slot, or refused (1), a frame failed twice (3), a restart or a lost link (4) (R244, R487). -/
def Mach.pushEnd (m : Mach) (d : Nat) (j : Job) (x : Extent) : Option JobEnd × Mach :=
  if j.part then
    let r := m.failRecord
    (some ⟨[⟨resBuf j, 0, r.1, []⟩], none, true, j.why⟩, r.2)
  else if !x.settled then (none, m)
  else if !j.sending then (none, (m.sendPush j x).updJob d j.num (fun k => { k with sending := true }))
  else
    let c := m.choices 3
    let m := c.2
    match c.1.getD 0 0 % 4 with
    | 0 => (some ⟨[⟨resBuf j, 0, resultRecord (c.1.getD 1 0 % 2 ^ 28) (c.1.getD 2 0 % 2 ^ 32) (m.sectorSum x.home x.num), []⟩],
        m.lostPoison x.home x.num, false, none⟩, m.note x.home uMgmt pReplicate)
    | k =>
      let m := m.pushFail d j x (if k = 1 then 1 else k + 1)
      let r := m.failRecord
      (some ⟨[⟨resBuf j, 0, r.1, []⟩], none, true, (m.job? d j.num).bind (·.why)⟩, r.2)

/-- Copies of a REPAIR that are not yet durable. -/
def Mach.repairing (m : Mach) (h : Nat) (j : Job) (e : Nat) : Bool :=
  (m.fl h).copies.any (fun c => match c.kind with | .repair k _ n => decide (k = e) && decide (n = j.num) | _ => false)

/-- Packages whose replicas a REPAIR looks at, in the directory's order; a worker hears them from the ensign package, which is a
free choice (R245, R485, log entry 110). -/
def Mach.repairSources (m : Mach) (j : Job) (x : Extent) : List Nat × Mach :=
  let listed := distinct ((m.copiesOf m.pw.poolId (m.originOf x)).map (·.pkg))
  if !m.inPool then ([], m)
  else if m.pool.role = 1 then (if replPkg j = 255 then listed else listed.filter (fun p => decide (p = replPkg j)), m)
  else
    let c := m.choice
    (if c % 2 = 0 then [] else [if replPkg j = 255 then c / 2 % 32 else replPkg j], m.chosen.send (.pool 5 0 (m.stamp m.ens) [(m.originOf x).1, (m.originOf x).2, 0]))

/-- A replica's header, which it sends, equals the local one in every table record (R133, R245). -/
def Mach.replicaMatches (m : Mach) (x : Extent) : Bool × Mach :=
  match m.headerOf x.home x with
  | none => (false, m)
  | some h =>
    let r := m.freeBytes h.length
    (decide (sub r.1 6 2 = sub h 6 2) && decide (r.1.drop 16 = h.drop 16), r.2)

/-- The replica that a REPAIR uses: the first that matches. -/
def Mach.chooseReplica (m : Mach) (j : Job) (x : Extent) : Option Nat × Mach :=
  let c := m.repairSources j x
  c.1.foldl (fun (acc : Option Nat × Mach) p =>
    if acc.1.isSome then acc
    else
      let r := acc.2.replicaMatches x
      (if r.1 then some p else none, r.2)) (none, c.2)

/-- A LOST frame fetched from the replica: what it sends is free, and is kept only if every block passes the checks against the
local frame-map entry (R140, R245). -/
def Mach.repairFrame (m : Mach) (j : Job) (x : Extent) (idx : Nat) : Mach :=
  let h := x.home
  let e := m.entry h x.num idx
  let r := m.freeBytes (256 * e.granules)
  match r.2.decodeCopy h x e r.1 with
  | .ok _ => r.2.append h ⟨.repair x.num idx j.num, .settling, none, r.1⟩
  | .error _ => r.2

/-- The REPAIR goes on, frame by frame (R245, R281): a replica is chosen while a frame is LOST; each frame is fetched and written to
T3 before the next; then the frames that stay LOST decide. -/
def Mach.repairEnd (m : Mach) (d : Nat) (j : Job) (x : Extent) : Option JobEnd × Mach :=
  let h := x.home
  let lost := m.lostFrames h x.num
  let ended (m : Mach) : Option JobEnd × Mach := (some ⟨[], none, !lost.isEmpty, lost.head?.bind (m.lostRef h x.num)⟩, m)
  if m.repairing h j x.num then (none, m)
  else match j.replica with
    | none =>
      if lost.isEmpty || !m.flashOk h then ended m
      else
        let c := m.chooseReplica j x
        match c.1 with
        | none => ended c.2
        | some p => (none, c.2.updJob d j.num (fun k => { k with replica := some (p, []) }))
    | some (p, tried) =>
      match lost.find? (fun f => !tried.contains f) with
      | none => ended m
      | some f => (none, (m.updJob d j.num (fun k => { k with replica := some (p, f :: tried) })).repairFrame j x f)

def Mach.replEnd (m : Mach) (d : Nat) (j : Job) : Option JobEnd × Mach :=
  match m.byHandle (field j.desc 32 4) with
  | none => (some JobEnd.plain, m)
  | some x => if replMode j = 0 then m.pushEnd d j x else m.repairEnd d j x

end Sys2Proof.Machine
end

