-- ==== Sys2Proof/Machine/Finish.lean ====
section
/-! DEFINITION. The ends of jobs: NOP and FENCE (R177, R180), sub-jobs (R33 to R35), JOB_FINISH (R173, R249), and upstream read
completions (R271, R272). -/

namespace Sys2Proof.Machine

/-! ## What a job still needs -/

/-- Output buffers with the bytes that a job writes there. -/
def Mach.outBufs (_ : Mach) (j : Job) : List (Buf × Nat) :=
  let ds := j.desc
  let a := attP ds
  (match j.op with
  | 0x10 => [(a.o, a.rows * a.dim * fmtBytes a.ofmt), (a.ml, 8 * a.rows)]
  | 0x11 => (a.o, 4 * a.units * a.k) :: (if a.ml.len = 0 then [] else [(a.ml, 4 * a.units * a.k)])
  | 0x20 => [((linP ds).y, (linP ds).yBytes)]
  | 0x30 => [(gatherDst j, (gatherDst j).len)]
  | 0x31 => [(resBuf j, 16)]
  | 0x32 => [(copyDst j, (copyDst j).len)]
  | 0x50 => if replMode j = 0 then [(resBuf j, 16)] else []
  | _ => []).filter (fun b => decide (0 < b.2))

/-- Input buffers with the bytes that a job reads. -/
def Mach.inBufs (_ : Mach) (j : Job) : List (Buf × Nat) :=
  let ds := j.desc
  let a := attP ds
  let l := linP ds
  match j.op with
  | 0x10 | 0x11 => [(a.q, a.rows * a.dim * fmtBytes a.qfmt), (a.bound, if a.bound.len = 0 then 0 else 4 * a.qtok), (a.spans, 16 * a.nspan)]
  | 0x20 => [(l.x, l.xBytes), (l.route, l.routeBytes), (l.experts, l.expertBytes)]
  | 0x31 => [(ingestSrc j, (ingestSrc j).len)]
  | 0x32 => [(copySrc j, (copySrc j).len)]
  | _ => []

/-- A home die's part: the frames and lines that it reads are at hand (R33, R94, R170). -/
def Mach.partReady (m : Mach) (d : Nat) (j : Job) (h : Nat) : Ready × Mach :=
  let acc := j.acc d
  match j.op with
  | 0x10 | 0x11 =>
    let mine := (m.die h).stage.buntings.filter (fun b => b.members.any (fun k => decide ((k.die, k.job) = acc)))
    if mine.isEmpty then (if j.subs.any (fun s => decide (s.home = h) && s.parts.any (m.partFrozen h)) then .frozen else .yes, m)
    else (if mine.all (m.buntStuck h) then .frozen else .wait, m)
  | 0x20 => readyAll m (fun m s => m.useRun s.x acc s.lo s.len)
    ((m.weightSegs j).filter (fun s => decide (s.x.home = h) && decide (0 < s.len)) ++ m.scaleSegs j h)
  | 0x30 => match m.gatherSrc j with
    | some x => m.useRun x acc (gatherLo j) (gatherDst j).len
    | none => (.yes, m)
  | 0x32 => readyAll m (fun m p => m.useRun p.1 acc p.2.1 p.2.2) ((m.devParts j (copySrc j) (copySrc j).len).filter (fun p => decide (p.1.home = h)))
  | 0x41 | 0x42 => m.tierPart d j h
  | 0x40 => match j.ext.bind m.ext? with
    | some x => m.sealReady x.home x.num
    | none => (.yes, m)
  | _ => (.yes, m)

/-- Poison that a home die's part returns with (R35, R96, R217, R247). -/
def Mach.partPoison (m : Mach) (j : Job) (h : Nat) : Bool :=
  let m := m.lend j
  match j.op with
  | 0x10 => j.subs.any (fun s => decide (s.home = h) && s.parts.any (fun q => m.partFrozen h q || q.rows.any (fun r => r.bad.isSome)))
  | 0x20 => (m.weightSegs j).any (fun s => decide (s.x.home = h) && !(m.runVal h s.x s.lo s.len).bad.isEmpty)
    || (m.scaleSegs j h).any (fun s => !(m.runVal s.x.home s.x s.lo s.len).bad.isEmpty)
  | 0x32 => (m.devParts j (copySrc j) (copySrc j).len).any (fun p => decide (p.1.home = h) && !(m.runVal h p.1 p.2.1 p.2.2).bad.isEmpty)
  | 0x41 | 0x42 => (m.tierFrames j).any (fun f => decide (f.1.home = h) && decide ((m.entry h f.1.num f.2).state = .lost))
  | _ => false

/-- A job that is late at stamp t: after its deadline, or accepted at or after it (R178). -/
def Job.late (j : Job) (t : Nat) : Bool := decide (j.deadline ≠ 0) && (decide (j.deadline < t) || decide (j.deadline ≤ j.accept))

/-- The first status in the order of R35 among some. -/
def worst (l : List Nat) : Nat := ([4, 3, 2, 6, 1].find? (fun s => l.contains s)).getD 0

/-! ## The end -/

/-- The finish stamp: above every stamp that the parts on other dies carry (R35, R384). -/
def Mach.finishCarried (_ : Mach) (d : Nat) (j : Job) : Option Nat :=
  let ts := (j.subs.filter (fun s => decide (s.home ≠ d))).flatMap (fun s => s.start.toList ++ s.finish.toList)
  if ts.isEmpty then none else some (maxOf ts - 1)

/-- The record is free; gauges follow (R164, R214, R243). -/
def Mach.removeJob (m : Mach) (d : Nat) (j : Job) : Mach :=
  let m := ((m.leaveBuntings (d, j.num)).leaveFetches (d, j.num)).upd d (fun x => { x with jobs := x.jobs.filter (fun k => k.num ≠ j.num) })
  let m := (m.showRing j.ring).wr d Reg.OPS_STATUS.RECORDS_FULL (b2n (m.freeRec d).isNone)
  let m := ((j.subs.map (·.home)).foldl (fun m h => m.showScratch h) m.showSubs).eachDie (fun m h => m.tidyT0 h)
  if j.op = 0x50 then m.eachDie (fun m h => m.showRepl h) else m

/-- The job ends with a status: pennant, completion (R173, R175); an orphan's completion has been written before (R281). `honour`
says whether IRQ and CHOST count (R280); with `keep` the work goes on without an owner (R281). -/
def Mach.endWith (m : Mach) (d : Nat) (j : Job) (status : Nat) (why : Option NoteRef) (honour keep : Bool) : Mach :=
  if j.orphan then m.removeJob d j
  else
    let c := m.finishCarried d j
    let t := m.stamp d c
    let st := if status = 0 ∧ j.late t then 1 else status
    let m := m.note d uRing pJobFinish st [j.ring, descTag j.desc] 0 c
    let start := j.start.getD t
    let m := if keep then m.updJob d j.num (fun k => { k with orphan := true }) else m.removeJob d j
    let m := m.complete j.ring j.ld j.index j.accept j.desc
      ⟨st, j.split, j.start.isSome, start - j.accept, t - j.accept, why, 0, !j.noRing, honour⟩
    m.showRing j.ring

def Mach.endJob (m : Mach) (d : Nat) (j : Job) (status : Nat) (why : Option NoteRef) (honour : Bool) : Mach :=
  m.endWith d j status why honour false

/-- An INGEST's extent that comes to nothing is released and cleared under R76 (R278, R281). -/
def Mach.dropExtent (m : Mach) (j : Job) : Mach :=
  match j.op, j.ext, j.resv with
  | 0x31, some e, some _ => m.lastEnd e (m.stamp m.ens)
  | _, _, _ => m

/-- A job stopped by the clearing of Bus Master Enable (R277, R278): counted on its port. -/
def Mach.endBus (m : Mach) (d : Nat) (j : Job) : Mach :=
  let p := ldPort j.ld
  let q := (m.die p).nextSeq
  let m := (m.bump p Reg.PORT_BME_ABORTS.COUNT).note p uPort pBmeAbort
  (m.dropExtent j).endJob d j 3 (some ⟨p, q⟩) true

/-- A completion may be written now (R170, R159). -/
def Mach.ringOpen (m : Mach) (j : Job) : Bool × Mach := if j.noRing || j.orphan then (true, m) else m.cqReady j.ring

/-! ## NOP and FENCE -/

/-- Start and finish at one stamp (R177, R180). -/
def Mach.instant (m : Mach) (d : Nat) (j : Job) : Mach :=
  let q := m.ringOpen j
  if !q.1 then q.2
  else
    let m := q.2.startParts d j [d] (fun _ => 0)
    match m.job? d j.num with
    | some j => m.endJob d j 0 none true
    | none => m

/-- NOP (R180). -/
def execNop (d n : Nat) (s : State) : Host.Outcome State Fault Refusal := s.onJob d n 0 (fun m j => m.instant d j)

/-- FENCE (R177): only after every job accepted before it on its ring has written its completion. -/
def execFence (d n : Nat) (s : State) : Host.Outcome State Fault Refusal :=
  s.onJob d n 1 (fun m j =>
    if (m.ringJobs j.ring).any (fun k => decide (k.accept < j.accept)) then m else m.instant d j)

/-! ## Sub-jobs (R33 to R35) -/

/-- A part returns to the accepting die, with its status; the accepting die's own part ends with the job's own pennant (R175). -/
def Mach.returnPart (m : Mach) (d : Nat) (j : Job) (h : Nat) (part : Bool) : Mach :=
  let carried := if h = d then none else some j.accept
  let t := m.stamp h carried
  let bad := m.partPoison j h
  let st := worst ((if bad then [2] else []) ++ (if part then [6] else []) ++ (if j.late t then [1] else []))
  let m := if h = d then m else (m.note h uRing pJobFinish st [j.ring, descTag j.desc] 0 carried).cross (unitSource h uRing) 0 h d
  (m.updJob d j.num (fun k => { k with
    subs := updWhere (fun s => decide (s.home = h)) (fun s => { s with returned := some st, finish := some t, poisoned := bad }) k.subs,
    part := k.part || part })).showSubs

/-- The selection of a split ATTEND is over on every home die: its blocks are chosen, and the parts go on (R207). -/
def Mach.mergeSelection (m : Mach) (d n : Nat) : Mach :=
  match m.job? d n with
  | none => m
  | some j =>
    if j.op = 0x10 ∧ j.phase = 1 ∧ j.subs.all (fun s => s.returned.isSome) then
      let cs := j.subs.flatMap (·.cands)
      let m := m.updJob d n (fun k => { k with
        chosen := chooseBlocks (attP j.desc) cs,
        subs := k.subs.map (fun s => { s with returned := none, cands := [] }) })
      match m.job? d n with
      | some j => m.openAttention d j
      | none => m
    else m

/-- A home die's selection returns candidates (R204, R206, R207); in an ATTEND the sub-job goes on. -/
def Mach.returnCands (m : Mach) (d : Nat) (j : Job) (h : Nat) : Mach :=
  let r := (m.lend j).selectPart j h
  let m := r.2.2.unlend.updJob d j.num (fun k => { k with
    subs := updWhere (fun s => decide (s.home = h)) (fun s => { s with cands := r.1, missed := r.2.1 }) k.subs, part := k.part || r.2.1 })
  if j.op = 0x11 then m.returnPart d j h r.2.1
  else (m.updJob d j.num (fun k => { k with
    subs := updWhere (fun s => decide (s.home = h)) (fun s => { s with returned := some 0 }) k.subs })).mergeSelection d j.num

/-- SUB_JOB_FINISH (R33 to R35). -/
def execSubJobFinish (d n h : Nat) (s : State) : Host.Outcome State Fault Refusal :=
  s.onDie d (fun m => m.when m.serving (fun m => match m.job? d n with
    | none => m
    | some j =>
      if !j.split || j.abort.isSome || !j.reads.isEmpty
          || !j.subs.any (fun s => decide (s.home = h) && s.start.isSome && s.returned.isNone) then m
      else
        let q := readyAll m (fun m b => m.useBuf j (j.acc d) b.1 b.2) (m.inBufs j)
        let r := q.2.partReady d j h
        match q.1.both r.1 with
        | .yes =>
          if decide (j.op = 0x11) || (decide (j.op = 0x10) && decide (j.phase = 1)) then r.2.returnCands d j h
          else r.2.returnPart d j h (j.subs.any (fun s => decide (s.home = h) && s.missed))
        | _ => r.2))

/-! ## JOB_FINISH -/

/-- The job's outputs and effects, over the frames that it has read; none while something must be waited for. -/
def Mach.outcome (m : Mach) (d : Nat) (j : Job) : Option JobEnd × Mach :=
  match j.op with
  | 0x10 =>
    let r := m.attendOut j
    (some ⟨r.1.segs, r.1.poison, j.part, none⟩, r.2)
  | 0x11 =>
    let c := if j.split then (j.subs.flatMap (·.cands), j.part, m)
      else m.selectAll j
    let r := c.2.2.selectOut j c.1
    (some ⟨r.segs, r.poison, c.2.1, none⟩, c.2.2)
  | 0x20 =>
    let r := m.linearResult j
    let homes := (j.subs.filter (fun s => s.start.isSome)).map (·.home)
    let m := homes.foldl (fun m h => m.countWeights j h) r.2
    (some ⟨r.1.segs, r.1.poison, false, none⟩, if j.split then m.bump d Reg.OPS_LIN_STRADDLE.COUNT (m.straddles j) else m)
  | 0x30 => m.gatherEnd j
  | 0x31 => m.ingestEnd j
  | 0x32 => m.copyEnd d j
  | 0x40 => m.sealEnd j
  | 0x41 | 0x42 => (some ⟨[], m.tierPoison j, j.part, none⟩, m)
  | 0x50 => m.replEnd d j
  | _ => (some JobEnd.plain, m)

def Mach.produce (m : Mach) (d : Nat) (j : Job) : Option JobEnd × Mach :=
  let r := (m.lend j).outcome d j
  (r.1, r.2.unlend)

/-- The parts of an unsplit job and its input buffers are ready; a split one has every part back. -/
def Mach.workDone (m : Mach) (d : Nat) (j : Job) : Ready × Mach :=
  let q := if j.orphan && !j.sending && decide (j.op ≠ 0x40) && decide (j.op ≠ 0x31) then (Ready.yes, m)
    else readyAll m (fun m b => m.useBuf j (j.acc d) b.1 b.2) (m.inBufs j)
  let r := if j.split then ((if j.subs.all (fun s => s.returned.isSome) then Ready.yes else Ready.wait), q.2)
    else readyAll q.2 (fun m h => m.partReady d j h) (j.subs.map (·.home))
  let wait := decide (j.op = 0x10) && decide (j.phase = 1)
  (if wait then .wait else q.1.both r.1, r.2)

/-- An attention's query or bound buffer lies on a frozen channel, so that its buntings wait (R217, R249). -/
def Mach.inputsFrozen (m : Mach) (d : Nat) (j : Job) : Bool :=
  decide (j.op = 0x10 ∨ j.op = 0x11) && decide ((readyAll m (fun m b => m.useBuf j (j.acc d) b.1 b.2) (m.inBufs j)).1 = .frozen)

/-- An output that lies on a channel that stays frozen is poisoned there (R249): did one? -/
def Mach.outFrozen (m : Mach) (j : Job) : Bool :=
  (m.outBufs j).any (fun b => (m.devParts j b.1 b.2).any (fun p =>
    ((List.range ((p.2.1 + p.2.2 + 63) / 64 - p.2.1 / 64)).map (p.2.1 / 64 + ·)).any (fun line =>
      (m.entry p.1.home p.1.num (line / 1024)).inT1 && !m.chanOpen p.1.home (m.locate p.1.home (m.t1Addr p.1.home p.1.num line)).ch)))

/-- Outputs written, completion made (R173). -/
def Mach.deliver (m : Mach) (d : Nat) (j : Job) (e : JobEnd) : Mach :=
  let frozen := m.outFrozen j
  let why := match e.why, e.poison with
    | some w, _ => some w
    | none, some o => o
    | none, none => none
  let j := { j with why := why }
  let m := if j.orphan then m else e.segs.foldl (fun m s => m.putSeg j s) m
  let st := worst ((if e.poison.isSome || frozen then [2] else []) ++ (if e.part then [6] else []) ++ j.subs.filterMap (·.returned))
  let info := if st = 2 then (match e.poison with | some o => o | none => none) else if st = 6 then why else none
  m.endJob d j st info true

/-- The job goes on from ready inputs: its outputs may be written, its work is done. -/
def Mach.finishReady (m : Mach) (d : Nat) (j : Job) (held : Bool) : Mach :=
  let segs := (m.outBufs j).map (fun b => (⟨b.1, 0, List.replicate b.2 0, []⟩ : OutSeg))
  let o := if j.orphan then (Ready.yes, m) else readyAll m (fun m s => m.outReady j s) segs
  match o.1, held with
  | .wait, _ => o.2
  | .frozen, false => if j.blocked.isSome then o.2 else o.2.updJob d j.num (fun k => { k with blocked := some (o.2.now d) })
  | _, _ =>
    let q := o.2.ringOpen j
    if !q.1 then q.2
    else
      let r := q.2.produce d j
      match r.1, r.2.job? d j.num with
      | some e, some j => r.2.deliver d j e
      | _, _ => r.2

/-- The selection of an unsplit ATTEND whose pages are all done. -/
def Mach.trySelection (m : Mach) (d : Nat) (j : Job) : Mach :=
  if j.op = 0x10 ∧ j.phase = 1 ∧ j.split = false ∧ j.reads.isEmpty then m.endSelection d j.num else m

/-- After FREEZE_HOLD an attention goes on without what its frozen channels hold (R204, R217). -/
def Mach.leaveHeld (m : Mach) (d : Nat) (j : Job) : Mach :=
  if j.op = 0x10 ∨ j.op = 0x11 then m.leaveStuck (j.acc d) (attP j.desc) else m

/-- The job's next upstream request is due while Bus Master Enable is clear (R278). -/
def Mach.tryBus (m : Mach) (d : Nat) (j : Job) : Mach :=
  let q := m.ringOpen j
  if q.1 then q.2.endBus d j else q.2

/-- JOB_FINISH: an abort that is decided, the end of a NOP's wait, or the end of the work (R173, R249, R278). A job whose inputs or
outputs lie on a frozen channel waits for DMC_FREEZE_HOLD. -/
def Mach.finishJob (m : Mach) (d : Nat) (j : Job) : Mach :=
  match j.abort with
  | some 3 => let q := m.ringOpen j; if q.1 && !j.pre then q.2.endBus d j else q.2
  | some st => let q := m.ringOpen j; if q.1 && !j.pre then (q.2.dropExtent j).endJob d j st j.why (decide (st ≠ 4)) else q.2
  | none =>
    if j.start.isNone || j.pre || !j.reads.isEmpty then m
    else if decide (j.op = 0x50) && !m.bme j.ld && !j.orphan && !j.sending then m.tryBus d j
    else
      let hold := min 1000 (m.rd d Reg.DMC_FREEZE_HOLD.HOLD_MS) * Config.ms
      let m := match j.blocked with | some t => (m.runTo d (t + hold)).leaveHeld d j | none => m
      let w := (m.trySelection d j).workDone d j
      match w.1, j.blocked with
      | .wait, _ => w.2.updJob d j.num (fun k => { k with blocked := if w.2.inputsFrozen d j then (match k.blocked with | some t => some t | none => some (w.2.now d)) else none })
      | .frozen, none => w.2.updJob d j.num (fun k => { k with blocked := some (w.2.now d) })
      | _, b => match w.2.job? d j.num with
        | some j =>
          if (w.2.outBufs j).any (fun b => decide (b.1.kind = 1)) && !w.2.bme j.ld && !j.orphan then w.2.tryBus d j
          else w.2.finishReady d j b.isSome
        | none => w.2

/-- A device-kind output lies in an extent that is no longer open (R169, R414). -/
def Mach.outSealed (m : Mach) (j : Job) : Bool :=
  j.start.isSome && j.abort.isNone && !j.orphan && !j.pre &&
    (m.outBufs j).any (fun b => (m.devParts j b.1 b.2).any (fun p => p.1.coded || decide (p.1.state = .sealing)))

/-- JOB_FINISH (R173). -/
def execJobFinish (d n : Nat) (s : State) : Host.Outcome State Fault Refusal :=
  match s.m.job? d n with
  | some j => if s.m.outSealed j && s.m.serving && decide (d < s.m.n) then .fault (.undefinedCase 6)
    else s.onDie d (fun m => m.when m.serving (fun m => m.finishJob d j))
  | none => s.onDie d id

/-! ## Upstream reads (R271, R272) -/

/-- Data of a job's read; what came poisoned or in error is poison with its pennant (R271, R404). -/
def Mach.readBack (m : Mach) (d : Nat) (j : Job) (r : HostRead) (data : List Byte) (good late : Bool) : Mach :=
  let p := ldPort j.ld
  let q := (m.die p).nextSeq
  let m := if good then m else if late then m.note p uPort pCplTimeout else m.noteFree p uPort 0x0B
  let got := r.got + data.length
  let rest : HostRead := { r with got := got }
  let again := decide (r.len ≤ got) && decide (j.op = 0x31) && decide (r.pass = 1)
  let m := m.updJob d j.num (fun k => { k with
    reads := if r.len ≤ got then dropWhere (fun x => decide (x = r)) k.reads else updWhere (fun x => decide (x = r)) (fun _ => rest) k.reads,
    host := k.host ++ [⟨r.addr + r.got, data, !good, if good then none else some ⟨p, q⟩⟩] })
  if again then
    match m.job? d j.num with
    | some j => m.hostRead d j (ingestSrc j) (ingestSrc j).len 2
    | none => m
  else m

/-- UPSTREAM_READ_COMPLETION (R271): the next data of the read at `addr`; with the EP bit or an error status it is poisoned. -/
def execUpstreamReadCompletion (d n addr : Nat) (data : List Byte) (ep ok : Bool) (s : State) : Host.Outcome State Fault Refusal :=
  s.onDie d (fun m => m.when m.alive (fun m => match m.job? d n with
    | none => m
    | some j => match j.reads.find? (fun r => decide (r.addr = addr)) with
      | none => m
      | some r =>
        let want := r.len - r.got
        let bs := data.take want
        if ok then m.readBack d j r bs (!ep) false
        else
          let f := m.freeBytes want
          f.2.readBack d j r f.1 false false))

/-- PORT_CPL_TIMEOUT (R272): what has not come counts as poisoned. -/
def execPortCplTimeout (d n addr : Nat) (s : State) : Host.Outcome State Fault Refusal :=
  s.onDie d (fun m => m.when m.alive (fun m => match m.job? d n with
    | none => m
    | some j => match j.reads.find? (fun r => decide (r.addr = addr)) with
      | none => m
      | some r =>
        let p := ldPort j.ld
        let m := m.runTo p (r.since + max 1 (m.rd p Reg.PORT_CPL_TIMEOUT.TIMEOUT_MS) * Config.ms)
        let f := m.freeBytes (r.len - r.got)
        f.2.readBack d j r f.1 false true))

end Sys2Proof.Machine
end

