-- ==== Sys2Proof/Machine/Upkeep.lean ====
section
/-! DEFINITION. What the dies do by themselves to keep extents and flash in order: preload (R116), clearing (R76, R108), tables and
recoding (R136 to R141), reclaim, levelling, read disturb, scrub, off-time and sweep (R341 to R356). -/

namespace Sys2Proof.Machine

/-! ## Preload (R116, R467) -/

/-- The extent that an entry names, if its slot held a sealed one when the die became ready. -/
def Mach.preloadExt (m : Mach) (d k : Nat) : Option Extent :=
  ((m.die d).tier.preloadExts.find? (fun p => decide (p.1 = k))).bind (fun p => m.ext? p.2)

/-- The slot of an entry as it is now. -/
def Mach.preloadNow (m : Mach) (e : PreloadEntry) : Option Nat :=
  match m.leaseAt e.ld e.region e.slot with
  | some l => if l.counts then (m.ext? l.ext).bind (fun x => if x.state = .sealed then some x.num else none) else none
  | none => none

/-- What every entry's slot holds when a die becomes ready (R116). -/
def Mach.preloadJudge (m : Mach) (d : Nat) : Mach :=
  m.updTier d (fun t => { t with preloadExts := (m.cfg.preload.zipIdx.filterMap (fun p => (m.preloadNow p.1).map (fun x => (p.2, x)))) })

def PreloadEntry.frames (e : PreloadEntry) : List Nat := (List.range (min e.count (4096 - e.first))).map (e.first + ·)

def PreloadEntry.pinOf (e : PreloadEntry) (x : Extent) (idx : Nat) : Pin := ⟨none, x.num, idx, e.tier⟩

/-- A frame brought toward tier t as the migration master (R94, R116). -/
def Mach.bringFrame (m : Mach) (x : Extent) (idx t : Nat) (retained : Bool) : Mach :=
  if m.inTier x idx t then m
  else if t = 1 && m.hasT2 x.home x.num idx then m.promoteT1 x.home x.num idx retained
  else if (m.entry x.home x.num idx).inT3 then m.needFetch x.home x.num idx 2 .toT2 (decide (t = 1)) none none
  else m

/-- The pins of an entry, up to the first that may not be made: were all made? -/
def Mach.preloadPins (m : Mach) (x : Extent) (e : PreloadEntry) : Bool × Mach :=
  if !e.pin then (true, m)
  else e.frames.foldl (fun (acc : Bool × Mach) i =>
    if !acc.1 || decide ((acc.2.entry x.home x.num i).state = .lost) then acc
    else if acc.2.canPin x.home (e.pinOf x i) then (true, acc.2.addPin x.home (e.pinOf x i)) else (false, acc.2)) (true, m)

/-- Preload goes on with the next entry, or has ended. -/
def Mach.preloadNext (m : Mach) (d k : Nat) : Mach :=
  if k < m.cfg.preload.length then (m.updTier d (fun t => { t with preload := some k })).wr d Reg.TIER_PRELOAD_STATUS.NEXT k
  else ((m.updTier d (fun t => { t with preload := none })).wr d Reg.TIER_PRELOAD_STATUS.ACTIVE 0).wr d Reg.TIER_PRELOAD_STATUS.DONE 1

/-- T2 with the copies on their way has reached its high-water mark (R100, R116). -/
def Mach.preloadFull (m : Mach) (d : Nat) : Bool :=
  let coming := sumOf (((m.die d).tier.fetches.filter (fun f => decide (f.dst = .toT2))).map (fun f => 256 * (m.entry d f.ext f.idx).granules))
  decide (m.t2Cap d * m.markHigh d ≤ 100 * (m.t2Used d + coming))

/-- The frames of an entry asked for in order; false: T2 reached its mark before one of them. -/
def Mach.preloadFrames (m : Mach) (d : Nat) (x : Extent) (e : PreloadEntry) : Bool × Mach :=
  e.frames.foldl (fun (acc : Bool × Mach) i =>
    if !acc.1 then acc
    else if acc.2.inTier x i 2 || (acc.2.fetch? d x.num i).isSome then (true, acc.2.bringFrame x i e.tier e.pin)
    else if acc.2.preloadFull d then (false, acc.2)
    else (true, acc.2.bringFrame x i e.tier e.pin)) (true, m)

/-- One entry's frames are asked for; once they are there and pinned copies lie on retention-set devices, the entry is done. -/
def Mach.preloadStep (m : Mach) (d k : Nat) (e : PreloadEntry) : Mach :=
  match m.preloadExt d k with
  | none => (if d = m.ens then m.note d uTier pPreloadSkip 1 [e.pos] else m).preloadNext d (k + 1)
  | some x =>
    if x.home ≠ d then m.preloadNext d (k + 1)
    else
      let p := m.preloadPins x e
      let f := p.2.preloadFrames d x e
      if !f.1 then
        let m := (f.2.updTier d (fun t => { t with preload := none })).wr d Reg.TIER_PRELOAD_STATUS.ACTIVE 0
        (m.wr d Reg.TIER_PRELOAD_STATUS.STOPPED 1).noteFrame d pPreloadStop x.num e.first
      else
        let r := readyAll f.2 (fun (m : Mach) i =>
          if !m.inTier x i e.tier then (Ready.wait, m)
          else if e.pin && (m.die d).tier.pins.any (e.pinOf x i).same then
            let e' := m.entry d x.num i
            if e'.state = .zero ∨ e'.state = .lost then (.yes, m) else m.moveTo x i e.tier
          else (.yes, m)) e.frames
        match r.1 with
        | .yes => (if p.1 then r.2 else r.2.note d uTier pPreloadSkip 2 [e.pos]).preloadNext d (k + 1)
        | _ => r.2

/-- PRELOAD_ENTRY (R116): the entry whose turn it is. -/
def execPreloadEntry (d : Nat) (s : State) : Host.Outcome State Fault Refusal :=
  s.onDie d (fun m => m.when (m.ready d) (fun m => match (m.die d).tier.preload with
    | none => m
    | some k => match m.cfg.preload[k]? with
      | none => m.preloadNext d k
      | some e => m.preloadStep d k e))

/-! ## Clearing (R76, R108) -/

/-- A job that references an extent, on any die. -/
def Mach.referenced (m : Mach) (e : Nat) : Bool :=
  m.dies.any (fun x => x.jobs.any (fun j => !j.pre && (j.exts.contains e || decide (j.ext = some e))))

/-- DRAIN_COMPLETE (R76): RELEASING ends once every job that references the extent has completed. -/
def execDrainComplete (e : Nat) (s : State) : Host.Outcome State Fault Refusal :=
  s.run (fun m => m.when m.alive (fun m => match m.ext? e with
    | some x => if x.state = .releasing && !m.referenced e then m.extState e .clearing else m
    | none => m))

/-- The pool directory forgets a copy (R484): at the ensign package at once, from a worker by message. -/
def Mach.poolForget (m : Mach) (handle kind : Nat) : Mach :=
  if m.pool.role = 1 then
    let p := { m.pool with directory := m.pool.directory.filter (fun c => !(decide (c.pkg = m.pw.poolId) && decide (c.handle = handle))) }
    { m with pool := p }
  else if m.inPool then m.send (.pool 4 0 (m.stamp m.ens) [kind, m.pw.poolId, handle])
  else m

/-- An old version goes (R139). -/
def Mach.dropOld (m : Mach) (d alt : Nat) : Mach :=
  let m := m.updTier d (fun t => { t with
    map := t.map.filter (fun p => decide (p.1 / 4160 ≠ alt)), lostSeq := t.lostSeq.filter (fun p => decide (p.1 / 4160 ≠ alt)),
    headers := t.headers.filter (fun h => decide (h.ext ≠ alt)), fetches := t.fetches.filter (fun f => decide (f.ext ≠ alt)) })
  m.updStage d (fun s => { s with copies := s.copies.filter (fun k => decide (k.ext ≠ alt)), queue := s.queue.filter (fun w => decide (w.ext ≠ alt)) })

/-- Everything that a die keeps for an extent goes: map, heat, copies, pins, headers, table slots, filter entries. -/
def Mach.wipeExt (m : Mach) (d : Nat) (x : Extent) : Mach :=
  let e := x.num
  let m := ((m.die d).xc.old.filter (fun o => decide (o.ext = e))).foldl (fun m o => m.dropOld d (oldNum e o.tgen)) m
  let mine (k : Nat) : Bool := decide (k / 4160 = e)
  let m := ((m.die d).tier.map.filter (fun p => mine p.1)).foldl (fun m p => m.setEntry d e (p.1 % 4160) FrameEntry.zero) m
  let m := m.updTier d (fun t => { t with
    heat := t.heat.filter (fun p => !mine p.1), unavail := t.unavail.filter (fun u => !mine u.1), pins := t.pins.filter (fun p => decide (p.ext ≠ e)),
    fetches := t.fetches.filter (fun f => decide (f.ext ≠ e)), promos := t.promos.filter (fun p => decide (p.ext ≠ e)),
    evicts := t.evicts.filter (fun v => decide (v.ext ≠ e)), relocs := t.relocs.filter (fun r => decide (r.ext ≠ e)),
    headers := t.headers.filter (fun h => decide (h.ext ≠ e)), lostSeq := t.lostSeq.filter (fun p => !mine p.1) })
  let gone (c : FCopy) : Bool := match c.kind with
    | .settle k _ | .reloc k _ | .header k _ | .recode k _ | .recodeHeader k _ | .repair k _ _ => decide (k = e)
  let m := m.updFl d (fun f => { f with copies := f.copies.filter (fun c => !gone c) })
  let slots (l : List TableSlot) : List TableSlot := l.filter (fun t => decide (t.handle ≠ x.handle))
  let m := m.upd d (fun y => { y with
    xc := { y.xc with op := slots y.xc.op, load := slots y.xc.load, old := y.xc.old.filter (fun o => decide (o.ext ≠ e)) },
    coh := { y.coh with filter := y.coh.filter.filter (fun f => decide (f.ext ≠ e)), bis := y.coh.bis.filter (fun b => decide (b.ext ≠ e)),
                        unborn := y.coh.unborn.filter (fun u => decide (u.1 ≠ e)) },
    stage := { y.stage with copies := y.stage.copies.filter (fun c => decide (c.ext ≠ e)), queue := y.stage.queue.filter (fun w => decide (w.ext ≠ e)) } })
  let m := (m.wr d Reg.XC_SLOT_USED.OP (m.die d).xc.op.length).wr d Reg.XC_SLOT_USED.LOAD (m.die d).xc.load.length
  m.showSf d

/-- The extent is FREE: its number may be taken again (R45, R53). -/
def Mach.freeExtent (m : Mach) (x : Extent) : Mach :=
  let m := m.setLse { m.lse with exts := m.lse.exts.filter (fun y => decide (y.num ≠ x.num)), leases := m.lse.leases.filter (fun l => decide (l.ext ≠ x.num)) }
  ((m.writeHome x.num 0).extPennant x .free).freeUp x.home

/-- The clearing of an extent (R76): evictions of its frames that were decided up to now go first (R104). -/
def Mach.clearExt (m : Mach) (x : Extent) : Mach :=
  let m := if x.was = .sealed then m.poolForget x.handle 1 else m
  let m := m.hoistFirst x.home (fun v => decide (v.ext = x.num) && decide (v.decided ≤ m.stamp x.home))
  (m.wipeExt x.home x).freeExtent x

/-- CLEARING_COMPLETE (R53, R76, R108): after every promotion of the extent's frames has ended. -/
def execClearingComplete (e : Nat) (s : State) : Host.Outcome State Fault Refusal :=
  s.run (fun m => m.when m.alive (fun m => match m.ext? e with
    | none => m
    | some x =>
      let t := (m.die x.home).tier
      let running := t.promos.any (fun p => decide (p.ext = e) && p.endedAt.isNone)
        || t.fetches.any (fun f => decide (f.ext % 2 ^ 20 = e) && (f.begunAt.isSome || !f.loads.isEmpty || !f.jobs.isEmpty))
      if x.state ≠ .clearing ∨ running then m else m.clearExt x))

/-! ## Tables and blocks (R135 to R141) -/

/-- TABLE_LOAD (R134, R136, R137): a table that no slot holds is loaded from the header. -/
def execTableLoad (d : Nat) (x : Expander) (ext tidx : Nat) (s : State) : Host.Outcome State Fault Refusal :=
  s.onDie d (fun m => m.when (m.ready d) (fun m => match m.ext? ext with
    | none => m
    | some e =>
      if !e.coded || decide (e.home ≠ d) || decide (headerTables e.format e.spanLog2 ≤ tidx) || (m.slotOf d x e.handle tidx e.tgen).isSome then m
      else
        let h := m.ensureHeader d e
        match h.1 with
        | some true => h.2.loadTable d x e tidx
        | some false => h.2.headerLost d e
        | none => h.2))

/-- XC_ERR_FIRST codes of a copy and of an expander. -/
def copyCode (t : CopyTier) : Nat := match t with | .t0of2 => 0 | .t0of3 => 1 | .t2 => 2 | .t3 => 3
def unitCode (x : Expander) : Nat := match x with | .operand => 0 | .load => 1

/-- The stored bytes of a block in the copy named; none if there is no such copy. -/
def Mach.storedBlock (m : Mach) (d : Nat) (e : FrameEntry) (ext idx b : Nat) (src : CopyTier) : Option (Except Nat (List Byte)) × Mach :=
  let staged (from3 : Bool) : Option (Except Nat (List Byte)) :=
    ((m.die d).stage.copies.find? (fun k => decide (k.ext = ext) && decide (k.idx = idx) && decide (k.fromT3 = from3))).map (fun k => .ok (k.block b))
  match src with
  | .t2 =>
    if m.hasT2 d ext idx then
      match m.getBytes d 0 (256 * e.t2Loc + blockStart e.counts b) (64 * e.counts.getD b 0) with
      | (some (bs, p), m) => (some (if p then .error 2 else .ok bs), m)
      | (none, m) => (none, m)
    else (none, m)
  | .t3 => (if e.inT3 then some (.ok (m.t3Block d e b)) else none, m)
  | .t0of2 => (staged false, m)
  | .t0of3 => (staged true, m)

/-- A block fails check c (R141): counted and captured, then what its copy's source asks for. -/
def Mach.blockFails (m : Mach) (d : Nat) (x : Extent) (idx b c : Nat) (src : CopyTier) (unit : Expander) : Mach :=
  let e := m.entry d x.num idx
  match src with
  | .t0of2 | .t0of3 => m.copyFails d x idx b c (decide (src = .t0of3)) []
  | .t2 =>
    let m := m.codecFail d x.num idx b c (copyCode src) (unitCode unit)
    if e.inT3 then (m.dropT2 d x.num idx).needFetch d x.num idx 1 (m.fetchDst d x.num idx true) false none none
    else m.lose d x.num idx
  | .t3 =>
    let m := (m.codecFail d x.num idx b c (copyCode src) (unitCode unit)).needFetch d x.num idx 1 (m.fetchDst d x.num idx true) false none none
    m.climbBlock d x.num idx b

/-- BLOCK_DECODE (R136, R137, R140, R141). -/
def execBlockDecode (d : Nat) (x : Expander) (ext idx b : Nat) (src : CopyTier) (s : State) : Host.Outcome State Fault Refusal :=
  s.onUnit d b 16 (fun m => m.when (m.ready d) (fun m => match m.ext? ext with
    | none => m
    | some xt =>
      let e := m.entry d ext idx
      if !xt.coded || decide (xt.home ≠ d) || decide (e.state = .zero) || decide (e.state = .lost) then m
      else
        let r := m.storedBlock d e ext idx b src
        match r.1 with
        | none => r.2
        | some (.error c) => r.2.blockFails d xt idx b c src x
        | some (.ok stored) =>
          let t := match blockTable (e.counts.getD b 0) stored with
            | some _ => r.2.bindTable d x xt e.table
            | none => (none, r.2)
          let m := t.2.consume d
          match decodeBlock xt.format (e.counts.getD b 0) e.table t.1 stored allLanes with
          | .ok _ => m.bump d Reg.XC_BLOCKS_DECODED.COUNT
          | .error c => m.blockFails d xt idx b c src x))

/-! ## Recoding (R138, R139) -/

/-- The frames of an extent that a recode reads. -/
def Mach.recodeFrames (m : Mach) (d ext : Nat) : List Nat :=
  ((m.die d).tier.map.filter (fun p => decide (p.1 / 4160 = ext) && decide (p.1 % 4160 < 4096)
    && decide (p.2.state ≠ .zero) && decide (p.2.state ≠ .lost))).map (·.1 % 4160)

/-- A frame read for recoding, from T2 or T3 (R138): its logical bytes; none while a fetch of it runs, which a failing copy begins as
R141 says, so that it is read again later or becomes LOST. -/
def Mach.recodeRead (m : Mach) (d : Nat) (x : Extent) (idx : Nat) : Option (List Byte) × Mach :=
  let e := m.entry d x.num idx
  if (m.fetch? d x.num idx).isSome then (none, m)
  else if m.hasT2 d x.num idx then
    match m.getBytes d 2 (256 * e.t2Loc) (256 * e.granules) with
    | (none, m) => (none, m)
    | (some (coded, poison), m) =>
      match (if poison then .error (m.poisonBlock d e, 2) else m.decodeCopy d x e coded) with
      | .ok bs => (some bs, m.bindCoded d .operand x e coded)
      | .error (b, c) => (none, ((m.codecFail d x.num idx b c 2 0).dropT2 d x.num idx).needFetch d x.num idx 2 .toT2 false none none)
  else
    let coded := m.flashBytes d e.t3Loc (256 * e.granules)
    match m.decodeCopy d x e coded with
    | .ok bs => (some bs, m.bindCoded d .operand x e coded)
    | .error (b, c) => (none, ((m.codecFail d x.num idx b c 3 0).needFetch d x.num idx 2 .toT2 false none none).climbBlock d x.num idx b)

def Mach.updRecode (m : Mach) (d : Nat) (f : Recode → Recode) : Mach :=
  m.upd d (fun y => { y with xc := { y.xc with recode := y.xc.recode.map f } })

/-- The first pass: every frame is read, the tables and the header built, both header copies on their way (R130, R133, R138). -/
def Mach.recodeTables (m : Mach) (d : Nat) (x : Extent) (r : Recode) : Mach :=
  let fs := (m.recodeFrames d r.ext).foldl (fun (acc : List (Nat × Option (List Byte)) × Mach) f =>
    let q := acc.2.recodeRead d x f
    (acc.1 ++ [(f, q.1)], q.2)) ([], m)
  if fs.1.any (fun f => f.2.isNone) then fs.2
  else
    let h := buildHeader x.handle x.format r.span r.tgen (spanTables x.format r.span (fs.1.filterMap (fun f => f.2.map (fun b => (f.1, b)))))
    let m := (fs.2.updRecode d (fun r => { r with header := h, todo := fs.1.map (·.1) })).ungate d Reg.PWR_GATED.ENCODER 0
    (m.append d ⟨.recodeHeader r.ext 0, .settling, none, h⟩).append d ⟨.recodeHeader r.ext 1, .settling, none, h⟩

/-- The second pass over one frame: encoded into T2 and from there appended to T3 (R138). None while it cannot go on. -/
def Mach.recodeFrame (m : Mach) (d : Nat) (x : Extent) (r : Recode) (f : Nat) : Option Mach :=
  let e := m.entry d r.ext f
  let done (m : Mach) : Mach := m.updRecode d (fun r => { r with todo := r.todo.erase f })
  if e.state = .lost then some (done m)
  else match m.recodeRead d x f with
    | (none, _) => none
    | (some bs, m) =>
      let t := if x.format = 0 then 0 else f / 2 ^ r.span
      let lengths := match headerTable x.format r.header t with | some b => b.lengths | none => []
      let c := encodeFrame x.format t r.tgen lengths bs
      match m.alloc d ((c.2.length + 255) / 256 * 256) 256 e.pinned with
      | none => none
      | some a =>
        let n : FrameEntry := { FrameEntry.zero with sectors := packSectors c.1, state := .present, inT2 := true, table := t, t2Loc := a / 256 }
        let m := (m.chosen.writeBytes d 2 a c.2).updRecode d (fun r => { r with frames := SMap.set zeroEntry r.frames f n })
        let m := ((m.bump d Reg.XC_BLOCKS_ENCODED.COUNT 16).bump d Reg.XC_LOGICAL_BYTES.COUNT 65536).bump d Reg.XC_CODED_BYTES.COUNT c.2.length
        some ((done m).append d ⟨.recode r.ext f, .settling, none, c.2⟩)

/-- The recode goes as far as sources, T2 space and the flash let it. -/
def Mach.recodeGo (m : Mach) (d : Nat) : Mach :=
  match (m.die d).xc.recode with
  | none => m
  | some r => match m.ext? r.ext with
    | none => m
    | some x =>
      let m := if r.header.isEmpty then m.recodeTables d x r else m
      match (m.die d).xc.recode with
      | none => m
      | some r => r.todo.foldl (fun m f => (m.recodeFrame d x r f).getD m) m

/-- XC_RECODE (R138, R146) (log entry 97): ignored while BUSY is 1. -/
def execXcRecode (d : Nat) (v : Word) (s : State) : Host.Outcome State Fault Refusal :=
  s.onDie d (fun m => m.when (m.ready d && !m.on d Reg.XC_RECODE_STATUS.BUSY) (fun m =>
    let e := bits v.toNat 0 20
    let sp := bits v.toNat 20 4
    let m := m.wr d Reg.XC_RECODE_STATUS.EXTENT e
    let refuse (m : Mach) : Mach := m.wr d Reg.XC_RECODE_STATUS.FAILED 1
    match m.ext? e with
    | none => refuse m
    | some x =>
      if x.state ≠ .sealed ∨ ¬ x.settled ∨ x.home ≠ d ∨ ¬ m.flashOk d ∨ (sp ≠ 0 ∧ (sp < 4 ∨ 12 < sp)) then refuse m
      else
        let m := ((m.wr d Reg.XC_RECODE_STATUS.BUSY 1).wr d Reg.XC_RECODE_STATUS.DONE 0).wr d Reg.XC_RECODE_STATUS.FAILED 0
        (m.upd d (fun y => { y with xc := { y.xc with
          recode := some ⟨e, if sp = 0 then x.spanLog2 else sp, (x.tgen + 1) % 4096, [], [], [], []⟩ } })).recodeGo d))

/-- Every new frame and both headers are durable, no fetch or promotion of the extent runs, and the new header has its DRAM copy's
space. -/
def Mach.recodeDone (m : Mach) (d : Nat) (r : Recode) : Bool :=
  !r.header.isEmpty && r.todo.isEmpty && r.frames.all (fun p => p.2.inT3) && decide (2 ≤ r.hdrLocs.length)
    && !(m.die d).tier.fetches.any (fun f => decide (f.ext = r.ext) && f.begunAt.isSome)
    && !(m.die d).tier.promos.any (fun p => decide (p.ext = r.ext) && p.endedAt.isNone)
    && (m.alloc d r.header.length 256 true).isSome

/-- A frame's entry after the switch: its new T3 place; the new T2 copy takes the old one's part, and without one it goes again. -/
def Mach.switchFrame (m : Mach) (d ext idx : Nat) (n : FrameEntry) : Mach :=
  let old := m.entry d ext idx
  if old.state = .lost then m
  else m.setEntry d ext idx { old with
    sectors := n.sectors, table := n.table, inT3 := true, t3Loc := n.t3Loc, inT2 := old.inT2, t2Loc := if old.inT2 then n.t2Loc else 0 }

/-- What was read of the extent up to T_c goes on under the number of the old version (R139): its frames in T3, DRAM header, copies in
the stage, rows, wants and fetches that hosts or jobs wait for, and the frames that jobs have read. -/
def Mach.setAside (m : Mach) (d ext alt : Nat) : Mach :=
  let mine := (m.die d).tier.map.filter (fun p => decide (p.1 / 4160 = ext) && decide (p.2.state ≠ .zero))
  let m := mine.foldl (fun m p => m.setEntry d alt (p.1 % 4160) { p.2 with inT1 := false, t1Slot := 0, inT2 := false, t2Loc := 0, pinned := false }) m
  let lost := ((m.die d).tier.lostSeq.filter (fun p => decide (p.1 / 4160 = ext)))
  let swap (e : Nat) : Nat := if e = ext then alt else e
  let m := m.updTier d (fun t => { t with
    lostSeq := lost.foldl (fun l p => SMap.set (fun _ => 0) l (entryKey alt (p.1 % 4160)) p.2) t.lostSeq,
    headers := t.headers.map (fun h => { h with ext := swap h.ext }),
    fetches := t.fetches.map (fun f => if f.rank < 2 then { f with ext := swap f.ext } else f) })
  let m := m.updStage d (fun s => { s with
    copies := s.copies.map (fun k => { k with ext := swap k.ext }), queue := s.queue.map (fun w => { w with ext := swap w.ext }),
    buntings := s.buntings.map (fun b => { b with ext := swap b.ext }) })
  { m with dies := m.dies.map (fun x => { x with jobs := x.jobs.map (fun j => { j with
    taken := j.taken.map (fun t => if t.1 = d then (t.1, { t.2 with ext := swap t.2.ext }) else t) }) }) }

/-- RECODE_SWITCH (R138, R484): once the recode is complete, all entries and the header's location switch at T_c. -/
def execRecodeSwitch (d : Nat) (s : State) : Host.Outcome State Fault Refusal :=
  s.onDie d (fun m => m.when m.alive (fun m =>
    let m := m.recodeGo d
    match (m.die d).xc.recode with
    | none => m
    | some r => match m.ext? r.ext with
      | none => m
      | some x =>
        if !m.recodeDone d r then m
        else
          let m := (m.setAside d r.ext (oldNum r.ext x.tgen)).upd d (fun y => { y with xc := { y.xc with
            recode := none, old := y.xc.old ++ [⟨r.ext, m.stamp d, x.spanLog2, x.tgen, x.hdrLocs⟩] } })
          let m := r.frames.foldl (fun m p => m.switchFrame d r.ext p.1 p.2) m
          let m := m.updExt r.ext (fun y => { y with hdrLocs := r.hdrLocs, tgen := r.tgen, spanLog2 := r.span })
          let m := m.putHeader d r.ext r.header
          let m := m.updTier d (fun t => { t with relocs := t.relocs.filter (fun q => decide (q.ext ≠ r.ext) || q.switchedAt.isSome) })
          let m := ((m.wr d Reg.XC_RECODE_STATUS.BUSY 0).wr d Reg.XC_RECODE_STATUS.DONE 1).note d uEncoder pRecode
          m.poolForget x.handle 2))

/-- RECODE_TRIM (R139): the old version goes once every job accepted before T_c that references the extent has completed and no host
read stamped before T_c waits. -/
def execRecodeTrim (d : Nat) (s : State) : Host.Outcome State Fault Refusal :=
  s.onDie d (fun m => m.when m.alive (fun m => match (m.die d).xc.old with
    | [] => m
    | o :: rest =>
      let alt := oldNum o.ext o.tgen
      let early (r : Waiting) (t : Nat) : Bool := decide (r.pair.2 = o.ext) && decide (t < o.tc)
      let held := m.dies.any (fun y => y.jobs.any (fun j => !j.pre && j.exts.contains o.ext && decide (j.accept < o.tc)))
      let waiting := (m.die d).tier.fetches.any (fun f => decide (f.ext = alt) && (f.begunAt.isSome || !f.loads.isEmpty))
        || ((m.die d).coh.waits ++ (m.die d).coh.held).any (fun w => early w.req w.ingress)
        || (m.die d).dram.chans.any (fun c => c.waiting.any (fun w => early w.req w.ingress))
      if held || waiting then m
      else ((m.dropOld d alt).upd d (fun y => { y with xc := { y.xc with old := rest } })).freeUp d))

/-! ## Reclaim and levelling (R341, R346) -/

def Mach.fullSbs (m : Mach) (d : Nat) : List Nat := (m.dataSbs d).filter (fun s => decide ((m.sb d s).st = .full))

/-- Reclaim, levelling and the sweep stop once furled is requested and resume at the next wake (R357). -/
def Mach.flashWork (m : Mach) (d : Nat) : Bool := m.flashOk d && decide (m.pw.phase = .run)

/-- RECLAIM_ROUND (R341). -/
def execReclaimRound (d : Nat) (s : State) : Host.Outcome State Fault Refusal :=
  s.onDie d (fun m => m.when (m.flashWork d && decide ((m.freeSbs d).length < m.rd d Reg.FLC_RECLAIM.LOW)) (fun m =>
    let m := m.wr d Reg.FLC_STATUS.RECLAIM_ACTIVE 1
    let pick := (sortBy (fun s => m.liveIn d s * 2 ^ 40 + min (2 ^ 40 - 1) (m.peSum d s)) (m.fullSbs d)).take 8
    (pick.foldl (fun m s => m.relocAll d s) m).freeUp d))

/-- STATIC_LEVELLING (R346): one move at a time. -/
def execStaticLevelling (d : Nat) (s : State) : Host.Outcome State Fault Refusal :=
  s.onDie d (fun m => m.when (m.flashWork d) (fun m =>
    let busy : Bool := match (m.fl d).moving with | some s => decide ((m.sb d s).st = .full) | none => false
    if busy then m
    else match minBy (m.peSum d) (m.fullSbs d) with
      | none => m
      | some s =>
        let top := maxOf ((m.dataSbs d).map (m.peSum d))
        if top ≤ m.peSum d s + m.rd d Reg.FLC_WEAR.SPREAD * 8 * m.units d then m.updFl d (fun f => { f with moving := none })
        else ((m.updFl d (fun f => { f with moving := some s })).relocAll d s).freeUp d))

/-! ## Samples (R348, R354) -/

/-- A sample fails: it enters the ladder, or corrects more than CE_PCT percent of its level's limit. -/
def Mach.badSample (m : Mach) (d level : Nat) (x : Option Nat) : Bool :=
  match x with
  | none => true
  | some b => decide (m.rd d Reg.FLC_SCRUB_THRESH.CE_PCT * hardLimit level < 100 * b)

/-- A sampled page is read: it counts on its block, and its corrected bits or its climb count on its channel (R343, R348). A sample that
enters the ladder counts as recovered there (log entry 113). -/
def Mach.sample (m : Mach) (d page : Nat) (x : Option Nat) : Mach :=
  let c := pageChan page
  let m := m.countRead d page
  match x with
  | some b => m.bump d (Reg.FLC_CH_CE_BITS.COUNT c) b
  | none => ((m.bump d Reg.FLC_LADDER_COUNT.CLIMBS).bump d (Reg.FLC_CH_RETRIES.COUNT c)).correctable d (12 + c)

/-- Samples of a superblock, at page positions from `first` on (R354, R356, log entry 113). -/
def Mach.samples (m : Mach) (d s first : Nat) (xs : Samples) : Mach :=
  xs.zipIdx.foldl (fun m p => m.sample d (s * m.sbPages d + (first + p.2) % m.sbPages d) p.1) m

/-- The four pages of a block that are sampled: the first, the last programmed, and two that rotate (R348). -/
def Mach.blockPages (m : Mach) (d s : Nat) (b : BlockAddr) : List Nat :=
  let q := m.sb d s
  let width := 8 * m.units d
  let last := if q.done = 0 then 0 else (q.done - 1) / width
  let rot (i : Nat) : Nat := (2 * q.rot + i) % m.ppb d
  [0, last, rot 0, rot 1].map (fun p => s * m.sbPages d + p * width + 8 * b.unit + b.ch)

/-- The superblock that a block belongs to. -/
def Mach.sbOfBlock (m : Mach) (d : Nat) (b : BlockAddr) : Option Nat :=
  (List.range (m.fl d).s0).find? (fun s => decide ((m.sb d s).st ≠ .retired) && decide ((m.fl d).phys b.ch b.unit s = b.blk))

def Mach.rdThresh (m : Mach) (d : Nat) : Nat := clamp 1000 1000000 (m.rd d Reg.FLC_RD_THRESH.READS)

/-- READ_DISTURB_CHECK (R348). -/
def execReadDisturbCheck (d : Nat) (b : BlockAddr) (xs : Samples) (s : State) : Host.Outcome State Fault Refusal :=
  s.onUnit d b.ch 8 (fun m => m.when (m.flashOk d && decide (b.unit < m.units d)) (fun m =>
    let k := blockKey b.ch b.unit b.blk
    let n := SMap.get (fun _ => (m.fl d).readBase) (m.fl d).reads k
    match m.sbOfBlock d b with
    | none => m
    | some s =>
      if n ≤ m.rdThresh d then m
      else
        let m := ((m.blockPages d s b).zip xs).foldl (fun m p => m.sample d p.1 p.2) m
        let m := m.setSb d s (fun q => { q with rot := q.rot + 1 })
        if xs.any (m.badSample d (m.sb d s).level) then (m.relocAll d s).freeUp d
        else m.updFl d (fun f => { f with reads := SMap.set (fun _ => f.readBase) f.reads k (m.rdThresh d / 2) })))

/-- AGE_DAYS in seconds. -/
def Mach.ageLimit (m : Mach) (d : Nat) : Nat := clamp 1 1000 (m.rd d Reg.FLC_SCRUB_THRESH.AGE_DAYS) * 86400

/-- Bytes of the endurance budget (R347). -/
def Mach.budgetBytes (m : Mach) (d : Nat) : Nat := m.rd d Reg.FLC_TBW_BUDGET.TB * 10 ^ 12

/-- USED and PROJECT_DAYS at a scrub pass, with the pennants at 800, 900 and 1,000 per mille (R347). -/
def Mach.endurance (m : Mach) (d : Nat) : Mach :=
  let b := m.budgetBytes d
  let prog := m.rd d Reg.FLC_PROG_BYTES.COUNT
  let now := m.now d
  let month := 30 * 86400 * Config.sec
  let start := ((m.fl d).history.find? (fun h => decide (now ≤ h.1 + month))).getD ((m.fl d).firstAt, 0)
  let m := m.updFl d (fun f => { f with history := (f.history.filter (fun h => decide (now ≤ h.1 + month))) ++ [(now, prog)] })
  if b = 0 then (m.wr d Reg.FLC_ENDURANCE.USED 0).wr d Reg.FLC_ENDURANCE.PROJECT_DAYS 0xFFFF
  else
    let used := prog * 1000 / b
    let grown := prog - start.2
    let days := if grown = 0 then 0xFFFF else min 0xFFFF ((b - prog) * (now - start.1) / (grown * (86400 * Config.sec)))
    let m := (m.wr d Reg.FLC_ENDURANCE.USED (min 1023 used)).wr d Reg.FLC_ENDURANCE.PROJECT_DAYS days
    [800, 900, 1000].foldl (fun m t =>
      if t ≤ used ∧ (m.fl d).warned < t then
        (m.updFl d (fun f => { f with warned := t })).note d (uFlash 0) pEndurance (t / 10)
      else m) m

/-- SCRUB_PASS (R347, R354, R432): FLC_SCRUB_PERIOD after the last one, every superblock with live data is sampled; ages do not count
during a sweep (R356); in furled a new time mark is written. -/
def execScrubPass (d : Nat) (xs : List (Nat × Samples)) (s : State) : Host.Outcome State Fault Refusal :=
  s.onDie d (fun m => m.when (m.flashOk d) (fun m =>
    let m := m.runTo d (m.scrubDue d)
    let live := (m.dataSbs d).filter (fun s => decide (0 < m.liveIn d s))
    let m := live.foldl (fun (m : Mach) s =>
      let four : Samples := ((xs.find? (fun p => decide (p.1 = s))).map (·.2)).getD []
      let m := (m.samples d s (4 * (m.sb d s).rot) four).setSb d s (fun q => { q with rot := q.rot + 1 })
      let old := decide (m.ageLimit d ≤ m.ageOf d s) && !m.on d Reg.FLC_STATUS.SWEEP_ACTIVE
      if four.any (m.badSample d (m.sb d s).level) || old then m.relocAll d s else m) m
    let m := (m.endurance d).freeUp d
    if m.pw.phase = .furled then m.furledMark d else m))

/-! ## Off-time (R355, R356, R391) -/

/-- Off-time in seconds between H_ck and this start (R355). -/
def offSeconds (hnow hck pnow p0 : Nat) : Nat := ((hnow - hck) * 17 - (pnow - p0) * 10) / (17 * 10 ^ 9)

/-- Seconds that R356 assumes. -/
def Mach.offMax (m : Mach) (d : Nat) : Nat := m.rd d Reg.FLC_OFFTIME_MAX.DAYS * 86400

/-- The sweep begins. -/
def Mach.sweepStart (m : Mach) (d : Nat) : Mach :=
  let m := (m.wr d Reg.FLC_STATUS.SWEEP_ACTIVE 1).wr d Reg.FLC_SCRUB_STATUS.ACTIVE 1
  (m.updFl d (fun f => { f with swept := [] })).note d (uFlash 0) pSweep

def Mach.sweepEnd (m : Mach) (d : Nat) : Mach :=
  ((m.wr d Reg.FLC_STATUS.SWEEP_ACTIVE 0).wr d Reg.FLC_SCRUB_STATUS.ACTIVE 0).wr d Reg.FLC_SCRUB_STATUS.NEXT_SB 0

/-- The pennant that ends GAP_UNKNOWN (R391): at the first host time after POR_N deassertion only. -/
def Mach.offtimeNote (m : Mach) (d detail seconds : Nat) : Mach :=
  if (m.die d).clk.gap then
    ((m.note d uAon pOfftime detail [seconds]).upd d (fun x => { x with clk := { x.clk with gap := false } })).wr d Reg.TB_STATUS.GAP_UNKNOWN 0
  else m

/-- The first host time of this start, on one die (R355, R356, R391): H_now belongs to pennant time P_now. -/
def Mach.offtime (m : Mach) (d pnow hnow : Nat) : Mach :=
  match (m.fl d).hck with
  | some h =>
    let t := offSeconds hnow h pnow m.pw.startedAt
    let open' (s : Nat) : Bool := !(m.on d Reg.FLC_STATUS.SWEEP_ACTIVE && (m.fl d).swept.contains s)
    let m := m.updFl d (fun f => { f with sbs := f.sbs.map (fun p => (p.1, if open' p.1 then { p.2 with age := p.2.age + t } else p.2)) })
    let m := (m.wr d Reg.FLC_OFFTIME.SECONDS (min (2 ^ 32 - 1) t)).wr d Reg.FLC_STATUS.OFFTIME_KNOWN 1
    (m.sweepEnd d).offtimeNote d 0 t
  | none =>
    let m := if m.on d Reg.FLC_STATUS.SWEEP_ACTIVE then m else m.sweepStart d
    m.offtimeNote d 1 (m.offMax d)

/-- Host time comes to the package for the first time (R276, R355, R391). -/
def Mach.hostTimeCame (m : Mach) (pnow hnow : Nat) : Mach :=
  m.eachDie (fun m d =>
    if (m.fl d).hostTime then m else (m.offtime d pnow hnow).updFl d (fun f => { f with hostTime := true }))

/-- OFFTIME_UNKNOWN_TIMEOUT (R356): no H_ck, or 60 s without host time. -/
def execOfftimeUnknownTimeout (d : Nat) (s : State) : Host.Outcome State Fault Refusal :=
  s.onDie d (fun m => m.when (m.ready d && !(m.fl d).hostTime && !m.on d Reg.FLC_STATUS.SWEEP_ACTIVE && !m.on d Reg.FLC_STATUS.OFFTIME_KNOWN) (fun m =>
    let m := if (m.fl d).hck.isNone then m else m.runTo d (m.readyAt d + 60 * Config.sec)
    m.sweepStart d))

/-- Superblocks that the sweep has still to read. -/
def Mach.unswept (m : Mach) (d : Nat) : List Nat :=
  (m.dataSbs d).filter (fun s => decide (0 < m.liveIn d s) && !(m.fl d).swept.contains s)

/-- SWEEP_SUPERBLOCK (R356): the next superblock, every page read. -/
def execSweepSuperblock (d : Nat) (xs : Samples) (s : State) : Host.Outcome State Fault Refusal :=
  s.onDie d (fun m => m.when (m.flashWork d && m.on d Reg.FLC_STATUS.SWEEP_ACTIVE) (fun m =>
    match m.unswept d with
    | [] => m.sweepEnd d
    | s :: rest =>
      let m := m.samples d s 0 xs
      let bad := xs.any (m.badSample d (m.sb d s).level)
      let m := if bad then m.relocAll d s else m.setSb d s (fun q => { q with age := m.ageLimit d / 2, ageAt := m.now d })
      let m := (m.updFl d (fun f => { f with swept := f.swept ++ [s] })).wr d Reg.FLC_SCRUB_STATUS.NEXT_SB (rest.headD 0)
      if rest.isEmpty then m.sweepEnd d else m))

end Sys2Proof.Machine
end

