-- ==== Sys2Proof/Machine/Port.lean ====
section
/-! DEFINITION. Host ports (R253 to R286): links, resets, configuration requests, Bus Master Enable, the MSI-X table, PTM, DOE. -/

namespace Sys2Proof.Machine

/-! ## Links (R254, R255, R263) -/

/-- A half that the port has: half B only where the image bifurcates it (R255), none on an unused port (R285). -/
def Mach.halfUsed (m : Mach) (d half : Nat) : Bool :=
  m.on d Reg.PORT_CTRL.ENABLE && (decide (half = 0) || (decide (half = 1) && m.on d Reg.PORT_CTRL.BIFURCATE))

def Mach.halfUp (m : Mach) (d half : Nat) : Bool :=
  if half = 1 then m.on d Reg.PORT_STATUS.UP_B else m.on d Reg.PORT_STATUS.UP_A

/-- The LDs of a link. -/
def Mach.linkLds (m : Mach) (d half : Nat) : List Nat :=
  m.allLds.filter (fun ld => decide (ldPort ld = d) && decide (m.ldHalf ld = half))

/-- State, rate and width of a half. -/
def Mach.setLink (m : Mach) (d half : Nat) (up : Bool) (rate width : Nat) : Mach :=
  let m := if half = 1 then (m.setBit d Reg.PORT_STATUS.UP_B up).wr d Reg.PORT_STATUS.WIDTH_B width
    else (m.setBit d Reg.PORT_STATUS.UP_A up).wr d Reg.PORT_STATUS.WIDTH width
  if up || !m.halfUp d (1 - half) then m.wr d Reg.PORT_STATUS.RATE_GT rate else m

/-- The first enable of an LD's port posts what start-up has to announce (R52). -/
def Mach.postForced (m : Mach) (ld : Nat) : Mach :=
  let mine := m.lse.forced.filter (fun f => decide (f.1 = ld))
  let m := if mine.isEmpty then m else m.setLse { m.lse with forced := m.lse.forced.filter (fun f => f.1 ≠ ld) }
  mine.foldl (fun m f => m.event ld .dcd 4 ([f.2.1, f.2.2.1] ++ f.2.2.2)) m

/-- LINK_UP (R254, R263): a link whose negotiation fails is taken down and returns to Detect. -/
def execLinkUp (d half : Nat) (negotiated : Bool) (rate width : Nat) (s : State) : Host.Outcome State Fault Refusal :=
  s.onUnit d half 2 (fun m => m.when (m.serving && m.halfUsed d half && !m.halfUp d half && !m.pw.perst.getD d false
      && (m.linkLds d half).all (fun ld => (m.ld ld).romBuilt)) (fun m =>
    if !negotiated then (m.wr d Reg.PORT_STATUS.NEG_FAIL 1).note d uPort pNegFail
    else
      let m := m.setLink d half true rate width
      let m := (m.linkLds d half).foldl (fun m ld => (m.updLd ld (fun r => { r with linkDownAt := none })).postForced ld) m
      if m.rd d Reg.PWR_START_STEP.STEP = 9 then m.startStep d 10 else m))

/-- LD_READY (R263): start-up ends on a die when every LD of its port is READY (R441 step 11). -/
def execLdReady (ld : Nat) (s : State) : Host.Outcome State Fault Refusal :=
  s.run (fun m => m.when (m.serving && m.assigned ld && m.ldUp ld && m.on (ldPort ld) Reg.OPS_STATUS.READY && (m.ld ld).romBuilt) (fun m =>
    let d := ldPort ld
    let m := m.wr d (Reg.PORT_LD_STATUS.READY (ldIdx ld)) 1
    let mine := m.allLds.filter (fun k => decide (ldPort k = d))
    if m.rd d Reg.PWR_START_STEP.STEP = 10 && mine.all (fun k => m.on d (Reg.PORT_LD_STATUS.READY (ldIdx k))) then
      (m.startStep d 11).wr d Reg.PWR_START_STEP.DONE 1
    else m))

/-! ## Resets of LDs (R280 to R284) -/

/-- Does the extent-level work of a job go on without its LD (R281)? -/
def Job.goesOn (j : Job) : Bool :=
  j.start.isSome && j.abort.isNone &&
    (match j.op with
      | 0x40 => true
      | 0x31 => decide ((ingestSrc j).kind ≠ 1) || j.reads.isEmpty
      | 0x50 => decide (replMode j = 0) && j.sending
      | _ => false)

/-- Step 2 of R280 for one job (log entry 101). -/
def Mach.resetJob (m : Mach) (d : Nat) (j : Job) : Mach :=
  if j.orphan then m
  else if j.pre then m.upd d (fun x => { x with jobs := x.jobs.filter (fun k => k.num ≠ j.num) })
  else
    let m := (m.ringOpen j).2
    if j.goesOn then m.endWith d j 4 none false true else (m.dropExtent j).endWith d j 4 none false false

/-- Every job of the LD completes ABORTED_RESET, in ring order. -/
def Mach.resetJobs (m : Mach) (ld : Nat) : Mach :=
  m.eachDie (fun m d => ((m.jobs d).filter (fun j => decide (j.ld = ld))).foldl (fun m j => m.resetJob d j) m)

/-- A ring's block reads its reset values (R160). -/
def Mach.resetRing (m : Mach) (r : Nat) : Mach :=
  let k := m.ringLoc r
  m.upd (m.ringDie r) (fun x => { x with regs := SMap.dropRange x.regs (0x410000 + 0x40 * k) (0x410040 + 0x40 * k),
                                         unreleased := SMap.erase k x.unreleased })

/-- MSI-X state and configuration space as after reset (R267, R269, R280 step 6). -/
def Mach.resetConfig (m : Mach) (ld : Nat) : Mach :=
  let d := ldPort ld
  let i := ldIdx ld
  let m := ((m.wr d (Reg.PORT_LD_STATUS.BME i) 0).wr d (Reg.PORT_LD_STATUS.MSIX_EN i) 0).wr d (Reg.PORT_LD_STATUS.PTM_EN i) 0
  m.updLd ld (fun r => { r with functionMask := false, vecs := [], policy := [], bmeCleared := some (m.now d) })

/-- Steps 1 to 6 of R280. -/
def Mach.resetLd (m : Mach) (ld : Nat) : Mach :=
  let rings := m.ldRings ld
  let m := rings.foldl (fun m r => if m.ringOn r then m.ringStop r else m) m
  let m := m.resetJobs ld
  let m := m.eachDie (fun m d => m.dropPins d (Pin.ofLd m ld))
  let m := (m.hostLoss ld).qosRelease ld
  let m := rings.foldl (fun m r => m.resetRing r) m
  m.resetConfig ld

/-- FUNCTION_LEVEL_RESET (R280). -/
def execFunctionLevelReset (ld : Nat) (s : State) : Host.Outcome State Fault Refusal :=
  s.run (fun m =>
    if m.ldAnswers ld then
      let d := ldPort ld
      let m := (m.bump d Reg.PORT_RESET_COUNT.FLR).note d uPort pFlr (ldIdx ld)
      (m.wr d (Reg.PORT_LD_STATUS.FLR_ACTIVE (ldIdx ld)) 1).resetLd ld
    else if m.serving && m.assigned ld && m.ldUp ld then m.send (.cfgRetry ld)
    else m)

/-- FLR_COMPLETE (R282). -/
def execFlrComplete (ld : Nat) (s : State) : Host.Outcome State Fault Refusal :=
  s.run (fun m => m.when (m.alive && m.assigned ld) (·.wr (ldPort ld) (Reg.PORT_LD_STATUS.FLR_ACTIVE (ldIdx ld)) 0))

/-- The pool's link is lost (R487): extents being received are cleared, and PUSHes that have begun to send end with DETAIL 4. -/
def Mach.poolLinkLost (m : Mach) : Mach :=
  let m := m.pool.rx.foldl (fun m r => m.endRx r) m
  m.lse.exts.foldl (fun (m : Mach) x => (m.pushesOf x).foldl (fun (m : Mach) q => m.pushFail q.1 q.2 x 4) m) m

/-- A link goes down: every LD of it is reset (R283) and its host is lost (R68), once where a function-level reset already runs
(R284); with the management LD's link every PUSH ends (R487). -/
def Mach.linkLost (m : Mach) (d half : Nat) : Mach :=
  let m := m.setLink d half false 0 0
  let m := (m.linkLds d half).foldl (fun m ld =>
    (m.updLd ld (fun r => { r with linkDownAt := some (m.now m.ens) })).when
      (!m.on d (Reg.PORT_LD_STATUS.FLR_ACTIVE (ldIdx ld))) (·.resetLd ld)) m
  if (m.linkLds d half).any (fun ld => decide (m.cfg.mgmtLd = some ld)) then m.poolLinkLost else m

/-- A link-level reset counted and reported. -/
def Mach.linkReset (m : Mach) (d : Nat) : Mach := (m.bump d Reg.PORT_RESET_COUNT.LINK).note d uPort pLinkReset

/-- The reset of PERST_N on a port in use, on both halves (R283); an edge is a wake source (R431, R433). -/
def Mach.perstReset (m : Mach) (d : Nat) : Mach :=
  let m := (m.furlAbandon 3).linkReset d
  let m := if m.halfUsed d 0 then m.linkLost d 0 else m
  if m.halfUsed d 1 then m.linkLost d 1 else m

/-- PERST_N_ASSERT (R283): the pin's level holds whatever the phase, and its links stay down while it is asserted. -/
def execPerstNAssert (d : Nat) (s : State) : Host.Outcome State Fault Refusal :=
  s.onDie d (fun m => m.when (!m.pw.perst.getD d false) (fun m =>
    ({ m with pw := { m.pw with perst := m.pw.perst.set d true } }).when (m.alive && m.on d Reg.PORT_CTRL.ENABLE) (·.perstReset d)))

/-- PERST_N_DEASSERT (R283): the LTSSM goes to Detect. -/
def execPerstNDeassert (d : Nat) (s : State) : Host.Outcome State Fault Refusal :=
  s.onDie d (fun m => m.when (m.pw.perst.getD d false) (fun m =>
    ({ m with pw := { m.pw with perst := m.pw.perst.set d false } }).when m.alive (·.furlAbandon 3)))

/-- HOT_RESET (R283). -/
def execHotReset (d half : Nat) (s : State) : Host.Outcome State Fault Refusal :=
  s.onUnit d half 2 (fun m => m.when (m.alive && m.halfUsed d half && m.halfUp d half) (fun m =>
    ((m.furlAbandon 3).linkReset d).linkLost d half))

/-- DATA_LINK_DOWN (R283). -/
def execDataLinkDown (d half : Nat) (s : State) : Host.Outcome State Fault Refusal :=
  s.onUnit d half 2 (fun m => m.when (m.alive && m.halfUsed d half && m.halfUp d half) (fun m =>
    (m.linkReset d).linkLost d half))

/-! ## Configuration space (R263, R264, R277 to R279) -/

/-- Device ID (R264). -/
def Mach.deviceId (m : Mach) : Nat := 0x5D00 + m.n

/-- A link operates as a single logical device: it carries exactly one LD, and the image marks it SLD (R259). -/
def Mach.sld (m : Mach) (d half : Nat) : Bool :=
  decide ((m.linkLds d half).length = 1) && (if half = 1 then m.on d Reg.PORT_CTRL.SLD_B else m.on d Reg.PORT_CTRL.SLD_A)

/-- Words of the structures of R264 that R257, R259, R261 and R262 fix: structure, offset in it, first bit, width, value. The
structures are 0 PCI Express, 1 Power Management, 2 MSI-X, 3 Device Serial Number, 4 PTM, 5 DVSEC for CXL Devices, 6 Flex Bus Port,
7 Register Locator, 8 MLD; places of bits within one are those of PCIe and CXL (log entry 109). -/
def Mach.cfgFields (m : Mach) (ld : Nat) : List (Nat × Nat × Nat × Nat × Nat) :=
  let d := ldPort ld
  let r0 := SMap.get (fun _ => 0) m.cfg.region0 ld * 2 ^ 28
  let r1 := SMap.get (fun _ => 0) m.cfg.region1 ld * 2 ^ 28
  let id := field m.serial 0 8
  let mld := !m.sld d (m.ldHalf ld)
  [(0, 0, 20, 4, 0), (0, 4, 28, 1, 1), (0, 36, 0, 4, 3),
   (1, 0, 25, 2, 0),
   (2, 0, 16, 11, 2047), (2, 0, 30, 1, b2n (m.ld ld).functionMask), (2, 0, 31, 1, b2n (m.on d (Reg.PORT_LD_STATUS.MSIX_EN (ldIdx ld)))),
   (2, 4, 0, 32, 0x20000), (2, 8, 0, 32, 0x28000),
   (3, 4, 0, 32, id % 2 ^ 32), (3, 8, 0, 32, id / 2 ^ 32 % 2 ^ 32),
   (4, 4, 0, 1, 1), (4, 8, 0, 1, b2n (m.on d (Reg.PORT_LD_STATUS.PTM_EN (ldIdx ld)))),
   (5, 8, 0, 16, 0), (5, 8, 16, 1, 0), (5, 8, 17, 1, 1), (5, 8, 18, 1, 1), (5, 8, 20, 2, 2), (5, 8, 23, 1, 0),
   (5, 24, 0, 32, r0 / 2 ^ 32), (5, 28, 28, 4, r0 / 2 ^ 28 % 16), (5, 40, 0, 32, r1 / 2 ^ 32), (5, 44, 28, 4, r1 / 2 ^ 28 % 16),
   (6, 8, 0, 16, 7), (6, 8, 16, 1, 0), (6, 8, 17, 1, 1), (6, 8, 18, 1, 1), (6, 8, 22, 1, b2n mld),
   (7, 8, 0, 16, 8), (7, 12, 0, 3, 0), (7, 12, 8, 8, 1), (7, 12, 16, 16, 0), (7, 20, 0, 3, 0), (7, 20, 8, 8, 3), (7, 20, 16, 16, 1)]
    ++ (if mld then [(8, 8, 0, 16, 9), (8, 8, 16, 16, (m.linkLds d (m.ldHalf ld)).length)] else [])

/-- A word of configuration space: the type 0 header's fields and the structures' fields that R257 to R264 give, the rest from
the ROM table (R262). -/
def Mach.cfgWord (m : Mach) (ld off : Nat) : Word :=
  let w := (Config.romWord m.cfg.templates ld off).toNat
  BitVec.ofNat 32 (match off with
    | 0x00 => setBits w 16 16 m.deviceId
    | 0x04 => setBits w 2 1 (b2n (m.bme ld))
    | 0x08 => setBits w 8 24 0x050210
    | 0x0C => setBits w 16 7 0
    | 0x3C => setBits w 8 8 0
    | _ => (m.cfgFields ld).foldl (fun (w : Nat) f => if Config.cfgPlace f.1 + f.2.1 = off then setBits w f.2.2.1 f.2.2.2.1 f.2.2.2.2 else w) w)

/-- A host-kind input of which nothing has come yet. -/
def Job.toRead (j : Job) (b : Buf × Nat) : Bool :=
  decide (b.1.kind = 1) && decide (0 < b.2) && !j.host.any (fun c => decide (b.1.addr ≤ c.addr) && decide (c.addr < b.1.addr + b.2))

/-- Has the job upstream requests still to make, or data of them still to come, after it has started its upstream access
(R277, R278)? -/
def Mach.busBound (m : Mach) (j : Job) : Bool :=
  !j.orphan && j.abort.isNone &&
    (!j.reads.isEmpty || j.replica.isSome
      || (!j.host.isEmpty && ((m.outBufs j).any (fun b => decide (b.1.kind = 1)) || (j.start.isNone && (m.inBufs j).any j.toRead))))

/-- Bus Master Enable is cleared (R277, R278). -/
def Mach.clearBme (m : Mach) (ld : Nat) : Mach :=
  let d := ldPort ld
  let m := (m.wr d (Reg.PORT_LD_STATUS.BME (ldIdx ld)) 0).updLd ld (fun r => { r with bmeCleared := some (m.now d) })
  m.eachDie (fun m k => ((m.jobs k).filter (fun j => decide (j.ld = ld) && m.busBound j)).foldl (fun m j => m.abortBus k j) m)

/-- A write to a bit of configuration space. -/
def Mach.cfgWrite (m : Mach) (ld : Nat) (req : CfgReq) : Mach :=
  let d := ldPort ld
  let i := ldIdx ld
  match req with
  | .read off => m.send (.cfgData ld (m.cfgWord ld off))
  | .busMaster true => (m.wr d (Reg.PORT_LD_STATUS.BME i) 1).sendPending ld
  | .busMaster false => if m.bme ld then m.clearBme ld else m
  | .msixEnable b => (m.setBit d (Reg.PORT_LD_STATUS.MSIX_EN i) b).sendPending ld
  | .functionMask b => (m.updLd ld (fun r => { r with functionMask := b })).sendPending ld
  | .ptmEnable b => m.setBit d (Reg.PORT_LD_STATUS.PTM_EN i) b

/-- CONFIGURATION_REQUEST (R263, R264, R268, R273, R277, R282): answered with Configuration Request Retry Status until the LD is
READY and while an FLR runs. -/
def execConfigurationRequest (ld : Nat) (req : CfgReq) (s : State) : Host.Outcome State Fault Refusal :=
  s.run (fun m => m.when (m.serving && m.assigned ld && m.ldUp ld) (fun m =>
    if m.ldAnswers ld then m.cfgWrite ld req else m.send (.cfgRetry ld)))

/-- An entry of the MSI-X table after a write: a vector that is due and may now be sent is sent (R267, R268). -/
def Mach.msixWrite (m : Mach) (ld vector addr data : Nat) (mask : Bool) : Mach :=
  (m.updLd ld (fun r => r.setVec vector { r.vec vector with addr := addr, data := data, mask := mask })).sendPending ld

/-- MSIX_TABLE_WRITE (R267, R268). -/
def execMsixTableWrite (ld vector : Nat) (addr : DWord) (data : Word) (mask : Bool) (s : State) : Host.Outcome State Fault Refusal :=
  if 2048 ≤ vector then .fault (.absentUnit vector)
  else s.run (fun m => m.when (m.ldAnswers ld) (·.msixWrite ld vector addr.toNat data.toNat mask))

/-! ## PTM (R273 to R276) -/

/-- Any LD of a link of the port that is up has PTM Enable set. -/
def Mach.ptmOn (m : Mach) (d : Nat) : Bool :=
  m.allLds.any (fun ld => decide (ldPort ld = d) && m.ldUp ld && m.on d (Reg.PORT_LD_STATUS.PTM_EN (ldIdx ld)))

/-- Ticks between PTM dialogs (R273, R286). -/
def Mach.ptmEvery (m : Mach) (d : Nat) : Nat := clamp 1 1000 (m.rd d Reg.PORT_PTM_INTERVAL.INTERVAL_MS) * Config.ms

/-- PTM_DIALOG (R273): due an interval after the port's last one. -/
def execPtmDialog (d : Nat) (s : State) : Host.Outcome State Fault Refusal :=
  s.onDie d (fun m => m.when (m.serving && m.ptmOn d) (fun m =>
    let m := match (m.die d).aux.ptmAt with
      | some t => m.runTo d (t + m.ptmEvery d)
      | none => m
    (m.upd d (fun x => { x with aux := { x.aux with ptmAt := some x.clk.now } })).send (.ptmRequest d)))

/-- PTM_RESPONSE (R273, R274, R276): the sequence passes two values with each pair; the first pair after start-up is the port's
HOST TIME pennant. -/
def execPtmResponse (d hostNs localTicks : Nat) (s : State) : Host.Outcome State Fault Refusal :=
  s.onDie d (fun m => m.when (m.serving && m.ptmOn d) (fun m =>
    let q := m.rd d Reg.PORT_PTM_SEQ.SEQ
    let m := ((m.wr d Reg.PORT_PTM_HOST.NS hostNs).wr d Reg.PORT_PTM_LOCAL.TICKS localTicks).wr d Reg.PORT_PTM_SEQ.SEQ (q + 2)
    if (m.die d).aux.ptmPair then m
    else ((m.upd d (fun x => { x with aux := { x.aux with ptmPair := true } })).note d uAon pHostTime 0 [hostNs]).hostTimeCame localTicks hostNs))

/-! ## DOE (R262, R265) -/

/-- DOE_DISCOVERY (R262): DOE Discovery itself, then CXL Table Access: vendor, protocol, next index. -/
def execDoeDiscovery (ld index : Nat) (s : State) : Host.Outcome State Fault Refusal :=
  s.run (fun m => m.when (m.ldAnswers ld) (fun m =>
    let w := if index = 0 then 0x0001 + 0x01000000 else if index = 1 then 0x1E98 + 0x00020000 else 0x00FFFFFF
    m.send (.doe ld (leBytes 4 w))))

/-- Hops of the greatest fabric crossing (R18): a hypercube of n dies. -/
def fabricHops (n : Nat) : Nat := if n = 8 then 3 else if n = 4 then 2 else 1

/-- The CDAT of an LD (R265): ns, and MB/s. -/
def Mach.cdat (m : Mach) (ld : Nat) : List (List Nat) :=
  let h := 80 * fabricHops m.n
  let bw := if m.on (ldPort ld) Reg.PORT_CTRL.BIFURCATE then 121000 else 242000
  let r0 := SMap.get (fun _ => 0) m.cfg.region0 ld * 2 ^ 28
  let r1 := SMap.get (fun _ => 0) m.cfg.region1 ld * 2 ^ 28
  let region (k base len : Nat) : List (List Nat) :=
    if len = 0 then [] else [[0, k, base, len, k], [1, k, 1, 480 + h], [1, k, 2, 330 + h], [1, k, 4, bw], [1, k, 5, bw], [2, k, 0, 1]]
  region 0 0 r0 ++ region 1 r0 r1

/-- CXL_TABLE_ACCESS (R262, R265). -/
def execCxlTableAccess (ld : Nat) (s : State) : Host.Outcome State Fault Refusal :=
  s.run (fun m => m.when (m.ldAnswers ld) (fun m => m.send (.cdat ld (m.cdat ld))))

end Sys2Proof.Machine
end

