-- ==== Sys2Proof/Machine/Mailbox.lean ====
section
/-! DEFINITION. The primary mailbox of an LD (R46, R266, R269). Answers name the command by its row in R266's table. -/

namespace Sys2Proof.Machine

/-- A mailbox command that succeeds. -/
def State.onMailbox (s : State) (ld : Nat) (f : Mach → Mach) : Host.Outcome State Fault Refusal :=
  s.run (fun m => m.when (m.ldAnswers ld) f)

def Mach.answer (m : Mach) (ld op : Nat) (payload : List Nat) : Mach := m.send (.mailbox ld op 0 payload)

def Mach.regionBytes (m : Mach) (ld region : Nat) : Nat := m.regionSlots ld region * 2 ^ 28

/-- IDENTIFY_MEMORY_DEVICE (R266): volatile and persistent capacity. -/
def execIdentifyMemoryDevice (ld : Nat) (s : State) : Host.Outcome State Fault Refusal :=
  s.onMailbox ld (fun m => m.answer ld 1 [m.regionBytes ld 0 + m.regionBytes ld 1, 0])

/-- GET_DYNAMIC_CAPACITY_CONFIGURATION (R266): base and length of the two regions, and the block size. -/
def execGetDynamicCapacityConfiguration (ld : Nat) (s : State) : Host.Outcome State Fault Refusal :=
  s.onMailbox ld (fun m => m.answer ld 2 [0, m.regionBytes ld 0, m.regionBytes ld 0, m.regionBytes ld 1, 2 ^ 28])

/-- An extent record with its tag (R46): region, first slot, slots, then HANDLE, STATE, SHARED, HOME. -/
structure DcRecord where
  region : Nat
  slot : Nat
  count : Nat
  tag : List Nat
deriving DecidableEq, Repr

def DcRecord.words (r : DcRecord) : List Nat := [r.region, r.slot, r.count] ++ r.tag

/-- Adjacent slots whose tags agree are one record (R46). -/
def joinRecords (acc : List DcRecord) (r : DcRecord) : List DcRecord :=
  match acc with
  | a :: t => if a.region = r.region ∧ a.slot + a.count = r.slot ∧ a.tag = r.tag then { a with count := a.count + r.count } :: t else r :: a :: t
  | [] => [r]

/-- The records of an LD's held and noticed leases, in the order of their slots. -/
def Mach.dcRecords (m : Mach) (ld : Nat) : List DcRecord :=
  let mine := (m.ldLeases ld).filter Lease.counts
  let sorted := sortBy (fun (l : Lease) => l.region * 2 ^ 32 + l.slot) mine
  ((sorted.filterMap (fun l => (m.ext? l.ext).map (fun x =>
    (⟨l.region, l.slot, 1, x.tag⟩ : DcRecord)))).foldl joinRecords []).reverse

/-- GET_DYNAMIC_CAPACITY_EXTENT_LIST (R46). -/
def execGetDynamicCapacityExtentList (ld : Nat) (s : State) : Host.Outcome State Fault Refusal :=
  s.onMailbox ld (fun m => m.answer ld 3 ((m.dcRecords ld).flatMap DcRecord.words))

/-- A record's time in host ns, once a timestamp is set (R266). -/
def hostTimeOf (ts : Nat × Nat) (stamp : Nat) : Nat :=
  if ts.2 ≤ stamp then ts.1 + (stamp - ts.2) * 10 / 17 else ts.1 - (ts.2 - stamp) * 10 / 17

/-- A record's time as it is reported; without a set timestamp it is a free value. -/
def Mach.recordTime (m : Mach) (ld stamp : Nat) : Nat :=
  match (m.ld ld).timestamp with
  | some ts => hostTimeOf ts stamp
  | none => m.choice

/-- GET_EVENT_RECORDS (R266, R269): each record as its kind, its time, the number of its quantities and the quantities. -/
def execGetEventRecords (ld : Nat) (log : EventLog) (s : State) : Host.Outcome State Fault Refusal :=
  s.onMailbox ld (fun m =>
    let rs := (m.ld ld).events.filter (fun e => decide (e.log = log))
    let m' := if (m.ld ld).timestamp.isNone then m.chosen else m
    m'.answer ld 6 (rs.flatMap (fun e => [e.kind, m.recordTime ld e.stamp, e.args.length] ++ e.args)))

/-- The `k` oldest records of a log taken away. -/
def dropOldest (log : EventLog) : Nat → List EventRec → List EventRec
  | _, [] => []
  | 0, l => l
  | k + 1, e :: t => if e.log = log then dropOldest log k t else e :: dropOldest log (k + 1) t

/-- CLEAR_EVENT_RECORDS (R266). -/
def execClearEventRecords (ld : Nat) (log : EventLog) (count : Nat) (s : State) : Host.Outcome State Fault Refusal :=
  s.onMailbox ld (fun m => (m.updLd ld (fun r => { r with events := dropOldest log count r.events })).answer ld 7 [])

/-- GET_EVENT_INTERRUPT_POLICY (R269): for each log its vector + 1, 0 for No Interrupts. -/
def execGetEventInterruptPolicy (ld : Nat) (s : State) : Host.Outcome State Fault Refusal :=
  s.onMailbox ld (fun m => m.answer ld 8 (([.info, .warn, .fail, .fatal, .dcd] : List EventLog).map (fun g =>
    match (m.ld ld).policyOf g with | some v => v + 1 | none => 0)))

/-- SET_EVENT_INTERRUPT_POLICY (R269). -/
def execSetEventInterruptPolicy (ld : Nat) (log : EventLog) (vector : Option Nat) (s : State) : Host.Outcome State Fault Refusal :=
  match vector with
  | some v => if 2048 ≤ v then .fault (.absentUnit v) else
      s.onMailbox ld (fun m => (m.updLd ld (fun r => { r with policy := (log, some v) :: r.policy.filter (fun p => p.1 ≠ log) })).answer ld 9 [])
  | none => s.onMailbox ld (fun m => (m.updLd ld (fun r => { r with policy := (log, none) :: r.policy.filter (fun p => p.1 ≠ log) })).answer ld 9 [])

/-- GET_SUPPORTED_LOGS (R266): the Command Effects Log alone, named by 1. -/
def execGetSupportedLogs (ld : Nat) (s : State) : Host.Outcome State Fault Refusal :=
  s.onMailbox ld (fun m => m.answer ld 10 [1])

/-- GET_LOG (R266): the Command Effects Log lists the commands of R266, here by their rows. -/
def execGetLog (ld : Nat) (s : State) : Host.Outcome State Fault Refusal :=
  s.onMailbox ld (fun m => m.answer ld 11 ((List.range 13).map (· + 1)))

/-- GET_TIMESTAMP (R266): the time that a set timestamp gives now; a free value when none is set. -/
def execGetTimestamp (ld : Nat) (s : State) : Host.Outcome State Fault Refusal :=
  s.onMailbox ld (fun m =>
    let m' := if (m.ld ld).timestamp.isNone then m.chosen else m
    m'.answer ld 12 [m.recordTime ld (m.now (ldPort ld))])

/-- SET_TIMESTAMP (R266). -/
def execSetTimestamp (ld ns : Nat) (s : State) : Host.Outcome State Fault Refusal :=
  s.onMailbox ld (fun m => (m.updLd ld (fun r => { r with timestamp := some (ns, m.now (ldPort ld)) })).answer ld 13 [])

/-- MAILBOX_UNSUPPORTED (R266): every other opcode returns Unsupported. -/
def execMailboxUnsupported (ld opcode : Nat) (s : State) : Host.Outcome State Fault Refusal :=
  s.onMailbox ld (fun m => m.send (.mailbox ld 0 1 [opcode]))

end Sys2Proof.Machine
end

