-- ==== Sys2Proof/Machine/Nvm.lean ====
section
/-! DEFINITION. Physical presence (R469 to R472) and the NVM commands (R473). -/

namespace Sys2Proof.Machine

/-- PRESENCE_OPEN (R469): also while presence holds, when it restarts the 300 s. -/
def execPresenceOpen (s : State) : Host.Outcome State Fault Refusal :=
  s.run (fun m => m.when m.powered (fun m =>
    ({ m with pres := ⟨true, true, m.now m.ens⟩ }).wpFollow.note m.ens uAon pPresence 1))

/-- PRESENCE_CLOSE (R469): the later of 300 s after the opening and the rise of PRESENT_N. PIN_LOW shows the level that the last of the
two commands implies (log entry 118). -/
def execPresenceClose (s : State) : Host.Outcome State Fault Refusal :=
  s.run (fun m => m.when (m.powered && m.pres.active) (fun m =>
    let m := m.runTo m.ens (m.pres.openedAt + 300 * Config.sec)
    ({ m with pres := { m.pres with active := false, pinLow := false } }).wpFollow.note m.ens uAon pPresence 0))

/-- Seconds left to the 300 s limit (CFG_PRESENCE.REMAIN_S). -/
def Mach.remainS (m : Mach) : Nat :=
  if m.pres.active then (m.pres.openedAt + 300 * Config.sec - m.now m.ens) / Config.sec else 0

/-- CFG_DEBUG (R472). -/
def execCfgDebug (via : Via) (d : Nat) (v : Word) (s : State) : Host.Outcome State Fault Refusal :=
  s.onDie d (fun m => m.when m.alive (fun m =>
    if via = .service ∧ v = 0x44424755 then
      if m.pres.active then (m.wr d Reg.CFG_STATUS.DEBUG 1).note d uMgmt pDebugUnlock
      else m.note d uMgmt pDebugRefused 1
    else m.note d uMgmt pDebugRefused 2))

/-- Size of a command's area, and whether it needs write authority (R473). -/
def nvmSize (cmd : Nat) : Nat := if cmd = 3 then 4096 else if cmd = 4 then 65536 else 256

/-- The command's NOR address: bits below its size ignored. -/
def Mach.nvmAddr (m : Mach) (d cmd : Nat) : Nat := m.rd d Reg.CFG_NVM_ADDR.ADDR / nvmSize cmd * nvmSize cmd

/-- Does the area touch the identity area or a firmware slot? -/
def nvmForbidden (a n : Nat) : Bool := overlaps a n norIdentity 0xF000 || overlaps a n 0x2000000 0x2000000

/-- Why a command is refused (R473), the first of the list that holds (log entry 12); 0 when it is not. -/
def Mach.nvmReason (m : Mach) (d cmd : Nat) : Nat :=
  if cmd ≠ 1 ∧ m.writeAuth = false then 1
  else if cmd ≠ 1 ∧ nvmForbidden (m.nvmAddr d cmd) (nvmSize cmd) = true then 2
  else if d ≠ m.ens then 3
  else if m.on d Reg.CFG_NVM_STATUS.BUSY then 4
  else 0

/-- The 256-byte buffer CFG_NVM_DATA. -/
def Mach.nvmBuffer (m : Mach) (d : Nat) : List Byte := (List.range 64).flatMap (fun i => leBytes 4 (m.rd d (Reg.CFG_NVM_DATA.DATA i)))

def Mach.setNvmBuffer (m : Mach) (d : Nat) (bs : List Byte) : Mach :=
  (List.range 64).foldl (fun m i => m.wr d (Reg.CFG_NVM_DATA.DATA i) (field bs (4 * i) 4)) m

/-- CFG_NVM_STATUS after a refusal. -/
def Mach.nvmRefuse (m : Mach) (d r : Nat) : Mach :=
  ((m.wr d Reg.CFG_NVM_STATUS.DONE 0).wr d Reg.CFG_NVM_STATUS.REFUSED 1).wr d Reg.CFG_NVM_STATUS.REASON r

/-- An NVM command (R473): in half-mast only the ensign die's registers are reached (R436). A program takes the buffer as it is at the
command (log entry 119). -/
def Mach.nvmCommand (m : Mach) (d cmd : Nat) : Mach :=
  m.when (m.powered && (!m.halted || d = m.ens)) (fun m =>
    let r := m.nvmReason d cmd
    if r ≠ 0 then m.nvmRefuse d r
    else
      let m := ((m.wr d Reg.CFG_NVM_STATUS.DONE 0).wr d Reg.CFG_NVM_STATUS.REFUSED 0).wr d Reg.CFG_NVM_STATUS.REASON 0
      let a := m.nvmAddr d cmd
      if cmd = 1 then (m.setNvmBuffer d (m.nor.bytes a 256)).wr d Reg.CFG_NVM_STATUS.DONE 1
      else (({ m with nor := { m.nor with running := some (cmd, a), data := m.nvmBuffer d, protect := false } }).wr d Reg.CFG_NVM_STATUS.BUSY 1).send
        (.nor cmd a))

/-- NVM_READ (R473, CMD 1). -/
def execNvmRead (d : Nat) (s : State) : Host.Outcome State Fault Refusal := s.onDie d (·.nvmCommand d 1)

/-- NVM_PROGRAM (R473, CMD 2). -/
def execNvmProgram (d : Nat) (s : State) : Host.Outcome State Fault Refusal := s.onDie d (·.nvmCommand d 2)

/-- NVM_ERASE_4K (R473, CMD 3). -/
def execNvmErase4K (d : Nat) (s : State) : Host.Outcome State Fault Refusal := s.onDie d (·.nvmCommand d 3)

/-- NVM_ERASE_64K (R473, CMD 4). -/
def execNvmErase64K (d : Nat) (s : State) : Host.Outcome State Fault Refusal := s.onDie d (·.nvmCommand d 4)

/-- NVM_OPERATION_COMPLETE (R473): the array changes and DONE is set, or REASON 5 with the area's content left open. -/
def execNvmOperationComplete (ok : Bool) (s : State) : Host.Outcome State Fault Refusal :=
  s.run (fun m =>
    match m.nor.running with
    | none => m
    | some (cmd, a) =>
      let d := m.ens
      let data := m.nor.data
      let m := ({ m with nor := { m.nor with running := none, data := [] } }).wr d Reg.CFG_NVM_STATUS.BUSY 0
      if ok then
        let n := if cmd = 2 then m.nor.program a data else m.nor.erase a (nvmSize cmd)
        (({ m with nor := n }).wr d Reg.CFG_NVM_STATUS.DONE 1).wpFollow
      else
        let r := m.freeBytes (nvmSize cmd)
        (({ r.2 with nor := r.2.nor.rewrite a r.1 }).nvmRefuse d 5).wpFollow)

end Sys2Proof.Machine
end

