-- ==== Sys2Proof/Machine/Start.lean ====
section
/-! DEFINITION. Resets and start-up: POR_N (R440, R517), restart of the die set (R438, R439), image loading (R454 to R461, R491,
R497, R500), the die set's readiness (R52, R89, R379, R390, R465). -/

namespace Sys2Proof.Machine

/-! ## POR_N (R438, R440, R441) -/

/-- What a die's flash keeps without power: the array and its tables. -/
def Flash.cold (x : Flash) : Flash :=
  { x with phase := .off, copies := [], hostTime := false, retraining := [], swept := [], moving := none }

/-- The NOR when an operation is cut off: the content of its area is left open. -/
def Mach.norCut (m : Mach) : Mach :=
  match m.nor.running with
  | none => m
  | some (cmd, a) =>
    let r := m.freeBytes (nvmSize cmd)
    { r.2 with nor := { r.2.nor.rewrite a r.1 with running := none, data := [] } }

/-- POR_N asserted (R440): flash, NOR with its install record, and what the pool directory checkpointed (R484) are kept; so is a
TB_TIME_SET ceiling of half-mast (R415). -/
def Mach.powerOff (m : Mach) : Mach :=
  let m := m.norCut
  { Mach.reset with
    out := m.out, freeCtr := m.freeCtr, supply := m.supply,
    nor := { m.nor with protect := true, wpHigh := false },
    fw := { m.fw with restoring := none, header := [], digest := 0, received := 0 },
    pool := { Pool.reset with directory := m.pool.directory },
    pw := { Power.reset m.n with perst := m.pw.perst },
    dies := m.dies.map (fun x => { Die.reset with fl := x.fl.cold, clk := { Clock.reset with timeSet := x.clk.timeSet } }) }

/-- POR_N_ASSERT (R440). -/
def execPorNAssert (s : State) : Host.Outcome State Fault Refusal := s.run (fun m => m.when m.powered Mach.powerOff)

/-- RAIL_UNDERVOLTAGE (R517): whichever rail it is, it acts as a POR_N assertion. -/
def execRailUndervoltage (_ : Rail) (s : State) : Host.Outcome State Fault Refusal := s.run (fun m => m.when m.powered Mach.powerOff)

/-- POR_N_DEASSERT (R37, R390, R418, R441 step 1, R526): straps sampled, provisional time from 0, the ITO started within 20 µs; a
strap that names no die is cause 2 of R435. -/
def execPorNDeassert (ensignSel poolId : Nat) (s : State) : Host.Outcome State Fault Refusal :=
  s.run (fun m => m.when (decide (m.pw.phase = .off)) (fun m =>
    let ito := m.choice % (20 * Config.us + 1)
    let m := m.chosen
    let m := { m with pw := { m.pw with phase := .startup, ensign := ensignSel % 8, poolId := poolId % 32 } }
    let m := m.eachDie (fun m d =>
      (m.upd d (fun x => { x with aux := { x.aux with itoStart := ito, tripSensors := List.range 8 } })).wr d Reg.POOL_STATUS.PACKAGE (poolId % 32))
    let m := m.pass ito
    let m := m.eachDie (fun m d => m.startStep d 1)
    if m.pw.ensign < m.n then m else m.halfMast 0 2))

/-! ## Restart of the die set (R389, R390, R394, R438, R439) -/

/-- Registers that a restart keeps (R14, R438): trained values, of the thermal registers the hottest reading and the time
since POR_N (R529), flash counts, the ceiling. -/
def keptReg (off : Nat) : Bool :=
  let at' (f : Fld) : Bool := decide (off = f.off)
  (List.range 12).any (fun c => at' (Reg.DMC_TRAIN.RD_DELAY c) || at' (Reg.DMC_TRAIN.RD_EYE c))
    || at' Reg.PWR_THROTTLE_TIME.MS
    || at' Reg.FW_COUNTS.INSTALLS || at' Reg.FLC_PROG_BYTES.COUNT || at' Reg.FLC_SETTLE_BYTES.COUNT || at' Reg.TB_CEILING.CEILING

/-- A die at a restart: its always-on block, its flash and its trained values stay; time runs on (R389), on the ITO until the
crystal count completes (R418). -/
def Die.restarted (x : Die) : Die :=
  let retained := x.rd Reg.DMC_TRAIN_STATUS.RETAINED
  let peak := x.rd Reg.PWR_THERM_STATUS.PEAK_C
  let y := { Die.reset with
    regs := x.regs.filter (fun p => keptReg p.1),
    clk := { x.clk with fineRuns := false, fineWait := false, slew := 0, slewPhase := 0, ito := true, mark := none },
    log := { PLog.reset with aon := x.log.aon, early := x.log.early, earlyLost := x.log.earlyLost },
    aux := { Aux.reset with coolSince := x.aux.coolSince, throttleSince := x.aux.throttleSince, tripSensors := x.aux.tripSensors,
                            itoStart := x.clk.now },
    dram := { Dram.reset with chans := x.dram.chans.map (fun (c : Chan) => { Chan.reset with retained := c.retained }) },
    fl := x.fl.cold }
  (y.wr Reg.DMC_TRAIN_STATUS.RETAINED retained).wr Reg.PWR_THERM_STATUS.PEAK_C peak

/-- BOOT, the first record of a start, which holds P_0 (R394); TB_BOOT_TIME shows it (R390). -/
def Mach.boot (m : Mach) (d p0 : Nat) : Mach := (m.wr d Reg.TB_BOOT_TIME.P0 p0).note d uAon pBoot 0 [p0]

/-- The die set restarts at step 2 of start-up. A restart before time is established leaves provisional time running. -/
def Mach.restart (m : Mach) (why : Nat) : Mach :=
  let m := (m.eachDie (fun m d => m.note d uAon pReset why)).norCut
  let early := (m.die m.ens).clk.provisional
  let p0 := m.stamp m.ens
  let m := { Mach.reset with
    out := m.out, freeCtr := m.freeCtr, supply := m.supply, pres := m.pres, nor := m.nor,
    fw := { m.fw with restoring := none, header := [], digest := 0, received := 0 }, lse := m.lse,
    pool := { Pool.reset with directory := m.pool.directory, members := m.pool.members, schedule := m.pool.schedule },
    pw := { m.pw with phase := .startup, startedAt := p0, restart := !early, lastUse := 0, furlAsked := false, furlStop := none, clkOut := none },
    dies := m.dies.map Die.restarted }
  m.eachDie (fun m d =>
    let m := (m.wr d Reg.POOL_STATUS.PACKAGE m.pw.poolId).wr d Reg.PWR_START_STEP.STEP 1
    if early then m else m.boot d p0)

/-- PWR_RESET (R437, R439): the key through the service port, in any state but POR_N asserted. -/
def execPwrReset (via : Via) (d : Nat) (key : Word) (s : State) : Host.Outcome State Fault Refusal :=
  s.onDie d (fun m => m.when (m.powered && decide (via = .service) && decide (key = 0x5741524D)) (·.restart 1))

/-! ## The image (R454 to R461, R491, R497) -/

/-- NOR_MODE and size of a NOR that can be read (R448). -/
def norMode : NorReport → Option (Nat × Nat)
  | .none => none
  | .quad n => if 64 ≤ n then some (1, n) else none
  | .octal n => if 64 ≤ n then some (2, n) else none

/-- A check of R457 fails at step 5: pennant, FAILED_CHECK, half-mast with cause 1 (R458). -/
def Mach.checkFails (m : Mach) (k : Nat) : Mach :=
  ((m.wrAll Reg.CFG_STATUS.FAILED_CHECK k).note m.ens uMgmt pCheckFail k).halfMast m.ens 1

/-- The firmware slot that the install record names (R497). -/
def Fw.startsFrom (f : Fw) : Nat := if f.state = 2 ∨ f.state = 3 ∨ f.state = 4 ∨ f.state = 6 then 1 else 0

/-- The record at a start (R497): an install cut off while copying has failed, one cut off later is undone, a pending T_act is
dropped. The error of an undone install is a free choice among the codes. -/
def Mach.recordAtStart (m : Mach) : Mach :=
  let f := m.fw
  match f.state with
  | 1 => ({ m with fw := { f with state := 0, tact := none } }).wpFollow
  | 2 | 3 => { m.chosen with fw := { f with restoring := some (1 + m.choice % 11), tact := none } }
  | 4 => { m with fw := { f with tact := none } }
  | 6 => { m with fw := { f with restoring := some 0 } }
  | _ => m

/-- The running image's header in the registers (R490, R505). -/
def Mach.showImage (m : Mach) (slot : Nat) (backupOk : Bool) : Mach :=
  let h := m.nor.fwHeader slot
  let m := { m with fw := { m.fw with header := h, digest := Config.sha384 (m.nor.fwSigned slot) } }
  m.eachDie (fun m d =>
    let m := (m.wr d Reg.FW_STATUS.RUNNING_SLOT slot).setBit d Reg.FW_STATUS.BACKUP_VALID backupOk
    let m := ((m.wr d Reg.FW_VERSION.VERSION (fwVersion h)).wr d Reg.FW_SEC_VERSION.SEC (fwSec h)).wr d Reg.FW_COUNTER.VALUE m.nor.counter
    let m := (m.wr d Reg.FW_PEER_MIN.VERSION (fwPeerMin h)).wr d Reg.FW_PEER_MAX.VERSION (fwPeerMax h)
    (m.wr d Reg.CFG_CAPS.FMT_MIN (fwFmtMin h)).wr d Reg.CFG_CAPS.FMT_MAX (fwFmtMax h))

/-- Check 2 of R457. -/
def formatOk (hdr slot fw : List Byte) : Bool :=
  decide (field hdr 0 4 = 0x52445347) && decide (field hdr 4 2 = 1) && decide (field slot 0 4 = 0x47464347)
    && decide (fwFmtMin fw ≤ field slot 4 2) && decide (field slot 4 2 ≤ fwFmtMax fw) && slotStructOk slot

/-- Classes that are defined and granted less than 4 MiB on a die are disabled, with one pennant each (R154). -/
def Mach.classPennants (m : Mach) : Mach :=
  ((List.range m.cfg.classes).filter (fun c => m.on m.ens (Reg.OPS_CLASS_STAGE.DISABLED c))).foldl (fun m c => m.note m.ens uMgmt pClassDisabled c) m

/-- The package takes a role: only the ensign package has members and a schedule, and it is a member itself (R477, R479). -/
def Mach.takeRole (m : Mach) (role : Nat) : Mach :=
  let p := m.pool
  let p := if role = 1 then { p with role := role } else { p with role := role, members := [], thetas := [], schedule := none }
  ((({ m with pool := { p with corrected := false, refused := false } }).wrAll Reg.POOL_STATUS.ROLE role).wrAll Reg.POOL_STATUS.JOINED
    (b2n (decide (role = 1))))

/-- A join message to the ensign package: number, running version and peer range (R477). -/
def Mach.sendJoin (m : Mach) : Mach :=
  let t := m.stamp m.ens
  ({ m with pool := { m.pool with lastAnchor := m.now m.ens } }).send (.pool 0 0 t [m.pw.poolId, fwVersion m.fw.header, fwPeerMin m.fw.header, fwPeerMax m.fw.header])

/-- The pool role of the image; without a management LD it is standalone, with a pennant (R475, R476). -/
def Mach.startRole (m : Mach) : Mach :=
  let want := if m.cfg.poolRole ≤ 2 then m.cfg.poolRole else 0
  let role := if m.cfg.mgmtLd.isNone then 0 else want
  let m := m.takeRole role
  if role = want then m else m.note m.ens uMgmt pRole

/-- Every die loads its registers from the sections (R454, R456), and the pennants of loading are written. -/
def Mach.loadImage (m : Mach) (hdr slot : List Byte) (img : List SecRead) (bad : List Nat) : Mach :=
  let n := m.n
  let m := { m with cfg := imgConfig n img }
  let m := m.eachDie (fun m d =>
    let m := loadAll (imgArrays n img d) (loadAll (imgScalars n img) m d) d
    let m := (m.wr d Reg.CFG_STATUS.LOADED 1).wr d Reg.CFG_STATUS.SLOT (hdrActive hdr)
    let m := (m.wr d Reg.CFG_FORMAT.HEADER (field hdr 4 2)).wr d Reg.CFG_FORMAT.SLOT (field slot 4 2)
    m.wr d Reg.CFG_IMAGE_ID.ID (field slot 16 8))
  let m : Mach := img.foldl (fun (m : Mach) s => s.ignored.foldl (fun (m : Mach) o => m.note m.ens uMgmt pEntryIgnored s.id [o]) m) m
  let m : Mach := (m.note m.ens uMgmt pImageLoaded).classPennants
  let m := if m.cfg.expectVersion ≠ 0 ∧ m.cfg.expectVersion ≠ fwVersion m.fw.header then
    m.note m.ens uMgmt pVersionMismatch 0 [m.cfg.expectVersion, fwVersion m.fw.header] else m
  let m := (bad.filter (fun (d : Nat) => decide (d < m.n))).foldl (fun m d => (m.wr d Reg.FW_STATUS.IDENTITY_FAIL 1).noteFree d uMgmt 0x03) m
  m.startRole.eachDie (fun m d => m.startStep d 5)

/-- Firmware (R491), then checks 2 and 3 of R457. -/
def Mach.startImage (m : Mach) (hdr slot : List Byte) (active backup : FwVerdict) (bad : List Nat) : Mach :=
  let valid (k : Nat) : Bool := m.nor.fwValid k (if k = 0 then active else backup)
  let want := m.fw.startsFrom
  let backupOk := valid 1 && decide (m.fw.state ≠ 1)
  if !valid want && !valid (1 - want) then m.halfMast m.ens 10
  else
    let run := if valid want then want else 1 - want
    let m := m.recordAtStart.showImage run backupOk
    let m := if run = want then m else m.noteFree m.ens uMgmt 0x03
    let img := readSlot m.n slot
    if !formatOk hdr slot m.fw.header then m.checkFails 2
    else if !boardOk m.n img then m.checkFails 3
    else m.loadImage hdr slot img bad

/-- IMAGE_LOAD (R441 step 5, R448, R454 to R461, R491, R497, R500). -/
def execImageLoad (nor : NorReport) (active backup : FwVerdict) (identityFail : List Nat) (s : State) : Host.Outcome State Fault Refusal :=
  s.run (fun m => m.when (decide (m.pw.phase = .startup) && (List.range m.n).all (fun d => decide (m.rd d Reg.PWR_START_STEP.STEP = 4))) (fun m =>
    match norMode nor with
    | none => m.checkFails 1
    | some (mode, mib) =>
      let m := (m.wrAll Reg.CFG_STATUS.NOR_MODE mode).wrAll Reg.CFG_CAPS.NOR_MIB (min 4095 mib)
      let hdr := m.nor.bytes 0 4096
      let at' := norCfgSlot (hdrActive hdr)
      let head := m.nor.bytes at' 64
      let slot := m.nor.bytes at' (if slotLengthOk head then field head 8 4 else 64)
      if hdrCrcOk hdr && slotLengthOk head && slotCrcOk slot then m.startImage hdr slot active backup identityFail
      else m.checkFails 1))

/-! ## The die set is ready (R441 step 9) -/

/-- P_0 of a start after POR_N: one more than the greatest recovered ceiling, 1 where there is none (R390, R415). -/
def Mach.firstTime (m : Mach) : Nat :=
  let cs := m.dies.filterMap (·.fl.ceiling) ++ m.dies.filterMap (·.clk.timeSet)
  if cs.isEmpty then 1 else maxOf cs + 1

/-- Time is established on a die (R390, R394): BOOT as the first record, then the early records raised by P_0. -/
def Mach.establish (m : Mach) (d p0 : Nat) : Mach :=
  let pkg := m.pw.poolId
  let m := m.upd d (fun x =>
    let early := x.log.early.map (raiseEarly p0)
    let fl := (x.clk.flags - fEarly)
    let boot := [packHead p0 pkg d uAon 0 fl pBoot.cls pBoot.code 0, packArg p0 pkg d uAon 1 fl]
    let x := { x with
      clk := { x.clk.setTime (x.clk.now + p0) with provisional := false, last := x.clk.last + p0, timeSet := none },
      log := { x.log with early := [], aon := [], earlyLost := 0 } }
    let x := (boot ++ early).foldl (fun x r => (x.aonAppend r).logAppend r) x
    x.wr Reg.ERR_SEQ.NEXT ((2 + early.length) % 65536))
  m.wr d Reg.TB_BOOT_TIME.P0 p0

/-- Time of every die, at the end of map recovery. -/
def Mach.establishAll (m : Mach) : Mach :=
  if !(m.die m.ens).clk.provisional then m.eachDie (fun m d => m.upd d (fun x => { x with clk := { x.clk with timeSet := none } }))
  else
    let p0 := m.firstTime
    let lost := m.dies.map (·.log.earlyLost)
    let m := { m with pw := { m.pw with startedAt := p0 } }
    let m := m.eachDie (fun m d => m.establish d p0)
    m.eachDie (fun m d => let k := lost.getD d 0
      if k = 0 then m else m.note d uAon pEarlyLost 0 [k] fOverflow)

/-- The offers of an extent are not restored: each is withdrawn with its pennant (R52, R54). -/
def Mach.withdrawOffers (m : Mach) (e : Nat) : Mach :=
  (m.lse.leases.filter (fun l => decide (l.ext = e) && decide (l.state = .offered))).foldl (fun m l =>
    (m.notePair pWithdraw l.ext l.ld).setLse { m.lse with leases := m.lse.leases.erase l }) m

/-- The home die's flash runs first discovery at this start: its frames no longer exist (R52). -/
def Mach.framesGone (m : Mach) (x : Extent) : Bool := m.on x.home Reg.FLC_STATUS.FIRST_DISCOVERY

/-- An extent that R52 drops: its offers withdrawn, its pennant, an event to come for each LD that held it, and the extent is gone. A
new open extent that was only offered goes back to FREE with its withdrawn offer, which is no drop (R49). -/
def Mach.dropAtStart (m : Mach) (x : Extent) : Mach :=
  let m := m.withdrawOffers x.num
  let held := (m.lse.leases.filter (fun l => decide (l.ext = x.num) && l.counts)).map (fun l => (l.ld, l.region, l.slot, x.tag))
  let m := if x.state = .offered && !m.framesGone x then m
    else (m.setLse { m.lse with forced := m.lse.forced ++ held }).note m.ens uMgmt pDropped x.state.code [x.handle]
  (m.wipeExt x.home x).freeExtent x

/-- Is an extent restored (R52)? -/
def Mach.restorable (m : Mach) (x : Extent) : Bool := decide (x.state = .sealed) && x.settled && !m.framesGone x

/-- An extent is released and cleared before any port enables, with the pennants of its state changes (R51 to R53). -/
def Mach.clearAtStart (m : Mach) (x : Extent) : Mach :=
  let m := if x.state = .releasing ∨ x.state = .clearing then m else m.extState x.num .releasing
  let m := if x.state = .clearing then m else m.extState x.num .clearing
  m.clearExt x

/-- The leases of a restored extent (R52): offers are withdrawn, a passed notice ends; an extent left without a lease is released
and cleared. -/
def Mach.restoreLeases (m : Mach) (x : Extent) : Mach :=
  let m := m.withdrawOffers x.num
  let mine := m.lse.leases.filter (fun l => decide (l.ext = x.num))
  let m := (mine.filter (fun l => decide (l.state = .held) && l.revoking)).foldl (fun m l => m.updLease l (fun k => { k with revoking := false })) m
  let due := mine.filter (fun l => decide (l.state = .noticed) && decide (l.tr ≤ m.stamp m.ens))
  let m := due.foldl (fun m l =>
    let m := m.notePair pRevoke l.ext l.ld
    m.setLse { m.lse with leases := m.lse.leases.map (fun k => if k = l then { k with state := .ended } else k),
                          forced := m.lse.forced ++ [(l.ld, l.region, l.slot, x.tag)] }) m
  if (m.liveLeases x.num).isEmpty then m.clearAtStart { x with was := .sealed } else m.writeHome x.num (x.home + 1)

/-- The directory and the leases after recovery (R52, R89). Maps of extents that are not restored are free again. -/
def Mach.restoreDirectory (m : Mach) : Mach :=
  let xs := m.lse.exts
  let gone (x : Extent) : Bool := (decide (x.state = .releasing) || decide (x.state = .clearing)) && !m.framesGone x
  let m := (xs.filter gone).foldl (fun m x => m.clearAtStart x) m
  let m := (xs.filter (fun x => !gone x && !m.restorable x)).foldl (fun m x => m.dropAtStart x) m
  let m := (xs.filter (fun x => !gone x && m.restorable x)).foldl (fun m x => m.restoreLeases x) m
  m.eachDie (fun m d =>
    let known (k : Nat) : Bool := m.lse.exts.any (fun x => decide (x.num = k / 4160) && decide (x.home = d))
    let stray := (m.die d).tier.map.filter (fun p => !known p.1)
    (stray.foldl (fun m p => m.setEntry d (p.1 / 4160) (p.1 % 4160) FrameEntry.zero) m).freeUp d)

/-- One STATIC entry (R465): `have'` holds the entries that are present, by position, with region and extent. -/
def Mach.staticLease (m : Mach) (have' : List (Nat × Nat × Nat)) (e : StaticLease) : List (Nat × Nat × Nat) × Mach :=
  match (m.ldLeases e.ld).find? (fun l => decide (l.region = e.region) && decide (l.slot = e.slot)) with
  | some l => (have' ++ [(e.pos, e.region, l.ext)], m)
  | none =>
    let named := have'.find? (fun h => decide (h.1 = e.share) && decide (h.1 < e.pos) && decide (h.2.1 = 1))
    let share := if e.share = 0xFF then none else some (named.bind (fun h => m.ext? h.2.2))
    if !m.assigned e.ld then (have', m.refuse 1)
    else match m.leaseChecks e.ld e.region (some e.slot) share, share with
      | .error c, _ => (have', m.refuse c)
      | .ok (k, none), some (some x) => (have' ++ [(e.pos, e.region, x.num)], m.hold e.ld e.region k x.num)
      | .ok (k, some home), _ => match m.freeNumber with
        | some num =>
          let m := m.chosen.newExtent num home .opened (decide (e.region = 1)) true
          (have' ++ [(e.pos, e.region, num)], m.hold e.ld e.region k num)
        | none => (have', m.refuse 3)
      | .ok _, _ => (have', m)

/-- The STATIC leases that the restored directory does not hold, in list order; positions from 255 are ignored (R465). -/
def Mach.staticLeases (m : Mach) : Mach :=
  ((m.cfg.statics.filter (fun e => decide (e.pos < 255))).foldl (fun (acc : List (Nat × Nat × Nat) × Mach) e =>
    Mach.staticLease acc.2 acc.1 e) ([], m)).2

/-- The ROM tables are built (R262); until its link comes up an LD's link counts as down. -/
def Mach.buildRom (m : Mach) : Mach :=
  m.allLds.foldl (fun m ld => m.updLd ld (fun r => { r with romBuilt := true, linkDownAt := some (m.now m.ens) })) m

/-- A die becomes ready: QoS, decay, preload, heartbeats and the first ceiling start (R40, R92, R116, R379, R388). A die without a
port in use has no step 10 or 11. -/
def Mach.dieReady (m : Mach) (d : Nat) : Mach :=
  let m := (m.journalMark d 0).markDurable d
  let m := (m.qosStart d).updTier d (fun t => { t with
    decayDue := m.now d + clamp 1 86400 (m.rd d Reg.TIER_HEAT_DECAY.PERIOD_S) * Config.sec, preload := some 0 })
  let m := ((m.preloadJudge d).wr d Reg.TIER_PRELOAD_STATUS.ACTIVE 1).preloadNext d 0
  let m := (List.range m.n).foldl (fun m p => if m.isPartner d p then m.beatNow d p else m) m
  let m := ((m.wr d Reg.OPS_STATUS.READY 1).wr d Reg.CFG_STATUS.DONE 1).wr d Reg.TB_STATUS.ESTABLISHED 1
  let m := (m.startStep d 9).note d uAon pPowerState psFull
  if m.on d Reg.PORT_CTRL.ENABLE then m else m.wr d Reg.PWR_START_STEP.DONE 1

/-- What the die set does at the end of step 9, and the worker's first join message (R477). -/
def Mach.setReady (m : Mach) : Mach :=
  let m : Mach := m.establishAll.restoreDirectory.staticLeases.buildRom
  let m : Mach := { m with pw := { m.pw with phase := .run, lastUse := m.now m.ens } }
  let m : Mach := m.eachDie (fun m d => m.dieReady d)
  if m.pool.role = 2 then m.sendJoin else m

/-- Time, memory and flash of every die are ready for service. -/
def Mach.mayServe (m : Mach) : Bool :=
  decide (m.pw.phase = .startup) && m.fab.trained && (List.range m.n).all (fun d =>
    decide ((m.fl d).phase = .ready) && decide (m.rd d Reg.DMC_DEV_STATUS.INIT_DONE = 7))

/-- DIE_SET_READY (R441 step 9). -/
def execDieSetReady (s : State) : Host.Outcome State Fault Refusal := s.run (fun m => m.when m.mayServe Mach.setReady)

end Sys2Proof.Machine
end

