-- ==== Sys2Proof/Machine/Power.lean ====
section
/-! DEFINITION. Dipped (R428) and furled (R429 to R434, R309, R310, R320). -/

namespace Sys2Proof.Machine

/-! ## Dipped (R427, R428) -/

/-- The bit of PWR_GATED for a unit: field and index within it; none for a channel that does not exist. -/
def gateBit : GateUnit → Option (Fld × Nat)
  | .engine => some (Reg.PWR_GATED.ENGINE, 0)
  | .loadExp => some (Reg.PWR_GATED.LOAD_EXP, 0)
  | .encoder => some (Reg.PWR_GATED.ENCODER, 0)
  | .stage => some (Reg.PWR_GATED.STAGE, 0)
  | .dmc c => if c < 12 then some (Reg.PWR_GATED.DMC, c) else none
  | .flash c => if c < 8 then some (Reg.PWR_GATED.FLASH, c) else none

/-- Work of a unit: jobs that run on the die for the engine and the stage, fetches for the load path and the flash channels, coding
for the encoder, and what waits on a DRAM channel. -/
def Mach.unitBusy (m : Mach) (d : Nat) (u : GateUnit) : Bool :=
  let running := m.dies.any (fun x => x.jobs.any (fun j => j.subs.any (fun s => decide (s.home = d) && s.start.isSome && s.returned.isNone)))
  let coding := (m.die d).xc.recode.isSome || (m.jobs d).any (fun j => j.start.isSome && (decide (j.op = 0x31) || decide (j.op = 0x40)))
  let reading := (m.die d).tier.fetches.any (fun f => f.begunAt.isSome)
  match u with
  | .engine | .stage => running
  | .loadExp => reading
  | .encoder => coding
  | .dmc c => !(m.chan d c).waiting.isEmpty || decide (m.chState d c ≠ 3)
  | .flash c => reading || !(m.fl d).copies.isEmpty || decide (m.rd d (Reg.FLC_CH_STATUS.STATE c) ≠ 3)

/-- UNIT_IDLE_GATE (R428): a unit idle for PWR_DIP_IDLE is gated, and the die reports dipped. -/
def execUnitIdleGate (d : Nat) (u : GateUnit) (s : State) : Host.Outcome State Fault Refusal :=
  s.onDie d (fun m => match gateBit u with
    | none => m
    | some (f, i) => m.when (decide (m.pw.phase = .run) && m.on d Reg.PWR_CTRL.DIP_EN && !bit (m.rd d f) i && !m.unitBusy d u) (fun m =>
      let idle := clamp 1 10000 (m.rd d Reg.PWR_DIP_IDLE.US) * Config.us
      let m := match u with
        | .dmc c => (m.runTo d ((m.chan d c).lastUse + idle)).selfRefresh d c
        | _ => m
      (m.wr d f (setBits (m.rd d f) i 1 1)).powerState d psDipped))

/-- UNIT_WAKE (R428). -/
def execUnitWake (d : Nat) (u : GateUnit) (s : State) : Host.Outcome State Fault Refusal :=
  s.onDie d (fun m => match gateBit u with
    | none => m
    | some (f, i) => m.when (decide (m.pw.phase = .run) && bit (m.rd d f) i) (fun m =>
      match u with
      | .dmc c => m.wakeChan d c
      | _ => m.ungate d f i))

/-- DIP_EN 0 leaves no unit gated (R428). -/
def Mach.ungateAll (m : Mach) (d : Nat) : Mach :=
  let m := (List.range 12).foldl (fun (m : Mach) c => if bit (m.rd d Reg.PWR_GATED.DMC) c then m.wakeChan d c else m) m
  let m := (List.range 8).foldl (fun (m : Mach) c => m.ungate d Reg.PWR_GATED.FLASH c) m
  (((m.ungate d Reg.PWR_GATED.ENGINE 0).ungate d Reg.PWR_GATED.LOAD_EXP 0).ungate d Reg.PWR_GATED.ENCODER 0).ungate d Reg.PWR_GATED.STAGE 0

/-! ## Furled entry (R429 to R431) -/

/-- The bits of PWR_FURL_BLOCK that stand against entry now (R429, R320, R446). -/
def Mach.furlBlocks (m : Mach) : List Nat :=
  let dies := List.range m.n
  let busy := m.dies.any (fun x => x.jobs.any (fun j => !j.pre) || !x.tier.fetches.isEmpty || x.xc.recode.isSome)
  let frozen := dies.any (fun d => (List.range 12).any (fun c => decide (m.chState d c = 5)))
  (if busy then [0] else []) ++ (if frozen then [1] else []) ++ (if dies.any (fun d => !m.ready d) then [4] else [])

/-- What prevented or ended an entry: its bit on every die, and a pennant whose code the spec does not give. -/
def Mach.furlBlocked (m : Mach) (bs : List Nat) : Mach :=
  let m := bs.foldl (fun (m : Mach) b => m.eachDie (fun m d => m.wr d ⟨Reg.PWR_FURL_BLOCK.BUSY.off, b, 1⟩ 1)) m
  m.noteFree m.ens uAon 0x0E

/-- The ensign die starts furled entry if every condition of R429 holds; otherwise the request is dropped. -/
def Mach.furlStart (m : Mach) (asked : Bool) : Mach :=
  match m.furlBlocks with
  | [] =>
    let m := { m with pw := { m.pw with phase := .furling 1, furlAsked := asked, furlStop := none, furlAt := m.now m.ens } }
    (m.wrAll Reg.PWR_STATE.FURL_PENDING 1).eachDie (fun m d => m.wr d Reg.FLC_STATUS.RECLAIM_ACTIVE 0)
  | bs => m.furlBlocked bs

/-- A write to PWR_CTRL (R428, R429, R446). -/
def Mach.pwrCtrl (m : Mach) (d v : Nat) : Mach :=
  let m := m.wr d Reg.PWR_CTRL.DIP_EN (bits v 0 1)
  let m := if bit v 0 then m else m.ungateAll d
  if bit v 2 then m.furlAbandon 5
  else if bit v 1 && decide (m.pw.phase = .run) then m.furlStart true
  else m

/-- FURL_REQ (R429). -/
def execFurlReq (d : Nat) (v : Word) (s : State) : Host.Outcome State Fault Refusal :=
  s.onDie d (fun m => m.when m.serving (fun m => m.pwrCtrl d v.toNat))

/-- FURL_CANCEL (R446): a pending entry is abandoned at the end of its step. -/
def execFurlCancel (d : Nat) (v : Word) (s : State) : Host.Outcome State Fault Refusal :=
  s.onDie d (fun m => m.when m.serving (fun m => m.pwrCtrl d v.toNat))

/-- FURL_IDLE_TIMEOUT (R429): no host request and no doorbell for PWR_FURL_IDLE. -/
def execFurlIdleTimeout (s : State) : Host.Outcome State Fault Refusal :=
  s.run (fun m => m.when (decide (m.pw.phase = .run) && m.on m.ens Reg.PWR_FURL_IDLE.MS) (fun m =>
    (m.runTo m.ens (m.pw.lastUse + m.rd m.ens Reg.PWR_FURL_IDLE.MS * Config.ms)).furlStart false))

/-- Step 1 has come to its end: every sealed extent is settled (R115). -/
def Mach.extentsSettled (m : Mach) : Bool := m.lse.exts.all (fun x => decide (x.state ≠ .sealed) || x.settled)

/-- Copies of coded frames, headers and T0 copies on devices that are switched off are gone (R115, R188). -/
def Mach.dropOff (m : Mach) (d : Nat) : Mach :=
  let off := (List.range 3).filter (fun j => !(m.retained d).contains j)
  let D := m.devBytes d
  let onOff (a n : Nat) : Bool := off.any (fun j => overlaps a n (j * D) D)
  let hit := (m.die d).tier.map.flatMap (fun p =>
    if m.coded (p.1 / 4160) then (p.2.runs.filter (fun r => onOff r.2.1 r.2.2)).map (fun r => (p.1, r.1)) else [])
  let m := hit.foldl (fun (m : Mach) h => if h.2 = 1 then m.dropT1 d (h.1 / 4160) (h.1 % 4160) else m.dropT2 d (h.1 / 4160) (h.1 % 4160)) m
  let m := m.updTier d (fun t => { t with
    headers := t.headers.filter (fun h => !onOff h.addr h.len), evicts := [],
    promos := t.promos.filter (fun p => p.endedAt.isSome || !(decide (p.dst = 0) || onOff (65536 * p.slot) 65536 || !(m.entry d p.ext p.idx).inT2)) })
  m.updStage d (fun x => { x with copies := [], queue := [] })

/-- Step 4 on one die (R309, R115, R357). -/
def Mach.furlDevices (m : Mach) (d : Nat) : Mach :=
  let m := (List.range 12).foldl (fun (m : Mach) c => (m.drain d c).writeBackSegments d c) m
  let m := m.dropOff d
  let keep := m.retained d
  let mask := sumOf (keep.map (fun j => 2 ^ j))
  let m := (List.range 12).foldl (fun (m : Mach) c =>
    if keep.contains (c / 4) then (m.dramCmd d c 7 0 0 0 5 0).wr d (Reg.DMC_CH_STATUS.STATE c) 4
    else (m.wr d (Reg.DMC_CH_STATUS.STATE c) 0).updChan d c (fun x => { x with segs := [], counts := [], throttled := [] })) m
  let m := (List.range 8).foldl (fun (m : Mach) c => if m.rd d (Reg.FLC_CH_STATUS.STATE c) = 3 then m.wr d (Reg.FLC_CH_STATUS.STATE c) 4 else m) m
  let m := m.wr d Reg.PWR_GATED.DMC (sumOf (((List.range 12).filter (fun c => keep.contains (c / 4))).map (fun c => 2 ^ c)))
  ((m.wr d Reg.DMC_DEV_STATUS.POWERED mask).wr d Reg.DMC_DEV_STATUS.INIT_DONE mask).wr d Reg.DMC_DEV_STATUS.SELF_REFRESH mask

/-- Step 5 on one die: the POWER STATE pennant, then Bytrathal and the root PLL stop and the fine count holds (R383). -/
def Mach.furlStop (m : Mach) (d : Nat) : Mach :=
  let m := ((m.powerState d psFurled).wr d Reg.PWR_STATE.FURL_PENDING 0).wr d Reg.CLK_STATUS.PLL_LOCK 0
  m.upd d (fun x => { x with clk := { x.clk with fineRuns := false, fineWait := false } })

/-- The devices come back on one die (R310, R145, R379): the retention set serves at once, the others after their ramp. -/
def Mach.devicesBack (m : Mach) (d : Nat) : Mach :=
  let keep := m.retained d
  let due := m.now d + m.rd d Reg.DMC_PWR_RAMP.RAMP_US * Config.us
  let m := (List.range 12).foldl (fun (m : Mach) c =>
    if keep.contains (c / 4) then (m.dramCmd d c 8 0 0 0 5 0).wr d (Reg.DMC_CH_STATUS.STATE c) 3 else m) m
  let m := (List.range 8).foldl (fun (m : Mach) c => if m.rd d (Reg.FLC_CH_STATUS.STATE c) = 4 then m.wr d (Reg.FLC_CH_STATUS.STATE c) 3 else m) m
  let m := (List.range 12).foldl (fun (m : Mach) c => m.ungate d Reg.PWR_GATED.DMC c) m
  let m := (m.wr d Reg.DMC_DEV_STATUS.POWERED 7).wr d Reg.DMC_DEV_STATUS.SELF_REFRESH 0
  let m := m.upd d (fun x => { x with aux := { x.aux with rampDue := (List.range 3).foldl (fun r j =>
    if keep.contains j then r else SMap.set (fun _ => 0) r j due) x.aux.rampDue } })
  ((m.wr d Reg.DMC_TRAIN_STATUS.FORM 2).emptySlots d).qosStart d

/-- Entry is abandoned after step `k` (R431): the package is full again, the cause is recorded, the request is dropped. -/
def Mach.furlEnd (m : Mach) (k : Nat) : Mach :=
  let why := m.pw.furlStop
  let m := { m with pw := { m.pw with phase := .run, furlAsked := false, furlStop := none, lastUse := m.now m.ens } }
  let m := m.wrAll Reg.PWR_STATE.FURL_PENDING 0
  let m := if k = 4 then m.eachDie (fun m d => m.devicesBack d) else m
  m.furlBlocked (match why with | some b => if b < 5 then [b] else [] | none => [])

/-- No page program of a die's flash is running (R337, R357): the channels can be quiesced. -/
def Mach.programsDone (m : Mach) (d : Nat) : Bool :=
  !m.flashOk d || [OpenSb.settling, .relocation].all (fun w => match m.openSb d w with
    | some s => decide ((m.sb d s).started ≤ (m.sb d s).done)
    | none => true)

/-- Step `k` of R430 on every die; none while it cannot end. -/
def Mach.furlStep (m : Mach) (k : Nat) : Option Mach :=
  match k with
  | 1 => if m.extentsSettled then some m else none
  | 2 => some (m.eachDie (fun m d => (m.checkpoint d).furledMark d))
  | 3 => if (List.range m.n).all m.programsDone then some m else none
  | 4 => some (m.eachDie (fun m d => m.furlDevices d))
  | _ => some (m.eachDie (fun m d => m.furlStop d))

/-- FURL_ENTRY_STEP (R430, R431): the running step ends; an entry that is to be abandoned ends with it, the settling of step 1 at its next
copy (log entry 116). -/
def Mach.furlAdvance (m : Mach) (k : Nat) : Mach :=
  if m.pw.furlStop.isSome ∧ k = 1 then m.furlEnd 1
  else match m.furlStep k with
    | none => m
    | some m =>
      if m.pw.furlStop.isSome ∧ k < 5 then m.furlEnd k
      else if k < 5 then { m with pw := { m.pw with phase := .furling (k + 1), furlAt := m.now m.ens } }
      else { m with pw := { m.pw with phase := .furled, furlAsked := false } }

/-- FURL_ENTRY_STEP (R430): the running step ends on every die. -/
def execFurlEntryStep (s : State) : Host.Outcome State Fault Refusal :=
  s.run (fun m => match m.pw.phase with
    | .furling k => m.furlAdvance k
    | _ => m)

/-- FURL_L1_TIMEOUT (R430, R431): a link in L0 has not reached L1 within PWR_FURL_WAIT. -/
def execFurlL1Timeout (d : Nat) (s : State) : Host.Outcome State Fault Refusal :=
  s.onDie d (fun m => m.when (decide (m.pw.phase = .furling 3) && (m.halfUp d 0 || m.halfUp d 1)) (fun m =>
    let m := m.runTo m.ens (m.pw.furlAt + clamp 1 1000 (m.rd d Reg.PWR_FURL_WAIT.MS) * Config.ms)
    (m.furlAbandon 2).furlEnd 3))

/-! ## Wake (R433, R434) -/

def wakeCode : WakeSource → Nat
  | .link => 1 | .perst => 2 | .service => 3 | .nmi => 4

/-- One die wakes; its engine, expanders, encoder and flash channels stay gated until work arrives (R434, log entry 117). -/
def Mach.wakeDie (m : Mach) (d src who : Nat) : Mach :=
  let m := (((m.wr d Reg.CLK_STATUS.PLL_LOCK 1).fineRestart d).wr d Reg.PWR_WAKE.SOURCE src).wr d Reg.PWR_WAKE.DIE who
  let m := ((m.bump d Reg.PWR_WAKE.COUNT).devicesBack d).powerState d psFull
  let m := ((m.wr d Reg.PWR_GATED.ENGINE 1).wr d Reg.PWR_GATED.LOAD_EXP 1).wr d Reg.PWR_GATED.ENCODER 1
  let m := m.wr d Reg.PWR_GATED.FLASH 255
  (List.range m.n).foldl (fun (m : Mach) p => if m.isPartner d p then m.beatNow d p else m) m

/-- FURLED_WAKE (R427, R433, R434, R314): a lane of the retention set that fails its re-centre is half-mast with cause 6. -/
def execFurledWake (src : WakeSource) (d : Nat) (failed : List (Nat × Nat)) (s : State) : Host.Outcome State Fault Refusal :=
  s.onDie d (fun m => m.when (decide (m.pw.phase = .furled)) (fun m =>
    let m := (m.send (.sideband d 0))
    let m := { m with pw := { m.pw with phase := .run, lastUse := m.now m.ens } }
    let m := m.eachDie (fun m k => m.wakeDie k (wakeCode src) d)
    let bad := failed.filter (fun (p : Nat × Nat) => decide (p.1 < m.n) && decide (p.2 < 12) && (m.retained p.1).contains (p.2 / 4))
    let m := bad.foldl (fun (m : Mach) p => m.laneFail p.1 p.2) m
    match bad with
    | [] => m
    | p :: _ => m.halfMast p.1 6))

end Sys2Proof.Machine
end

