-- ==== Sys2Proof/Machine/Pool.lean ====
section
/-! DEFINITION. Pools (R475 to R487, R498, R499): roles, joins, time anchors, the replica directory, incoming pushes, schedules. -/

namespace Sys2Proof.Machine

/-- A pool event that the spec names without a code: a pennant of class POOL. -/
def Mach.notePool (m : Mach) : Mach := m.noteFree m.ens uMgmt 0x0F

/-- The ensign package of a pool, serving. -/
def Mach.leads (m : Mach) : Bool := m.serving && decide (m.pool.role = 1)

def Mach.setPoolState (m : Mach) (f : Pool → Pool) : Mach := { m with pool := f m.pool }

/-! ## Compatibility and joins (R477, R478, R498) -/

/-- R498. -/
def PoolMember.compatible (a b : PoolMember) : Bool :=
  decide (a.peerMin ≤ b.version) && decide (b.version ≤ a.peerMax) && decide (b.peerMin ≤ a.version) && decide (a.version ≤ b.peerMax)

/-- The package itself as a member. -/
def Mach.self (m : Mach) : PoolMember :=
  ⟨m.pw.poolId, 0, fwVersion m.fw.header, fwPeerMin m.fw.header, fwPeerMax m.fw.header⟩

/-- Every member, the ensign package first. -/
def Mach.members (m : Mach) : List PoolMember := m.self :: m.pool.members

/-- The answer to a join: none (ignored), 0 admitted, 1 ID conflict, 2 incompatible. A member that joins again replaces itself. -/
def Mach.judgeJoin (m : Mach) (x : PoolMember) : Option Nat :=
  let others := m.members.filter (fun k => !(decide (k.pkg = x.pkg) && decide (k.rid = x.rid) && decide (k.pkg ≠ m.pw.poolId)))
  if !m.cfg.peers.any (fun p => decide (p.2 = x.rid)) then none
  else if others.any (fun k => decide (k.pkg = x.pkg)) then some 1
  else if others.all (fun k => x.compatible k) then some 0
  else some 2

/-- POOL_JOIN (R477). -/
def execPoolJoin (pkg version peerMin peerMax requester : Nat) (s : State) : Host.Outcome State Fault Refusal :=
  s.run (fun m => m.when m.leads (fun m =>
    let x : PoolMember := ⟨pkg, requester, version, peerMin, peerMax⟩
    match m.judgeJoin x with
    | none => m
    | some 0 =>
      let m := m.setPoolState (fun p => { p with
        members := p.members.filter (fun k => decide (k.pkg ≠ pkg)) ++ [x], thetas := p.thetas.filter (fun t => decide (t.1 ≠ pkg)) })
      m.send (.pool 1 pkg (m.stamp m.ens) [0])
    | some a => m.send (.pool 1 pkg (m.stamp m.ens) [a])))

/-- POOL_LOSS_TIMEOUT in ticks. -/
def Mach.lossTimeout (m : Mach) : Nat := max 10 (m.rd m.ens Reg.POOL_LOSS_TIMEOUT.MS) * Config.ms

/-- The copies that a worker reports at its join: the sealed extents that came to it by REPLICATE (R484). -/
def Mach.ownCopies (m : Mach) : List Nat :=
  (m.lse.exts.filter (fun x => x.coded && decide (x.state = .sealed))).flatMap (fun x => match x.origin with
    | some o => [o.1, o.2, x.handle]
    | none => [])

/-- JOIN_RETRY (R477): the join message is sent again, or the ensign package's answer to it comes. -/
def execJoinRetry (answer : Option Nat) (s : State) : Host.Outcome State Fault Refusal :=
  s.run (fun m => m.when (m.serving && decide (m.pool.role = 2) && !m.inPool && !m.pool.refused) (fun m =>
    match answer with
    | none => (m.runTo m.ens (m.pool.lastAnchor + m.lossTimeout)).sendJoin
    | some 0 =>
      let m := (m.wrAll Reg.POOL_STATUS.JOINED 1).setPoolState (fun p => { p with lastAnchor := m.now m.ens, corrected := false })
      m.send (.pool 4 0 (m.stamp m.ens) (3 :: m.pw.poolId :: m.ownCopies))
    | some a =>
      let m := if a = 1 then m.wrAll Reg.POOL_STATUS.ID_CONFLICT 1 else m
      (m.setPoolState (fun p => { p with refused := true })).notePool))

/-- ENSIGN_LOST (R478): the worker is unjoined until the ensign package answers again. -/
def execEnsignLost (s : State) : Host.Outcome State Fault Refusal :=
  s.run (fun m => m.when (m.serving && decide (m.pool.role = 2) && m.inPool) (fun m =>
    let m := m.runTo m.ens (m.pool.lastAnchor + m.lossTimeout)
    let m := (m.wrAll Reg.POOL_STATUS.ENSIGN_LOST 1).wrAll Reg.POOL_STATUS.JOINED 0
    (m.setPoolState (fun p => { p with lastAnchor := m.now m.ens })).notePool))

/-- POOL_ROLE_SET (R476, R479): through the service port under presence, with the key; until the next restart. -/
def execPoolRoleSet (via : Via) (d : Nat) (v : Word) (s : State) : Host.Outcome State Fault Refusal :=
  s.onDie d (fun m => m.when (m.serving && decide (via = .service) && m.pres.active && decide (bits v.toNat 8 24 = 0x524F4C)
      && decide (bits v.toNat 0 8 ≤ 2)) (fun m =>
    let want := bits v.toNat 0 8
    let role := if m.cfg.mgmtLd.isNone then 0 else want
    let m := m.takeRole role
    let m := if role = 1 then m.setPoolState (fun p => { p with directory := [], members := [], thetas := [], schedule := none }) else m
    let m := if role = want then m else m.note m.ens uMgmt pRole
    if role = 2 then m.sendJoin else m))

/-! ## Time anchors (R480 to R483) -/

/-- ANCHOR_SEND (R480, R483): t1 is the send stamp; the offset computed since the last one and, with a PTM pair, the host time of t1 go along. The
clocks run to the worker's next anchor period. -/
def execAnchorSend (pkg : Nat) (s : State) : Host.Outcome State Fault Refusal :=
  s.run (fun m => m.when (m.leads && m.pool.members.any (fun k => decide (k.pkg = pkg))) (fun m =>
    let m := m.every m.ens (1000 + pkg) (m.readyAt m.ens) (clamp 100 100000 (m.rd m.ens Reg.POOL_ANCHOR_PERIOD.US) * Config.us)
    let t1 := m.stamp m.ens
    let theta := match m.pool.thetas.find? (fun t => decide (t.1 = pkg)) with
      | some t => [1, unsigned 64 t.2]
      | none => [0, 0]
    let host := match m.hostTimeAt t1 with
      | some h => [1, h]
      | none => [0, 0]
    let m := (m.issue m.ens t1).setPoolState (fun p => { p with thetas := p.thetas.filter (fun t => decide (t.1 ≠ pkg)) })
    m.send (.pool 2 pkg t1 (theta ++ host))))

/-- A forward step of the package's time by `dt`, with one clock pennant before and one after (R387, R481). -/
def Mach.stepForward (m : Mach) (dt : Nat) : Mach :=
  let m := m.note m.ens uAon pAnchorStep
  let m := { m with dies := m.dies.map (fun (x : Die) => { x with clk := x.clk.setTime (x.clk.now + dt) }) }
  (m.wrAll Reg.TB_POOL.STEP_NS (min (2 ^ 32 - 1) (dt * 10 / 17))).note m.ens uAon pAnchorStep

/-- A signed value that saturates at 32 bits (POOL_OFFSET). -/
def sat32 (i : Int) : Nat := unsigned 32 (max (-(2 ^ 31)) (min (2 ^ 31 - 1) i))

/-- A worker's correction (R481, R482): the counters of every die are slewed, stepped forward, or left to the ensign package. -/
def Mach.correct (m : Mach) (theta : Int) : Mach :=
  let m := m.wrAll Reg.POOL_OFFSET.TICKS (sat32 theta)
  let m := if m.pool.corrected && decide (340 < theta.natAbs) then (m.wrAll Reg.POOL_STATUS.SKEW_ERR 1).noteFree m.ens uAon 0x01 else m
  if 1700000 < theta then m
  else
    let m := m.setPoolState (fun p => { p with corrected := true })
    if theta < -340 then m.stepForward theta.natAbs
    else { m with dies := m.dies.map (fun (x : Die) => { x with clk := { x.clk with slew := theta } }) }

/-- ANCHOR_RECEIVE (R384, R480 to R483): the receive stamp exceeds the stamp carried; the worker replies and corrects its time. -/
def execAnchorReceive (t1 : Nat) (theta : Option Int) (hostNs : Option Nat) (s : State) : Host.Outcome State Fault Refusal :=
  s.run (fun m => m.when (m.serving && decide (m.pool.role = 2) && m.inPool) (fun m =>
    let t2 := m.stamp m.ens (some t1)
    let m := m.issue m.ens t2
    let t3 := m.stamp m.ens
    let m := (m.issue m.ens t3).send (.pool 3 0 t3 [t1, t2, t3])
    let m := match theta with
      | some q => m.correct q
      | none => m
    let m := m.setPoolState (fun p => { p with lastAnchor := m.now m.ens })
    match hostNs with
    | some h => m.hostTimeCame t1 h
    | none => m))

/-- ANCHOR_REPLY (R480, R481): the offset is rounded down to a tick; above 1,700,000 the ensign package steps forward itself. -/
def execAnchorReply (pkg t1 t2 t3 : Nat) (s : State) : Host.Outcome State Fault Refusal :=
  s.run (fun m => m.when (m.leads && m.pool.members.any (fun k => decide (k.pkg = pkg))) (fun m =>
    let t4 := m.stamp m.ens (some t3)
    let m := m.issue m.ens t4
    let theta : Int := (((t2 : Int) - t1) - ((t4 : Int) - t3)) / 2
    let m := m.setPoolState (fun p => { p with thetas := (pkg, theta) :: p.thetas.filter (fun t => decide (t.1 ≠ pkg)) })
    if 1700000 < theta then m.stepForward theta.natAbs else m))

/-! ## Replica directory (R484, R485) -/

/-- Entries of the pool directory (R484). -/
def dirSize : Nat := 1048576

/-- A copy listed after the others of its origin; a full directory lists no more (R484). -/
def addCopy (l : List ReplicaCopy) (c : ReplicaCopy) : List ReplicaCopy :=
  let same (k : ReplicaCopy) : Bool := decide (k.originPkg = c.originPkg) && decide (k.originHandle = c.originHandle)
  if l.contains c then l
  else match l.reverse.findIdx? same with
    | none => l ++ [c]
    | some i => l.take (l.length - i) ++ c :: l.drop (l.length - i)

/-- The directory takes a copy; when it is full the copy is not listed, and a pennant is written. -/
def Mach.listCopy (m : Mach) (c : ReplicaCopy) : Mach :=
  if m.pool.directory.length < dirSize then m.setPoolState (fun p => { p with directory := addCopy p.directory c })
  else m.notePool

/-- The directory forgets the copies that `gone` names. -/
def Mach.unlist (m : Mach) (gone : ReplicaCopy → Bool) : Mach :=
  m.setPoolState (fun p => { p with directory := p.directory.filter (fun c => !gone c) })

/-- REPLICA_REPORT (R484). -/
def execReplicaReport (r : ReplicaReport) (s : State) : Host.Outcome State Fault Refusal :=
  s.run (fun m => m.when m.leads (fun m =>
    let joined (p : Nat) : Bool := m.pool.members.any (fun k => decide (k.pkg = p))
    match r with
    | .pushed c => m.when (joined c.pkg) (·.listCopy c)
    | .released p h | .recoded p h => m.when (joined p) (·.unlist (fun c => decide (c.pkg = p) && decide (c.handle = h)))
    | .whole p cs => m.when (joined p) (fun m =>
        (cs.filter (fun c => decide (c.pkg = p))).foldl (fun m c => m.listCopy c) (m.unlist (fun c => decide (c.pkg = p))))))

/-- REPLICA_LOOKUP (R485): up to four copies other than the asker's, in directory order, as package and handle. -/
def execReplicaLookup (asker originPkg originHandle : Nat) (s : State) : Host.Outcome State Fault Refusal :=
  s.run (fun m => m.when (m.leads && m.pool.members.any (fun k => decide (k.pkg = asker))) (fun m =>
    let cs := (m.copiesOf asker (originPkg, originHandle)).take 4
    m.send (.pool 6 asker (m.stamp m.ens) (cs.flatMap (fun c => [c.pkg, c.handle])))))

/-! ## Incoming pushes (R244, R486, R487) -/

/-- Checks 1, 2 and 4 of R48 for a PUSH: the check that fails, or slot and home die. -/
def Mach.pushChecks (m : Mach) (ld region : Nat) (slot : Option Nat) : Except Nat (Nat × Nat) :=
  match m.slotFor ld region slot with
  | none => .error 1
  | some k =>
    if !m.quotaOk ld then .error 2
    else match m.placement ld m.sealedRoom with
      | none => .error 4
      | some h => .ok (k, h)

/-- The header as the target keeps it: its own HANDLE and the CRC over it (R133, R134). -/
def rehandle (handle : Nat) (header : List Byte) : List Byte := sealHeader (leBytes 4 handle ++ header.drop 4)

/-- The fields and the length of a header that comes with OPEN agree (R118, R133). -/
def openHeaderOk (h : List Byte) : Bool :=
  let f := field h 4 1
  let span := field h 5 1
  (decide (f = 0) || (valueFormat f).isSome) && decide (4 ≤ span) && decide (span ≤ 12) && decide (field h 6 2 = headerTables f span)
    && decide (h.length = headerLen (headerTables f span)) && decide (headerCrc h = field h 8 4)

/-- The extent of an accepted OPEN: SEALING, with its header copy; none when T2 has no space for the header. -/
def Mach.openPush (m : Mach) (src : Nat) (origin : Nat × Nat) (header : List Byte) (dim ld region slot home num : Nat) : Option Mach :=
  let m := m.chosen.newExtent num home .sealing (decide (region = 1)) false
  let m := m.updExt num (fun x => { x with
    format := field header 4 1, spanLog2 := field header 5 1, dim := dim, tgen := bits (field header 16 2) 0 12,
    sealedAt := m.stamp home, origin := some origin })
  let m := m.putHeader home num (rehandle (m.handleOf num) header)
  if (m.dramHeader home num).isNone then none
  else some (m.setPoolState (fun p => { p with rx := p.rx ++ [⟨num, src, ld, region, slot, [], m.now home⟩] }))

/-- The answer to OPEN: 1 and the home die, or 0 and the check of R48 that failed (0: the header). -/
def Mach.answerOpen (m : Mach) (src ok x : Nat) : Mach := m.send (.pool 10 src (m.stamp m.ens) [ok, x])

/-- POOL_OPEN (R28, R48, R486 step 2). -/
def execPoolOpen (src originPkg originHandle : Nat) (header : List Byte) (dim ld region : Nat) (slot : Option Nat) (s : State) :
    Host.Outcome State Fault Refusal :=
  s.run (fun m => m.when (m.serving && m.inPool) (fun m =>
    if !openHeaderOk header then m.answerOpen src 0 0
    else if !m.assigned ld then (m.refuse 1).answerOpen src 0 1
    else match m.pushChecks ld region slot with
      | .error c => (m.refuse c).answerOpen src 0 c
      | .ok (k, home) => match m.freeNumber with
        | none => (m.refuse 4).answerOpen src 0 4
        | some num => match m.openPush src (originPkg, originHandle) header dim ld region k home num with
          | none => (m.refuse 4).answerOpen src 0 4
          | some m => m.answerOpen src 1 home))

/-- The bytes of a receive slot of die `d` (POOL_RX_WINDOW). -/
def Mach.rxBytes (m : Mach) (d slot n : Nat) : List Byte :=
  ((List.range ((n + 3) / 4)).flatMap (fun i => leBytes 4 ((m.die d).reg (0xF00000 + 65536 * slot + 4 * i)))).take n

/-- The entry of an incoming frame or summary page, before it has a place. -/
def rxEntry (x : Extent) (idx : Nat) (sectors : List Nat) : FrameEntry :=
  { FrameEntry.zero with
    sectors := packSectors sectors, state := .present,
    table := if x.format = 0 ∨ 4096 ≤ idx then 0 else idx / 2 ^ x.spanLog2 }

/-- A frame that fails its checks is asked for once more; a second failure ends the PUSH (R487). Answer kind 11: handle, slot, 0
complete or the DETAIL of the source's PUSH_FAIL. -/
def Mach.rxFailed (m : Mach) (r : RxPush) (idx : Nat) : Mach :=
  if r.failed.contains idx then (m.endRx r).send (.pool 11 r.src (m.stamp m.ens) [0, 0, 3])
  else
    let m := m.setPoolState (fun p => { p with rx := p.rx.map (fun k => if k = r then { k with failed := idx :: k.failed } else k) })
    m.send (.pool 12 r.src (m.stamp m.ens) [idx])

/-- A frame of a push, its sectors in receive slot `rx` (R486 steps 4 and 5); without space in T2 nothing has happened. -/
def Mach.rxFrame (m : Mach) (r : RxPush) (x : Extent) (rx idx : Nat) (sectors : List Nat) : Mach :=
  let d := x.home
  let r' : RxPush := { r with since := m.now m.ens }
  let seen (m : Mach) : Mach := m.setPoolState (fun p => { p with rx := p.rx.map (fun k => if k = r then r' else k) })
  if sectors.isEmpty then (seen m).lose d x.num idx
  else
    let e := rxEntry x idx sectors
    let coded := m.rxBytes d rx (64 * sumOf sectors)
    match m.decodeCopy d x e coded with
    | .error (b, c) => ((seen m).codecFail d x.num idx b c 2 1).rxFailed r' idx
    | .ok _ => match m.storeT2 d x.num idx 2 sectors e.table coded with
      | none => m
      | some m => seen m

/-- FRAME_DONE (R486, R487). -/
def execFrameDone (ext rx idx : Nat) (sectors : List Nat) (s : State) : Host.Outcome State Fault Refusal :=
  if 16 ≤ rx then .fault (.absentUnit rx)
  else s.run (fun m => m.when (m.serving && decide (idx < 4160)
      && (sectors.isEmpty || (decide (sectors.length = 16) && sectors.all (fun n => decide (1 ≤ n) && decide (n ≤ 64))))) (fun m =>
    match m.pool.rx.find? (fun r => decide (r.ext = ext)), m.ext? ext with
    | some r, some x => m.rxFrame r x rx idx sectors
    | _, _ => m))

/-- The directory learns of a completed push: at the ensign package at once, from a worker by message (R484). -/
def Mach.reportCopy (m : Mach) (x : Extent) : Mach :=
  let o := m.originOf x
  if m.pool.role = 1 then m.listCopy ⟨o.1, o.2, m.pw.poolId, x.handle⟩
  else m.send (.pool 4 0 (m.stamp m.ens) [0, o.1, o.2, m.pw.poolId, x.handle])

/-- POOL_CLOSE (R49, R486 step 7): the extent is SEALED, offered and reported. -/
def execPoolClose (ext : Nat) (s : State) : Host.Outcome State Fault Refusal :=
  s.run (fun m => m.when m.serving (fun m =>
    match m.pool.rx.find? (fun r => decide (r.ext = ext)), m.ext? ext with
    | some r, some x =>
      let m := (m.setPoolState (fun p => { p with rx := p.rx.erase r })).sealDone ext
      let m := m.offer r.ld r.region r.slot ext
      (m.send (.pool 11 r.src (m.stamp m.ens) [x.handle, r.slot, 0])).reportCopy x
    | _, _ => m))

/-- PUSH_TIMEOUT (R244, R487): at the target the incomplete extent is cleared; at the source the job ends PARTIAL. -/
def execPushTimeout (ext : Nat) (s : State) : Host.Outcome State Fault Refusal :=
  s.run (fun m => m.when m.serving (fun m =>
    match m.pool.rx.find? (fun r => decide (r.ext = ext)), m.ext? ext with
    | some r, _ =>
      let m := m.runTo m.ens (r.since + 10 * Config.sec)
      (m.endRx r).send (.pool 11 r.src (m.stamp m.ens) [0, 0, 2])
    | none, some x => (m.pushesOf x).foldl (fun m q => m.pushFail q.1 q.2 x 2) m
    | none, none => m))

/-! ## Schedules (R499) -/

/-- FW_ACTIVATE's delay within its limits, in ticks (R494). -/
def actDelay (ms : Nat) : Nat := clamp 10 3600000 ms * Config.ms

/-- The image that the package has installed and not activated, as a member would run it. -/
def Mach.installedSelf (m : Mach) : Option (Nat × Nat × Nat × Nat) :=
  let h := m.nor.fwHeader 0
  if m.fw.state = 4 then some (m.pw.poolId, fwVersion h, fwPeerMin h, fwPeerMax h) else none

/-- Members after package `p` runs the image that `news` gives it. -/
def updated (news : List (Nat × Nat × Nat × Nat)) (ms : List PoolMember) (p : Nat) : List PoolMember :=
  match news.find? (fun x => decide (x.1 = p)) with
  | none => ms
  | some x => ms.map (fun k => if k.pkg = p then { k with version := x.2.1, peerMin := x.2.2.1, peerMax := x.2.2.2 } else k)

def allCompatible (ms : List PoolMember) : Bool := ms.all (fun a => ms.all (fun b => decide (a.pkg = b.pkg) || a.compatible b))

/-- After each step of the order every pair is compatible. -/
def stepsCompatible (news : List (Nat × Nat × Nat × Nat)) (ms : List PoolMember) : List Nat → Bool
  | [] => true
  | p :: t => allCompatible (updated news ms p) && stepsCompatible news (updated news ms p) t

/-- T_act goes to the schedule's next package: by message, or to the package's own record; an empty schedule has ended. -/
def Mach.scheduleNext (m : Mach) : Mach :=
  match m.pool.schedule with
  | none => m
  | some sc => match sc.rest with
    | [] => m.setPoolState (fun p => { p with schedule := none })
    | q :: _ =>
      let t := m.stamp m.ens + actDelay sc.delayMs
      if q = m.pw.poolId then { m with fw := { m.fw with tact := some t } } else m.send (.pool 13 q (m.stamp m.ens) [t])

/-- The schedule's first package has confirmed, or has fallen back, which stops the schedule with a pennant. -/
def Mach.scheduleStep (m : Mach) (confirmed : Bool) : Mach :=
  match m.pool.schedule with
  | none => m
  | some sc =>
    if confirmed then (m.setPoolState (fun p => { p with schedule := some { sc with rest := sc.rest.tail } })).scheduleNext
    else (m.setPoolState (fun p => { p with schedule := none })).notePool

/-- The package whose confirmation the schedule waits for. -/
def Mach.scheduleHead (m : Mach) : Option Nat := m.pool.schedule.bind (fun sc => sc.rest.head?)

/-- POOL_SCHEDULE (R499): `news` are the images of the named packages that are in state INSTALLED; the package's own is its record. -/
def execPoolSchedule (order : List Nat) (delayMs : Nat) (news : List (Nat × Nat × Nat × Nat)) (s : State) : Host.Outcome State Fault Refusal :=
  s.run (fun m => m.when m.leads (fun m =>
    let own := m.pw.poolId
    let news := news.filter (fun x => decide (x.1 ≠ own)) ++ m.installedSelf.toList
    let ok := m.pool.schedule.isNone
      && order.all (fun p => m.members.any (fun k => decide (k.pkg = p)) && news.any (fun x => decide (x.1 = p)))
      && !(order.dropLast.contains own) && stepsCompatible news m.members order
    if ok then ((m.setPoolState (fun p => { p with schedule := some ⟨order, delayMs⟩ })).scheduleNext).send (.service 0x20 0 [0])
    else m.notePool.send (.service 0x20 0 [1])))

/-- SCHEDULE_CONFIRM (R499): the package whose turn it is has confirmed or fallen back. -/
def execScheduleConfirm (pkg : Nat) (res : ScheduleResult) (s : State) : Host.Outcome State Fault Refusal :=
  s.run (fun m => m.when (m.leads && decide (m.scheduleHead = some pkg)) (fun m => m.scheduleStep (decide (res = .confirmed))))

end Sys2Proof.Machine
end

