-- ==== Sys2Proof/Machine/Firmware.lean ====
section
/-! DEFINITION. The service port, firmware install and attestation (R488 to R503). -/

namespace Sys2Proof.Machine

/-! ## Service port (R488) -/

/-- SETDASA (R488): the target answers at static address 0x5A only. -/
def execSetdasa (static dynamic : Nat) (s : State) : Host.Outcome State Fault Refusal :=
  s.run (fun m => m.when (m.powered && decide (static = 0x5A)) (fun m => { m with pw := { m.pw with serviceAddr := some (dynamic % 128) } }))

/-- ENTDAA (R488). -/
def execEntdaa (dynamic : Nat) (s : State) : Host.Outcome State Fault Refusal :=
  s.run (fun m => m.when m.powered (fun m => { m with pw := { m.pw with serviceAddr := some (dynamic % 128) } }))

/-! ## Install (R489 to R493) -/

/-- LAST_ERROR, on every die (R505). -/
def Mach.lastError (m : Mach) (e : Nat) : Mach := m.wrAll Reg.FW_STATUS.LAST_ERROR e

/-- A command refused with LAST_ERROR `e`. -/
def Mach.fwRefuse (m : Mach) (code e : Nat) : Mach := (m.lastError e).send (.service code e [])

/-- A command refused in a state for which the spec names no error: the code is free among those that there are. -/
def Mach.fwRefuseFree (m : Mach) (code : Nat) : Mach := m.chosen.fwRefuse code (1 + m.choice % 11)

/-- A FIRMWARE pennant whose code the spec does not give. -/
def Mach.noteFw (m : Mach) : Mach := m.noteFree m.ens uMgmt 0x03

def Mach.setFw (m : Mach) (f : Fw → Fw) : Mach := { m with fw := f m.fw }

/-- An install command may come: the resident loader answers in every powered state, half-mast included (R436), and no restoring
copy runs. -/
def Mach.fwIdle (m : Mach) : Bool := m.powered && m.fw.restoring.isNone

/-- FW_BEGIN (R470, R489, R490, R492): presence at the stamp, no install under way, lengths that the slots hold. -/
def execFwBegin (imageLen cfgLen : Nat) (s : State) : Host.Outcome State Fault Refusal :=
  s.run (fun m => m.when m.powered (fun m =>
    if !m.pres.active then m.fwRefuse 1 1
    else if m.fw.state ≠ 0 then m.fwRefuse 1 2
    else if imageLen < 352 ∨ fwSlotLen < imageLen ∨ 8388608 < cfgLen then m.fwRefuse 1 8
    else
      let was := hdrActive (m.nor.bytes 0 4096)
      let m := m.setFw (fun f => { f with
        imageLen := imageLen, cfgLen := cfgLen, received := 0, cfgBefore := was, cfgAfter := if cfgLen = 0 then was else 1 - was,
        tact := none, deadline := 0, newSec := 0 })
      let m := ((m.fwState 1).lastError 0).wrAll Reg.FW_STATUS.BACKUP_VALID 0
      (m.note m.ens uMgmt pInstall).send (.service 1 0 [])))

/-- An area whose programming failed: its content is left open. -/
def Mach.norSpoilt (m : Mach) (off n : Nat) : Mach :=
  let r := m.freeBytes n
  { r.2 with nor := r.2.nor.rewrite off r.1 }

/-- BACKUP_COPY_COMPLETE (R492 step 2). -/
def execBackupCopyComplete (ok : Bool) (s : State) : Host.Outcome State Fault Refusal :=
  s.run (fun m => m.when (m.fwIdle && decide (m.fw.state = 1)) (fun m =>
    if ok then
      let run := m.rd m.ens Reg.FW_STATUS.RUNNING_SLOT
      let m := if run = 0 then { m with nor := m.nor.copyArea (norFwSlot 0) (norFwSlot 1) fwSlotLen } else m
      (m.fwState 2).wrAll Reg.FW_STATUS.BACKUP_VALID 1
    else (((m.norSpoilt (norFwSlot 1) fwSlotLen).fwState 0).lastError 7).noteFw))

/-- Image bytes go to the active slot and configuration bytes to the slot that CFG_ACTIVE does not select; a slot is erased before
its first byte (R492 step 3). -/
def Mach.fwStore (m : Mach) (off : Nat) (data : List Byte) : Mach :=
  let img := data.take (m.fw.imageLen - off)
  let cfg := data.drop (m.fw.imageLen - off)
  let at' := norCfgSlot m.fw.cfgAfter
  let n := m.nor
  let n := if off = 0 then n.erase (norFwSlot 0) 16777216 else n
  let n := n.rewrite (norFwSlot 0 + off) img
  let n := if !cfg.isEmpty && decide (off ≤ m.fw.imageLen) then n.erase at' 8388608 else n
  { m with nor := if cfg.isEmpty then n else n.rewrite (at' + (off - m.fw.imageLen)) cfg }

/-- FW_DATA (R489, R492): at most 48 bytes, in offset order, within the lengths of FW_BEGIN. -/
def execFwData (offset : Nat) (data : List Byte) (s : State) : Host.Outcome State Fault Refusal :=
  s.run (fun m => m.when m.powered (fun m =>
    if m.fw.state ≠ 2 ∨ m.fw.restoring.isSome then m.fwRefuseFree 2
    else if 48 < data.length ∨ offset ≠ m.fw.received ∨ m.fw.imageLen + m.fw.cfgLen < offset + data.length then m.fwRefuse 2 8
    else ((m.fwStore offset data).setFw (fun f => { f with received := offset + data.length })).send (.service 2 0 [])))

/-- What FW_END finds wrong, in the order of R491, with the configuration's format last; 0 nothing. A header that is no header of
a firmware image has no code of its own: `other`. -/
def Mach.fwFault (m : Mach) (v : FwVerdict) (other : Nat) : Nat :=
  let h := m.nor.fwHeader 0
  let fmt := field (m.nor.bytes (norCfgSlot m.fw.cfgAfter) 64) 4 2
  if m.fw.received ≠ m.fw.imageLen + m.fw.cfgLen ∨ fwSlotLen < field h 8 4 + 96 then 8
  else if !fwMagicOk h then other
  else if !v.keyHash then 4
  else if !v.signature then 3
  else if fwSec h < m.nor.counter then 5
  else if fmt < fwFmtMin h ∨ fwFmtMax h < fmt then 6
  else 0

/-- FW_END (R492 steps 4 and 5): INSTALLED, or the backup slot is copied back and the install fails when that copy ends. -/
def execFwEnd (v : FwVerdict) (s : State) : Host.Outcome State Fault Refusal :=
  s.run (fun m => m.when m.powered (fun m =>
    if m.fw.state ≠ 2 ∨ m.fw.restoring.isSome then m.fwRefuseFree 3
    else
      let e := m.fwFault v (1 + m.choice % 11)
      let m := m.chosen
      if e = 0 then ((m.setFw (fun f => { f with newSec := fwSec (m.nor.fwHeader 0) })).fwState 4).send (.service 3 0 [])
      else ((m.setFw (fun f => { f with restoring := some e })).fwState 3).send (.service 3 e [])))

/-- FW_ABORT (R492): before activation the active slot is restored; while the backup copy still runs the active slot is untouched,
and the install ends at once. -/
def execFwAbort (s : State) : Host.Outcome State Fault Refusal :=
  s.run (fun m => m.when m.powered (fun m =>
    if m.fw.restoring.isSome then m.fwRefuseFree 6
    else match m.fw.state with
      | 1 => ((m.fwState 0).lastError 10).noteFw.send (.service 6 0 [])
      | 2 | 3 | 4 => (m.setFw (fun f => { f with restoring := some 10, tact := none })).send (.service 6 0 [])
      | _ => m.fwRefuseFree 6))

/-- RESTORE_COPY_COMPLETE (R492, R496 step 4): the backup slot is copied over the active slot, the state is NONE and write authority
ends; a failed install sets LAST_ERROR and writes a pennant. A copy that the NOR fails is begun again. -/
def execRestoreCopyComplete (ok : Bool) (s : State) : Host.Outcome State Fault Refusal :=
  s.run (fun m => m.when m.powered (fun m =>
    match m.fw.restoring with
    | none => m
    | some e =>
      if ok then
        let m := { m with nor := m.nor.copyArea (norFwSlot 1) (norFwSlot 0) fwSlotLen }
        let m := (m.setFw (fun f => { f with restoring := none, tact := none })).fwState 0
        if e = 0 then m else (m.lastError e).noteFw
      else ((m.norSpoilt (norFwSlot 0) fwSlotLen).lastError 7).noteFw))

/-! ## Activation and confirmation (R494 to R497) -/

/-- FW_ACTIVATE (R494, R497, R499): in a pool member only the ensign package's schedule sets T_act. -/
def execFwActivate (delayMs : Nat) (scheduled : Option Nat) (s : State) : Host.Outcome State Fault Refusal :=
  s.run (fun m => m.when m.powered (fun m =>
    match scheduled with
    | some t => m.when (m.inPool && decide (m.pool.role = 2) && m.fwIdle && decide (m.fw.state = 4) && m.fw.tact.isNone)
        (·.setFw (fun f => { f with tact := some t }))
    | none =>
      if m.inPool then m.fwRefuse 4 9
      else if m.fw.restoring.isSome then m.fwRefuseFree 4
      else if m.fw.state ≠ 4 then m.fwRefuse 4 11
      else if m.fw.tact.isSome then m.fwRefuse 4 2
      else
        let t := m.stamp m.ens
        ((m.issue m.ens t).setFw (fun f => { f with tact := some (t + actDelay delayMs) })).send (.service 4 0 [])))

/-- ACTIVATION (R494, R495): at T_act. -/
def execActivation (s : State) : Host.Outcome State Fault Refusal :=
  s.run (fun m => m.when (m.fwIdle && decide (m.fw.state = 4)) (fun m =>
    match m.fw.tact with
    | none => m
    | some t =>
      let m := m.runTo m.ens t
      let m := if m.fw.cfgAfter = m.fw.cfgBefore then m else { m with nor := m.nor.setActive m.fw.cfgAfter }
      let m := (m.setFw (fun f => { f with deadline := t + 1020000000000 })).fwState 5
      (m.note m.ens uMgmt pActivate).restart 2))

/-- FW_CONFIRM_REQ (R495). -/
def execFwConfirmReq (s : State) : Host.Outcome State Fault Refusal :=
  s.run (fun m => m.when m.powered (fun m => (m.wrAll Reg.FW_STATUS.CONFIRM_REQ 1).send (.service 5 0 [])))

/-- The counter after a confirmation: SEC_VERSION, or what two failed programs left (R450, R495). -/
def Mach.advanceCounter (m : Mach) (ok : Bool) : Mach :=
  let old := m.nor.counter
  if ok then { m with nor := { m.nor with counter := max old m.fw.newSec } }
  else
    let m := { m.chosen with nor := { m.nor with counter := old + m.choice % (m.fw.newSec - old + 1) } }
    (m.wrAll Reg.FW_STATUS.COUNTER_FAIL 1).noteFw

/-- The confirmation (R491, R495): the backup image may be too old to start from now on. -/
def Mach.confirm (m : Mach) (ok : Bool) : Mach :=
  let m := m.advanceCounter ok
  let m := m.wrAll Reg.FW_COUNTER.VALUE m.nor.counter
  let m := (m.setFw (fun f => { f with tact := none })).fwState 0
  let m := (m.note m.ens uMgmt pConfirm).eachDie (fun m d => m.bump d Reg.FW_COUNTS.INSTALLS)
  let m := if fwSec (m.nor.fwHeader 1) < m.nor.counter then m.wrAll Reg.FW_STATUS.BACKUP_VALID 0 else m
  if m.scheduleHead = some m.pw.poolId then m.scheduleStep true else m

/-- FW_HEALTH_CONFIRM (R495): only the new image's own controller, with the key, in ACTIVATED; in HOLD after FW_CONFIRM_REQ. -/
def execFwHealthConfirm (own : Bool) (key : Word) (counterOk : Bool) (s : State) : Host.Outcome State Fault Refusal :=
  s.run (fun m => m.when (m.alive && own && decide (key = 0x434F4E46) && decide (m.fw.state = 5)
      && (!m.on m.ens Reg.FW_STATUS.CONFIRM_MODE || m.on m.ens Reg.FW_STATUS.CONFIRM_REQ)) (·.confirm counterOk))

/-- CONFIRM_DEADLINE (R496): the loader falls back and restarts the die set. -/
def execConfirmDeadline (s : State) : Host.Outcome State Fault Refusal :=
  s.run (fun m => m.when (m.powered && decide (m.fw.state = 5)) (fun m =>
    let m := m.runTo m.ens m.fw.deadline
    let m := ({ m with nor := m.nor.setActive m.fw.cfgBefore }).fwState 6
    let m := (m.note m.ens uMgmt pFallback).eachDie (fun m d => m.bump d Reg.FW_COUNTS.FALLBACKS)
    let m := if m.scheduleHead = some m.pw.poolId then m.scheduleStep false else m
    m.restart 3))

/-- FW_STATUS of a die, with the state that the loader's record holds. -/
def Mach.fwStatusWord (m : Mach) (d : Nat) : Nat := setBits ((m.die d).reg Reg.FW_STATUS.STATE.off) 1 3 m.fw.state

/-- FW_STATUS (R489). -/
def execFwStatus (s : State) : Host.Outcome State Fault Refusal :=
  s.run (fun m => m.when m.powered (fun m =>
    m.send (.service 7 (m.rd m.ens Reg.FW_STATUS.LAST_ERROR) (leBytes 4 (m.fwStatusWord m.ens)))))

/-! ## Attestation (R500 to R503) -/

/-- The bytes of a vector, most significant first. -/
def beBytes (n v : Nat) : List Byte := (leBytes n v).reverse

/-- The record that measurement 6 covers, as bytes: the model's own layout. -/
def Fw.recordBytes (f : Fw) : List Byte :=
  leBytes 1 f.state ++ leBytes 8 (f.tact.getD 0) ++ leBytes 8 f.deadline ++ leBytes 1 f.cfgBefore ++ leBytes 1 f.cfgAfter ++ leBytes 2 f.newSec

/-- Measurement `i` of R501 for a die. -/
def Mach.measure (m : Mach) (d i : Nat) : BitVec 384 :=
  match i with
  | 0 => Config.sha384 Config.bootRom
  | 1 => m.fw.digest
  | 2 => Config.sha384 (m.nor.fwSigned 0)
  | 3 => Config.sha384 (m.nor.fwSigned 1)
  | 4 =>
    let off := norCfgSlot (hdrActive (m.nor.bytes 0 4096))
    Config.sha384 (m.nor.bytes off (min 8388608 (field (m.nor.bytes off 64) 8 4)))
  | 5 => Config.sha384 (m.nor.bytes 0 (hdrLength (m.nor.bytes 0 4096)))
  | 6 => Config.sha384 (leBytes 2 m.nor.counter ++ m.fw.recordBytes)
  | _ => Config.sha384 (leBytes 1 m.pw.ensign ++ leBytes 1 m.pw.poolId ++ leBytes 1 (m.rd d Reg.CFG_STATUS.DEBUG))

/-- The response up to its signature: die, nonce, stamp, the selected measurements each after its index (R502). -/
def Mach.attestBody (m : Mach) (d : Nat) (nonce : List Byte) (mask t : Nat) : List Byte :=
  leBytes 1 d ++ nonce ++ leBytes 8 t
    ++ ((List.range 8).filter (bit mask)).flatMap (fun i => leBytes 1 i ++ beBytes 48 (m.measure d i).toNat)

/-- ATTEST (R436, R500 to R502): a die without its identity answers with an error; in half-mast only the ensign die answers. -/
def execAttest (d : Nat) (nonce : List Byte) (mask : Word) (s : State) : Host.Outcome State Fault Refusal :=
  s.onDie d (fun m => m.when (m.powered && (!m.halted || d = m.ens)) (fun m =>
    if m.on d Reg.FW_STATUS.IDENTITY_FAIL then m.chosen.send (.service 0x10 (1 + m.choice % 255) [])
    else
      let t := m.stamp d
      let body := m.attestBody d ((nonce ++ List.replicate 32 0).take 32) mask.toNat t
      (m.issue d t).send (.service 0x10 0 (body ++ beBytes 96 (Config.sign d (Config.sha384 body)).toNat))))

/-- Where a die's certificate lies in the NOR, and its space (R500). -/
def certOffset (d : Nat) : Nat := norIdentity + 0x1800 + d * 0x1C00
def certSpace : Nat := 5120

/-- GET_CERT (R502): up to 48 bytes from the offset. -/
def execGetCert (d offset : Nat) (s : State) : Host.Outcome State Fault Refusal :=
  s.onDie d (fun m => m.when m.powered (fun m => m.send (.service 0x11 0 (m.nor.bytes (certOffset d + offset) (min 48 (certSpace - offset))))))

end Sys2Proof.Machine
end

