-- ==== Sys2Proof/Machine/Regfile.lean ====
section
/-! DEFINITION. Control-space access (R8 to R14, R425, R436): writes by access type, reads of stored and of derived values. -/

namespace Sys2Proof.Machine

/-! ## The map -/

/-- Is register `r` of the map at offset `off`? -/
def RegDef.holds (r : RegDef) (off : Nat) : Bool :=
  (List.range r.n2).any (fun j => inArray (r.base + r.s2 * j) (max 4 r.s1) r.n1 off)

def regAt (off : Nat) : Option RegDef := regTable.find? (fun r => r.holds off)

/-- The register that word `off` belongs to: its offset, and which half of a 64-bit value the word is (R9). -/
def wordOf (off : Nat) : Option (RegDef × Nat × Nat) :=
  match regAt off with
  | some r => some (r, off, 0)
  | none => match regAt (off - 4) with
    | some r => if r.wide then some (r, off - 4, 1) else none
    | none => none

/-- Registers that the always-on block serves (R425, R446). -/
def aonReg (off : Nat) : Bool :=
  decide (off < 0x20000) || decide (off = 0x40024) || (decide (0x42000 ≤ off) && decide (off < 0x43000))

/-- Registers that half-mast still reads through the service port beside them (R473, R474, R505). -/
def halfMastReg (ensign : Bool) (off : Nat) : Bool :=
  aonReg off || [0x20004, 0x20008, 0x20014, 0xE80000].contains off
    || (ensign && ([0x20018, 0x20020].contains off || (decide (0x20100 ≤ off) && decide (off < 0x20200))))

/-- Does an access reach the word? (R10, R260, R425, R436) Outside half-mast the service port reaches every die, in furled the
always-on registers alone; BAR 4 needs its LD's answer. -/
def Mach.reaches (m : Mach) (via : Via) (d off : Nat) : Bool :=
  match via with
  | .mgmt => match m.cfg.mgmtLd with
    | some ld => m.ldAnswers ld
    | none => false
  | .bar ld b => decide (b = 4) && decide (m.cfg.mgmtLd = some ld) && m.ldAnswers ld
  | .service => match m.pw.phase with
    | .off => false
    | .halfMast => halfMastReg (decide (d = m.ens)) off
    | .furled => aonReg off
    | _ => true

/-! ## Writes (R12, R456) -/

/-- Registers whose write is a command of its own. -/
def ownCommand (off : Nat) : Bool :=
  [0x808044, 0x800070, 0x300040, 0x80018, 0x30, 0x34, 0x10020, 0x10804, 0x10820, 0x10824, 0x2001C, 0x20024, 0xE00020, 0xE80030].contains off
    || inArray 0x410000 0x40 16384 off || inArray 0x410018 0x40 16384 off || inArray 0x410024 0x40 16384 off
    || inArray 0x100004 0x1000 12 off || inArray 0x81000 4 194 off

/-- A field after a write: `v` the value written over the register, `ones` the ones written (a half not written counts as zeros). -/
def FldDef.write (f : FldDef) (locked : Bool) (v ones old : Nat) : Nat :=
  match f.acc with
  | .rw => setBits old f.lo f.w (bits v f.lo f.w)
  | .rwl => if locked then old else setBits old f.lo f.w (bits v f.lo f.w)
  | .w1c => setBits old f.lo f.w (bits old f.lo f.w - Nat.land (bits old f.lo f.w) (bits ones f.lo f.w))
  | .ro | .wo => old

/-- A register after a write of word `half`. -/
def RegDef.write (r : RegDef) (locked : Bool) (half v old : Nat) : Nat :=
  r.flds.foldl (fun o f => f.write locked (setBits old (32 * half) 32 v) (v * 2 ^ (32 * half)) o) old

/-- Arming needs ERR_FLIP_CTRL.ALLOWED (R411, R412). -/
def Mach.armGate (m : Mach) (d off : Nat) : Mach :=
  if m.on d Reg.ERR_FLIP_CTRL.ALLOWED then m
  else if off = Reg.ERR_FLIP_CTRL.ARMED.off then m.wr d Reg.ERR_FLIP_CTRL.ARMED 0
  else if off = Reg.ERR_SPLIT_CTRL.ARMED.off then m.wr d Reg.ERR_SPLIT_CTRL.ARMED 0
  else m

/-- A write that arrives: POOL_RX_WINDOW takes replica data (R486), a register its fields; nothing else is there (R13). -/
def Mach.putWord (m : Mach) (d off v : Nat) : Mach :=
  if 0xF00000 ≤ off then m.upd d (fun x => x.setReg off v)
  else if off = Reg.OPS_FETCH_THREADS.CLEAR_PEAK.off then (if bit v 31 then m.updStage d (fun s => { s with peak := m.threadsUsed d }) else m)
  else if ownCommand off then m
  else match wordOf off with
    | none => m
    | some (r, base, half) =>
      (m.upd d (fun x => x.setReg base (r.write (m.on d Reg.CFG_STATUS.DONE) half v (x.reg base)))).armGate d off

/-- The write of `v` changes RING_SQ_BASE or RING_CQ_BASE of a ring that is enabled (R157, R414). -/
def Mach.baseInUse (m : Mach) (d off v : Nat) : Bool :=
  decide (0x410000 ≤ off) && decide (off < 0x510000) && decide (8 ≤ off % 0x40) && decide (off % 0x40 < 0x18)
    && m.on d (Reg.RING_STATUS.ENABLED ((off - 0x410000) / 0x40))
    && decide (((m.putWord d off v).die d).reg (off / 8 * 8) ≠ (m.die d).reg (off / 8 * 8))



/-- A write to a word of a ring block: RING_CTRL, RING_DOORBELL and RING_CQ_HEAD act (R157, R162, R174, R183, R185). -/
def Mach.ringWrite (m : Mach) (r rel v : Nat) : Mach :=
  if rel = 0 then m.when (m.ringReady r) (·.ringCtrl r v)
  else if rel = 0x18 then m.when (m.ringReady r) (·.ringDoorbell r v)
  else if rel = 0x24 then m.when (m.ringReady r) (·.ringCqHead r v)
  else m.putWord (m.ringDie r) (0x410000 + 0x40 * m.ringLoc r + rel) v

/-- A write that arrives at a word of control space. -/
def Mach.ctlWrite (m : Mach) (d off v : Nat) : Mach :=
  if 0x410000 ≤ off ∧ off < 0x410000 + 0x40 * m.ringsPerDie then
    m.ringWrite (d * m.ringsPerDie + (off - 0x410000) / 0x40) (off % 0x40) v
  else m.putWord d off v

/-- The word of control space that an access to word `off` of window `d` is one to (R10, R183, R261). -/
def Mach.target (m : Mach) (via : Via) (d off : Nat) : Option (Nat × Nat) :=
  match via with
  | .bar ld 2 =>
    if m.ldAnswers ld ∧ 0x8000 ≤ off then
      (m.ldRing ld ((off - 0x8000) / 64)).map (fun r => (m.ringDie r, 0x410000 + 0x40 * m.ringLoc r + off % 64))
    else none
  | _ => if m.reaches via d off then some (d, off) else none

/-- A write to a word of the MSI-X table (R261, R267): the entry's address, data word and mask. -/
def Mach.msixWord (m : Mach) (ld off v : Nat) : Mach :=
  if 0x20000 ≤ off ∧ off < 0x28000 then
    let k := (off - 0x20000) / 16
    let x := (m.ld ld).vec k
    match off % 16 / 4 with
    | 0 => m.msixWrite ld k (setBits x.addr 0 32 v) x.data x.mask
    | 1 => m.msixWrite ld k (setBits x.addr 32 32 v) x.data x.mask
    | 2 => m.msixWrite ld k x.addr v x.mask
    | _ => m.msixWrite ld k x.addr x.data (bit v 0)
  else m

/-- The bytes that a path spans, within the window of one die (R10, R261). -/
def viaSpan (via : Via) : Nat :=
  match via with
  | .bar _ 0 => 0x40000
  | .bar _ 2 => 0x200000
  | _ => 0x1000000

/-- REGISTER_WRITE (R8, R10, R12, R13, R261, R282, R409, R456): a write that reaches nothing is discarded. -/
def execRegisterWrite (via : Via) (d off : Nat) (v : Word) (s : State) : Host.Outcome State Fault Refusal :=
  if off % 4 ≠ 0 ∨ viaSpan via ≤ off then .fault (.absentUnit off)
  else match s.m.target via d off with
    | some p =>
      if s.m.baseInUse p.1 p.2 v.toNat then .fault (.undefinedCase 5)
      else s.onDie p.1 (fun m => m.ctlWrite p.1 p.2 v.toNat)
    | none => s.onDie d (fun m => match via with
      | .bar ld 0 => m.when (m.ldAnswers ld) (·.msixWord ld off v.toNat)
      | _ => m)

/-! ## Values that are derived when they are read -/

/-- A word with one of its fields replaced. -/
def Fld.put (f : Fld) (v w : Nat) : Nat := setBits w f.lo f.w v

/-- Time base, clocks, errors, configuration. -/
def Mach.liveBase (m : Mach) (d : Nat) : List (Nat × Nat) :=
  let x := m.die d
  let w (off : Nat) : Nat := x.reg off
  [(Reg.TB_TIME.TICKS.off, m.now d), (Reg.TB_LAST_STAMP.STAMP.off, x.clk.last),
   (Reg.TB_STATUS.GAP_UNKNOWN.off, Reg.TB_STATUS.GAP_UNKNOWN.put (b2n x.clk.gap) (Reg.TB_STATUS.ITO_TIME.put (b2n x.clk.ito) (w 4))),
   (Reg.ERR_NMI_STATUS.ALERT.off, Reg.ERR_NMI_STATUS.ALERT.put (b2n m.alertLow) (w 0x40024)),
   (Reg.CFG_STATUS.WRITE_AUTH.off, Reg.CFG_STATUS.WRITE_AUTH.put (b2n m.nor.wpHigh) (w 0x20004)),
   (Reg.CFG_PRESENCE.ACTIVE.off, Reg.CFG_PRESENCE.ACTIVE.put (b2n m.pres.active) (Reg.CFG_PRESENCE.PIN_LOW.put (b2n m.pres.pinLow)
      (Reg.CFG_PRESENCE.REMAIN_S.put m.remainS (w 0x20014))))]

/-- Pool and firmware (R504, R505). -/
def Mach.livePool (m : Mach) (d : Nat) : List (Nat × Nat) :=
  let x := m.die d
  let lead := decide (m.pool.role = 1)
  let bitmap (ps : List Nat) : Nat := sumOf ((distinct ps).map (fun p => 2 ^ p))
  let joined := if lead then m.members.map (·.pkg) else if m.inPool then [m.pw.poolId] else []
  let matched := if lead then (m.members.filter (fun k => decide (k = m.self) || k.compatible m.self)).map (·.pkg)
    else if m.inPool then [m.pw.poolId] else []
  let head := m.scheduleHead
  [(Reg.POOL_STATUS.SCHEDULE.off, Reg.POOL_STATUS.SCHEDULE.put (b2n m.pool.schedule.isSome)
      (Reg.POOL_STATUS.SCHED_NEXT.put (head.getD 0) (x.reg 0xE00004))),
   (Reg.POOL_MEMBERS.MAP.off, bitmap joined), (Reg.POOL_COMPAT.MAP.off, bitmap matched),
   (Reg.POOL_DIR_USED.ENTRIES.off, if lead && decide (d = m.ens) then m.pool.directory.length else 0),
   (Reg.FW_STATUS.STATE.off, m.fwStatusWord d),
   (Reg.FW_NEW_VERSION.VERSION.off, if m.fw.state = 4 ∨ m.fw.state = 5 then fwVersion (m.nor.fwHeader 0) else 0),
   (Reg.FW_ACT_STAMP.STAMP.off, m.fw.tact.getD 0), (Reg.FW_CONFIRM_DEADLINE.STAMP.off, m.fw.deadline)]

/-- Extents and tiers (R79, R117); sizes in MiB are rounded down. -/
def Mach.liveTier (m : Mach) (d : Nat) : List (Nat × Nat) :=
  let t := (m.die d).tier
  let clearing := (m.lse.exts.filter (fun x => decide (x.home = d) && decide (x.state = .clearing))).length
  let settling := ((m.fl d).copies.filter (fun c => match c.kind with | .settle _ _ => true | _ => false)).length
  let js := m.replJobs d
  let repl := Reg.OPS_REPL_STATUS.RUNNING.put (min 16 (js.filter (·.start.isSome)).length)
    (Reg.OPS_REPL_STATUS.WAITING.put (min 65535 (js.filter (fun j => j.start.isNone && j.abort.isNone)).length) 0)
  let threads := Reg.OPS_FETCH_THREADS.IN_USE.put (m.threadsUsed d) (Reg.OPS_FETCH_THREADS.PEAK.put (max (m.die d).stage.peak (m.threadsUsed d)) 0)
  [(Reg.LSE_OPEN_COUNT.OPEN.off, m.openCount d), (Reg.LSE_SEALED_COUNT.SEALED.off, m.sealedCount d),
   (Reg.TIER_T2_USED.MIB.off, m.t2Used d / 2 ^ 20), (Reg.TIER_T1_CACHE_USED.MIB.off, m.t1Used d / 2 ^ 20),
   (Reg.TIER_PIN_USED.MIB.off, m.pinBytes d / 2 ^ 20), (Reg.TIER_MAP_USED.MAPS.off, m.mapUsed d),
   (Reg.TIER_HOIST_DEPTH.DEPTH.off, min 65536 (t.fetches.length + (t.promos.filter (·.endedAt.isNone)).length + t.evicts.length
      + (t.relocs.filter (·.switchedAt.isNone)).length + settling + clearing)),
   (Reg.OPS_FETCH_THREADS.IN_USE.off, threads), (Reg.OPS_REPL_STATUS.RUNNING.off, repl)]

/-- Die `d`'s rings that the image assigns to a port (R149). -/
def Mach.dieRings (m : Mach) (d : Nat) : Nat :=
  ((List.range m.ringsPerDie).filter (fun i => (m.ringLd (d * m.ringsPerDie + i)).isSome)).length

/-- RING_ID of local ring i (R153, R183). -/
def Mach.ringIdWord (m : Mach) (d i : Nat) : Nat :=
  let r := d * m.ringsPerDie + i
  let w := Reg.RING_ID.DIE 0 |>.put d ((Reg.RING_ID.RING 0).put r 0)
  match m.ringLd r with
  | some ld => (Reg.RING_ID.LD 0).put ld ((Reg.RING_ID.CLASS 0).put (m.ringCls r) ((Reg.RING_ID.ASSIGNED 0).put 1 w))
  | none => w

/-- IN_FORMATS and OUT_FORMATS of an opcode (R152). -/
def formatWord (k : Nat) : Nat :=
  match k with
  | 0x10 => 0x0102001E
  | 0x11 => 0x0100001E
  | 0x20 => 0x0102001E
  | 0x30 => 0x001F0000
  | 0x31 | 0x40 => 0x0000001F
  | _ => 0

/-- The words of an opcode's limit record (R182, R222, R251). -/
def limitWords (k : Nat) : List Nat :=
  match k with
  | 0x10 | 0x11 => [256, 7, 16, 64, 64, 1024, 1024, 256]
  | 0x20 => [4096, 65536, 65536, 32, 8, 65536, 1024, 0x021A, 65536]
  | 0x30 | 0x32 => [256, 64]
  | 0x31 => [256, 64, 0xC4]
  | 0x40 => [0xC4]
  | 0x41 | 0x42 | 0x43 => [12]
  | 0x50 => [32, 16]
  | _ => []

/-- The capability block of die `d` (R149, R185): the number of rings and classes comes from the image (log entry 102). -/
def Mach.capWord (m : Mach) (d off : Nat) : Nat :=
  if off = 0 then 2
  else if off = 4 then 256 + 32 * 2 ^ 16
  else if off = 8 then 6 + 16 * 2 ^ 8
  else if off = 0xC then (if m.ready d then m.dieRings d else 0)
  else if off = 0x10 then 1700000000
  else if off = 0x14 then (if m.ready d then m.cfg.classes else 0)
  else if 0x20 ≤ off ∧ off < 0x40 then sumOf ((opcodes.filter (fun k => decide (k / 32 = (off - 0x20) / 4))).map (fun k => 2 ^ (k % 32)))
  else if 0x400 ≤ off ∧ off < 0x800 then (if opcodes.contains ((off - 0x400) / 4) then formatWord ((off - 0x400) / 4) else 0)
  else if 0x4000 ≤ off ∧ off < 0x8000 then (limitWords ((off - 0x4000) / 64)).getD ((off - 0x4000) % 64 / 4) 0
  else 0

/-- A record of the log ring by its ring index, or 0 where none is (R399). -/
def Die.logRecord (x : Die) (i : Nat) : Nat :=
  let size := x.logSize
  let back := (x.rd Reg.ERR_LOG_NEXT.INDEX + size - 1 - i % size) % size
  ((x.log.ring[back]?).map BitVec.toNat).getD 0

/-- A 32-bit word of a window of 128-bit records. -/
def recordWord (r off : Nat) : Nat := bits r (32 * (off % 16 / 4)) 32

/-- A freeze-record entry (R317). -/
def DramCmd.pack (c : DramCmd) : Nat :=
  c.stamp % 2 ^ 64 + c.cmd % 16 * 2 ^ 64 + c.bank % 16 * 2 ^ 68 + c.row % 65536 * 2 ^ 72 + c.sector % 32 * 2 ^ 88 + c.port % 8 * 2 ^ 93
    + c.len % 32 * 2 ^ 96 + b2n c.err * 2 ^ 101 + b2n c.check * 2 ^ 102

/-- Word `off` of the freeze record of a channel, whose entries are kept newest first (R316, R317). -/
def Chan.freezeWord (c : Chan) (off : Nat) : Nat :=
  recordWord (((c.frozenCmds[63 - off / 16]?).map DramCmd.pack).getD 0) off

/-- A window or an array whose words are derived: log windows, capability block, ring blocks, freeze records (R149, R183, R185). -/
def Mach.windowWord (m : Mach) (d off : Nat) : Option Nat :=
  let x := m.die d
  if 0x41000 ≤ off ∧ off < 0x42000 then some (recordWord (x.logRecord (x.rd Reg.ERR_LOG_WSTART.INDEX + (off - 0x41000) / 16)) off)
  else if 0x42000 ≤ off ∧ off < 0x43000 then some (recordWord (((x.log.aon.reverse[(off - 0x42000) / 16]?).map BitVec.toNat).getD 0) off)
  else if 0x400000 ≤ off ∧ off < 0x408000 then some (m.capWord d (off - 0x400000))
  else if 0x410000 ≤ off ∧ off < 0x510000 ∧ m.ringsPerDie ≤ (off - 0x410000) / 0x40 then some 0
  else if inArray 0x41002C 0x40 16384 off then some (m.ringIdWord d ((off - 0x41002C) / 0x40))
  else if 0x410000 ≤ off ∧ off < 0x510000 ∧ !m.ready d then some (resetWord off)
  else if 0x100000 ≤ off ∧ off < 0x10C000 ∧ 0x400 ≤ off % 0x1000 ∧ off % 0x1000 < 0x800 then
    some ((m.chan d ((off - 0x100000) / 0x1000)).freezeWord (off % 0x1000 - 0x400))
  else if inArray 0x100000 0x1000 12 off then
    some ((Reg.DMC_CH_STATUS.WQ_LEVEL 0).put (m.chan d ((off - 0x100000) / 0x1000)).wq.length (x.reg off))
  else none

/-- The fields of a register that read 0: WO fields, and the low bits of the ring bases (R12, R183). -/
def RegDef.mask (r : RegDef) (base w : Nat) : Nat :=
  let w := r.flds.foldl (fun (w : Nat) f => if f.acc = .wo then setBits w f.lo f.w 0 else w) w
  if 0x410000 ≤ base ∧ base < 0x510000 ∧ r.wide ∧ base % 0x40 < 0x18 then setBits w 0 12 0 else w

/-- A register's value as it reads now, 64 bits wide where it is a pair. -/
def Mach.value (m : Mach) (d : Nat) (r : RegDef) (base : Nat) : Nat :=
  match (m.liveBase d ++ m.livePool d ++ m.liveTier d).find? (fun p => decide (p.1 = base)) with
  | some p => p.2
  | none => r.mask base ((m.die d).reg base)

/-- The answer to a read of word `off`, with what the read changes (R9, R12, R13, R70). -/
def Mach.getWord (m : Mach) (d off : Nat) : Nat × Mach :=
  match m.windowWord d off with
  | some w => (w, m)
  | none =>
    if off = 0x808030 ∧ m.alive then m.plistPop d
    else match wordOf off with
      | none => (0, m)
      | some (r, base, half) =>
        let held := SMap.get (fun _ => 0) (m.die d).latch base
        if half = 1 ∧ held ≠ 0 then (held - 1, m.upd d (fun x => { x with latch := SMap.erase base x.latch }))
        else
          let v := m.value d r base
          (bits v (32 * half) 32, if r.wide ∧ half = 0 then m.latchHigh d base (bits v 32 32) else m)



/-- A word of the pending-bit array (R261, R267). -/
def LdRec.pbaWord (r : LdRec) (k : Nat) : Nat := sumOf ((List.range 32).map (fun i => if (r.vec (32 * k + i)).pend then 2 ^ i else 0))

/-- The answer to a read of BAR 0 (R261, R274): the time block holds the port's registers; what the CXL component and device
registers hold is a free value (log entry 108). -/
def Mach.bar0Word (m : Mach) (ld off : Nat) : Nat × Mach :=
  if 0x18000 ≤ off ∧ off < 0x18014 then m.getWord (ldPort ld) (0xC00020 + (off - 0x18000))
  else if 0x18014 ≤ off ∧ off < 0x20000 then (0, m)
  else if 0x20000 ≤ off ∧ off < 0x28000 then
    let x := (m.ld ld).vec ((off - 0x20000) / 16)
    (match off % 16 / 4 with
      | 0 => bits x.addr 0 32
      | 1 => bits x.addr 32 32
      | 2 => x.data
      | _ => b2n x.mask, m)
  else if 0x28000 ≤ off ∧ off < 0x28100 then ((m.ld ld).pbaWord ((off - 0x28000) / 4), m)
  else if 0x28100 ≤ off then (0, m)
  else (m.choice, m.chosen)

/-- The answer to a read of an LD's BAR (R149, R183, R261): BAR 4 of an LD other than the management LD, and ring blocks beyond
LD_RINGS, read as 0. -/
def Mach.barWord (m : Mach) (ld b d off : Nat) : Nat × Mach :=
  if b = 0 then m.bar0Word ld off
  else if b = 2 ∧ off = 0xC then ((m.ldRings ld).length, m)
  else if b = 2 ∧ off < 0x8000 then (m.capWord (ldPort ld) off, m)
  else match m.target (.bar ld b) d off with
    | some p => m.getWord p.1 p.2
    | none => (0, m)

/-- A read of an LD's BAR: Unsupported Request while the LD does not answer (R282, log entry 108). -/
def Mach.barRead (m : Mach) (ld b d off : Nat) : Mach :=
  if m.ldAnswers ld then
    let r := m.barWord ld b d off
    r.2.send (.barData ld (BitVec.ofNat 32 r.1))
  else m.when (m.serving && m.assigned ld && m.ldUp ld) (·.send (.barUr ld))

/-- LOW_WORD_READ (R8, R9, R10, R12, R13, R261, R425, R436): a read of any word of a die's control space or of a BAR; the low
word of a pair latches the high word. A read through the service port that does not reach its register is answered with 0. -/
def execLowWordRead (w : Window) (off : Nat) (s : State) : Host.Outcome State Fault Refusal :=
  let d := w.die
  if off % 4 ≠ 0 ∨ viaSpan w.via ≤ off then .fault (.absentUnit off)
  else s.onDie d (fun m => match w.via with
    | .bar ld b => m.barRead ld b d off
    | .mgmt => match m.cfg.mgmtLd with
      | some ld => m.barRead ld 4 d off
      | none => m
    | .service => m.when m.powered (fun m =>
      if m.reaches .service d off then
        let r := m.getWord d off
        r.2.send (.regRead d off (BitVec.ofNat 32 r.1))
      else m.send (.regRead d off 0)))

end Sys2Proof.Machine
end

