-- ==== Sys2Proof/Machine/Dispatch.lean ====
section
/-! DEFINITION. One arm per command: a direct call of its meaning. -/

namespace Sys2Proof.Machine

/-- The effect of a command on everything but the queue. -/
def exec (i : Instr) (s : State) : Host.Outcome State Fault Refusal :=
  match i with
  | .registerWrite via die off v => Sys2Proof.Machine.execRegisterWrite via die off v s
  | .porNAssert => Sys2Proof.Machine.execPorNAssert s
  | .railUndervoltage rail => Sys2Proof.Machine.execRailUndervoltage rail s
  | .porNDeassert ensignSel poolId => Sys2Proof.Machine.execPorNDeassert ensignSel poolId s
  | .crystalStable die itoCycles => Sys2Proof.Machine.execCrystalStable die itoCycles s
  | .noXtal die => Sys2Proof.Machine.execNoXtal die s
  | .pllLock die => Sys2Proof.Machine.execPllLock die s
  | .bytrathalTrainingDone failed => Sys2Proof.Machine.execBytrathalTrainingDone failed s
  | .imageLoad nor active backup identityFail => Sys2Proof.Machine.execImageLoad nor active backup identityFail s
  | .dramStartUp die density lanes => Sys2Proof.Machine.execDramStartUp die density lanes s
  | .flashDiscovery die found sigReadable suspend => Sys2Proof.Machine.execFlashDiscovery die found sigReadable suspend s
  | .firstDiscovery die factoryBad => Sys2Proof.Machine.execFirstDiscovery die factoryBad s
  | .mapRecovery die newerOk olderOk rest => Sys2Proof.Machine.execMapRecovery die newerOk olderOk rest s
  | .dieSetReady => Sys2Proof.Machine.execDieSetReady s
  | .ldReady ld => Sys2Proof.Machine.execLdReady ld s
  | .clockMonitorWindow die count => Sys2Proof.Machine.execClockMonitorWindow die count s
  | .clockFailMessage die => Sys2Proof.Machine.execClockFailMessage die s
  | .clkOutCtrl die v => Sys2Proof.Machine.execClkOutCtrl die v s
  | .halyardMeasure die offset => Sys2Proof.Machine.execHalyardMeasure die offset s
  | .timeMark die => Sys2Proof.Machine.execTimeMark die s
  | .timeMarkDurable die => Sys2Proof.Machine.execTimeMarkDurable die s
  | .ceilingReached die => Sys2Proof.Machine.execCeilingReached die s
  | .tbTimeSet die v => Sys2Proof.Machine.execTbTimeSet die v s
  | .flitReceive die link crcOk => Sys2Proof.Machine.execFlitReceive die link crcOk s
  | .heartbeatSend die => Sys2Proof.Machine.execHeartbeatSend die s
  | .heartbeatReceive die partner => Sys2Proof.Machine.execHeartbeatReceive die partner s
  | .heartbeatLost die partner => Sys2Proof.Machine.execHeartbeatLost die partner s
  | .halfMastMessage die cause => Sys2Proof.Machine.execHalfMastMessage die cause s
  | .pwrHalt via die key => Sys2Proof.Machine.execPwrHalt via die key s
  | .pwrReset via die key => Sys2Proof.Machine.execPwrReset via die key s
  | .unitIdleGate die u => Sys2Proof.Machine.execUnitIdleGate die u s
  | .unitWake die u => Sys2Proof.Machine.execUnitWake die u s
  | .furlReq die v => Sys2Proof.Machine.execFurlReq die v s
  | .furlCancel die v => Sys2Proof.Machine.execFurlCancel die v s
  | .furlIdleTimeout => Sys2Proof.Machine.execFurlIdleTimeout s
  | .furlEntryStep => Sys2Proof.Machine.execFurlEntryStep s
  | .furlL1Timeout die => Sys2Proof.Machine.execFurlL1Timeout die s
  | .furledWake src die failed => Sys2Proof.Machine.execFurledWake src die failed s
  | .thermalSample die readings => Sys2Proof.Machine.execThermalSample die readings s
  | .presenceOpen => Sys2Proof.Machine.execPresenceOpen s
  | .presenceClose => Sys2Proof.Machine.execPresenceClose s
  | .cfgDebug via die v => Sys2Proof.Machine.execCfgDebug via die v s
  | .nvmRead die => Sys2Proof.Machine.execNvmRead die s
  | .nvmProgram die => Sys2Proof.Machine.execNvmProgram die s
  | .nvmErase4K die => Sys2Proof.Machine.execNvmErase4K die s
  | .nvmErase64K die => Sys2Proof.Machine.execNvmErase64K die s
  | .nvmOperationComplete ok => Sys2Proof.Machine.execNvmOperationComplete ok s
  | .bbtNvmCopy die => Sys2Proof.Machine.execBbtNvmCopy die s
  | .fmAddDynamicCapacity ld region slot share => Sys2Proof.Machine.execFmAddDynamicCapacity ld region slot share s
  | .addDynamicCapacityResponse ld accepted rejected => Sys2Proof.Machine.execAddDynamicCapacityResponse ld accepted rejected s
  | .offerTimeout ld region slot => Sys2Proof.Machine.execOfferTimeout ld region slot s
  | .releaseDynamicCapacity ld slots ingress => Sys2Proof.Machine.execReleaseDynamicCapacity ld slots ingress s
  | .initiateDynamicCapacityRelease ld region slot => Sys2Proof.Machine.execInitiateDynamicCapacityRelease ld region slot s
  | .revokeAcknowledged ld region slot => Sys2Proof.Machine.execRevokeAcknowledged ld region slot s
  | .revokeStampReached ld region slot => Sys2Proof.Machine.execRevokeStampReached ld region slot s
  | .linkdownRevokeExpiry ld => Sys2Proof.Machine.execLinkdownRevokeExpiry ld s
  | .drainComplete ext => Sys2Proof.Machine.execDrainComplete ext s
  | .clearingComplete ext => Sys2Proof.Machine.execClearingComplete ext s
  | .hostLoad ld dpa excl ingress => Sys2Proof.Machine.execHostLoad ld dpa excl ingress s
  | .hostStore ld dpa first data poison ingress => Sys2Proof.Machine.execHostStore ld dpa first data poison ingress s
  | .biResponse ld ext line wb => Sys2Proof.Machine.execBiResponse ld ext line wb s
  | .biTimeout ld ext line => Sys2Proof.Machine.execBiTimeout ld ext line s
  | .lsePlistPop die => Sys2Proof.Machine.execLsePlistPop die s
  | .lseExtQuery die v => Sys2Proof.Machine.execLseExtQuery die v s
  | .tierFrameQuery die v => Sys2Proof.Machine.execTierFrameQuery die v s
  | .heatDecayWalk die => Sys2Proof.Machine.execHeatDecayWalk die s
  | .mapCheckpoint die => Sys2Proof.Machine.execMapCheckpoint die s
  | .fetchStart die ext idx => Sys2Proof.Machine.execFetchStart die ext idx s
  | .fetchInstall die ext idx => Sys2Proof.Machine.execFetchInstall die ext idx s
  | .tierMissHoldExpiry die ext idx ld line => Sys2Proof.Machine.execTierMissHoldExpiry die ext idx ld line s
  | .evictionScan die => Sys2Proof.Machine.execEvictionScan die s
  | .evictionExecute die => Sys2Proof.Machine.execEvictionExecute die s
  | .relocationSwitch die ext idx => Sys2Proof.Machine.execRelocationSwitch die ext idx s
  | .oldLocationTrim die ext idx => Sys2Proof.Machine.execOldLocationTrim die ext idx s
  | .settleFrame die ext idx => Sys2Proof.Machine.execSettleFrame die ext idx s
  | .preloadEntry die => Sys2Proof.Machine.execPreloadEntry die s
  | .tableLoad die x ext tidx => Sys2Proof.Machine.execTableLoad die x ext tidx s
  | .blockDecode die x ext idx block src => Sys2Proof.Machine.execBlockDecode die x ext idx block src s
  | .xcRecode die v => Sys2Proof.Machine.execXcRecode die v s
  | .recodeSwitch die => Sys2Proof.Machine.execRecodeSwitch die s
  | .recodeTrim die => Sys2Proof.Machine.execRecodeTrim die s
  | .ringEnable ring v => Sys2Proof.Machine.execRingEnable ring v s
  | .ringDisable ring v => Sys2Proof.Machine.execRingDisable ring v s
  | .ringDoorbell ring v => Sys2Proof.Machine.execRingDoorbell ring v s
  | .ringCqHead ring v => Sys2Proof.Machine.execRingCqHead ring v s
  | .descriptorAccept ring => Sys2Proof.Machine.execDescriptorAccept ring s
  | .nop die job => Sys2Proof.Machine.execNop die job s
  | .fence die job => Sys2Proof.Machine.execFence die job s
  | .attend die job => Sys2Proof.Machine.execAttend die job s
  | .select die job => Sys2Proof.Machine.execSelect die job s
  | .linear die job => Sys2Proof.Machine.execLinear die job s
  | .groupedLinear die job => Sys2Proof.Machine.execGroupedLinear die job s
  | .gather die job => Sys2Proof.Machine.execGather die job s
  | .ingest die job => Sys2Proof.Machine.execIngest die job s
  | .copy die job => Sys2Proof.Machine.execCopy die job s
  | .seal die job => Sys2Proof.Machine.execSeal die job s
  | .prefetch die job => Sys2Proof.Machine.execPrefetch die job s
  | .pin die job => Sys2Proof.Machine.execPin die job s
  | .unpin die job => Sys2Proof.Machine.execUnpin die job s
  | .replicatePush die job => Sys2Proof.Machine.execReplicatePush die job s
  | .replicateRepair die job => Sys2Proof.Machine.execReplicateRepair die job s
  | .buntingClose die id => Sys2Proof.Machine.execBuntingClose die id s
  | .buntingRun die id => Sys2Proof.Machine.execBuntingRun die id s
  | .subJobFinish die job home => Sys2Proof.Machine.execSubJobFinish die job home s
  | .jobFinish die job => Sys2Proof.Machine.execJobFinish die job s
  | .configurationRequest ld req => Sys2Proof.Machine.execConfigurationRequest ld req s
  | .msixTableWrite ld vector addr data mask => Sys2Proof.Machine.execMsixTableWrite ld vector addr data mask s
  | .upstreamReadCompletion die job addr data ep ok => Sys2Proof.Machine.execUpstreamReadCompletion die job addr data ep ok s
  | .portCplTimeout die job addr => Sys2Proof.Machine.execPortCplTimeout die job addr s
  | .ptmDialog die => Sys2Proof.Machine.execPtmDialog die s
  | .ptmResponse die hostNs localTicks => Sys2Proof.Machine.execPtmResponse die hostNs localTicks s
  | .offtimeUnknownTimeout die => Sys2Proof.Machine.execOfftimeUnknownTimeout die s
  | .functionLevelReset ld => Sys2Proof.Machine.execFunctionLevelReset ld s
  | .flrComplete ld => Sys2Proof.Machine.execFlrComplete ld s
  | .perstNAssert die => Sys2Proof.Machine.execPerstNAssert die s
  | .perstNDeassert die => Sys2Proof.Machine.execPerstNDeassert die s
  | .hotReset die half => Sys2Proof.Machine.execHotReset die half s
  | .dataLinkDown die half => Sys2Proof.Machine.execDataLinkDown die half s
  | .linkUp die half negotiated rate width => Sys2Proof.Machine.execLinkUp die half negotiated rate width s
  | .doeDiscovery ld index => Sys2Proof.Machine.execDoeDiscovery ld index s
  | .cxlTableAccess ld => Sys2Proof.Machine.execCxlTableAccess ld s
  | .identifyMemoryDevice ld => Sys2Proof.Machine.execIdentifyMemoryDevice ld s
  | .getDynamicCapacityConfiguration ld => Sys2Proof.Machine.execGetDynamicCapacityConfiguration ld s
  | .getDynamicCapacityExtentList ld => Sys2Proof.Machine.execGetDynamicCapacityExtentList ld s
  | .getEventRecords ld log => Sys2Proof.Machine.execGetEventRecords ld log s
  | .clearEventRecords ld log count => Sys2Proof.Machine.execClearEventRecords ld log count s
  | .getEventInterruptPolicy ld => Sys2Proof.Machine.execGetEventInterruptPolicy ld s
  | .setEventInterruptPolicy ld log vector => Sys2Proof.Machine.execSetEventInterruptPolicy ld log vector s
  | .getSupportedLogs ld => Sys2Proof.Machine.execGetSupportedLogs ld s
  | .getLog ld => Sys2Proof.Machine.execGetLog ld s
  | .getTimestamp ld => Sys2Proof.Machine.execGetTimestamp ld s
  | .setTimestamp ld ns => Sys2Proof.Machine.execSetTimestamp ld ns s
  | .mailboxUnsupported ld opcode => Sys2Proof.Machine.execMailboxUnsupported ld opcode s
  | .writeQueueDrain die ch => Sys2Proof.Machine.execWriteQueueDrain die ch s
  | .refresh die ch bank => Sys2Proof.Machine.execRefresh die ch bank s
  | .selfRefreshEntry die ch => Sys2Proof.Machine.execSelfRefreshEntry die ch s
  | .refreshWindow die ch => Sys2Proof.Machine.execRefreshWindow die ch s
  | .periodicRecentre die ch lane => Sys2Proof.Machine.execPeriodicRecentre die ch lane s
  | .channelFreeze die ch cause => Sys2Proof.Machine.execChannelFreeze die ch cause s
  | .freezeHoldExpiry die ch => Sys2Proof.Machine.execFreezeHoldExpiry die ch s
  | .channelRelease die ch v => Sys2Proof.Machine.execChannelRelease die ch v s
  | .releaseRetrainDone die ch lane => Sys2Proof.Machine.execReleaseRetrainDone die ch lane s
  | .pwrRampExpiry die dev => Sys2Proof.Machine.execPwrRampExpiry die dev s
  | .deviceInitComplete die dev lanes => Sys2Proof.Machine.execDeviceInitComplete die dev lanes s
  | .qosTick die => Sys2Proof.Machine.execQosTick die s
  | .qosWindowStart die m => Sys2Proof.Machine.execQosWindowStart die m s
  | .borrowStepUpdate die => Sys2Proof.Machine.execBorrowStepUpdate die s
  | .qosAdmit die work bytes cls accept deadline ageNs => Sys2Proof.Machine.execQosAdmit die work bytes cls accept deadline ageNs s
  | .qosRecompute die => Sys2Proof.Machine.execQosRecompute die s
  | .qosGuarWrite die m v => Sys2Proof.Machine.execQosGuarWrite die m v s
  | .superblockOpen die which eraseFails => Sys2Proof.Machine.execSuperblockOpen die which eraseFails s
  | .pageProgramComplete die which ok => Sys2Proof.Machine.execPageProgramComplete die which ok s
  | .tailWaitExpiry die which => Sys2Proof.Machine.execTailWaitExpiry die which s
  | .pageReadComplete die ext idx page bits => Sys2Proof.Machine.execPageReadComplete die ext idx page bits s
  | .readRetryStep die ext idx ok => Sys2Proof.Machine.execReadRetryStep die ext idx ok s
  | .reclaimRound die => Sys2Proof.Machine.execReclaimRound die s
  | .staticLevelling die => Sys2Proof.Machine.execStaticLevelling die s
  | .readDisturbCheck die b samples => Sys2Proof.Machine.execReadDisturbCheck die b samples s
  | .scrubPass die samples => Sys2Proof.Machine.execScrubPass die samples s
  | .sweepSuperblock die samples => Sys2Proof.Machine.execSweepSuperblock die samples s
  | .flashCommandTimeout die ch => Sys2Proof.Machine.execFlashCommandTimeout die ch s
  | .bucketLeak die bucket => Sys2Proof.Machine.execBucketLeak die bucket s
  | .poolJoin pkg version peerMin peerMax requester => Sys2Proof.Machine.execPoolJoin pkg version peerMin peerMax requester s
  | .joinRetry answer => Sys2Proof.Machine.execJoinRetry answer s
  | .anchorSend pkg => Sys2Proof.Machine.execAnchorSend pkg s
  | .anchorReceive t1 theta hostNs => Sys2Proof.Machine.execAnchorReceive t1 theta hostNs s
  | .anchorReply pkg t1 t2 t3 => Sys2Proof.Machine.execAnchorReply pkg t1 t2 t3 s
  | .ensignLost => Sys2Proof.Machine.execEnsignLost s
  | .poolRoleSet via die v => Sys2Proof.Machine.execPoolRoleSet via die v s
  | .replicaReport r => Sys2Proof.Machine.execReplicaReport r s
  | .replicaLookup asker originPkg originHandle => Sys2Proof.Machine.execReplicaLookup asker originPkg originHandle s
  | .lookupTimeout die ext idx => Sys2Proof.Machine.execLookupTimeout die ext idx s
  | .poolOpen src originPkg originHandle header dim ld region slot => Sys2Proof.Machine.execPoolOpen src originPkg originHandle header dim ld region slot s
  | .frameDone ext rx idx sectors => Sys2Proof.Machine.execFrameDone ext rx idx sectors s
  | .poolClose ext => Sys2Proof.Machine.execPoolClose ext s
  | .pushTimeout ext => Sys2Proof.Machine.execPushTimeout ext s
  | .setdasa static dynamic => Sys2Proof.Machine.execSetdasa static dynamic s
  | .entdaa dynamic => Sys2Proof.Machine.execEntdaa dynamic s
  | .fwBegin imageLen cfgLen => Sys2Proof.Machine.execFwBegin imageLen cfgLen s
  | .backupCopyComplete ok => Sys2Proof.Machine.execBackupCopyComplete ok s
  | .fwData offset data => Sys2Proof.Machine.execFwData offset data s
  | .fwEnd verdict => Sys2Proof.Machine.execFwEnd verdict s
  | .fwActivate delayMs scheduled => Sys2Proof.Machine.execFwActivate delayMs scheduled s
  | .activation => Sys2Proof.Machine.execActivation s
  | .fwConfirmReq => Sys2Proof.Machine.execFwConfirmReq s
  | .fwHealthConfirm own key counterOk => Sys2Proof.Machine.execFwHealthConfirm own key counterOk s
  | .confirmDeadline => Sys2Proof.Machine.execConfirmDeadline s
  | .fwAbort => Sys2Proof.Machine.execFwAbort s
  | .fwStatus => Sys2Proof.Machine.execFwStatus s
  | .attest die nonce mask => Sys2Proof.Machine.execAttest die nonce mask s
  | .getCert die offset => Sys2Proof.Machine.execGetCert die offset s
  | .poolSchedule order delayMs news => Sys2Proof.Machine.execPoolSchedule order delayMs news s
  | .scheduleConfirm pkg res => Sys2Proof.Machine.execScheduleConfirm pkg res s
  | .retryFailure die link => Sys2Proof.Machine.execRetryFailure die link s
  | .promotionEnd die ext idx dst => Sys2Proof.Machine.execPromotionEnd die ext idx dst s
  | .restoreCopyComplete ok => Sys2Proof.Machine.execRestoreCopyComplete ok s
  | .pllRelock die => Sys2Proof.Machine.execPllRelock die s
  | .flashChannelRetrain die ch ok => Sys2Proof.Machine.execFlashChannelRetrain die ch ok s
  | .lowWordRead w off => Sys2Proof.Machine.execLowWordRead w off s

end Sys2Proof.Machine
end

