-- ==== Sys2Proof/Safety.lean ====
section
/-! DEFINITION. What counts as a sound state and a safe run: storage in its one canonical form on a package of the dies and
channels that its configuration has, and runs of steps that meet no fault and do not end in half-mast. -/

namespace Sys2Proof.Machine

/-- A die is sound: its registers, its DRAM with the check bytes, and its flash are in canonical form, and it has twelve DRAM
channels (R7, R287). -/
def Die.Ok (x : Die) : Prop :=
  SMap.wf regDflt x.regs = true ∧ SMap.wf zeroByte x.dram.data = true ∧ SMap.wf zeroByte x.dram.check = true
    ∧ SMap.wf zeroByte x.fl.data = true ∧ x.dram.chans.length = 12

/-- A machine is sound: it has the dies of one of the configurations (R1), each of them sound, and the NOR in canonical form. -/
def Mach.Ok (m : Mach) : Prop :=
  Config.variant m.dies.length ∧ (∀ x ∈ m.dies, x.Ok) ∧ SMap.wf erasedByte m.nor.array = true

/-- A state is sound when its machine is; the queue may hold any commands. -/
def State.Ok (s : State) : Prop := s.m.Ok

/-! ## The terms that statements use -/

/-- Command `c` completes at `s`: a next state, the queue as it was, and a machine with `P`. -/
def Runs (c : Instr) (s : State) (P : Mach → Prop) : Prop := ∃ t, exec c s = .next t ∧ t.pending = s.pending ∧ P t.m

/-- One byte of a die's DRAM by device address, of a die's flash by its place in T3, of the NOR. -/
def Mach.dramByte (m : Mach) (d a : Nat) : Byte := SMap.get zeroByte (m.die d).dram.data a
def Mach.flashByte (m : Mach) (d a : Nat) : Byte := SMap.get zeroByte (m.die d).fl.data a
def Mach.norByte (m : Mach) (a : Nat) : Byte := SMap.get erasedByte m.nor.array a

/-- Every byte of DRAM, of flash and of the NOR reads as before, and so do the frame maps and the lease table. -/
def Mach.dataKept (a b : Mach) : Prop :=
  (∀ d x, b.dramByte d x = a.dramByte d x) ∧ (∀ d x, b.flashByte d x = a.flashByte d x) ∧ (∀ x, b.norByte x = a.norByte x)
    ∧ (∀ d, (b.die d).tier.map = (a.die d).tier.map) ∧ b.lse = a.lse

/-- Every byte of DRAM and of flash reads as before. -/
def Mach.memoryKept (a b : Mach) : Prop := (∀ d x, b.dramByte d x = a.dramByte d x) ∧ (∀ d x, b.flashByte d x = a.flashByte d x)

/-- Every stored byte reads as before. -/
def Mach.bytesKept (a b : Mach) : Prop :=
  (∀ d x, b.dramByte d x = a.dramByte d x) ∧ (∀ d x, b.flashByte d x = a.flashByte d x) ∧ (∀ x, b.norByte x = a.norByte x)

/-- The registers that the writing of a pennant changes (R394, R399): ERR_LOG_OLDEST, ERR_LOG_NEXT, ERR_LOG_OVERWRITTEN, ERR_SEQ. -/
def logRegs : List Nat := [0x40008, 0x4000C, 0x40010, 0x40014]

/-- Every field of every die's registers reads as before, but for the registers at `offs` on die `d` and the log's own. -/
def Mach.regsKept (a b : Mach) (d : Nat) (offs : List Nat) : Prop :=
  ∀ (e : Nat) (f : Fld), (e = d → f.off ∉ offs) → f.off ∉ logRegs → b.rd e f = a.rd e f

/-- The newest always-on record but `k` of die `d` (R400), as a number. -/
def Mach.record (m : Mach) (d : Nat) (k : Nat := 0) : Nat := (((m.die d).log.aon[k]?).map BitVec.toNat).getD 0

/-- That record is the head record of a pennant of this unit, class, code and DETAIL (R393). -/
def Mach.wrote (m : Mach) (d unit : Nat) (pc : PCode) (detail : Nat := 0) (k : Nat := 0) : Prop :=
  bits (m.record d k) 72 8 = unit ∧ bits (m.record d k) 102 1 = 0 ∧ bits (m.record d k) 104 8 = pc.cls
    ∧ bits (m.record d k) 112 8 = pc.code ∧ bits (m.record d k) 120 8 = detail

/-- Job `n` of accepting die `d`, which was `j`, has started with its parts on `homes` (R33, R175). -/
def Mach.started (m : Mach) (d n : Nat) (j : Job) (homes : List Nat) : Prop :=
  ∃ k, m.job? d n = some k ∧ k.start.isSome = true ∧ k.subs.map (·.home) = homes ∧ k.accept = j.accept ∧ k.desc = j.desc ∧ k.ring = j.ring

/-- Job `n` of accepting die `d`, of ring `r`, has ended, and its completion is the next entry of the ring (R171, R173). -/
def Mach.completed (a b : Mach) (d n r : Nat) : Prop :=
  b.job? d n = none ∧ b.rr r Reg.RING_CQ_TAIL.TAIL = (a.rr r Reg.RING_CQ_TAIL.TAIL + 1) % a.cqSize r
    ∧ b.unreleased r = a.unreleased r + 1
    ∧ b.rr r Reg.RING_STATUS.PHASE = (if b.rr r Reg.RING_CQ_TAIL.TAIL = 0 then 1 - a.rr r Reg.RING_STATUS.PHASE else a.rr r Reg.RING_STATUS.PHASE)

/-- `k` steps from `s` meet no fault, and no state on the way is in half-mast (R436). -/
def State.safeRun (s : State) : Nat → Prop
  | 0 => s.m.halted = false
  | k + 1 => s.m.halted = false ∧ ∃ t, step s = .next t ∧ State.safeRun t k

end Sys2Proof.Machine
end

