-- ==== Sys2Proof/Certificates/Slice0/Obligations.lean ====
section
/-! DEFINITION. The statements for the provers, in the order of the model's parts. -/

set_option linter.unusedVariables false

open Sys2Proof Sys2Proof.Machine

/-! ## The block and its queue -/

/-- The state after reset is sound: legal die count (R1), storage in canonical form. The values are the model's (log entry 2). -/
def Obligations.ResetIsSound : Prop := State.reset.Ok ∧ State.reset.pending = []

/-- Every step from every sound state leaves a sound state: the dies stay a configuration of R1 with twelve channels each (R7),
and registers, DRAM, its check bytes, flash and the NOR stay in canonical form. The invariant is the model's own. -/
def Obligations.StepKeepsSoundness : Prop := ∀ s t : State, s.Ok → step s = .next t → t.Ok

/-- A step runs the command at the front of the queue with the queue's rest; an empty queue lets one tick pass on every die
unless POR_N is asserted (log entry 9: the tick is the model's choice). -/
def Obligations.StepRunsFrontCommand : Prop :=  (∀ (c : Instr) (s : State), step { s with pending := c :: s.pending } = exec c s) ∧
  (∀ s : State, s.pending = [] → s.m.powered = true →
    ∃ t, step s = .next t ∧ t.pending = [] ∧ t.m.dies.length = s.m.n ∧ s.m.dataKept t.m
      ∧ ∀ d < s.m.n, (t.m.die d).clk = (s.m.die d).clk.tick 1 ∧ ∀ f, t.m.rd d f = s.m.rd d f) ∧
  (∀ s : State, s.pending = [] → s.m.powered = false → step s = .next { s with m := s.fresh })

/-- A command that names a die that the package has not stops with that name (R7): here for one command of each family. -/
def Obligations.AbsentDieStops : Prop := ∀ (s : State) (d : Nat), s.m.n ≤ d →
  exec (.crystalStable d 1) s = .fault (.absentDie d) ∧ exec (.evictionScan d) s = .fault (.absentDie d)
  ∧ exec (.nop d 0) s = .fault (.absentDie d) ∧ exec (.refresh d 0 0) s = .fault (.absentDie d)
  ∧ exec (.qosTick d) s = .fault (.absentDie d) ∧ exec (.reclaimRound d) s = .fault (.absentDie d)
  ∧ exec (.ptmDialog d) s = .fault (.absentDie d) ∧ exec (.nvmRead d) s = .fault (.absentDie d)

/-! ## Clocks and time -/

/-- The crystal count of start-up ends in time (R418, R392, R422), or does not after 250,000 ITO cycles (R419), and the root PLL locks
(R420). -/
def Obligations.StartUpClocks : Prop := ∀ (s : State) (d : Nat), s.Ok → d < s.m.n → s.m.pw.phase = .startup →
  (s.m.rd d Reg.PWR_START_STEP.STEP = 1 → ∀ cycles < 250000, Runs (.crystalStable d cycles) s (fun m =>
    m.rd d Reg.CLK_STATUS.XTAL_STABLE = 1 ∧ m.rd d Reg.CLK_STATUS.SOURCE = 1 ∧ m.rd d Reg.CLK_STATUS.MON_ACTIVE = 1
    ∧ m.rd d Reg.CLK_XTAL_START.ITO_CYCLES = cycles ∧ m.rd d Reg.TB_STATUS.ITO_TIME = 0 ∧ (m.die d).clk.ito = false
    ∧ m.rd d Reg.PWR_START_STEP.STEP = 2 ∧ s.m.dataKept m
    ∧ s.m.regsKept m d [Reg.CLK_STATUS.SOURCE.off, Reg.CLK_XTAL_START.ITO_CYCLES.off, Reg.TB_STATUS.ITO_TIME.off,
        Reg.PWR_START_STEP.STEP.off, (Reg.PWR_START_LOG.US 1).off])) ∧
  (s.m.rd d Reg.PWR_START_STEP.STEP = 1 → Runs (.noXtal d) s (fun m =>
    m.rd d Reg.CLK_STATUS.NO_XTAL = 1 ∧ m.rd d Reg.CLK_STATUS.SOURCE = 0 ∧ m.rd d Reg.CLK_STATUS.MON_FAIL = 1
    ∧ m.rd d Reg.TB_STATUS.ITO_TIME = 1 ∧ (m.die d).clk.ito = true ∧ m.rd d Reg.ERR_NMI_STATUS.CLOCK = 1
    ∧ Out.sideband d 2 ∈ m.out ∧ m.rd d Reg.PWR_START_STEP.STEP = 2 ∧ s.m.dataKept m)) ∧
  (s.m.rd d Reg.PWR_START_STEP.STEP = 2 → Runs (.pllLock d) s (fun m =>
    m.rd d Reg.CLK_STATUS.PLL_LOCK = 1 ∧ m.rd d Reg.PWR_START_STEP.STEP = 3
    ∧ ((m.die d).clk.fineWait = !(s.m.die d).clk.fineRuns)
    ∧ (d = s.m.ens → ∀ e < s.m.n, (m.die e).clk.coarse = (s.m.die d).clk.coarse ∧ (m.die e).clk.phase = (s.m.die d).clk.phase)
    ∧ s.m.dataKept m
    ∧ s.m.regsKept m d [Reg.CLK_STATUS.PLL_LOCK.off, Reg.PWR_START_STEP.STEP.off, (Reg.PWR_START_LOG.US 2).off]))

/-- The clock monitor (R422) counts from the stamp at which the crystal is judged stable: a window is accepted if its count lies between 15,893 and 16,875 inclusive; a single window outside
that range is a clock failure, on which the die switches to its ITO, adds the missing coarse periods, and raises CLOCK_FAIL (R423); the
monitor stops after the switch, and runs in every power state, half-mast included. A window ends 4,096 ITO cycles after the last one. -/
def Obligations.ClockMonitorWindows : Prop := ∀ (s : State) (d count : Nat), s.Ok → d < s.m.n → s.m.powered = true →
  (s.m.pw.phase = .startup → s.m.rd d Reg.PWR_START_STEP.STEP = 1 → ∀ cycles < 250000,
    Runs (.crystalStable d cycles) s (fun m => m.rd d Reg.CLK_STATUS.MON_ACTIVE = 1
      ∧ SMap.get (fun _ => 0) (m.die d).aux.last 1 = m.now d)) ∧
  (s.m.rd d Reg.CLK_STATUS.MON_ACTIVE = 0 → exec (.clockMonitorWindow d count) s = .next { s with m := s.fresh }) ∧
  (s.m.rd d Reg.CLK_STATUS.MON_ACTIVE = 1 → 15893 ≤ count ∧ count ≤ 16875 → Runs (.clockMonitorWindow d count) s (fun m =>
    m.rd d Reg.CLK_MON_COUNT.LAST = count ∧ m.dies.length = s.m.n ∧ s.m.dataKept m ∧ s.m.regsKept m d [Reg.CLK_MON_COUNT.LAST.off])) ∧
  (s.m.rd d Reg.CLK_STATUS.MON_ACTIVE = 1 → count < 15893 ∨ 16875 < count →
    let w := s.fresh.every d 1 (s.m.die d).aux.itoStart (itoTicks 4096)
    Runs (.clockMonitorWindow d count) s (fun m =>
      m.rd d Reg.CLK_MON_COUNT.LAST = min count 32767 ∧ m.rd d Reg.CLK_MON_COUNT.FAILED = min count 32767
      ∧ m.rd d Reg.CLK_STATUS.SOURCE = 0 ∧ m.rd d Reg.CLK_STATUS.MON_FAIL = 1 ∧ m.rd d Reg.CLK_STATUS.MON_ACTIVE = 0
      ∧ m.rd d Reg.ERR_NMI_STATUS.CLOCK = 1 ∧ m.rd d Reg.TB_STATUS.ITO_TIME = 1
      ∧ (m.die d).clk.coarse = (w.die d).clk.coarse + (256 - count / 64) ∧ (m.die d).clk.ito = true
      ∧ Out.sideband d 2 ∈ m.out ∧ s.m.dataKept m))

/-- A die that receives the clock-fail message switches as if its own monitor had failed, and the PLL relocks (R423).
CLK_OUT (R424): the ensign die alone drives it; a setting whose output would exceed 200 MHz holds it low and sets CLKOUT_LIMIT. -/
def Obligations.ClockFailAndClkOut : Prop :=
  (∀ (s : State) (d : Nat), s.Ok → d < s.m.n → s.m.powered = true →
  (s.m.rd d Reg.CLK_STATUS.MON_FAIL = 0 → Runs (.clockFailMessage d) s (fun m =>
    m.rd d Reg.CLK_STATUS.SOURCE = 0 ∧ m.rd d Reg.CLK_STATUS.MON_FAIL = 1 ∧ m.rd d Reg.CLK_STATUS.MON_ACTIVE = 0
    ∧ m.rd d Reg.TB_STATUS.ITO_TIME = 1 ∧ m.rd d Reg.ERR_NMI_STATUS.CLOCK = 1
    ∧ (m.die d).clk.coarse = (s.m.die d).clk.coarse ∧ (m.die d).clk.ito = true
    ∧ (s.m.pw.phase ≠ .furled → m.rd d Reg.CLK_STATUS.PLL_LOCK = 0 ∧ (m.die d).clk.fineRuns = false)
    ∧ Out.sideband d 2 ∈ m.out ∧ s.m.dataKept m)) ∧
  (s.m.rd d Reg.CLK_STATUS.MON_FAIL = 1 → s.m.rd d Reg.CLK_STATUS.PLL_LOCK = 0 → s.m.alive = true → s.m.pw.phase ≠ .furled →
    Runs (.pllRelock d) s (fun m =>
      m.rd d Reg.CLK_STATUS.PLL_LOCK = 1 ∧ (m.die d).clk.fineWait = (!(s.m.die d).clk.fineRuns) ∧ s.m.dataKept m
      ∧ s.m.regsKept m d [Reg.CLK_STATUS.PLL_LOCK.off]))) ∧
  (∀ (s : State) (d : Nat) (v : Word), s.Ok → d < s.m.n → s.m.powered = true →
  Runs (.clkOutCtrl d v) s (fun m =>
    m.rd d Reg.CLK_OUT_CTRL.SOURCE = bits v.toNat 0 4 ∧ m.rd d Reg.CLK_OUT_CTRL.DIV = bits v.toNat 4 16
    ∧ (d ≠ s.m.ens → m.pw.clkOut = s.m.pw.clkOut ∧ m.rd d Reg.CLK_STATUS.CLKOUT_LIMIT = s.m.rd d Reg.CLK_STATUS.CLKOUT_LIMIT)
    ∧ (d = s.m.ens → clkOutFreq (bits v.toNat 0 4) = 0 → m.pw.clkOut = none)
    ∧ (d = s.m.ens → 2000000 * (bits v.toNat 4 16 + 1) < clkOutFreq (bits v.toNat 0 4) →
        m.pw.clkOut = none ∧ m.rd d Reg.CLK_STATUS.CLKOUT_LIMIT = 1)
    ∧ (d = s.m.ens → 0 < clkOutFreq (bits v.toNat 0 4) → clkOutFreq (bits v.toNat 0 4) ≤ 2000000 * (bits v.toNat 4 16 + 1) →
        m.pw.clkOut = some (bits v.toNat 0 4, bits v.toNat 4 16 + 1)
        ∧ m.rd d Reg.CLK_STATUS.CLKOUT_LIMIT = s.m.rd d Reg.CLK_STATUS.CLKOUT_LIMIT)
    ∧ s.m.dataKept m ∧ s.m.regsKept m d [Reg.CLK_OUT_CTRL.SOURCE.off, Reg.CLK_STATUS.CLKOUT_LIMIT.off]))

/-- Every stamp of a die is the greatest of its current pennant time, the last stamp it issued, and one more than the stamp
carried by the message that caused the event (R384); a pennant carries it, and TB_LAST_STAMP shows the last one. -/
def Obligations.StampsNeverDecrease : Prop := ∀ (m : Mach) (d unit : Nat) (pc : PCode) (detail : Nat) (carried : Option Nat),
  d < m.n →
  m.now d ≤ m.stamp d carried ∧ (m.die d).clk.last ≤ m.stamp d carried ∧ (∀ c, carried = some c → c < m.stamp d carried)
  ∧ (m.stamp d carried = m.now d ∨ m.stamp d carried = (m.die d).clk.last ∨ ∃ c, carried = some c ∧ m.stamp d carried = c + 1)
  ∧ ((m.note d unit pc detail [] 0 carried).die d).clk.last = m.stamp d carried
  ∧ bits ((m.note d unit pc detail [] 0 carried).record d) 0 64 = m.stamp d carried % 2 ^ 64
  ∧ (∀ rest, m.powered = true → Runs (.lowWordRead ⟨.service, d⟩ Reg.TB_LAST_STAMP.STAMP.off) { pending := rest, m := m } (fun k =>
      k.out = [Out.regRead d Reg.TB_LAST_STAMP.STAMP.off (BitVec.ofNat 32 (m.die d).clk.last)]))

/-- The halyard (R385, R386): a worker's measured offset is shown, slewed away one tick in sixteen, and above 16 ticks sets
HALYARD_ERR with a clock pennant; and no time that passes ever moves a die's time backward (R385).
Time marks (R388): a die journals a new ceiling, time + 2 x TB_MARK_PERIOD, which counts once it is durable; a die that reaches
its ceiling without one puts the package in half-mast with cause 8 (R435). The command's time is the due stamp (log entry 9).
TB_TIME_SET (R415): in half-mast a write sets the counters and counts as a ceiling at the next start; while a die is awake it
is one of the cases of the list of undefined behaviour (R414), and the model stops there. -/
def Obligations.SlewsAndCeilings : Prop :=
  ((∀ (s : State) (d : Nat) (offset : Int), s.Ok → d < s.m.n → d ≠ s.m.ens → s.m.alive = true → s.m.fab.trained = true →
    s.m.pw.phase ≠ .furled → Runs (.halyardMeasure d offset) s (fun m =>
      m.rd d Reg.TB_HALYARD.OFFSET = unsigned 16 offset ∧ (m.die d).clk.slew = offset
      ∧ s.m.rd d Reg.TB_HALYARD.PEAK ≤ m.rd d Reg.TB_HALYARD.PEAK ∧ min offset.natAbs 65535 ≤ m.rd d Reg.TB_HALYARD.PEAK
      ∧ (16 < offset.natAbs → m.rd d Reg.TB_STATUS.HALYARD_ERR = 1 ∧ m.wrote d uAon pHalyardErr (unsigned 8 offset))
      ∧ (offset.natAbs ≤ 16 → m.rd d Reg.TB_STATUS.HALYARD_ERR = s.m.rd d Reg.TB_STATUS.HALYARD_ERR)
      ∧ s.m.dataKept m ∧ s.m.regsKept m d [Reg.TB_HALYARD.OFFSET.off, Reg.TB_STATUS.HALYARD_ERR.off])) ∧
  (∀ (c : Clock) (k : Nat), c.phase < 1088 → (c.tick k).phase < 1088
    ∧ c.coarse * 1088 + c.phase ≤ (c.tick k).coarse * 1088 + (c.tick k).phase
    ∧ (c.slew = 0 → (c.tick k).coarse * 1088 + (c.tick k).phase = c.coarse * 1088 + c.phase + k))) ∧
  (∀ (s : State) (d : Nat), s.Ok → d < s.m.n → s.m.alive = true →
  (s.m.established d = true → (s.m.die d).clk.mark = none → Runs (.timeMark d) s (fun m =>
    (m.die d).clk.mark = some (m.now d + 2 * m.markPeriod d)
    ∧ m.rd d Reg.TB_CEILING.CEILING = s.m.rd d Reg.TB_CEILING.CEILING ∧ s.m.dataKept m ∧ s.m.regsKept m d [])) ∧
  (∀ c < 2 ^ 64, (s.m.die d).clk.mark = some c → Runs (.timeMarkDurable d) s (fun m =>
    (m.die d).clk.mark = none ∧ m.rd d Reg.TB_CEILING.CEILING = c ∧ (m.die d).fl.ceiling = some c ∧ s.m.dataKept m
    ∧ s.m.regsKept m d [Reg.TB_CEILING.CEILING.off])) ∧
  (s.m.established d = true → Runs (.ceilingReached d) s (fun m =>
    m.pw.phase = .halfMast ∧ (∀ e < s.m.n, m.rd e Reg.PWR_STATE.HALF_MAST_CAUSE = 8) ∧ s.m.memoryKept m))) ∧
  (∀ (s : State) (d : Nat) (v : DWord), s.Ok → d < s.m.n →
  (s.m.halted = true → Runs (.tbTimeSet d v) s (fun m =>
    (m.die d).clk.coarse * 1088 + (m.die d).clk.phase = v.toNat ∧ (m.die d).clk.phase < 1088 ∧ (m.die d).clk.timeSet = some v.toNat
    ∧ (m.die d).clk.last = (s.m.die d).clk.last ∧ s.m.dataKept m ∧ s.m.regsKept m d [])) ∧
  (s.m.alive = true → exec (.tbTimeSet d v) s = .fault (.undefinedCase 7)))

/-! ## The fabric, heartbeats, half-mast, thermal -/

/-- Bytrathal training ends start-up step 4 on every die, and a link that failed is down at both its ends (R26); a good flit is acknowledged,
leaves its sender's retry buffer and ends a replay; a bad one is asked for again and replayed with the later ones (R22); sixteen failed retries
in succession take the link down at both ends (R23).
Reachability (R25): at D2 the loss of the one link is half-mast with cause 3, and the links' ends are those of R18. -/
def Obligations.FabricLinks : Prop :=
  ((∀ (s : State) (failed : List (Nat × Nat)), s.Ok → s.m.pw.phase = .startup → s.m.fab.trained = false →
    (∀ d < s.m.n, s.m.rd d Reg.PWR_START_STEP.STEP = 3) → Runs (.bytrathalTrainingDone failed) s (fun m =>
      m.fab.trained = true ∧ (∀ d < s.m.n, m.rd d Reg.PWR_START_STEP.STEP = 4) ∧ s.m.memoryKept m
      ∧ (∀ p ∈ failed, s.m.linkUsed p.1 p.2 = true → linkKey p.1 p.2 ∈ m.fab.down)
      ∧ (failed = [] → m.fab.down = s.m.fab.down ∧ s.m.dataKept m))) ∧
  (∀ (s : State) (d i : Nat), s.Ok → d < s.m.n → s.m.alive = true → s.m.linkUp d i = true →
    s.m.flipOnLink (linkPeer d i) i = false →
    let k := linkKey d i
    let q := linkKey (linkPeer d i) i
    Runs (.flitReceive d i true) s (fun m => Out.flitAck d i ∈ m.out ∧ m.fab.down = s.m.fab.down ∧ s.m.dataKept m
      ∧ (k ∉ s.m.fab.replaying → m.fab.replaying = s.m.fab.replaying ∧ s.m.regsKept m d [])
      ∧ (k ∈ s.m.fab.replaying → m.fab.replaying = s.m.fab.replaying.erase k)
      ∧ (s.m.unacked q = [] → m.fab.retry = s.m.fab.retry)
      ∧ (∀ f t, s.m.unacked q = f :: t → f.rest = [] → m.unacked q = t)) ∧
    (k ∉ s.m.fab.replaying → Runs (.flitReceive d i false) s (fun m =>
      m.out = [Out.flitRetry d i, Out.flitReplay (linkPeer d i) i (s.m.unacked q).length] ∧ k ∈ m.fab.replaying
      ∧ m.fab.retry = s.m.fab.retry ∧ m.fab.down = s.m.fab.down ∧ s.m.dataKept m ∧ s.m.regsKept m d [])) ∧
    (k ∈ s.m.fab.replaying → SMap.get (fun _ => 0) s.m.fab.failed k + 1 < 16 → Runs (.flitReceive d i false) s (fun m =>
      SMap.get (fun _ => 0) m.fab.failed k = SMap.get (fun _ => 0) s.m.fab.failed k + 1
      ∧ m.fab.down = s.m.fab.down ∧ s.m.dataKept m ∧ s.m.regsKept m d []))) ∧
  (∀ (s : State) (d i : Nat), s.Ok → d < s.m.n → s.m.alive = true → s.m.linkUp d i = true →
    Runs (.retryFailure d i) s (fun m => s.m.memoryKept m ∧
      (SMap.get (fun _ => 0) s.m.fab.failed (linkKey d i) + 1 < 16 → m.fab.down = s.m.fab.down ∧ s.m.regsKept m d []
        ∧ SMap.get (fun _ => 0) m.fab.failed (linkKey d i) = SMap.get (fun _ => 0) s.m.fab.failed (linkKey d i) + 1)
      ∧ (16 ≤ SMap.get (fun _ => 0) s.m.fab.failed (linkKey d i) + 1 → linkKey d i ∈ m.fab.down ∧ linkKey (linkPeer d i) i ∈ m.fab.down
        ∧ m.rd d Reg.ERR_ALERT_CAUSE.LINK = 1)))) ∧
  ((∀ d i, linkPeer (linkPeer d i) i = d ∧ linkPeer d i ≠ d) ∧
  (∀ (s : State) (d : Nat), s.Ok → s.m.n = 2 → d < 2 → s.m.ens < 2 → s.m.alive = true → s.m.linkUp d 0 = true →
    SMap.get (fun _ => 0) s.m.fab.failed (linkKey d 0) = 15 → Runs (.retryFailure d 0) s (fun m =>
      m.pw.phase = .halfMast ∧ ∀ e < 2, m.rd e Reg.PWR_STATE.HALF_MAST_CAUSE = 3 ∧ m.rd e Reg.ERR_ALERT_CAUSE.LINK = 1)))

/-- Heartbeats (R40): every die sends to the ensign die and the ensign die to every worker; one received starts the count afresh;
100 ms without one is a pennant and half-mast with cause 4 (R435).
Entering half-mast (R435, R436, R410): the message of another die and the key of PWR_HALT both take every die there, with the
cause shown, the ports down, DRAM unpowered, the power state 3 and the non-maskable status bit set; another value of PWR_HALT, or a path
other than the service port, does nothing. -/
def Obligations.HeartbeatsAndHalfMast : Prop :=
  (∀ (s : State) (d p : Nat), s.Ok → d < s.m.n → s.m.beating = true →
  Runs (.heartbeatSend d) s (fun m => (d = s.m.ens → ∀ k < s.m.n, k ≠ d → Out.heartbeat d k ∈ m.out)
    ∧ (d ≠ s.m.ens → m.out = [Out.heartbeat d s.m.ens]) ∧ s.m.dataKept m ∧ s.m.regsKept m d []) ∧
  (s.m.isPartner d p = true →
    Runs (.heartbeatReceive d p) s (fun m => SMap.get (fun _ => 0) (m.die d).aux.beats p = s.m.now d ∧ m.out = [] ∧ s.m.dataKept m
      ∧ s.m.regsKept m d []) ∧
    Runs (.heartbeatLost d p) s (fun m => m.pw.phase = .halfMast ∧ (∀ e < s.m.n, m.rd e Reg.PWR_STATE.HALF_MAST_CAUSE = 4)
      ∧ s.m.memoryKept m))) ∧
  (∀ (s : State) (d cause : Nat), s.Ok → d < s.m.n →
  (s.m.alive = true →
    Runs (.halfMastMessage d cause) s (fun m => m.pw.phase = .halfMast ∧ Out.sideband d 1 ∈ m.out ∧ s.m.memoryKept m
      ∧ (s.m.fw.state ≠ 5 → s.m.dataKept m)
      ∧ ∀ e < s.m.n, m.rd e Reg.PWR_STATE.HALF_MAST_CAUSE = cause % 16 ∧ m.rd e Reg.PWR_STATE.STATE = 3
        ∧ m.rd e Reg.ERR_NMI_STATUS.HALF_MAST = 1 ∧ m.rd e Reg.PORT_STATUS.UP_A = 0 ∧ m.rd e Reg.OPS_STATUS.READY = 0
        ∧ m.rd e Reg.DMC_DEV_STATUS.POWERED = 0 ∧ (m.die e).clk.fineRuns = false
        ∧ (e ≠ s.m.ens → m.rd e Reg.CLK_STATUS.PLL_LOCK = 0)) ∧
    Runs (.pwrHalt .service d 0x48414C54) s (fun m => m.pw.phase = .halfMast ∧ s.m.memoryKept m
      ∧ ∀ e < s.m.n, m.rd e Reg.PWR_STATE.HALF_MAST_CAUSE = 11)) ∧
  (∀ (via : Via) (key : Word), via ≠ .service ∨ key ≠ 0x48414C54 → exec (.pwrHalt via d key) s = .next { s with m := s.fresh }))

/-- Leaky buckets (R407): each leak interval takes one from a level above 0.
Thermal sampling (R523 to R526): the readings are shown, the peak is kept, HOT shows 105 degrees C or more, the throttle level rises at
once, and 115 degrees C in two successive samples of one sensor is a thermal trip: THERM_TRIP_N low and half-mast. -/
def Obligations.BucketsAndThermal : Prop :=
  (∀ (s : State) (d i : Nat), s.Ok → d < s.m.n → i < 55 → s.m.alive = true →
  s.m.on d Reg.OPS_STATUS.READY = true → Runs (.bucketLeak d i) s (fun m =>
    m.rd d (Reg.ERR_BUCKET_LEVEL.LEVEL i) = s.m.rd d (Reg.ERR_BUCKET_LEVEL.LEVEL i) - 1 ∧ s.m.dataKept m
    ∧ s.m.regsKept m d [(Reg.ERR_BUCKET_LEVEL.LEVEL i).off])) ∧
  (∀ (s : State) (d : Nat) (rs : List Int), s.Ok → d < s.m.n → s.m.powered = true →
  rs.length = 8 → Runs (.thermalSample d rs) s (fun m =>
    (∀ i < 8, m.rd d (Reg.PWR_THERM_SENSOR.TEMP_C i) = min 255 (rs.getD i 0).toNat)
    ∧ (∀ i < 8, min 255 (rs.getD i 0).toNat ≤ m.rd d Reg.PWR_THERM_STATUS.PEAK_C)
    ∧ s.m.rd d Reg.PWR_THERM_STATUS.PEAK_C ≤ m.rd d Reg.PWR_THERM_STATUS.PEAK_C
    ∧ (m.rd d Reg.PWR_THERM_STATUS.HOT = 1 ↔ ∃ i < 8, 105 ≤ rs.getD i 0)
    ∧ (∀ i < 8, thermalLevel (rs.getD i 0) ≤ m.rd d Reg.PWR_THERM_STATUS.LEVEL)
    ∧ s.m.rd d Reg.PWR_THERM_STATUS.LEVEL ≤ m.rd d Reg.PWR_THERM_STATUS.LEVEL + 1
    ∧ ((∃ i ∈ (s.m.die d).aux.tripSensors, i < 8 ∧ 115 ≤ rs.getD i 0) →
        m.pw.tripLow = true ∧ m.pw.phase = .halfMast ∧ m.rd d Reg.PWR_THERM_STATUS.TRIP = 1 ∧ m.rd d Reg.ERR_NMI_STATUS.THERMAL = 1)
    ∧ ((∀ i ∈ (s.m.die d).aux.tripSensors, rs.getD i 0 < 115) → m.pw.phase = s.m.pw.phase ∧ m.pw.tripLow = s.m.pw.tripLow)
    ∧ s.m.memoryKept m))

/-! ## Resets, start-up and the image -/

/-- POR_N assertion, and a rail below its limit, which acts as one (R440, R517): flash keeps its content, and the NOR too unless an operation
was cut off; NVM_WP_N is low; every register reads its reset value; jobs and the pennant logs are gone. Where POR_N is asserted already,
neither does anything.
POR_N deassertion (R37, R390, R441 step 1): the straps are sampled and start-up is at step 1 on every die; an ENSIGN_SEL that names no die puts
the package in half-mast with cause 2 (R435). -/
def Obligations.PowerOffAndStraps : Prop :=
  (∀ (s : State) (rail : Rail), s.Ok → ∀ c ∈ [Instr.porNAssert, .railUndervoltage rail],
  (s.m.powered = true → Runs c s (fun m => m.pw.phase = .off ∧ (∀ d x, d < s.m.n → m.flashByte d x = s.m.flashByte d x)
    ∧ (s.m.nor.running = none → ∀ x, m.norByte x = s.m.norByte x) ∧ m.nor.wpHigh = false ∧ m.alertLow = false
    ∧ ∀ d < s.m.n, (∀ f, m.rd d f = Die.reset.rd f) ∧ (m.die d).jobs = [] ∧ (m.die d).log.aon = [])) ∧
  (s.m.powered = false → exec c s = .next { s with m := s.fresh })) ∧
  (∀ (s : State) (sel pool : Nat), s.Ok → s.m.pw.phase = .off →
  (sel % 8 < s.m.n → Runs (.porNDeassert sel pool) s (fun m => m.pw.phase = .startup ∧ m.pw.ensign = sel % 8 ∧ m.pw.poolId = pool % 32
    ∧ (∀ d < s.m.n, m.rd d Reg.PWR_START_STEP.STEP = 1 ∧ m.rd d Reg.POOL_STATUS.PACKAGE = pool % 32) ∧ s.m.dataKept m)) ∧
  (s.m.n ≤ sel % 8 → Runs (.porNDeassert sel pool) s (fun m => m.pw.phase = .halfMast ∧ s.m.memoryKept m
    ∧ ∀ d < s.m.n, m.rd d Reg.PWR_STATE.HALF_MAST_CAUSE = 2)))

/-- PWR_RESET (R439, R438, R389): the key through the service port restarts the die set in any state but off: coarse count, last
stamp, trained values and flash are kept, start-up goes on after step 1; any other value, and any write by another path, changes
nothing. -/
def Obligations.RestartByKey : Prop := ∀ (s : State) (d : Nat) (key : Word), s.Ok → d < s.m.n → s.m.powered = true →
  Runs (.pwrReset .service d 0x5741524D) s (fun m => m.pw.phase = .startup ∧ m.pw.ensign = s.m.pw.ensign
    ∧ (∀ e x, e < s.m.n → m.flashByte e x = s.m.flashByte e x) ∧ (s.m.nor.running = none → ∀ x, m.norByte x = s.m.norByte x)
    ∧ ∀ e < s.m.n, m.rd e Reg.PWR_START_STEP.STEP = 1 ∧ (m.die e).clk.coarse = (s.m.die e).clk.coarse
      ∧ (s.m.die e).clk.last ≤ (m.die e).clk.last ∧ (m.die e).jobs = [] ∧ (m.die e).dram.data = []
      ∧ ∀ c < 12, m.rd e (Reg.DMC_TRAIN.RD_DELAY c) = s.m.rd e (Reg.DMC_TRAIN.RD_DELAY c)) ∧
  (key ≠ 0x5741524D → exec (.pwrReset .service d key) s = .next { s with m := s.fresh }) ∧
  (∀ via, via ≠ .service → exec (.pwrReset via d key) s = .next { s with m := s.fresh })

/-- The image is loaded at step 5 (R441, R454, R456, R457): whatever the NOR and the loader report, the load ends with step 5 or with half-mast
of cause 1 or 10. With a NOR of at least 64 MiB, checks 1 to 3 passed and valid firmware in the slot that the install record names, it ends
with step 5, and every die's registers take the image's values; a die whose identity failed says so.
Check 1 of R457 fails where the NOR cannot be read (R448): FAILED_CHECK 1 on every die and half-mast with cause 1 (R458, R435).
The die set becomes ready (R441 step 9, R390): time is established, and every die serves. -/
def Obligations.ImageAndReadiness : Prop :=
  (∀ (s : State) (nor : NorReport) (active backup : FwVerdict) (bad : List Nat), s.Ok →
  s.m.pw.phase = .startup → s.m.ens < s.m.n → (∀ d < s.m.n, s.m.rd d Reg.PWR_START_STEP.STEP = 4) →
  Runs (.imageLoad nor active backup bad) s (fun m => s.m.memoryKept m ∧
    ((m.pw.phase = .startup ∧ ∀ d < s.m.n, m.rd d Reg.PWR_START_STEP.STEP = 5) ∨
      (m.pw.phase = .halfMast ∧ ∀ d < s.m.n, m.rd d Reg.PWR_STATE.HALF_MAST_CAUSE ∈ [1, 10]))) ∧
  (∀ mode mib, norMode nor = some (mode, mib) →
    let hdr := s.m.nor.bytes 0 4096
    let at' := norCfgSlot (hdrActive hdr)
    let slot := s.m.nor.bytes at' (field (s.m.nor.bytes at' 64) 8 4)
    let run := s.m.fw.startsFrom
    let img := readSlot s.m.n slot
    hdrCrcOk hdr = true → slotLengthOk (s.m.nor.bytes at' 64) = true → slotCrcOk slot = true →
    s.m.nor.fwValid run (if run = 0 then active else backup) = true → formatOk hdr slot (s.m.nor.fwHeader run) = true →
    boardOk s.m.n img = true → Runs (.imageLoad nor active backup bad) s (fun m =>
      m.pw.phase = .startup ∧ m.cfg = imgConfig s.m.n img ∧ (∀ x, m.norByte x = s.m.norByte x)
      ∧ ∀ d < s.m.n, m.rd d Reg.CFG_STATUS.LOADED = 1 ∧ m.rd d Reg.CFG_STATUS.SLOT = hdrActive hdr ∧ m.rd d Reg.PWR_START_STEP.STEP = 5
        ∧ m.rd d Reg.CFG_STATUS.NOR_MODE = mode ∧ m.rd d Reg.FW_STATUS.RUNNING_SLOT = run % 2
        ∧ (d ∈ bad → m.rd d Reg.FW_STATUS.IDENTITY_FAIL = 1)
        ∧ m.rd d Reg.LSE_GRACE.GRACE_US = imgVal img s.m.n 7 6 10000 0 % 2 ^ 24))) ∧
  (∀ (s : State) (active backup : FwVerdict) (bad : List Nat), s.Ok → s.m.pw.phase = .startup →
  (∀ d < s.m.n, s.m.rd d Reg.PWR_START_STEP.STEP = 4) →
  Runs (.imageLoad .none active backup bad) s (fun m => m.pw.phase = .halfMast ∧ s.m.memoryKept m
    ∧ ∀ d < s.m.n, m.rd d Reg.CFG_STATUS.FAILED_CHECK = 1 ∧ m.rd d Reg.PWR_STATE.HALF_MAST_CAUSE = 1 ∧ m.rd d Reg.CFG_STATUS.LOADED = s.m.rd d Reg.CFG_STATUS.LOADED)) ∧
  (∀ s : State, s.Ok → s.m.ens < s.m.n → s.m.mayServe = true → Runs .dieSetReady s (fun m =>
  m.pw.phase = .run ∧ ∀ d < s.m.n, m.rd d Reg.OPS_STATUS.READY = 1 ∧ m.rd d Reg.CFG_STATUS.DONE = 1
    ∧ m.rd d Reg.TB_STATUS.ESTABLISHED = 1 ∧ ((s.m.die s.m.ens).clk.provisional = true → (m.die d).clk.provisional = false
      ∧ m.rd d Reg.TB_BOOT_TIME.P0 = s.m.firstTime % 2 ^ 64)))

/-! ## Dipped and furled -/

/-- Dipped (R427, R428): a unit idle for PWR_DIP_IDLE is gated and the die reports dipped, a DRAM channel with its queue drained and in
self-refresh; its work wakes it, and the die is full again once no unit is gated. A unit that the die has not is neither.
A wake source ends furled on every die (R433, R434); PWR_WAKE records the source and the die. A lane of the retention set that fails its
re-centre is half-mast with cause 6 (R314); other lanes do not matter. -/
def Obligations.DippedAndWakes : Prop :=
  (∀ (s : State) (d : Nat) (u : GateUnit), s.Ok → d < s.m.n → s.m.pw.phase = .run →
  (gateBit u = none → exec (.unitIdleGate d u) s = .next { s with m := s.fresh } ∧ exec (.unitWake d u) s = .next { s with m := s.fresh }) ∧
  (∀ f i, gateBit u = some (f, i) →
    (s.m.on d Reg.PWR_CTRL.DIP_EN = true → bit (s.m.rd d f) i = false → s.m.unitBusy d u = false → Runs (.unitIdleGate d u) s (fun m =>
      bit (m.rd d f) i = true ∧ m.rd d Reg.PWR_STATE.STATE = 1
      ∧ ((∀ c, u ≠ .dmc c) → s.m.dataKept m ∧ s.m.regsKept m d [Reg.PWR_GATED.ENGINE.off, Reg.PWR_STATE.STATE.off])
      ∧ (∀ c, u = .dmc c → m.chState d c = 4 ∧ (m.chan d c).wq = []))) ∧
    (bit (s.m.rd d f) i = true → (∀ c, u = .dmc c → s.m.chState d c = 4) → Runs (.unitWake d u) s (fun m =>
      bit (m.rd d f) i = false ∧ (m.anyGated d = false → s.m.rd d Reg.PWR_STATE.STATE = 1 → m.rd d Reg.PWR_STATE.STATE = 0)
      ∧ (m.anyGated d = true → m.rd d Reg.PWR_STATE.STATE = s.m.rd d Reg.PWR_STATE.STATE) ∧ s.m.dataKept m
      ∧ ((∀ c, u ≠ .dmc c) → s.m.regsKept m d [Reg.PWR_GATED.ENGINE.off, Reg.PWR_STATE.STATE.off])
      ∧ (∀ c, u = .dmc c → m.chState d c = 3))))) ∧
  (∀ (s : State) (src : WakeSource) (d : Nat) (failed : List (Nat × Nat)), s.Ok → d < s.m.n →
  s.m.pw.phase = .furled → Runs (.furledWake src d failed) s (fun m => Out.sideband d 0 ∈ m.out ∧ s.m.memoryKept m
    ∧ (∀ e < s.m.n, m.rd e Reg.PWR_WAKE.SOURCE = wakeCode src ∧ m.rd e Reg.PWR_WAKE.DIE = d)
    ∧ ((∀ p ∈ failed, p.1 < s.m.n → p.2 < 12 → (s.m.retained p.1).contains (p.2 / 4) = false) → m.pw.phase = .run ∧ s.m.dataKept m
        ∧ ∀ e < s.m.n, m.rd e Reg.PWR_STATE.STATE = 0 ∧ m.rd e Reg.CLK_STATUS.PLL_LOCK = 1)
    ∧ ((∃ p ∈ failed, p.1 < s.m.n ∧ p.2 < 12 ∧ (s.m.retained p.1).contains (p.2 / 4) = true) → m.pw.phase = .halfMast
        ∧ ∀ e < s.m.n, m.rd e Reg.PWR_STATE.HALF_MAST_CAUSE = 6)))

/-- Furled entry begins (R429) by PWR_CTRL.FURL_REQ or by the idle time, when nothing blocks it; a block drops the request and shows
in PWR_FURL_BLOCK; FURL_CANCEL asks a running entry to end with its step (R431). A write to PWR_CTRL also sets DIP_EN (R446).
Furled entry runs in the order of R430: extents settled, checkpoints written, programs ended, devices off but the retention set in
self-refresh; at the end of step 5 every die is furled with its root PLL stopped and the fine count held (R383). An entry to be abandoned ends
with its step, and a link that does not reach L1 in time abandons it (R431). -/
def Obligations.FurledEntry : Prop :=
  (∀ (s : State) (d : Nat) (v : Word), s.Ok → d < s.m.n → s.m.ens < s.m.n →
  (bit v.toNat 1 = true → bit v.toNat 2 = false → s.m.pw.phase = .run →
    (s.m.furlBlocks = [] → Runs (.furlReq d v) s (fun m => m.pw.phase = .furling 1 ∧ s.m.dataKept m
      ∧ m.rd d Reg.PWR_CTRL.DIP_EN = bits v.toNat 0 1 ∧ ∀ e < s.m.n, m.rd e Reg.PWR_STATE.FURL_PENDING = 1)) ∧
    (s.m.furlBlocks ≠ [] → Runs (.furlReq d v) s (fun m => m.pw.phase = .run ∧ s.m.dataKept m
      ∧ m.rd d Reg.PWR_CTRL.DIP_EN = bits v.toNat 0 1
      ∧ ∀ e < s.m.n, (0 ∈ s.m.furlBlocks → m.rd e Reg.PWR_FURL_BLOCK.BUSY = 1) ∧ (1 ∈ s.m.furlBlocks → m.rd e Reg.PWR_FURL_BLOCK.FROZEN = 1)
        ∧ (4 ∈ s.m.furlBlocks → m.rd e Reg.PWR_FURL_BLOCK.NOT_READY = 1)))) ∧
  (s.m.pw.phase = .run → s.m.furlBlocks = [] → s.m.on s.m.ens Reg.PWR_FURL_IDLE.MS = true → Runs .furlIdleTimeout s (fun m =>
    m.pw.phase = .furling 1 ∧ s.m.dataKept m ∧ ∀ e < s.m.n, m.rd e Reg.PWR_STATE.FURL_PENDING = 1)) ∧
  (∀ k, bit v.toNat 2 = true → s.m.pw.phase = .furling k → s.m.pw.furlStop = none → Runs (.furlCancel d v) s (fun m => m.pw.phase = .furling k
    ∧ m.pw.furlStop.isSome = true ∧ m.rd d Reg.PWR_CTRL.DIP_EN = bits v.toNat 0 1 ∧ s.m.dataKept m))) ∧
  (∀ s : State, s.Ok → s.m.ens < s.m.n →
  (s.m.pw.furlStop = none →
    (s.m.pw.phase = .furling 1 → s.m.extentsSettled = true → Runs .furlEntryStep s (fun m => m.pw.phase = .furling 2 ∧ s.m.dataKept m)) ∧
    (s.m.pw.phase = .furling 1 → s.m.extentsSettled = false → exec .furlEntryStep s = .next { s with m := s.fresh }) ∧
    (s.m.pw.phase = .furling 2 → Runs .furlEntryStep s (fun m => m.pw.phase = .furling 3
      ∧ ∀ d < s.m.n, (m.fl d).newer.isSome = true ∧ (m.fl d).older = (s.m.fl d).newer ∧ (m.die d).clk.mark = none)) ∧
    (s.m.pw.phase = .furling 3 → (∀ d < s.m.n, s.m.programsDone d = true) → Runs .furlEntryStep s (fun m => m.pw.phase = .furling 4 ∧ s.m.dataKept m)) ∧
    (s.m.pw.phase = .furling 3 → ∀ d < s.m.n, s.m.programsDone d = false → exec .furlEntryStep s = .next { s with m := s.fresh }) ∧
    (s.m.pw.phase = .furling 4 → Runs .furlEntryStep s (fun m => m.pw.phase = .furling 5 ∧ (∀ d a, m.flashByte d a = s.m.flashByte d a)
      ∧ ∀ d < s.m.n, ∀ c < 12, m.chState d c = if (s.m.retained d).contains (c / 4) then 4 else 0)) ∧
    (s.m.pw.phase = .furling 5 → Runs .furlEntryStep s (fun m => m.pw.phase = .furled ∧ s.m.dataKept m
      ∧ ∀ d < s.m.n, m.rd d Reg.PWR_STATE.STATE = 2 ∧ m.rd d Reg.CLK_STATUS.PLL_LOCK = 0 ∧ (m.die d).clk.fineRuns = false))) ∧
  (s.m.pw.phase = .furling 1 → s.m.pw.furlStop.isSome = true → Runs .furlEntryStep s (fun m => m.pw.phase = .run ∧ s.m.dataKept m
    ∧ ∀ d < s.m.n, m.rd d Reg.PWR_STATE.FURL_PENDING = 0)) ∧
  (s.m.pw.phase = .furling 3 → s.m.pw.furlStop = none → ∀ d < s.m.n, (s.m.halfUp d 0 || s.m.halfUp d 1) = true → Runs (.furlL1Timeout d) s (fun m =>
    m.pw.phase = .run ∧ s.m.dataKept m ∧ ∀ e < s.m.n, m.rd e Reg.PWR_FURL_BLOCK.LINK = 1 ∧ m.rd e Reg.PWR_STATE.FURL_PENDING = 0)))

/-! ## Control space, presence and the NOR -/

/-- Writes by access type (R8, R10, R12, R13): an RW field takes the value, a W1C field loses the bits written 1, an RO or WO field keeps its
own, an RWL field takes it until the configuration completes, in either word of a pair; unassigned addresses and a write that reaches nothing
change nothing. For the words without a command of their own; ARMED needs ALLOWED (R411). An address that is no word of the path's span, and
a change of a base of an enabled ring (R157, R414), stop by name. -/
def Obligations.RegisterWrites : Prop := ∀ (s : State) (via : Via) (d off : Nat) (v : Word), s.Ok →
  (off % 4 ≠ 0 ∨ viaSpan via ≤ off → exec (.registerWrite via d off v) s = .fault (.absentUnit off)) ∧
  (off % 4 = 0 → off < viaSpan via →
    (s.m.target via d off = none → d < s.m.n → (match via with | .bar _ 0 => false | _ => true) = true →
      exec (.registerWrite via d off v) s = .next { s with m := s.fresh }) ∧
    (∀ e o, s.m.target via d off = some (e, o) → e < s.m.n →
      (s.m.baseInUse e o v.toNat = true → exec (.registerWrite via d off v) s = .fault (.undefinedCase 5)) ∧
      (0xF00000 ≤ o → Runs (.registerWrite via d off v) s (fun m => (m.die e).reg o = v.toNat ∧ s.m.dataKept m ∧ s.m.regsKept m e [o])) ∧
      (s.m.baseInUse e o v.toNat = false → o < 0xF00000 → ownCommand o = false → o ≠ Reg.OPS_FETCH_THREADS.CLEAR_PEAK.off →
        (wordOf o = none → exec (.registerWrite via d off v) s = .next { s with m := s.fresh }) ∧
        (∀ r base half, wordOf o = some (r, base, half) → Runs (.registerWrite via d off v) s (fun m => ∀ f ∈ r.flds,
          let u := setBits ((s.m.die e).reg base) (32 * half) 32 v.toNat
          let old := s.m.rd e ⟨base, f.lo, f.w⟩
          (f.acc = .rw → (⟨base, f.lo, f.w⟩ : Fld) ∉ [Reg.ERR_FLIP_CTRL.ARMED, Reg.ERR_SPLIT_CTRL.ARMED] →
            m.rd e ⟨base, f.lo, f.w⟩ = bits u f.lo f.w)
          ∧ (f.acc = .ro ∨ f.acc = .wo → m.rd e ⟨base, f.lo, f.w⟩ = old)
          ∧ (f.acc = .w1c → m.rd e ⟨base, f.lo, f.w⟩ = old - Nat.land old (bits (v.toNat * 2 ^ (32 * half)) f.lo f.w))
          ∧ (f.acc = .rwl → m.rd e ⟨base, f.lo, f.w⟩ = if s.m.on e Reg.CFG_STATUS.DONE then old else bits u f.lo f.w)
          ∧ s.m.dataKept m ∧ s.m.regsKept m e [base])))))

/-- Reads (R8, R9, R10, R13, R261): an unassigned address reads 0; the read of a pair's low word latches the high word, and the next read of the
high word returns what was latched, whatever the value is by then. BAR 4 of the management LD answers as the service port does; a service-port
read that reaches nothing answers 0, and a BAR of an LD that does not answer, Unsupported Request (R282). -/
def Obligations.LatchedPairs : Prop := ∀ (s : State) (via : Via) (d off : Nat), s.Ok → d < s.m.n →
  (off % 4 ≠ 0 ∨ viaSpan via ≤ off → exec (.lowWordRead ⟨via, d⟩ off) s = .fault (.absentUnit off)) ∧
  (off % 4 = 0 → off < viaSpan via →
    (via = .service → s.m.powered = true → s.m.reaches via d off = false →
      exec (.lowWordRead ⟨via, d⟩ off) s = .next { s with m := { s.fresh with out := [Out.regRead d off 0] } }) ∧
    (via = .service → s.m.powered = false → exec (.lowWordRead ⟨via, d⟩ off) s = .next { s with m := s.fresh }) ∧
    (∀ ld b, via = .bar ld b → s.m.ldAnswers ld = false →
      exec (.lowWordRead ⟨via, d⟩ off) s = .next { s with m := { s.fresh with
        out := if s.m.serving && s.m.assigned ld && s.m.ldUp ld then [Out.barUr ld] else [] } }) ∧
    (∀ ld, via = .mgmt → s.m.cfg.mgmtLd = some ld → exec (.lowWordRead ⟨.mgmt, d⟩ off) s = exec (.lowWordRead ⟨.bar ld 4, d⟩ off) s) ∧
    (via = .mgmt → s.m.cfg.mgmtLd = none → exec (.lowWordRead ⟨.mgmt, d⟩ off) s = .next { s with m := s.fresh }) ∧
    (via ≠ .mgmt → s.m.reaches via d off = true → off ≠ 0x808030 →
      let ans := fun w => [match via with | .bar ld _ => Out.barData ld (BitVec.ofNat 32 w) | _ => Out.regRead d off (BitVec.ofNat 32 w)]
      (∀ w, s.m.windowWord d off = some w → exec (.lowWordRead ⟨via, d⟩ off) s = .next { s with m := { s.fresh with out := ans w } }) ∧
      (s.m.windowWord d off = none → wordOf off = none → exec (.lowWordRead ⟨via, d⟩ off) s = .next { s with m := { s.fresh with out := ans 0 } }) ∧
      (s.m.windowWord d off = none → ∀ r base half, wordOf off = some (r, base, half) → Runs (.lowWordRead ⟨via, d⟩ off) s (fun m =>
        s.m.dataKept m ∧ s.m.regsKept m d []
        ∧ (half = 0 → m.out = ans (bits (s.m.value d r base) 0 32)
          ∧ (r.wide = true → SMap.get (fun _ => 0) (m.die d).latch base = bits (s.m.value d r base) 32 32 + 1))
        ∧ (half = 1 → ∀ w, SMap.get (fun _ => 0) (s.m.die d).latch base = w + 1 → m.out = ans w)))))

/-- Physical presence (R469, R471): opening and closing, the pennants with DETAIL 1 and 0, and NVM_WP_N following write authority.
CFG_DEBUG (R472): the key through the service port under presence sets DEBUG; without presence it is refused with DETAIL 1, and any
other value or path with DETAIL 2. -/
def Obligations.PresenceAndDebug : Prop :=
  (∀ s : State, s.Ok → s.m.ens < s.m.n → s.m.powered = true →
  Runs .presenceOpen s (fun m => m.pres.active = true ∧ m.pres.pinLow = true ∧ m.pres.openedAt = s.m.now s.m.ens
    ∧ m.nor.wpHigh = true ∧ m.nor.protect = false ∧ m.wrote s.m.ens uAon pPresence 1 ∧ s.m.dataKept m ∧ s.m.regsKept m s.m.ens []) ∧
  (s.m.pres.active = true → Runs .presenceClose s (fun m => m.pres.active = false ∧ m.pres.pinLow = false
    ∧ m.nor.wpHigh = decide (s.m.fw.state ≠ 0) ∧ m.nor.protect = decide (s.m.fw.state = 0)
    ∧ m.wrote s.m.ens uAon pPresence 0 ∧ s.m.dataKept m ∧ s.m.regsKept m s.m.ens []))) ∧
  (∀ (s : State) (d : Nat) (via : Via) (v : Word), s.Ok → d < s.m.n → s.m.alive = true →
  Runs (.cfgDebug via d v) s (fun m => s.m.dataKept m ∧ s.m.regsKept m d [Reg.CFG_STATUS.DEBUG.off]
    ∧ (via = .service → v = 0x44424755 → s.m.pres.active = true → m.rd d Reg.CFG_STATUS.DEBUG = 1 ∧ m.wrote d uMgmt pDebugUnlock)
    ∧ (via = .service → v = 0x44424755 → s.m.pres.active = false →
        m.rd d Reg.CFG_STATUS.DEBUG = s.m.rd d Reg.CFG_STATUS.DEBUG ∧ m.wrote d uMgmt pDebugRefused 1)
    ∧ (via = .mgmt ∨ v ≠ 0x44424755 → m.rd d Reg.CFG_STATUS.DEBUG = s.m.rd d Reg.CFG_STATUS.DEBUG ∧ m.wrote d uMgmt pDebugRefused 2)))

/-- NVM commands that are accepted (R473): a read fills the buffer, a program or an erase starts on its aligned area; when the NOR
reports success the area is programmed (bits only cleared) or erased, and no other byte of the NOR changes.
The end of an NVM operation (R473, R471): a program clears bits by the data that its command took from the buffer. -/
def Obligations.NvmCommands : Prop :=
  (∀ (s : State) (d : Nat), s.Ok → d < s.m.n → d = s.m.ens → s.m.powered = true →
  s.m.rd d Reg.CFG_NVM_STATUS.BUSY = 0 →
  Runs (.nvmRead d) s (fun m => m.rd d Reg.CFG_NVM_STATUS.DONE = 1 ∧ m.rd d Reg.CFG_NVM_STATUS.REFUSED = 0
    ∧ (∀ i < 64, m.rd d (Reg.CFG_NVM_DATA.DATA i) = field (s.m.nor.bytes (s.m.nvmAddr d 1) 256) (4 * i) 4) ∧ s.m.dataKept m
    ∧ s.m.regsKept m d (Reg.CFG_NVM_STATUS.DONE.off :: (List.range 64).map (fun i => (Reg.CFG_NVM_DATA.DATA i).off))) ∧
  (∀ p ∈ [(Instr.nvmProgram d, 2), (.nvmErase4K d, 3), (.nvmErase64K d, 4)], s.m.writeAuth = true →
    nvmForbidden (s.m.nvmAddr d p.2) (nvmSize p.2) = false → Runs p.1 s (fun m =>
      m.rd d Reg.CFG_NVM_STATUS.BUSY = 1 ∧ m.rd d Reg.CFG_NVM_STATUS.DONE = 0 ∧ m.rd d Reg.CFG_NVM_STATUS.REFUSED = 0
      ∧ m.nor.running = some (p.2, s.m.nvmAddr d p.2) ∧ (p.2 = 2 → m.nor.data = s.m.nvmBuffer d) ∧ m.out = [Out.nor p.2 (s.m.nvmAddr d p.2)] ∧ s.m.dataKept m
      ∧ s.m.regsKept m d [Reg.CFG_NVM_STATUS.BUSY.off]))) ∧
  (∀ (s : State) (cmd a : Nat), s.Ok → s.m.ens < s.m.n → s.m.nor.running = some (cmd, a) →
  cmd ∈ [2, 3, 4] → Runs (.nvmOperationComplete true) s (fun m =>
    m.rd s.m.ens Reg.CFG_NVM_STATUS.BUSY = 0 ∧ m.rd s.m.ens Reg.CFG_NVM_STATUS.DONE = 1 ∧ m.nor.running = none
    ∧ m.nor.wpHigh = s.m.writeAuth
    ∧ (∀ x, x < a ∨ a + nvmSize cmd ≤ x → m.norByte x = s.m.norByte x)
    ∧ (cmd ≠ 2 → ∀ x, a ≤ x → x < a + nvmSize cmd → m.norByte x = 0xFF)
    ∧ (cmd = 2 → s.m.nor.data.length = 256 → ∀ i < 256, m.norByte (a + i) = s.m.norByte (a + i) &&& s.m.nor.data.getD i 0)
    ∧ s.m.memoryKept m ∧ s.m.regsKept m s.m.ens [Reg.CFG_NVM_STATUS.BUSY.off]))

/-- NVM commands that are refused (R473): without write authority, on a protected area, on a worker die, while BUSY; where two of them
hold, the order is the model's (log entry 12). A NOR that reports a failure leaves REASON 5, its area's content open. -/
def Obligations.NvmRefusals : Prop := ∀ (s : State) (d : Nat), s.Ok → d < s.m.n → s.m.powered = true → s.m.halted = false →
  (∀ p ∈ [(Instr.nvmRead d, 1), (.nvmProgram d, 2), (.nvmErase4K d, 3), (.nvmErase64K d, 4)], s.m.nvmReason d p.2 ≠ 0 → Runs p.1 s (fun m =>
    m.rd d Reg.CFG_NVM_STATUS.REFUSED = 1 ∧ m.rd d Reg.CFG_NVM_STATUS.DONE = 0
    ∧ m.rd d Reg.CFG_NVM_STATUS.REASON = s.m.nvmReason d p.2 ∧ s.m.dataKept m ∧ s.m.regsKept m d [Reg.CFG_NVM_STATUS.BUSY.off])) ∧
  (∀ cmd ≠ 1, s.m.writeAuth = false → s.m.nvmReason d cmd = 1) ∧ (d ≠ s.m.ens → s.m.nvmReason d 1 = 3) ∧
  (d = s.m.ens → s.m.rd d Reg.CFG_NVM_STATUS.BUSY = 1 → s.m.nvmReason d 1 = 4) ∧
  (∀ cmd a, s.m.ens < s.m.n → s.m.nor.running = some (cmd, a) → Runs (.nvmOperationComplete false) s (fun m =>
    m.rd s.m.ens Reg.CFG_NVM_STATUS.REFUSED = 1 ∧ m.rd s.m.ens Reg.CFG_NVM_STATUS.REASON = 5
    ∧ m.rd s.m.ens Reg.CFG_NVM_STATUS.DONE = 0 ∧ m.rd s.m.ens Reg.CFG_NVM_STATUS.BUSY = 0 ∧ m.nor.running = none
    ∧ ∀ x, x < a ∨ a + nvmSize cmd ≤ x → m.norByte x = s.m.norByte x))

/-! ## Host ports -/

/-- Configuration requests (R263, R264, R277, R282): an LD that does not answer yet gives Configuration Request Retry Status; one that
does reads its configuration space and sets Bus Master, MSI-X, function mask and PTM Enable; where no vector is pending nothing is sent.
Bus Master Enable cleared (R277, R278): the bit is 0 and the clearing stamp is kept; with no job bound for the host nothing else moves. Clearing
a bit that is clear does nothing. -/
def Obligations.ConfigurationSpace : Prop :=
  (∀ (s : State) (ld : Nat), s.Ok → s.m.assigned ld = true →
  (∀ req, s.m.serving = true → s.m.ldUp ld = true → s.m.ldAnswers ld = false →
    exec (.configurationRequest ld req) s = .next { s with m := { s.fresh with out := [Out.cfgRetry ld] } }) ∧
  (s.m.ldAnswers ld = true →
    let bme := Reg.PORT_LD_STATUS.BME (ldIdx ld)
    let quiet := fun (m : Mach) => (s.m.ld ld).vecs.all (fun p => !p.2.pend) = true → m.out = []
    (∀ off, exec (.configurationRequest ld (.read off)) s = .next { s with m := { s.fresh with out := [Out.cfgData ld (s.m.cfgWord ld off)] } }) ∧
    bits (s.m.cfgWord ld 0).toNat 16 16 = 0x5D00 + s.m.n ∧ bits (s.m.cfgWord ld 8).toNat 8 24 = 0x050210 ∧
    Runs (.configurationRequest ld (.busMaster true)) s (fun m => m.bme ld = true ∧ quiet m ∧ s.m.dataKept m ∧ s.m.regsKept m (ldPort ld) [bme.off]) ∧
    (∀ b, Runs (.configurationRequest ld (.msixEnable b)) s (fun m => m.on (ldPort ld) (Reg.PORT_LD_STATUS.MSIX_EN (ldIdx ld)) = b
      ∧ quiet m ∧ s.m.dataKept m ∧ s.m.regsKept m (ldPort ld) [bme.off]) ∧
    Runs (.configurationRequest ld (.functionMask b)) s (fun m => (m.ld ld).functionMask = b ∧ quiet m ∧ m.dies = s.m.dies) ∧
    Runs (.configurationRequest ld (.ptmEnable b)) s (fun m => m.on (ldPort ld) (Reg.PORT_LD_STATUS.PTM_EN (ldIdx ld)) = b
      ∧ m.out = [] ∧ s.m.dataKept m ∧ s.m.regsKept m (ldPort ld) [bme.off])))) ∧
  (∀ (s : State) (ld : Nat), s.Ok → s.m.ldAnswers ld = true →
  (s.m.bme ld = true → Runs (.configurationRequest ld (.busMaster false)) s (fun m => m.bme ld = false
    ∧ (m.ld ld).bmeCleared = some (s.m.now (ldPort ld))
    ∧ ((∀ d < s.m.n, ∀ j ∈ s.m.jobs d, j.ld = ld → s.m.busBound j = false) → m.out = [] ∧ s.m.dataKept m
      ∧ s.m.regsKept m (ldPort ld) [(Reg.PORT_LD_STATUS.BME (ldIdx ld)).off]))) ∧
  (s.m.bme ld = false → exec (.configurationRequest ld (.busMaster false)) s = .next { s with m := s.fresh }))

/-- The MSI-X table (R267, R268): a write sets the entry and keeps its pending bit; a pending vector whose every condition then holds is
sent once and its pending bit is cleared. The table has 2,048 entries. -/
def Obligations.MsixTable : Prop := ∀ (s : State) (ld v : Nat) (addr : DWord) (data : Word) (mask : Bool), s.Ok →
  (2048 ≤ v → exec (.msixTableWrite ld v addr data mask) s = .fault (.absentUnit v)) ∧
  (v < 2048 → s.m.ldAnswers ld = true → Runs (.msixTableWrite ld v addr data mask) s (fun m =>
    ((m.ld ld).vec v).addr = addr.toNat ∧ ((m.ld ld).vec v).data = data.toNat ∧ ((m.ld ld).vec v).mask = mask
    ∧ (∀ k, k ≠ ld → m.ld k = s.m.ld k) ∧ m.dies = s.m.dies ∧ s.m.dataKept m
    ∧ ((s.m.ld ld).vecs.all (fun p => !p.2.pend) = true → ((m.ld ld).vec v).pend = false ∧ m.out = []
      ∧ ∀ w, w ≠ v → (m.ld ld).vec w = (s.m.ld ld).vec w)
    ∧ (((s.m.ld ld).vec v).pend = true → s.m.on (ldPort ld) (Reg.PORT_LD_STATUS.MSIX_EN (ldIdx ld)) = true →
      (s.m.ld ld).functionMask = false → s.m.bme ld = true → mask = false →
      Out.msix ld v addr.toNat data.toNat ∈ m.out ∧ ((m.ld ld).vec v).pend = false)
    ∧ (((s.m.ld ld).vec v).pend = true → mask = true → (∀ a b, Out.msix ld v a b ∉ m.out) ∧ ((m.ld ld).vec v).pend = true)))

/-- Links of a port (R254, R255, R263, R283): a link that comes up shows its rate and width; a failed negotiation is a pennant and NEG_FAIL;
a hot reset and DL_Down take the link down, count a reset, and reset every LD of it: its rings are disabled and its enables cleared; PERST_N
does so on a port in use, and the pin's level holds in any phase.
An LD becomes READY when its port is up and its die serves (R263); the die's start-up ends with its last LD (R441 step 11). -/
def Obligations.LinksAndLds : Prop :=
  (∀ (s : State) (d half rate width : Nat), s.Ok → d < s.m.n → half < 2 →
  (s.m.serving = true → s.m.halfUsed d half = true → s.m.halfUp d half = false → s.m.pw.perst.getD d false = false →
    (s.m.linkLds d half).all (fun ld => (s.m.ld ld).romBuilt) = true → Runs (.linkUp d half true rate width) s (fun m =>
      m.halfUp d half = true ∧ m.rd d Reg.PORT_STATUS.RATE_GT = rate % 256 ∧ s.m.memoryKept m
      ∧ (half = 0 → m.rd d Reg.PORT_STATUS.WIDTH = width % 32) ∧ (half = 1 → m.rd d Reg.PORT_STATUS.WIDTH_B = width % 32)
      ∧ (s.m.rd d Reg.PWR_START_STEP.STEP = 9 → m.rd d Reg.PWR_START_STEP.STEP = 10)
      ∧ s.m.regsKept m d [Reg.PORT_STATUS.UP_A.off, Reg.PWR_START_STEP.STEP.off, (Reg.PWR_START_LOG.US 9).off]) ∧
    Runs (.linkUp d half false rate width) s (fun m => m.halfUp d half = false ∧ m.rd d Reg.PORT_STATUS.NEG_FAIL = 1
      ∧ m.wrote d uPort pNegFail ∧ s.m.dataKept m ∧ s.m.regsKept m d [Reg.PORT_STATUS.UP_A.off])) ∧
  (s.m.alive = true → s.m.halfUsed d half = true → s.m.halfUp d half = true → ∀ c ∈ [Instr.hotReset d half, .dataLinkDown d half], Runs c s (fun m =>
    m.halfUp d half = false ∧ m.rd d Reg.PORT_RESET_COUNT.LINK = satAdd 16 (s.m.rd d Reg.PORT_RESET_COUNT.LINK) 1
    ∧ (∀ ld ∈ s.m.linkLds d half, ldPort ld < s.m.n → s.m.on d (Reg.PORT_LD_STATUS.FLR_ACTIVE (ldIdx ld)) = false → m.bme ld = false
      ∧ ∀ r ∈ s.m.ldRings ld, s.m.ringDie r < s.m.n → m.ringOn r = false)
    ∧ (s.m.linkLds d half = [] → m.wrote d uPort pLinkReset ∧ s.m.dataKept m
      ∧ s.m.regsKept m d [Reg.PORT_STATUS.UP_A.off, Reg.PORT_RESET_COUNT.LINK.off]))) ∧
  (d < s.m.pw.perst.length → s.m.pw.perst.getD d false = false → Runs (.perstNAssert d) s (fun m => m.pw.perst.getD d false = true ∧
    if s.m.alive && s.m.on d Reg.PORT_CTRL.ENABLE then (s.m.halfUsed d half = true → m.halfUp d half = false)
      ∧ m.rd d Reg.PORT_RESET_COUNT.LINK = satAdd 16 (s.m.rd d Reg.PORT_RESET_COUNT.LINK) 1
    else m.dies = s.m.dies ∧ s.m.dataKept m)) ∧
  (d < s.m.pw.perst.length → s.m.pw.perst.getD d false = true → Runs (.perstNDeassert d) s (fun m =>
    m.pw.perst.getD d false = false ∧ m.dies = s.m.dies ∧ s.m.dataKept m))) ∧
  (∀ (s : State) (ld : Nat), s.Ok → s.m.serving = true → s.m.assigned ld = true →
  s.m.ldUp ld = true → s.m.on (ldPort ld) Reg.OPS_STATUS.READY = true → (s.m.ld ld).romBuilt = true → Runs (.ldReady ld) s (fun m =>
    m.rd (ldPort ld) (Reg.PORT_LD_STATUS.READY (ldIdx ld)) = 1 ∧ s.m.dataKept m
    ∧ s.m.regsKept m (ldPort ld) [(Reg.PORT_LD_STATUS.BME (ldIdx ld)).off, Reg.PWR_START_STEP.STEP.off, (Reg.PWR_START_LOG.US 10).off]
    ∧ (s.m.rd (ldPort ld) Reg.PWR_START_STEP.STEP ≠ 10 → s.m.regsKept m (ldPort ld) [(Reg.PORT_LD_STATUS.BME (ldIdx ld)).off])
    ∧ (s.m.rd (ldPort ld) Reg.PWR_START_STEP.STEP = 10 → (∀ k ∈ s.m.allLds, k ≠ ld → ldPort k = ldPort ld →
          s.m.on (ldPort ld) (Reg.PORT_LD_STATUS.READY (ldIdx k)) = true) →
        m.rd (ldPort ld) Reg.PWR_START_STEP.STEP = 11 ∧ m.rd (ldPort ld) Reg.PWR_START_STEP.DONE = 1)))

/-- A function-level reset (R280, R282) is counted; the LD's rings read their reset values, its jobs end but those whose work for an extent goes on
(R281), its pins drop, its Bus Master, MSI-X and PTM state is as after reset, and it answers again once the reset completes. With no job, ring,
line and pin of the LD its pennant is the newest and nothing else moves. An LD that does not answer yet is retried. -/
def Obligations.FunctionLevelReset : Prop := ∀ (s : State) (ld : Nat), s.Ok → s.m.assigned ld = true →
  (s.m.ldAnswers ld = true → Runs (.functionLevelReset ld) s (fun m =>
      m.rd (ldPort ld) (Reg.PORT_LD_STATUS.FLR_ACTIVE (ldIdx ld)) = 1 ∧ m.bme ld = false
      ∧ m.rd (ldPort ld) (Reg.PORT_LD_STATUS.MSIX_EN (ldIdx ld)) = 0 ∧ m.rd (ldPort ld) (Reg.PORT_LD_STATUS.PTM_EN (ldIdx ld)) = 0
      ∧ (m.ld ld).functionMask = false ∧ (m.ld ld).vecs = [] ∧ (m.ld ld).policy = [] ∧ m.ldAnswers ld = false
      ∧ m.rd (ldPort ld) Reg.PORT_RESET_COUNT.FLR = satAdd 16 (s.m.rd (ldPort ld) Reg.PORT_RESET_COUNT.FLR) 1
      ∧ (∀ r ∈ s.m.ldRings ld, s.m.ringDie r < s.m.n → ∀ f : Fld, 0x410000 + 0x40 * s.m.ringLoc r ≤ f.off → f.off < 0x410040 + 0x40 * s.m.ringLoc r →
        m.rd (s.m.ringDie r) f = Die.reset.rd f)
      ∧ (∀ d < s.m.n, (∀ j ∈ m.jobs d, j.ld = ld → j.orphan = true) ∧ ∀ p ∈ (m.die d).tier.pins, Pin.ofLd s.m ld p = false)
      ∧ (s.m.ldRings ld = [] → (∀ d < s.m.n, (∀ j ∈ s.m.jobs d, j.ld ≠ ld)
          ∧ (∀ e ∈ (s.m.die d).coh.filter, ld ∉ e.holders) ∧ (∀ b ∈ (s.m.die d).coh.bis, b.ld ≠ ld)
          ∧ (s.m.die d).coh.waits = [] ∧ (s.m.die d).coh.held = []) →
        m.wrote (ldPort ld) uPort pFlr (ldIdx ld) ∧ s.m.dataKept m))) ∧
  (s.m.serving = true → s.m.ldUp ld = true → s.m.ldAnswers ld = false →
    exec (.functionLevelReset ld) s = .next { s with m := { s.fresh with out := [Out.cfgRetry ld] } }) ∧
  (s.m.alive = true → Runs (.flrComplete ld) s (fun m => m.rd (ldPort ld) (Reg.PORT_LD_STATUS.FLR_ACTIVE (ldIdx ld)) = 0
    ∧ s.m.dataKept m ∧ s.m.regsKept m (ldPort ld) [(Reg.PORT_LD_STATUS.BME (ldIdx ld)).off]))

/-- Precision Time Measurement (R273, R274, R276): while some LD of the port has PTM enabled a dialog asks, an interval after the port's last one;
each answer passes the pair of host time and pennant time, and steps the sequence by two; the first one is the port's HOST TIME pennant.
DOE (R262, R265): discovery lists itself, then CXL Table Access, and nothing after it; the CDAT of an LD gives the DSMAS of its regions, and the
read latency of 480 ns with 80 ns for each hop of the longest path. -/
def Obligations.PtmDoeAndCdat : Prop :=
  (∀ (s : State) (d ns ticks : Nat), s.Ok → d < s.m.n → s.m.serving = true → s.m.ptmOn d = true →
  Runs (.ptmDialog d) s (fun m => m.out = [Out.ptmRequest d] ∧ (m.die d).aux.ptmAt = some (m.now d) ∧ s.m.now d ≤ m.now d
    ∧ (∀ t, (s.m.die d).aux.ptmAt = some t → t + s.m.ptmEvery d ≤ m.now d) ∧ s.m.dataKept m ∧ s.m.regsKept m d []) ∧
  Runs (.ptmResponse d ns ticks) s (fun m => m.rd d Reg.PORT_PTM_HOST.NS = ns % 2 ^ 64 ∧ m.rd d Reg.PORT_PTM_LOCAL.TICKS = ticks % 2 ^ 64
    ∧ m.rd d Reg.PORT_PTM_SEQ.SEQ = (s.m.rd d Reg.PORT_PTM_SEQ.SEQ + 2) % 2 ^ 32 ∧ s.m.dataKept m ∧ (m.die d).aux.ptmPair = true
    ∧ ((s.m.die d).aux.ptmPair = true → m.out = []
      ∧ s.m.regsKept m d [Reg.PORT_PTM_HOST.NS.off, Reg.PORT_PTM_LOCAL.TICKS.off, Reg.PORT_PTM_SEQ.SEQ.off])
    ∧ ((s.m.die d).aux.ptmPair = false → ∃ k < 16, m.wrote d uAon pHostTime 0 k))) ∧
  (∀ (s : State) (ld index : Nat), s.Ok → s.m.ldAnswers ld = true →
  Runs (.doeDiscovery ld index) s (fun m => ∃ bs, bs.length = 4 ∧ m = { s.fresh with out := [Out.doe ld bs] }
    ∧ leNat bs = if index = 0 then 0x01000001 else if index = 1 then 0x00021E98 else 0x00FFFFFF) ∧
  Runs (.cxlTableAccess ld) s (fun m => ∃ es, m = { s.fresh with out := [Out.cdat ld es] }
    ∧ (∀ k < 2, 0 < s.m.regionSlots ld k → [0, k, k * s.m.regionBytes ld 0, s.m.regionBytes ld k, k] ∈ es
        ∧ [1, k, 1, 480 + 80 * fabricHops s.m.n] ∈ es)
    ∧ (s.m.regionSlots ld 0 = 0 → s.m.regionSlots ld 1 = 0 → es = [])))

/-- Mailbox commands that only read (R46, R266): capacity, the two regions with the 256 MiB block, the supported log and its entries,
and Unsupported for any other opcode; nothing but the answer changes.
The extent list of an LD (R46): a held lease gives one record of its region, slot and tag, and adjacent slots of the same extent
are joined; a lease that is only offered is not listed; nothing but the answer changes.
Mailbox commands with state (R266, R269): a timestamp that is set is read back and moves with pennant time, and without one the time is open (log
entry 63); an event log loses its oldest records alone; an interrupt policy names a log's vector, by default 0 for the fatal log and none for
the others, and has no vector of 2,048 or more. -/
def Obligations.MailboxCommands : Prop :=
  (∀ (s : State) (ld op : Nat), s.Ok → s.m.ldAnswers ld = true →
  let r0 := s.m.regionSlots ld 0 * 2 ^ 28
  let r1 := s.m.regionSlots ld 1 * 2 ^ 28
  exec (.identifyMemoryDevice ld) s = .next { s with m := { s.fresh with out := [Out.mailbox ld 1 0 [r0 + r1, 0]] } } ∧
  exec (.getDynamicCapacityConfiguration ld) s = .next { s with m := { s.fresh with out := [Out.mailbox ld 2 0 [0, r0, r0, r1, 2 ^ 28]] } } ∧
  exec (.getSupportedLogs ld) s = .next { s with m := { s.fresh with out := [Out.mailbox ld 10 0 [1]] } } ∧
  Runs (.getLog ld) s (fun m => ∃ l, m = { s.fresh with out := [Out.mailbox ld 11 0 l] } ∧ l.length = 13 ∧ ∀ k, k ∈ l ↔ 1 ≤ k ∧ k ≤ 13) ∧
  exec (.mailboxUnsupported ld op) s = .next { s with m := { s.fresh with out := [Out.mailbox ld 0 1 [op]] } }) ∧
  (∀ (s : State) (ld : Nat), s.Ok → s.m.ldAnswers ld = true →
  let mine := (s.m.ldLeases ld).filter Lease.counts
  let answers := fun (l : List Nat) => exec (.getDynamicCapacityExtentList ld) s = .next { s with m := { s.fresh with out := [Out.mailbox ld 3 0 l] } }
  (∃ rs : List (List Nat), answers rs.flatten ∧ (∀ r ∈ rs, r.length = 7) ∧ rs.length ≤ mine.length) ∧
  (mine = [] → answers []) ∧
  (∀ l x, mine = [l] → s.m.ext? l.ext = some x →
    answers ([l.region, l.slot, 1, x.handle, if x.state = .offered then 2 else x.state.code, b2n x.shared, x.home])) ∧
  (∀ l k x, mine = [l, k] → s.m.ext? l.ext = some x → k.ext = l.ext → k.region = l.region → k.slot = l.slot + 1 → l.slot + 1 < 2 ^ 32 →
    answers ([l.region, l.slot, 2, x.handle, if x.state = .offered then 2 else x.state.code, b2n x.shared, x.home]))) ∧
  (∀ (s : State) (ld : Nat) (log : EventLog), s.Ok → s.m.ldAnswers ld = true →
  let of := fun (g : EventLog) (es : List EventRec) => es.filter (fun e => decide (e.log = g))
  (∀ ns, Runs (.setTimestamp ld ns) s (fun m => (m.ld ld).timestamp = some (ns, s.m.now (ldPort ld))
    ∧ m.out = [Out.mailbox ld 13 0 []] ∧ m.dies = s.m.dies ∧ m.lse = s.m.lse)) ∧
  Runs (.getTimestamp ld) s (fun m => m.dies = s.m.dies ∧ m.lse = s.m.lse ∧ m.lds = s.m.lds ∧ (∃ t, m.out = [Out.mailbox ld 12 0 [t]])
    ∧ ∀ ns at', (s.m.ld ld).timestamp = some (ns, at') → at' ≤ s.m.now (ldPort ld) →
      m.out = [Out.mailbox ld 12 0 [ns + (s.m.now (ldPort ld) - at') * 10 / 17]]) ∧
  Runs (.getEventRecords ld log) s (fun m => m.dies = s.m.dies ∧ m.lse = s.m.lse ∧ m.lds = s.m.lds
    ∧ ∃ l, m.out = [Out.mailbox ld 6 0 l] ∧ l.length = sumOf ((of log (s.m.ld ld).events).map (fun e => 3 + e.args.length))) ∧
  (∀ k, Runs (.clearEventRecords ld log k) s (fun m => m.out = [Out.mailbox ld 7 0 []] ∧ m.dies = s.m.dies ∧ m.lse = s.m.lse
    ∧ of log (m.ld ld).events = (of log (s.m.ld ld).events).drop k ∧ ∀ g ≠ log, of g (m.ld ld).events = of g (s.m.ld ld).events)) ∧
  (∀ v : Option Nat, (∀ k, v = some k → 2048 ≤ k → exec (.setEventInterruptPolicy ld log v) s = .fault (.absentUnit k)) ∧
    ((∀ k, v = some k → k < 2048) → Runs (.setEventInterruptPolicy ld log v) s (fun m => (m.ld ld).policyOf log = v
      ∧ (∀ g ≠ log, (m.ld ld).policyOf g = (s.m.ld ld).policyOf g) ∧ m.out = [Out.mailbox ld 9 0 []] ∧ m.dies = s.m.dies))) ∧
  (∃ l, exec (.getEventInterruptPolicy ld) s = .next { s with m := { s.fresh with out := [Out.mailbox ld 8 0 l] } } ∧ l.length = 5
    ∧ ((s.m.ld ld).policy = [] → l = [0, 0, 0, 1, 0])))

/-! ## Extents and leases -/

/-- Adding capacity (R29, R45, R48, R49, R53): the checks pass and a new extent is offered at the slot, OFFERED, with the next generation of
its number, shared exactly in region 1, its home in every die's table; a share adds an offer of the extent; a check that fails is answered with
its number, and 3 where no extent number is free.
The checks of R48 that come first: no free slot is check 1, a quota that is reached check 2, no die with room check 3, and a share
of an extent that is not a shared one of region 1 check 5. -/
def Obligations.LeaseOffers : Prop :=
  (∀ (s : State) (ld region : Nat) (slot share : Option Nat), s.Ok → s.m.ens < s.m.n →
  s.m.serving = true → s.m.assigned ld = true →
  let offered := fun (k e : Nat) => (⟨ld, region, k, e, .offered, s.m.now s.m.ens, false, 0, 0, 0⟩ : Lease)
  let refused := fun (c : Nat) => Runs (.fmAddDynamicCapacity ld region slot share) s (fun m =>
    m.out = [Out.fm c 0] ∧ m.wrote s.m.ens uMgmt pLeaseRefused c ∧ s.m.dataKept m ∧ s.m.regsKept m s.m.ens [])
  (∀ c, s.m.leaseChecks ld region slot (share.map s.m.byHandle) = .error c → c ∈ [1, 2, 3, 5] ∧ refused c) ∧
  (∀ k home, s.m.leaseChecks ld region slot (share.map s.m.byHandle) = .ok (k, some home) →
    (s.m.freeNumber = none → refused 3) ∧
    (∀ num, s.m.freeNumber = some num → Runs (.fmAddDynamicCapacity ld region slot share) s (fun m =>
      (∃ x, m.ext? num = some x ∧ x.state = .offered ∧ x.home = home ∧ x.shared = decide (region = 1)
        ∧ x.gen = (SMap.get (fun _ => 0) s.m.lse.gens num + 1) % 256 ∧ Out.fm 0 x.handle ∈ m.out)
      ∧ offered k num ∈ m.lse.leases ∧ (∀ p < s.m.n, m.homeAt p num = some home)
      ∧ (∀ e ≠ num, m.ext? e = s.m.ext? e) ∧ m.wrote s.m.ens uMgmt pOffer 0 2 ∧ s.m.memoryKept m ∧ s.m.regsKept m s.m.ens []))) ∧
  (∀ k h x, share = some h → s.m.byHandle h = some x → s.m.leaseChecks ld region slot (share.map s.m.byHandle) = .ok (k, none) →
    Runs (.fmAddDynamicCapacity ld region slot share) s (fun m => m.lse.exts = s.m.lse.exts ∧ Out.fm 0 x.handle ∈ m.out
      ∧ offered k x.num ∈ m.lse.leases ∧ s.m.memoryKept m ∧ s.m.regsKept m s.m.ens []))) ∧
  (∀ (m : Mach) (ld region : Nat) (slot : Option Nat) (share : Option (Option Extent)),
  (slot = none → (∀ k < m.regionSlots ld region, m.slotTaken ld region k = true) → m.leaseChecks ld region slot share = .error 1) ∧
  (∀ k, slot = some k → (m.regionSlots ld region ≤ k ∨ m.slotTaken ld region k = true → m.leaseChecks ld region slot share = .error 1) ∧
    (k < m.regionSlots ld region → m.slotTaken ld region k = false →
      (m.quotaOk ld = false → m.leaseChecks ld region slot share = .error 2) ∧
      (m.quotaOk ld = true → share = none → (∀ d < m.n, m.rd d Reg.LSE_OPEN_BUDGET.BUDGET ≤ m.openCount d) →
        m.leaseChecks ld region slot share = .error 3) ∧
      (∀ x, m.quotaOk ld = true → share = some (some x) → (x.shared = false ∨ region ≠ 1) → m.leaseChecks ld region slot share = .error 5))))

/-- Answers to an offer (R29, R49, R53, R54): accepted, the lease is HELD from that stamp and a new extent OPEN; rejected or not answered in 1 s, the
lease is gone, and an extent that was never held is FREE and in no die's table. Any lists of slots are answered.
Revocation (R54, R73, R77): asked for, a held lease waits for every die's acknowledgement, and an offered one is withdrawn; acknowledged, it is NOTICED
with its notice stamp and the revoke stamp one grace period later, where it was NOTICED the earlier one; the linkdown period's end notices
every held lease of the LD (R465).
A lease ends (R50, R53, R75, R76): at its revoke stamp, or at the ingress stamp of its release; with its last lease an extent is
RELEASING, and with another live one its state stays. A release that names a slot without a held lease changes no lease. -/
def Obligations.LeaseLives : Prop :=
  (∀ (s : State) (ld : Nat) (r : SlotRef) (l : Lease) (x : Extent), s.Ok → s.m.ens < s.m.n →
  s.m.ldAnswers ld = true →
  (∀ acc rej, Runs (.addDynamicCapacityResponse ld acc rej) s (fun m => Out.mailbox ld 4 0 [] ∈ m.out ∧ s.m.memoryKept m)) ∧
  (s.m.offeredAt ld r = some l → s.m.ext? l.ext = some x → x.home < s.m.n →
    Runs (.addDynamicCapacityResponse ld [r] []) s (fun m =>
      m.ext? l.ext = some (if x.state = .offered then { x with state := .opened } else x)
      ∧ { l with state := .held, heldAt := s.m.stamp s.m.ens } ∈ m.lse.leases ∧ (∀ e ≠ l.ext, m.ext? e = s.m.ext? e)
      ∧ (x.state = .offered → m.wrote x.home uTier pExtState 2) ∧ s.m.memoryKept m ∧ s.m.regsKept m s.m.ens []) ∧
    (∀ c ∈ [Instr.addDynamicCapacityResponse ld [] [r], .offerTimeout ld r.region r.slot], Runs c s (fun m =>
      m.lse.leases = s.m.lse.leases.erase l ∧ (∀ e ≠ l.ext, m.ext? e = s.m.ext? e) ∧ s.m.memoryKept m
      ∧ (s.m.liveLeases l.ext = [l] → x.state = .offered → m.ext? l.ext = none ∧ (∀ p < s.m.n, m.homeAt p l.ext = none)
        ∧ m.wrote x.home uTier pExtState 0 ∧ s.m.regsKept m s.m.ens [])
      ∧ ((∃ k ∈ s.m.liveLeases l.ext, k ≠ l) → m.ext? l.ext = some x ∧ s.m.regsKept m s.m.ens []))))) ∧
  (∀ (s : State) (ld region slot : Nat) (l : Lease), s.Ok → s.m.ens < s.m.n →
  (s.m.serving = true → s.m.offeredAt ld ⟨region, slot⟩ = some l → Runs (.initiateDynamicCapacityRelease ld region slot) s (fun m =>
    m.lse.leases = s.m.lse.leases.erase l ∧ s.m.memoryKept m)) ∧
  (s.m.alive = true → s.m.heldAt ld ⟨region, slot⟩ = some l →
    (s.m.serving = true → s.m.offeredAt ld ⟨region, slot⟩ = none →
      Runs (.initiateDynamicCapacityRelease ld region slot) s (fun m => { l with revoking := true } ∈ m.lse.leases
        ∧ m.out = [Out.fm 0 (s.m.handleOf l.ext)] ∧ m.lse.exts = s.m.lse.exts ∧ s.m.memoryKept m ∧ s.m.regsKept m s.m.ens [])) ∧
    (l.revoking = false → exec (.revokeAcknowledged ld region slot) s = .next { s with m := s.fresh }) ∧
    (l.revoking = true → Runs (.revokeAcknowledged ld region slot) s (fun m =>
      (l.state = .held →
        { l with state := .noticed, revoking := false, noticeAt := s.m.stamp s.m.ens, tr := s.m.stamp s.m.ens + s.m.grace } ∈ m.lse.leases
        ∧ ∃ k < 8, m.wrote s.m.ens uMgmt pNotice 0 k)
      ∧ (l.state = .noticed → { l with revoking := false, tr := min l.tr (s.m.stamp s.m.ens + s.m.grace) } ∈ m.lse.leases)
      ∧ m.lse.exts = s.m.lse.exts ∧ s.m.memoryKept m ∧ s.m.regsKept m s.m.ens []))) ∧
  (∀ t, s.m.alive = true → s.m.cfg.linkdownS ≠ 0 → (s.m.ld ld).linkDownAt = some t → Runs (.linkdownRevokeExpiry ld) s (fun m => s.m.memoryKept m
    ∧ (∀ k ∈ s.m.ldLeases ld, k.state = .held → ∃ tn, { k with state := .noticed, revoking := false, noticeAt := tn, tr := tn + s.m.grace } ∈ m.lse.leases
        ∧ t + s.m.cfg.linkdownS * Config.sec ≤ tn)
    ∧ ((∀ k ∈ s.m.ldLeases ld, k.state ≠ .offered) → m.lse.exts = s.m.lse.exts ∧ s.m.regsKept m s.m.ens [])))) ∧
  (∀ (s : State) (ld : Nat) (r : SlotRef) (ingress : Nat), s.Ok → s.m.ens < s.m.n →
  (∀ slots, s.m.ldAnswers ld = true → (∃ q ∈ slots, s.m.heldAt ld q = none) → Runs (.releaseDynamicCapacity ld slots ingress) s (fun m =>
    Out.mailbox ld 5 2 [] ∈ m.out ∧ m.lse = s.m.lse ∧ s.m.dataKept m ∧ s.m.regsKept m 0 [])) ∧
  (∀ slots, s.m.ldAnswers ld = true → (∀ q ∈ slots, s.m.heldAt ld q ≠ none) → Runs (.releaseDynamicCapacity ld slots ingress) s (fun m =>
    Out.mailbox ld 5 0 [] ∈ m.out ∧ s.m.memoryKept m)) ∧
  (∀ l x, s.m.heldAt ld r = some l → s.m.ext? l.ext = some x → x.home < s.m.n →
    let ended := fun (tr : Nat) (m : Mach) => { l with state := .ended, tr := tr, revoking := false } ∈ m.lse.leases ∧ s.m.memoryKept m
      ∧ (∀ e ≠ l.ext, m.ext? e = s.m.ext? e)
      ∧ (s.m.liveLeases l.ext = [l] → x.state ∈ [.opened, .sealing, .sealed] →
        m.ext? l.ext = some { x with state := .releasing, was := x.state, lastRevoke := tr } ∧ m.wrote x.home uTier pExtState 5)
      ∧ ((∃ k ∈ s.m.liveLeases l.ext, k ≠ l) → m.ext? l.ext = some x)
      ∧ ((∀ k, s.m.ringOn k = false) → (s.m.die x.home).xc.recode = none → x.shared = false → (s.m.die x.home).tier.pins = [] → s.m.regsKept m s.m.ens [])
    (s.m.ldAnswers ld = true → Runs (.releaseDynamicCapacity ld [r] ingress) s (fun m => ended ingress m ∧ Out.mailbox ld 5 0 [] ∈ m.out)) ∧
    (s.m.alive = true → l.state = .noticed → Runs (.revokeStampReached ld r.region r.slot) s (fun m => ended l.tr m))))

/-- The end of an extent (R53, R76, R108): RELEASING ends when no job references it; clearing waits for its promotions and fetches, and frees its
number with its frames and leases; with nothing waiting on the home die no other frame moves. -/
def Obligations.ExtentCleared : Prop := ∀ (s : State) (e : Nat) (x : Extent), s.Ok → s.m.ens < s.m.n → s.m.alive = true →
  s.m.ext? e = some x → x.home < s.m.n → x.num < 2 ^ 20 →
  (x.state = .releasing → s.m.referenced e = false → Runs (.drainComplete e) s (fun m =>
    m.ext? e = some { x with state := .clearing } ∧ m.lse.leases = s.m.lse.leases ∧ m.wrote x.home uTier pExtState 6
    ∧ s.m.memoryKept m ∧ s.m.regsKept m s.m.ens [])) ∧
  (x.state ≠ .releasing ∨ s.m.referenced e = true → exec (.drainComplete e) s = .next { s with m := s.fresh }) ∧
  (x.state = .clearing → ((∃ p ∈ (s.m.die x.home).tier.promos, p.ext = e ∧ p.endedAt = none) ∨
      ∃ f ∈ (s.m.die x.home).tier.fetches, f.ext = e ∧ (f.begunAt.isSome = true ∨ f.loads ≠ [] ∨ f.jobs ≠ [])) →
    exec (.clearingComplete e) s = .next { s with m := s.fresh }) ∧
  (x.state = .clearing → (∀ p ∈ (s.m.die x.home).tier.promos, p.ext = e → p.endedAt.isSome = true) →
      (∀ f ∈ (s.m.die x.home).tier.fetches, f.ext % 2 ^ 20 = e → f.begunAt = none ∧ f.loads = [] ∧ f.jobs = []) →
    Runs (.clearingComplete e) s (fun m => m.ext? e = none ∧ (∀ l ∈ m.lse.leases, l.ext ≠ e) ∧ (∀ k ≠ e, m.ext? k = s.m.ext? k)
      ∧ (∀ i < 4160, m.entry x.home e i = FrameEntry.zero) ∧ (∀ p < s.m.n, m.homeAt p e = none) ∧ (∃ k < 8, m.wrote x.home uTier pExtState 0 k)
      ∧ ((s.m.die x.home).tier.fetches = [] → (s.m.die x.home).tier.evicts = [] → s.m.memoryKept m
        ∧ ∀ k ≠ e, k < 2 ^ 20 → ∀ i < 4160, m.entry x.home k i = s.m.entry x.home k i)))

/-! ## Host accesses and coherence -/

/-- A request for a slot that is not leased, only offered, not yet accepted at its ingress stamp, or whose lease has ended (R44, R49, R50, R54, R74):
a load gets poison, a store completes and is discarded, counted if a lease had ended there; no byte and no map entry changes.
Loads and stores of an open extent that no other host shares (R29, R57, R69, R295, R296): a frame never written reads as zeros, but for a line lost
while it was so; a store writes it first in full with zeros; a full line stored enters its channel's write queue, a part of a queued line is merged;
a line in the queue is read from there, with its poison bit. Here with no earlier request of the LD for the extent waiting (R21). -/
def Obligations.HostAccess : Prop :=
  (∀ (s : State) (ld dpa ingress : Nat) (excl : Bool), s.Ok → s.m.portServes ld = true →
  let l := s.m.leaseAt ld (s.m.slotOfDpa ld (dpa / 64 * 64)).1 (s.m.slotOfDpa ld (dpa / 64 * 64)).2
  (l = none ∨ (∃ k, l = some k ∧ (k.before ingress = false ∨ s.m.homeAt (ldPort ld) k.ext = none))) →
  Runs (.hostLoad ld dpa excl ingress) s (fun m => (∃ bs, bs.length = 64 ∧ Out.memData ld (dpa / 64 * 64) bs true ∈ m.out) ∧ s.m.dataKept m) ∧
  (∀ first data poison, first + data.length ≤ 64 → Runs (.hostStore ld dpa first data poison ingress) s (fun m =>
    Out.memDone ld (dpa / 64 * 64) ∈ m.out ∧ s.m.dataKept m
    ∧ ∀ k, l = some k → k.after ingress = true → (s.m.homeAt (ldPort ld) k.ext).getD (ldPort ld) < s.m.n →
        let h := (s.m.homeAt (ldPort ld) k.ext).getD (ldPort ld)
        m.rd h Reg.LSE_DISCARD_COUNT.COUNT = satAdd 32 (s.m.rd h Reg.LSE_DISCARD_COUNT.COUNT) 1))) ∧
  (∀ (s : State) (ld dpa ingress : Nat) (l : Lease) (x : Extent) (excl : Bool), s.Ok →
  s.m.portServes ld = true → dpa % 64 = 0 →
  s.m.leaseAt ld (s.m.slotOfDpa ld dpa).1 (s.m.slotOfDpa ld dpa).2 = some l → l.before ingress = true →
  s.m.homeAt (ldPort ld) l.ext = some x.home → s.m.behind x.home (.load ld dpa l.ext (lineOf dpa) excl) = false →
  s.m.ext? l.ext = some x → x.shared = false → x.coded = false → (x.state = .sealing → ingress < x.sealedAt) → x.home < s.m.n →
  let e := s.m.entry x.home x.num (lineOf dpa / 1024)
  let a := s.m.t1Addr x.home x.num (lineOf dpa)
  let c := (s.m.locate x.home a).ch
  let unborn := (s.m.die x.home).coh.unborn.any (fun u => decide (u.1 = x.num) && decide (u.2.1 = lineOf dpa))
  (e.state = .zero → Runs (.hostLoad ld dpa excl ingress) s (fun m =>
    Out.memData ld dpa (List.replicate 64 0) unborn ∈ m.out ∧ s.m.dataKept m)) ∧
  (∀ sl, s.m.openSlotFor x.home = some sl → ∀ data, e.state = .zero → s.m.runOpen x.home (65536 * sl) 65536 = true → (s.m.die x.home).coh.unborn = [] →
    s.m.rd x.home Reg.ERR_FLIP_CTRL.ARMED = 0 → s.m.rd x.home Reg.ERR_SPLIT_CTRL.ARMED = 0 → data.length = 64 →
    Runs (.hostStore ld dpa 0 data false ingress) s (fun m => Out.memDone ld dpa ∈ m.out
      ∧ m.entry x.home x.num (lineOf dpa / 1024) = { e with state := .present, inT1 := true, t1Slot := sl }
      ∧ ∀ d y, m.flashByte d y = s.m.flashByte d y)) ∧
  (e.state = .present → s.m.chanOpen x.home c = true → c < 12 →
    (∀ q, s.m.queued x.home c a = some q → Runs (.hostLoad ld dpa excl ingress) s (fun m =>
        Out.memData ld dpa q.data q.poison ∈ m.out ∧ m.queued x.home c a = some q ∧ s.m.dataKept m) ∧
      (∀ first data, first + data.length ≤ 64 → q.data.length = 64 → (s.m.chan x.home c).wq.length < 48 →
        Runs (.hostStore ld dpa first data false ingress) s (fun m => Out.memDone ld dpa ∈ m.out ∧ s.m.dataKept m
          ∧ ∃ k, m.queued x.home c a = some k ∧ k.data = q.data.take first ++ data ++ q.data.drop (first + data.length)
            ∧ k.poison = (q.poison && decide (data.length < 64))))) ∧
    (∀ data poison, data.length = 64 → (s.m.chan x.home c).wq.length < 47 → Runs (.hostStore ld dpa 0 data poison ingress) s (fun m =>
      Out.memDone ld dpa ∈ m.out ∧ (∃ q, m.queued x.home c a = some q ∧ q.data = data ∧ q.poison = poison) ∧ s.m.dataKept m))))

/-- Loads and stores of a sealed extent that no other host shares (R29, R62, R90, R91, R404): ZERO frames read as zeros and LOST ones as
poison, counted; a load of a frame adds to its heat, whatever its state, and reads a T1 copy; a store completes and is never persisted. Here
the current version is the one that the request's stamp reads (R139). -/
def Obligations.SealedExtentAccess : Prop := ∀ (s : State) (ld dpa ingress : Nat) (l : Lease) (x : Extent) (excl : Bool), s.Ok →
  s.m.portServes ld = true → dpa % 64 = 0 →
  s.m.leaseAt ld (s.m.slotOfDpa ld dpa).1 (s.m.slotOfDpa ld dpa).2 = some l → l.before ingress = true →
  s.m.homeAt (ldPort ld) l.ext = some x.home →
  s.m.ext? l.ext = some x → x.shared = false → x.coded = true → s.m.versionAt x ingress = x → x.home < s.m.n → x.num < 2 ^ 20 →
  let i := lineOf dpa / 1024
  let e := s.m.entry x.home x.num i
  let a := s.m.t1Addr x.home x.num (lineOf dpa)
  let c := (s.m.locate x.home a).ch
  let warmed := fun (m : Mach) => m.heat x.home x.num i = satAdd 8 (s.m.heat x.home x.num i) (s.m.rd x.home Reg.TIER_THRESH.HOST_INC)
  (e.state = .zero → Runs (.hostLoad ld dpa excl ingress) s (fun m =>
    Out.memData ld dpa (List.replicate 64 0) false ∈ m.out ∧ warmed m ∧ s.m.dataKept m)) ∧
  (e.state = .lost → Runs (.hostLoad ld dpa excl ingress) s (fun m =>
    (∃ bs, bs.length = 64 ∧ Out.memData ld dpa bs true ∈ m.out) ∧ warmed m ∧ s.m.dataKept m
    ∧ m.rd x.home Reg.ERR_POISON_READS.COUNT = satAdd 32 (s.m.rd x.home Reg.ERR_POISON_READS.COUNT) 1)) ∧
  (e.state = .present → e.inT1 = true → s.m.avail x.home x.num i 1 = true → s.m.chanOpen x.home c = true →
    ∀ q, s.m.queued x.home c a = some q → q.poison = false → Runs (.hostLoad ld dpa excl ingress) s (fun m =>
      Out.memData ld dpa q.data false ∈ m.out ∧ s.m.dataKept m ∧ warmed m)) ∧
  (∀ first data poison, first + data.length ≤ 64 → Runs (.hostStore ld dpa first data poison ingress) s (fun m =>
    Out.memDone ld dpa ∈ m.out ∧ (∀ d y, m.flashByte d y = s.m.flashByte d y) ∧ (e.inT1 = false → s.m.dataKept m)))

/-- Coherence of a shared extent (R63 to R66): a load of a line that no one holds is served and held; one for a line that another LD holds waits for
that LD's answer to a back-invalidate; the answer ends its hold, its write-back data is written; without an answer the hold ends at the timeout.
The poisoned-line list and the extent query (R70, R79, R9): a pop answers the oldest entry's low word, latches its high word and
removes it; an empty list reads 0; a query loads the extent's directory entry on the ensign die and on its home die, and STATE 15 on another. -/
def Obligations.BackInvalidates : Prop :=
  ((∀ (s : State) (ld dpa ingress : Nat) (l : Lease) (x : Extent) (excl : Bool), s.Ok → s.m.portServes ld = true → dpa % 64 = 0 →
    s.m.leaseAt ld (s.m.slotOfDpa ld dpa).1 (s.m.slotOfDpa ld dpa).2 = some l → l.before ingress = true → s.m.homeAt (ldPort ld) l.ext = some x.home →
    s.m.behind x.home (.load ld dpa l.ext (lineOf dpa) excl) = false →
    s.m.ext? l.ext = some x → x.shared = true → x.state = .opened → x.home < s.m.n →
    (s.m.sf? x.home l.ext (lineOf dpa) = none → (s.m.die x.home).coh.filter.length < 16777216 → Runs (.hostLoad ld dpa excl ingress) s (fun m =>
      m.sf? x.home l.ext (lineOf dpa) = some ⟨l.ext, lineOf dpa, [ld], excl⟩ ∧ (∀ h inv, Out.biSnp h l.ext (lineOf dpa) inv ∉ m.out))) ∧
    (∀ h b, excl = true → h ≠ ld → s.m.sf? x.home l.ext (lineOf dpa) = some ⟨l.ext, lineOf dpa, [h], b⟩ → (s.m.die x.home).coh.bis = [] →
      Runs (.hostLoad ld dpa true ingress) s (fun m => Out.biSnp h l.ext (lineOf dpa) false ∈ m.out
        ∧ (m.die x.home).coh.waits = (s.m.die x.home).coh.waits ++ [⟨[(l.ext, lineOf dpa)], .load ld dpa l.ext (lineOf dpa) true, ingress⟩]
        ∧ (∀ p q r, Out.memData ld p q r ∉ m.out) ∧ s.m.dataKept m))) ∧
  (∀ (s : State) (ld ext line d : Nat) (b : BiWait), s.Ok → s.m.alive = true → s.m.bi? ld ext line = some (d, b) →
    (s.m.die d).coh.waits = [] → (s.m.die d).coh.held = [] →
    (∀ wb, Runs (.biResponse ld ext line wb) s (fun m => (m.die d).coh.bis = (s.m.die d).coh.bis.erase b ∧ (wb = none → s.m.dataKept m)
      ∧ (b.inv = true → ∀ e, m.sf? d ext line = some e → ld ∉ e.holders) ∧ (b.inv = false → ∀ e, m.sf? d ext line = some e → e.excl = false)
      ∧ ∀ x bs, wb = some bs → bs.length = 64 → s.m.ext? ext = some x → x.coded = false → s.m.sf? d ext line = some ⟨ext, line, [ld], true⟩ →
        let a := s.m.t1Addr d ext line
        let c := (s.m.locate d a).ch
        (s.m.entry d ext (line / 1024)).state = .present → s.m.chanOpen d c = true → (s.m.chan d c).wq.length < 47 → c < 12 →
        ∃ q, m.queued d c a = some q ∧ q.data = bs ∧ q.poison = false)) ∧
    (ld < 128 → Runs (.biTimeout ld ext line) s (fun m => (m.die d).coh.bis = (s.m.die d).coh.bis.erase b
      ∧ (∀ e, m.sf? d ext line = some e → ld ∉ e.holders)
      ∧ ((∀ e, s.m.sf? d ext line = some e → e.excl = false) → m.wrote d uTier pBiTimeout ld ∧ s.m.dataKept m))))) ∧
  (∀ (s : State) (d : Nat) (v : Word), s.Ok → d < s.m.n → s.m.alive = true →
  let w := match (s.m.die d).coh.plist with
    | [] => 0
    | p :: _ => p.2.1 % 2 ^ 22 + p.1 % 2 ^ 20 * 2 ^ 22 + p.2.2 % 2 ^ 16 * 2 ^ 42 + 2 ^ 63
  let num := bits v.toNat 0 20
  let shows := fun (st sh se home ls gen : Nat) => Runs (.lseExtQuery d v) s (fun m =>
    m.rd d Reg.LSE_EXT_STATE.STATE = st ∧ m.rd d Reg.LSE_EXT_STATE.SHARED = sh ∧ m.rd d Reg.LSE_EXT_STATE.SETTLED = se
    ∧ m.rd d Reg.LSE_EXT_STATE.HOME = home % 8 ∧ m.rd d Reg.LSE_EXT_STATE.LEASES = ls % 256 ∧ m.rd d Reg.LSE_EXT_STATE.GENERATION = gen % 256
    ∧ m.out = [] ∧ s.m.dataKept m ∧ s.m.regsKept m d [Reg.LSE_EXT_STATE.STATE.off])
  Runs (.lsePlistPop d) s (fun m => m.out = [Out.regRead d 0x808030 (BitVec.ofNat 32 w)] ∧ (m.die d).coh.plist = (s.m.die d).coh.plist.drop 1
    ∧ SMap.get (fun _ => 0) (m.die d).latch 0x808030 = w / 2 ^ 32 + 1 ∧ s.m.dataKept m ∧ s.m.regsKept m d []) ∧
  (∀ x, s.m.ext? num = some x → d = s.m.ens ∨ x.home = d →
    shows x.state.code (b2n x.shared) (b2n (decide (x.state = .sealed) && x.settled)) x.home ((s.m.liveLeases num).filter Lease.counts).length x.gen) ∧
  (s.m.ext? num = none → d = s.m.ens → shows 0 0 0 0 0 (SMap.get (fun _ => 0) s.m.lse.gens num)) ∧
  (d ≠ s.m.ens → (∀ x, s.m.ext? num = some x → x.home ≠ d) → shows 15 0 0 0 0 0))

/-! ## GDDR7 channels -/

/-- Start-up of DRAM (R308, R311, R312, R441 step 6): the board's devices are powered, trained and zeroed, and every channel serves; a board
or a lane that fails is half-mast with cause 5 or 6 (R435); an address map that is not one-to-one stops by name (R414).
A device that was off in furled (R310, R311, R314): its channels wait for the ramp, then for its initialisation, after which they
serve and the device's bytes read as zeros; a lane that fails is half-mast with cause 6. -/
def Obligations.DramStartUp : Prop :=
  (∀ (s : State) (d density : Nat) (lanes : List Lane), s.Ok → d < s.m.n → s.m.dramDue d = true →
  (s.m.mapOneToOne d = false → exec (.dramStartUp d density lanes) s = .fault (.undefinedCase 4)) ∧
  (s.m.mapOneToOne d = true →
    (s.m.boardDramOk d density = true → lanes.length = 12 → lanes.all laneOk = true → Runs (.dramStartUp d density lanes) s (fun m =>
      m.rd d Reg.PWR_START_STEP.STEP = 6 ∧ m.rd d Reg.DMC_DEV_STATUS.POWERED = 7 ∧ m.rd d Reg.DMC_DEV_STATUS.INIT_DONE = 7
      ∧ (∀ c < 12, m.chState d c = 3) ∧ (∀ a < 3 * s.m.devBytes d, m.dramByte d a = 0)
      ∧ (∀ e ≠ d, ∀ a, m.dramByte e a = s.m.dramByte e a) ∧ (∀ e a, m.flashByte e a = s.m.flashByte e a) ∧ m.lse = s.m.lse)) ∧
    (s.m.boardDramOk d density = false → Runs (.dramStartUp d density lanes) s (fun m => s.m.memoryKept m ∧
      m.pw.phase = .halfMast ∧ ∀ e < s.m.n, m.rd e Reg.PWR_STATE.HALF_MAST_CAUSE = 5)) ∧
    (s.m.boardDramOk d density = true → lanes.length = 12 → lanes.all laneOk = false → Runs (.dramStartUp d density lanes) s (fun m =>
      s.m.memoryKept m ∧ m.pw.phase = .halfMast ∧ ∀ e < s.m.n, m.rd e Reg.PWR_STATE.HALF_MAST_CAUSE = 6)))) ∧
  (∀ (s : State) (d j : Nat) (lanes : List Lane), s.Ok → d < s.m.n → j < 3 → s.m.serving = true →
  (bit (s.m.rd d Reg.DMC_DEV_STATUS.POWERED) j = true → bit (s.m.rd d Reg.DMC_DEV_STATUS.INIT_DONE) j = false → s.m.chState d (4 * j) = 0 →
    Runs (.pwrRampExpiry d j) s (fun m => (∀ k < 4, m.chState d (4 * j + k) = 1) ∧ s.m.dataKept m)) ∧
  (s.m.chState d (4 * j) = 1 → lanes.length = 4 → Runs (.deviceInitComplete d j lanes) s (fun m =>
    (∀ a, j * s.m.devBytes d ≤ a → a < (j + 1) * s.m.devBytes d → m.dramByte d a = 0)
    ∧ (∀ e a, (e ≠ d ∨ a < j * s.m.devBytes d ∨ (j + 1) * s.m.devBytes d ≤ a) → m.dramByte e a = s.m.dramByte e a)
    ∧ (lanes.all laneOk = true → bit (m.rd d Reg.DMC_DEV_STATUS.INIT_DONE) j = true ∧ ∀ k < 4, m.chState d (4 * j + k) = 3)
    ∧ (lanes.all laneOk = false → m.pw.phase = .halfMast ∧ ∀ e < s.m.n, m.rd e Reg.PWR_STATE.HALF_MAST_CAUSE = 6))))

/-- Commands of a channel (R295, R299, R303 to R305): refresh records itself and changes nothing stored; a refresh window empties the
row counts; a drained line lies in the array with its check bytes, and no other byte changes; an idle channel enters self-refresh.
A re-centre (R313, R314): 50 ms after the last; a lane wide enough takes its new delays, a failed one keeps the old ones and writes a pennant. -/
def Obligations.ChannelCommands : Prop :=
  (∀ (s : State) (d c : Nat), s.Ok → d < s.m.n → c < 12 →
  (∀ bank < 16, 2 ≤ s.m.chState d c → s.m.chState d c ≠ 4 → Runs (.refresh d c bank) s (fun m =>
    (∃ k, (m.chan d c).cmds = k :: (s.m.chan d c).cmds.take 63 ∧ k.cmd = 4 ∧ k.bank = bank)
    ∧ (m.chan d c).counts = (s.m.chan d c).counts ∧ s.m.dataKept m ∧ s.m.regsKept m d [])) ∧
  (2 ≤ s.m.chState d c → Runs (.refreshWindow d c) s (fun m => (m.chan d c).counts = [] ∧ (m.chan d c).throttled = []
    ∧ (m.chan d c).cmds = (s.m.chan d c).cmds ∧ s.m.dataKept m ∧ s.m.regsKept m d [])) ∧
  (s.m.chanOpen d c = true → (s.m.chan d c).wq = [] → Runs (.writeQueueDrain d c) s (fun m => (m.chan d c).wq = []
    ∧ (m.chan d c).segs.any (·.dirty) = false ∧ s.m.dataKept m)) ∧
  (∀ q, s.m.chanOpen d c = true → (s.m.chan d c).wq = [q] → q.data.length = 64 → q.poison = false → s.m.rd d Reg.ERR_FLIP_CTRL.ALLOWED = 0 →
    Runs (.writeQueueDrain d c) s (fun m => (m.chan d c).wq = []
      ∧ (∀ i < 64, m.dramByte d (64 * q.line + i) = q.data.getD i 0)
      ∧ SMap.getRun zeroByte (m.die d).dram.check (4 * q.line) 4 = rsCheck q.data
      ∧ (∀ e a, (e ≠ d ∨ a < 64 * q.line ∨ 64 * q.line + 64 ≤ a) → m.dramByte e a = s.m.dramByte e a)
      ∧ (∀ e a, m.flashByte e a = s.m.flashByte e a) ∧ m.lse = s.m.lse)) ∧
  (s.m.chState d c = 3 → s.m.rd d Reg.DMC_CONFIG.REFRESH = 1 → s.m.serving = true → Runs (.selfRefreshEntry d c) s (fun m =>
    m.chState d c = 4 ∧ (m.chan d c).wq = [] ∧ ((s.m.chan d c).wq = [] → s.m.dataKept m)))) ∧
  (∀ (s : State) (d c : Nat) (lane : Lane), s.Ok → d < s.m.n → c < 12 → s.m.chState d c = 3 →
  Runs (.periodicRecentre d c lane) s (fun m => m.rd d Reg.DMC_TRAIN_STATUS.FORM = 2 ∧ s.m.dataKept m ∧ m.chState d c = 3
    ∧ (m.chan d c).trainedAt = m.now d ∧ (s.m.chan d c).trainedAt + 50 * Config.ms ≤ m.now d
    ∧ (laneOk lane = true → m.rd d (Reg.DMC_TRAIN.RD_DELAY c) = lane.rd % 128 ∧ m.rd d (Reg.DMC_TRAIN.WR_DELAY c) = lane.wr % 128)
    ∧ (laneOk lane = false → m.rd d (Reg.DMC_TRAIN.RD_DELAY c) = s.m.rd d (Reg.DMC_TRAIN.RD_DELAY c)
        ∧ m.rd d (Reg.DMC_TRAIN.WR_DELAY c) = s.m.rd d (Reg.DMC_TRAIN.WR_DELAY c) ∧ m.wrote d (uDmc c) pTrainFail)))

/-- A channel freezes (R315 to R317, R320, log entry 29 for a check segment's row): it serves no more, the failing command is shown, the last commands
are kept, the non-maskable event is raised, and no stored byte changes; a second error on a frozen channel is only counted; a release starts.
The end of a freeze (R316, R318, R319): a request held for DMC_FREEZE_HOLD is answered with poison or discarded; a retraining
that fails leaves the channel frozen; one that succeeds lets it serve, with its failing line poisoned. -/
def Obligations.ChannelFreezes : Prop :=
  (∀ (s : State) (d c : Nat) (v : Word), s.Ok → d < s.m.n → c < 12 → s.m.alive = true →
  let ue := Reg.DMC_UE_COUNT.COUNT c
  let frozen := fun (cause : Nat) (m : Mach) => m.chState d c = 5 ∧ m.chanOpen d c = false ∧ m.rd d (Reg.DMC_ERR_ADDR.CAUSE c) = cause
    ∧ m.rd d Reg.ERR_NMI_STATUS.FREEZE = 1 ∧ s.m.memoryKept m ∧ m.lse = s.m.lse
  (s.m.chanOpen d c = true →
    (∀ bank row sector len, Runs (.channelFreeze d c (.command bank row sector len)) s (fun m => frozen 2 m
      ∧ m.rd d (Reg.DMC_ERR_ADDR.BANK c) = bank % 16 ∧ m.rd d (Reg.DMC_ERR_ADDR.ROW c) = row % 65536 ∧ m.rd d (Reg.DMC_ERR_ADDR.SECTOR c) = sector % 32
      ∧ m.rd d (Reg.DMC_ERR_ADDR.LEN c) = len % 32 ∧ m.rd d ue = s.m.rd d ue ∧ (m.chan d c).frozenCmds.length = (s.m.chan d c).cmds.length)) ∧
    (∀ a, (s.m.locate d a).ch = c → Runs (.channelFreeze d c (.data a)) s (fun m => frozen 1 m ∧ (m.chan d c).failing = [a / 64 * 64]
      ∧ (m.chan d c).frozenCmds = (s.m.chan d c).cmds ∧ m.rd d ue = satAdd 32 (s.m.rd d ue) 1)) ∧
    (∀ a, (s.m.locate d a).ch = c → Runs (.channelFreeze d c (.checkSegment a)) s (fun m => frozen 3 m
      ∧ m.rd d (Reg.DMC_ERR_ADDR.BANK c) = (s.m.locate d a).bank % 16 ∧ m.rd d ue = satAdd 32 (s.m.rd d ue) 1))) ∧
  (s.m.chState d c = 5 →
    (∀ a, ∀ k ∈ [FreezeCause.data a, .checkSegment a], (s.m.locate d a).ch = c → Runs (.channelFreeze d c k) s (fun m =>
      m.rd d ue = satAdd 32 (s.m.rd d ue) 1 ∧ m.chan d c = s.m.chan d c ∧ m.wrote d (uDmc c) pDramUe ∧ s.m.dataKept m ∧ s.m.regsKept m d [ue.off])) ∧
    (v.toNat % 2 = 1 → Runs (.channelRelease d c v) s (fun m => (m.chan d c).releasing = true ∧ m.chState d c = 5 ∧ s.m.dataKept m ∧ s.m.regsKept m d []))) ∧
  (s.m.chState d c ≠ 5 ∨ v.toNat % 2 = 0 → Runs (.channelRelease d c v) s (fun m => m = s.fresh))) ∧
  (∀ (s : State) (d c : Nat) (lane : Lane), s.Ok → d < s.m.n → c < 12 → s.m.alive = true →
  s.m.chState d c = 5 →
  (∀ w, (s.m.chan d c).waiting = [w] → (s.m.die d).coh.held = [] → Runs (.freezeHoldExpiry d c) s (fun m =>
    (m.chan d c).waiting = [] ∧ m.chState d c = 5 ∧ s.m.dataKept m ∧ w.since + min 1000 (s.m.rd d Reg.DMC_FREEZE_HOLD.HOLD_MS) * Config.ms ≤ m.now d
    ∧ (∀ ld dpa ext line excl, w.req = .load ld dpa ext line excl → ∃ bs, bs.length = 64 ∧ m.out = [Out.memData ld dpa bs true])
    ∧ (∀ ld dpa ext line first data p, w.req = .store ld dpa ext line first data p → m.out = [Out.memDone ld dpa]))) ∧
  ((s.m.chan d c).waiting = [] → exec (.freezeHoldExpiry d c) s = .next { s with m := s.fresh }) ∧
  ((s.m.chan d c).releasing = true → laneOk lane = false → Runs (.releaseRetrainDone d c lane) s (fun m => m.chState d c = 5
    ∧ (m.chan d c).releasing = false ∧ m.wrote d (uDmc c) pTrainFail ∧ s.m.dataKept m)) ∧
  ((s.m.chan d c).releasing = true → laneOk lane = true → Runs (.releaseRetrainDone d c lane) s (fun m => (m.chan d c).releasing = false
    ∧ m.rd d (Reg.DMC_TRAIN.RD_DELAY c) = lane.rd % 128 ∧ (∀ e x, m.flashByte e x = s.m.flashByte e x)
    ∧ ∀ a, (s.m.chan d c).wq = [] → (s.m.chan d c).failing = [a] → (s.m.chan d c).stale = [] → (s.m.chan d c).waiting = [] → (s.m.die d).coh.held = [] →
      s.m.rd d (Reg.DMC_STALE_LINES.OVERFLOW c) = 0 → a % 64 = 0 → (s.m.locate d a).ch = c →
      m.chState d c = 3 ∧ m.peekPoison d a = true ∧ (m.chan d c).failing = [] ∧ ∀ e x, m.dramByte e x = s.m.dramByte e x)))

/-! ## Rings and jobs -/

/-- A ring's registers (R157, R158, R162, R163, R174): an enable that passes its checks starts the ring empty with PHASE 1, one that fails
sets ENABLE_FAILED; a disable stops acceptance; a doorbell moves the tail unless its value is out of range; a written CQ head releases
the entries that it passes. The package has 16,384 rings. -/
def Obligations.RingControl : Prop := ∀ (s : State) (r : Nat) (v : Word), s.Ok →
  (16384 ≤ r → ∀ c ∈ [Instr.ringEnable r v, .ringDisable r v, .ringDoorbell r v, .ringCqHead r v, .descriptorAccept r],
    exec c s = .fault (.absentUnit r)) ∧
  (r < 16384 → s.m.ringDie r < s.m.n → s.m.ringReady r = true →
    let sized := (s.fresh.wrr r Reg.RING_CTRL.SQ_LOG2 (bits v.toNat 4 5)).wrr r Reg.RING_CTRL.CQ_LOG2 (bits v.toNat 12 5)
    let t := bits v.toNat 0 16
    (s.m.ringOn r = false → v.toNat % 2 = 1 → Runs (.ringEnable r v) s (fun m => s.m.dataKept m
      ∧ m.rr r Reg.RING_CTRL.SQ_LOG2 = bits v.toNat 4 5 ∧ m.rr r Reg.RING_CTRL.CQ_LOG2 = bits v.toNat 12 5
      ∧ if (match s.m.ringLd r with | some ld => sized.enableOk r ld | none => false) then
          m.ringOn r = true ∧ m.rr r Reg.RING_STATUS.PHASE = 1 ∧ m.rr r Reg.RING_SQ_HEAD.HEAD = 0 ∧ m.rr r Reg.RING_DOORBELL.TAIL = 0
          ∧ m.rr r Reg.RING_CQ_TAIL.TAIL = 0 ∧ m.rr r Reg.RING_CQ_HEAD.HEAD = 0
        else m.ringOn r = false ∧ m.rr r Reg.RING_STATUS.ENABLE_FAILED = 1 ∧ m.rr r Reg.RING_SQ_HEAD.HEAD = s.m.rr r Reg.RING_SQ_HEAD.HEAD)) ∧
    (s.m.ringOn r = true → v.toNat % 2 = 1 → exec (.ringEnable r v) s = .next { s with m := s.fresh }) ∧
    (v.toNat % 2 = 0 → Runs (.ringDisable r v) s (fun m => m.ringOn r = false ∧ m.rr r Reg.RING_CTRL.ENABLE = 0
      ∧ m.rr r Reg.RING_SQ_HEAD.HEAD = s.m.rr r Reg.RING_SQ_HEAD.HEAD ∧ m.ringJobs r = s.m.ringJobs r ∧ s.m.dataKept m)) ∧
    (s.m.ringOn r = true → t < s.m.sqSize r → Runs (.ringDoorbell r v) s (fun m => m.rr r Reg.RING_DOORBELL.TAIL = t
      ∧ m.rr r Reg.RING_STATUS.BAD_DB = s.m.rr r Reg.RING_STATUS.BAD_DB ∧ s.m.dataKept m)) ∧
    (s.m.ringOn r = false ∨ s.m.sqSize r ≤ t → Runs (.ringDoorbell r v) s (fun m =>
      m.rr r Reg.RING_STATUS.BAD_DB = 1 ∧ m.rr r Reg.RING_DOORBELL.TAIL = s.m.rr r Reg.RING_DOORBELL.TAIL ∧ s.m.dataKept m)) ∧
    (t < s.m.cqSize r → Runs (.ringCqHead r v) s (fun m => m.rr r Reg.RING_CQ_HEAD.HEAD = t ∧ s.m.dataKept m
      ∧ m.unreleased r = s.m.unreleased r - (t + s.m.cqSize r - s.m.rr r Reg.RING_CQ_HEAD.HEAD) % s.m.cqSize r)) ∧
    (s.m.cqSize r ≤ t → exec (.ringCqHead r v) s = .next { s with m := s.fresh }))

/-- The next descriptor of a ring (R163, R165, R166, R170, R175): read from an open extent that no other host shares, once its list is at hand, it is
checked; poison, a wrong version and an unknown opcode are refused and counted, a NOP or a FENCE is accepted with its stamp, and the head passes it. -/
def Obligations.DescriptorsAccepted : Prop :=  (∀ (s : State) (r ld num : Nat) (x : Extent), s.Ok → r < 16384 → s.m.ringDie r < s.m.n → s.m.ringReady r = true → s.m.ringOn r = true →
    s.m.pw.phase = .run → s.m.rr r Reg.RING_SQ_HEAD.HEAD ≠ s.m.rr r Reg.RING_DOORBELL.TAIL → s.m.ringLd r = some ld →
    s.m.freeRec (s.m.ringDie r) = some num → s.m.cqRoom r = true → (∀ j ∈ s.m.jobs (s.m.ringDie r), j.ring = r → j.pre = false) →
    s.m.openRun ld (s.m.headDpa r) 256 = some x → x.shared = false →
    let q := (s.fresh.showStall r).cqReady r
    let line := lineOf (s.m.headDpa r)
    let g := if (q.2.entry x.home x.num (line / 1024)).state = .zero then (some ([], false), q.2)
      else q.2.getBytes x.home 4 (q.2.t1Addr x.home x.num line) 256
    let vs := (List.range 4).map (fun i => g.2.lineVal x.home x (line + i))
    let l := g.2.listReady ld (vs.flatMap LineVal.bytes)
    q.1 = true → g.1.isSome = true → l.1 = true → Runs (.descriptorAccept r) s (fun m => m = l.2.takeDesc r ld num vs)) ∧
  (∀ (m : Mach) (r ld num : Nat) (vs : List LineVal), m.Ok → r < 16384 → m.ringDie r < m.n → m.ringOn r = true → m.job? (m.ringDie r) num = none →
    let ds := vs.flatMap LineVal.bytes
    let t := m.takeDesc r ld num vs
    let bad := vs.any (fun v => match v with | .poison _ _ => true | .ok _ => false)
    t.rr r Reg.RING_SQ_HEAD.HEAD = (if field ds 1 1 = 1 ∧ bad = false ∧ (listBuf ds).isSome then t.rr r Reg.RING_SQ_HEAD.HEAD
      else (m.rr r Reg.RING_SQ_HEAD.HEAD + 1) % m.sqSize r) ∧
    ((bad = true ∨ field ds 1 1 ≠ 1 ∨ opcodes.contains (descOp ds) = false) →
      t.rd (m.ringDie r) Reg.OPS_REFUSED_COUNT.COUNT = satAdd 32 (m.rd (m.ringDie r) Reg.OPS_REFUSED_COUNT.COUNT) 1
      ∧ t.jobs (m.ringDie r) = m.jobs (m.ringDie r)) ∧
    (bad = false → field ds 1 1 = 1 → descOp ds = 0 ∨ descOp ds = 1 →
      (∃ j, t.job? (m.ringDie r) num = some j ∧ j.ring = r ∧ j.ld = ld ∧ j.desc = ds ∧ j.start = none ∧ j.pre = false
        ∧ j.index = m.rr r Reg.RING_SQ_HEAD.HEAD ∧ (m.die (m.ringDie r)).clk.last < j.accept
        ∧ t.rr r Reg.RING_LAST_ACCEPT.STAMP = j.accept % 2 ^ 64)
      ∧ t.wrote (m.ringDie r) uRing pJobAccept 0 2 ∧ m.dataKept t))

/-- Jobs over buffers start (R33, R175, R189, R203, R214, R228 to R233, R236, R240, R241): an accepted job that no FENCE holds, whose lists are at hand
and whose scratch can be reserved, starts on its home dies, which for each opcode are those of the extents it reads; flash keeps its bytes. A
descriptor with a field out of its range stops by name (R414); a routing list in host memory is read first. -/
def Obligations.ComputeJobsStart : Prop := ∀ (s : State) (d n : Nat) (j : Job), s.Ok → d < s.m.n → s.m.serving = true →
  s.m.job? d n = some j → s.m.mayStart d j = true →
  let goes := fun (c : Instr) (homes : List Nat) => Runs c s (fun m => m.started d n j homes ∧ ∀ e x, m.flashByte e x = s.m.flashByte e x)
  let atHand := fun (bs : List (Buf × Nat)) => (readyAll s.fresh (fun m b => m.useBuf j (d, j.num) b.1 b.2) (bs.filter (fun b => decide (b.1.kind = 0)))).1 = .yes
  let bad := fun (c : Instr) => exec c s = .fault (.undefinedCase 6)
  let p := linP j.desc
  let homes := s.m.linHomes d j
  let need := if homes.length ≤ 1 then 0 else s.m.linScratch j
  let lin := fun (c : Instr) => atHand [(p.route, p.routeBytes), (p.experts, p.expertBytes)] →
    s.m.scratchShort j (if need = 0 then [] else [d]) (fun h => if h = d then need else 0) = [] →
    goes c (homes ++ if need = 0 ∨ homes.contains d = true then [] else [d])
  (∀ q ∈ [(Instr.attend d n, 0x10), (.select d n, 0x11)], j.op = q.2 → (s.m.attOk j = false → bad q.1) ∧
    (s.m.attOk j = true → s.m.roomFor d (s.m.attHomes d j) = true → atHand [((attP j.desc).spans, 16 * (attP j.desc).nspan)] →
      s.m.scratchShort j (s.m.attHomes d j) (fun _ => (attP j.desc).scratch) = [] → goes q.1 (s.m.attHomes d j))) ∧
  (j.op = 0x20 → s.m.linOk j = true → s.m.roomFor d homes = true →
    (linGrouped j.desc = false → lin (.linear d n)) ∧
    (linGrouped j.desc = true → j.reads = [] → j.routeHere = true → lin (.groupedLinear d n)) ∧
    (linGrouped j.desc = true → j.reads = [] → j.routeHere = false → s.m.bme j.ld = true → Runs (.groupedLinear d n) s (fun m =>
      m.out = [Out.hostRead j.ld d n p.route.addr p.routeBytes] ∧ s.m.dataKept m))) ∧
  (j.op = 0x30 → gatherOk s.m j = true → ∀ x, s.m.byHandle (field j.desc 32 4) = some x → goes (.gather d n) [x.home]) ∧
  (j.op = 0x31 → ingestOk s.m j = true → goes (.ingest d n) [d]) ∧
  (j.op = 0x32 → copyOk s.m j = true → goes (.copy d n) (s.m.copyHomes d j)) ∧
  (∀ q ∈ [(Instr.gather d n, 0x30, gatherOk s.m j), (.ingest d n, 0x31, ingestOk s.m j), (.copy d n, 0x32, copyOk s.m j)],
    j.op = q.2.1 → q.2.2 = false → bad q.1)

/-- Jobs over extents start (R58, R96, R97, R99, R243 to R245): SEAL takes its seal stamp and the extent is SEALING; PREFETCH and PIN
ask for their frames; UNPIN drops the ring's pins on them; REPLICATE starts in its turn under Bus Master Enable, and without it is stopped (R278). -/
def Obligations.ExtentJobsStart : Prop := ∀ (s : State) (d n : Nat) (j : Job), s.Ok → d < s.m.n → s.m.ens < s.m.n → s.m.serving = true →
  s.m.job? d n = some j → s.m.mayStart d j = true →
  (j.op = 0x40 → sealOk s.m j = true → ∀ x, s.m.byHandle (field j.desc 32 4) = some x →
    Runs (.seal d n) s (fun m => m.started d n j [x.home] ∧ s.m.bytesKept m
      ∧ (x.state = .opened → x.home < s.m.n → ∃ y, m.byHandle (field j.desc 32 4) = some y ∧ y.state = .sealing ∧ y.home = x.home
          ∧ (m.job? d n).bind (·.start) = some y.sealedAt)
      ∧ (x.sealable = false → m.lse = s.m.lse))) ∧
  (∀ p ∈ [(Instr.prefetch d n, 0x41), (.pin d n, 0x42)], j.op = p.2 → tierOk s.m j = true →
    Runs p.1 s (fun m => m.started d n j (s.m.tierHomes d j) ∧ s.m.bytesKept m ∧ m.lse = s.m.lse)) ∧
  (j.op = 0x43 → tierOk s.m j = true → Runs (.unpin d n) s (fun m => m.started d n j (s.m.tierHomes d j) ∧ s.m.bytesKept m
    ∧ ∀ h < s.m.n, ∀ p ∈ (m.die h).tier.pins, p ∈ (s.m.die h).tier.pins
        ∧ ¬ (p.ring = some j.ring ∧ ∃ f ∈ s.m.tierFrames j, f.1.home = h ∧ f.1.num = p.ext ∧ f.2 = p.idx))) ∧
  (∀ p ∈ [(Instr.seal d n, 0x40, sealOk s.m j), (.prefetch d n, 0x41, tierOk s.m j), (.pin d n, 0x42, tierOk s.m j), (.unpin d n, 0x43, tierOk s.m j),
      (.replicatePush d n, 0x50, decide (replMode j ≠ 0) || replOk s.m j), (.replicateRepair d n, 0x50, decide (replMode j ≠ 1) || replOk s.m j)],
    j.op = p.2.1 → p.2.2 = false → exec p.1 s = .fault (.undefinedCase 6)) ∧
  (j.op = 0x50 → replOk s.m j = true → ∀ x, s.m.byHandle (field j.desc 32 4) = some x → s.m.replTurn x.home j = true →
    ∀ p ∈ [(Instr.replicatePush d n, 0), (.replicateRepair d n, 1)], replMode j = p.2 →
      (s.m.bme j.ld = true → Runs p.1 s (fun m => m.started d n j [x.home] ∧ s.m.dataKept m)) ∧
      (s.m.bme j.ld = false → Runs p.1 s (fun m => (m.job? d n).bind (·.abort) = some 3 ∧ s.m.dataKept m)))

/-- NOP and FENCE (R177, R180): each starts and ends in its own command, and its completion is the ring's next entry; a FENCE waits while
an earlier job of its ring has not completed.
Jobs end (R173, R277, R278): with nothing left to wait for, here an UNPIN, the job completes; a job that is decided to end early completes too,
where Bus Master Enable was cleared counted on its port; the part of a split job returns its status with a pennant.
Upstream reads of a job (R271, R272): data joins what the job has, and the read is over when all has come; with the EP bit or an error it
counts as poisoned, and so does what has not come when the completion timeout ends, which is a pennant of the port. An INGEST reads a second pass. -/
def Obligations.JobsEnd : Prop :=
  (∀ (s : State) (d n : Nat) (j : Job), s.Ok → d < s.m.n → s.m.serving = true → s.m.job? d n = some j →
  s.m.mayStart d j = true → s.m.ringDie j.ring = d → j.noRing = false → (s.fresh.ringOpen j).1 = true →
  (j.op = 0 → Runs (.nop d n) s (fun m => s.m.completed m d n j.ring)) ∧
  (j.op = 1 → (∀ k ∈ s.m.ringJobs j.ring, j.accept ≤ k.accept) → Runs (.fence d n) s (fun m => s.m.completed m d n j.ring)) ∧
  (∀ k ∈ s.m.ringJobs j.ring, k.accept < j.accept → j.op = 1 → exec (.fence d n) s = .next { s with m := s.fresh })) ∧
  (∀ (s : State) (d n : Nat) (j : Job), s.Ok → d < s.m.n → s.m.serving = true → s.m.job? d n = some j →
  j.pre = false → j.orphan = false →
  (s.m.ringDie j.ring = d → j.noRing = false → (s.fresh.ringOpen j).1 = true →
    (j.op = 0x43 → j.start.isSome = true → j.abort = none → j.reads = [] → j.blocked = none → j.split = false →
      Runs (.jobFinish d n) s (fun m => s.m.completed m d n j.ring)) ∧
    (∀ st, j.abort = some st → st ≠ 3 → j.op ≠ 0x31 → Runs (.jobFinish d n) s (fun m => s.m.completed m d n j.ring)) ∧
    (j.abort = some 3 → j.op ≠ 0x31 → ldPort j.ld < s.m.n → Runs (.jobFinish d n) s (fun m => s.m.completed m d n j.ring
      ∧ m.rd (ldPort j.ld) Reg.PORT_BME_ABORTS.COUNT = satAdd 32 (s.m.rd (ldPort j.ld) Reg.PORT_BME_ABORTS.COUNT) 1))) ∧
  (s.m.outSealed j = true → exec (.jobFinish d n) s = .fault (.undefinedCase 6)) ∧
  (∀ h < s.m.n, j.op = 0x43 → j.split = true → j.abort = none → j.reads = [] → j.late (s.m.stamp h (if h = d then none else some j.accept)) = false →
    (∃ p ∈ j.subs, p.home = h ∧ p.start.isSome = true ∧ p.returned = none) → (∀ p ∈ j.subs, p.home = h → p.missed = false) →
    Runs (.subJobFinish d n h) s (fun m => (∃ k, m.job? d n = some k ∧ ∀ p ∈ k.subs, p.home = h → p.returned = some 0 ∧ p.finish.isSome = true)
      ∧ (h ≠ d → m.wrote h uRing pJobFinish 0 2) ∧ s.m.dataKept m))) ∧
  (∀ (s : State) (d n : Nat) (j : Job) (r : HostRead), s.Ok → d < s.m.n → s.m.alive = true →
  s.m.job? d n = some j → j.reads = [r] → r.got < r.len →
  let kept := fun (m : Mach) => s.m.dataKept m ∧ s.m.regsKept m d []
  let joined := fun (c : HostChunk) (m : Mach) => ∃ k, m.job? d n = some k ∧ k.host = j.host ++ [c] ∧ k.desc = j.desc ∧ k.subs = j.subs
    ∧ (r.got + c.data.length < r.len → k.reads = [{ r with got := r.got + c.data.length }])
    ∧ (r.len ≤ r.got + c.data.length → (j.op ≠ 0x31 ∨ r.pass ≠ 1 → k.reads = [] ∧ m.out = [])
      ∧ (j.op = 0x31 → r.pass = 1 → k.reads.map (·.pass) = [2] ∧ m.out = [Out.hostRead j.ld d n (ingestSrc j).addr (ingestSrc j).len]))
  (∀ data, Runs (.upstreamReadCompletion d n r.addr data false true) s (fun m => kept m
      ∧ joined ⟨r.addr + r.got, data.take (r.len - r.got), false, none⟩ m) ∧
    Runs (.upstreamReadCompletion d n r.addr data true true) s (fun m => kept m
      ∧ ∃ o, joined ⟨r.addr + r.got, data.take (r.len - r.got), true, some o⟩ m) ∧
    (∀ ep, Runs (.upstreamReadCompletion d n r.addr data ep false) s (fun m => kept m
      ∧ ∃ bs o, bs.length = r.len - r.got ∧ joined ⟨r.addr + r.got, bs, true, some o⟩ m))) ∧
  (ldPort j.ld < s.m.n → Runs (.portCplTimeout d n r.addr) s (fun m => kept m ∧ (∃ k < 3, m.wrote (ldPort j.ld) uPort pCplTimeout 0 k)
    ∧ ∃ bs o, bs.length = r.len - r.got ∧ joined ⟨r.addr + r.got, bs, true, some o⟩ m)))

/-- Buntings (R209, R210): a close closes it, counted when a deadline had set its close stamp; a closed one that is first in the run order, and whose
frame needs no copy or is in the stage with blocks that pass their checks, or is open and readable, runs once its rows' inputs are at hand: it is counted
with its rows and is gone. -/
def Obligations.Buntings : Prop := ∀ (s : State) (d id : Nat) (b : Bunting), s.Ok → d < s.m.n → s.m.serving = true →
  s.m.halted = false → (s.m.die d).stage.buntings.filter (fun k => decide (k.id = id)) = [b] →
  (b.closed = false → Runs (.buntingClose d id) s (fun m => { b with closed := true } ∈ (m.die d).stage.buntings
    ∧ m.rd d Reg.OPS_BUNTING_CUT.COUNT = (if b.cut then satAdd 32 (s.m.rd d Reg.OPS_BUNTING_CUT.COUNT) 1 else s.m.rd d Reg.OPS_BUNTING_CUT.COUNT)
    ∧ s.m.dataKept m ∧ s.m.regsKept m d [Reg.OPS_BUNTING_CUT.COUNT.off])) ∧
  (b.closed = true → exec (.buntingClose d id) s = .next { s with m := s.fresh }) ∧
  (b.closed = false → exec (.buntingRun d id) s = .next { s with m := s.fresh }) ∧
  (∀ x, b.closed = true → s.m.staged d b = true → s.m.buntStuck d b = false → s.m.ext? b.ext = some x → x.num = b.ext → b.id < (s.m.die d).stage.nextId →
    (∀ c ∈ (s.m.die d).stage.buntings, c.closed = true → c.before b = true → s.m.staged d c = false) →
    let r := s.fresh.rowsReady b
    let e := r.2.entry d b.ext b.idx
    r.1 = .yes →
    (e.state = .zero ∨ e.state = .lost ∨ (x.coded = true ∧ (r.2.t0? d b.cls b.ext b.idx).isSome = true
        ∧ (r.2.t0? d b.cls b.ext b.idx).bind (r.2.copyCheck d x) = none)
      ∨ (x.coded = false ∧ (r.2.useLines x (1024 * b.idx) (1024 * b.idx + 1024)).1 = .yes)) →
    Runs (.buntingRun d id) s (fun m => (∀ c ∈ (m.die d).stage.buntings, c.id ≠ id)
      ∧ m.rd d Reg.OPS_BUNTING_COUNT.COUNT = satAdd 64 (s.m.rd d Reg.OPS_BUNTING_COUNT.COUNT) 1
      ∧ m.rd d Reg.OPS_BUNTING_ROWS.COUNT = satAdd 64 (s.m.rd d Reg.OPS_BUNTING_ROWS.COUNT) b.rows ∧ m.lse = s.m.lse))

/-! ## The tier controller and the codec -/

/-- TIER_FRAME_QUERY and the heat walk (R117, R91, R92): a query of a frame at its home die loads its entry and its heat, any other
shows VALID 0; the walk halves every heat counter and sets the next interval. -/
def Obligations.FrameQueryAndHeat : Prop := ∀ (s : State) (d : Nat), s.Ok → d < s.m.n → s.m.alive = true →
  (∀ (v : Word) (x : Extent), s.m.ext? (bits v.toNat 0 20) = some x → x.home = d →
    s.m.heat d (bits v.toNat 0 20) (bits v.toNat 20 12) < 256 → Runs (.tierFrameQuery d v) s (fun m =>
      m.rd d Reg.TIER_FRAME_HEAT.VALID = 1 ∧ m.rd d Reg.TIER_FRAME_HEAT.HEAT = s.m.heat d (bits v.toNat 0 20) (bits v.toNat 20 12)
      ∧ (∀ i < 6, m.rd d (Reg.TIER_FRAME_ENTRY.ENTRY i) = bits (s.m.entry d (bits v.toNat 0 20) (bits v.toNat 20 12)).pack (32 * i) 32)
      ∧ s.m.dataKept m ∧ s.m.regsKept m d (Reg.TIER_FRAME_HEAT.HEAT.off :: (List.range 6).map (fun i => (Reg.TIER_FRAME_ENTRY.ENTRY i).off)))) ∧
  (∀ v : Word, (∀ x, s.m.ext? (bits v.toNat 0 20) = some x → x.home ≠ d) → Runs (.tierFrameQuery d v) s (fun m =>
    m.rd d Reg.TIER_FRAME_HEAT.VALID = 0 ∧ m.rd d Reg.TIER_FRAME_HEAT.HEAT = 0
    ∧ (∀ i < 6, m.rd d (Reg.TIER_FRAME_ENTRY.ENTRY i) = if i = 3 then 3 else 0) ∧ s.m.dataKept m)) ∧
  (s.m.on d Reg.OPS_STATUS.READY = true ∨ s.m.pw.phase = .furled →
    Runs (.heatDecayWalk d) s (fun m => (∀ ext idx, 2 ≤ s.m.heat d ext idx → m.heat d ext idx = s.m.heat d ext idx / 2)
      ∧ (∀ p ∈ (m.die d).tier.heat, p.2 ≠ 0 ∧ ∃ q ∈ (s.m.die d).tier.heat, p = (q.1, q.2 / 2))
      ∧ (m.die d).tier.decayDue = (s.m.die d).tier.decayDue + clamp 1 86400 (s.m.rd d Reg.TIER_HEAT_DECAY.PERIOD_S) * Config.sec
      ∧ s.m.dataKept m ∧ s.m.regsKept m d []))

/-- Fetches of a settled frame and promotions (R90, R93, R94, R105): one that waited takes a record and begins, with a T2 target where one is wanted
and there is space; an installed one answers its waiting loads with the decoded lines, sets IN_T2 if it has a target, is counted and gone. A promotion
from DRAM ends with its copy in T1, is counted, and waits on a frozen channel.
Page reads of a fetch (R342, R343) and what it holds up (R90, R109, R110, R246, R485): a page that decodes leaves the list, one
that does not climbs the ladder, whose last step fails for good; a load held for the hold time is answered with poison; a lookup that finds no
replica loses the frame, and a replica's frame is checked at its install. -/
def Obligations.Fetches : Prop :=
  (∀ (s : State) (d ext idx : Nat) (x : Extent), s.Ok → d < s.m.n → s.m.alive = true → s.m.ext? ext = some x → x.num = ext →
  let e := s.m.entry d ext idx
  let counted := fun (m : Mach) => m.rd d Reg.TIER_PROMOTE_COUNT.COUNT = satAdd 64 (s.m.rd d Reg.TIER_PROMOTE_COUNT.COUNT) 1
  (∀ f, s.m.fetch? d ext idx = some f → s.m.mayBegin d ext idx = true → Runs (.fetchStart d ext idx) s (fun m =>
      (∃ g, m.fetch? d ext idx = some g ∧ g.begunAt.isSome = true ∧ g.loc = e.t3Loc ∧ g.loads = f.loads ∧ g.jobs = f.jobs ∧ g.pages = s.m.fetchPages d x e
        ∧ g.target.isSome = decide (g.dst = .toT2) ∧ (f.dst ≠ .toT2 → g.dst = f.dst) ∧ (f.dst = .toT2 → g.dst ≠ .toHost))
      ∧ (m.entry d ext idx).state = .promoting ∧ s.m.bytesKept m ∧ m.lse = s.m.lse ∧ s.m.regsKept m d [])) ∧
  (∀ f, s.m.fetch? d ext idx = some f → s.m.mayBegin d ext idx = false → exec (.fetchStart d ext idx) s = .next { s with m := s.fresh }) ∧
  (∀ f, s.m.fetch? d ext idx = some f → f.ext = ext → f.idx = idx → f.done = true → f.thenT1 = false → f.jobs = [] →
    ∀ h, s.m.dramHeader d ext = some h → headerOk x.handle h = true → ∀ bytes, s.m.decodeCopy d x e (f.data.getD (s.m.flashBytes d f.loc (256 * e.granules))) = .ok bytes →
    Runs (.fetchInstall d ext idx) s (fun m => m.fetch? d ext idx = none ∧ (m.entry d ext idx).state = .present
      ∧ (m.entry d ext idx).inT2 = (e.inT2 || f.target.isSome) ∧ (∀ g, f.target = some g → (m.entry d ext idx).t2Loc = g)
      ∧ (∀ l ∈ f.loads, Out.memData l.ld l.dpa (sub bytes (64 * (l.line % 1024)) 64) false ∈ m.out) ∧ counted m ∧ m.lse = s.m.lse
      ∧ (f.target = none → s.m.bytesKept m))) ∧
  (∀ dst < 2, ∀ p, (s.m.die d).tier.promos.find? (fun p => decide (p.ext = ext) && decide (p.idx = idx) && decide (p.dst = dst) && p.endedAt.isNone) = some p →
    (e.state = .lost ∨ e.inT2 = false → Runs (.promotionEnd d ext idx dst) s (fun m => p ∉ (m.die d).tier.promos ∧ counted m ∧ s.m.dataKept m
      ∧ s.m.regsKept m d [Reg.TIER_PROMOTE_COUNT.COUNT.off])) ∧
    (e.state ≠ .lost → e.inT2 = true →
      let g := s.fresh.getBytes d (if dst = 1 then 2 else 1) (256 * e.t2Loc) (256 * e.granules)
      (g.1 = none → Runs (.promotionEnd d ext idx dst) s (fun m => p ∈ (m.die d).tier.promos ∧ s.m.dataKept m)) ∧
      (∀ bs, g.1 = some (bs, false) → dst = 1 → ∀ bytes, s.m.decodeCopy d x e bs = .ok bytes → Runs (.promotionEnd d ext idx dst) s (fun m =>
        p ∉ (m.die d).tier.promos ∧ (m.entry d ext idx).inT1 = true ∧ (m.entry d ext idx).t1Slot = p.slot ∧ counted m ∧ m.lse = s.m.lse)) ∧
      (∀ bs, g.1 = some (bs, false) → dst = 0 → s.m.rd d Reg.ERR_FLIP_CTRL.ARMED = 0 → p.jobs = [] → Runs (.promotionEnd d ext idx dst) s (fun m =>
        p ∉ (m.die d).tier.promos ∧ counted m ∧ s.m.dataKept m))))) ∧
  (∀ (s : State) (d ext idx : Nat) (f : Fetch), s.Ok → d < s.m.n → s.m.alive = true →
  s.m.fetch? d ext idx = some f → f.ext = ext → f.idx = idx →
  (∀ page, f.begunAt.isSome = true → f.ladder = none → f.lookup = false → page ∈ f.pages → s.m.rd d (Reg.FLC_CH_STATUS.STATE (pageChan page)) ≠ 5 →
    (∀ b, Runs (.pageReadComplete d ext idx page (some b)) s (fun m =>
      m.fetch? d ext idx = some { f with pages := f.pages.erase page, done := (f.pages.erase page).isEmpty }
      ∧ m.rd d (Reg.FLC_CH_CE_BITS.COUNT (pageChan page)) = satAdd 32 (s.m.rd d (Reg.FLC_CH_CE_BITS.COUNT (pageChan page))) b ∧ s.m.dataKept m
      ∧ s.m.regsKept m d [(Reg.FLC_CH_CE_BITS.COUNT (pageChan page)).off, Reg.PWR_GATED.FLASH.off, Reg.PWR_STATE.STATE.off])) ∧
    Runs (.pageReadComplete d ext idx page none) s (fun m =>
      m.fetch? d ext idx = some { f with pages := page :: f.pages.erase page, ladder := some 0 }
      ∧ m.rd d Reg.FLC_LADDER_COUNT.CLIMBS = satAdd 16 (s.m.rd d Reg.FLC_LADDER_COUNT.CLIMBS) 1 ∧ s.m.dataKept m)) ∧
  (∀ k p rest, f.lookup = false → f.ladder = some k → f.pages = p :: rest →
    Runs (.readRetryStep d ext idx true) s (fun m => m.fetch? d ext idx = some (if f.climb.isSome then { f with pages := [], ladder := none, done := true }
      else { f with pages := rest, ladder := none, done := rest.isEmpty }) ∧ s.m.dataKept m) ∧
    (k + 1 ≤ min 32 (s.m.rd d Reg.FLC_CONFIG.RETRY_LEN) → Runs (.readRetryStep d ext idx false) s (fun m =>
      m.fetch? d ext idx = some { f with ladder := some (k + 1), climb := f.climb.map (fun _ => k + 1) } ∧ s.m.dataKept m ∧ s.m.regsKept m d [])) ∧
    (min 32 (s.m.rd d Reg.FLC_CONFIG.RETRY_LEN) < k + 1 → s.m.rd d (Reg.FLC_CH_STATUS.STATE (pageChan p)) ≠ 5 → Runs (.readRetryStep d ext idx false) s (fun m =>
      m.rd d Reg.FLC_LADDER_COUNT.FAILED = satAdd 16 (s.m.rd d Reg.FLC_LADDER_COUNT.FAILED) 1
      ∧ m.rd d (Reg.FLC_CH_UE_COUNT.COUNT (pageChan p)) = satAdd 32 (s.m.rd d (Reg.FLC_CH_UE_COUNT.COUNT (pageChan p))) 1))) ∧
  (∀ ld line l, f.loads.find? (fun l => decide (l.ld = ld) && decide (l.line = line)) = some l → Runs (.tierMissHoldExpiry d ext idx ld line) s (fun m =>
    m.fetch? d ext idx = some { f with loads := f.loads.erase l, missNoted := true }
    ∧ (∃ bs, bs.length = 64 ∧ m.out = [Out.memData ld l.dpa bs true])
    ∧ m.rd d Reg.TIER_MISS_COUNT.COUNT = satAdd 32 (s.m.rd d Reg.TIER_MISS_COUNT.COUNT) 1
    ∧ (f.missNoted = false → m.wrote d uTier pTierMiss 0 2) ∧ s.m.dataKept m ∧ s.m.regsKept m d [Reg.TIER_MISS_COUNT.COUNT.off])) ∧
  (f.lookup = true → (s.m.entry d ext idx).state ≠ .lost →
    (∀ c ∈ [Instr.lookupTimeout d ext idx, .readRetryStep d ext idx false], Runs c s (fun m => m.fetch? d ext idx = none
      ∧ (m.entry d ext idx).state = .lost ∧ m.rd d Reg.ERR_ALERT_CAUSE.LOST = 1
      ∧ m.rd d Reg.OPS_LOST_WAITERS.COUNT = satAdd 32 (s.m.rd d Reg.OPS_LOST_WAITERS.COUNT) (f.loads.length + f.jobs.length)
      ∧ (∀ l ∈ f.loads, ∃ bs, bs.length = 64 ∧ Out.memData l.ld l.dpa bs true ∈ m.out) ∧ s.m.bytesKept m)) ∧
    Runs (.readRetryStep d ext idx true) s (fun m => (∃ g, m.fetch? d ext idx = some g ∧ g.done = true ∧ g.lookup = false
      ∧ g.data.map (·.length) = some (256 * (s.m.entry d ext idx).granules)) ∧ s.m.dataKept m)))

/-- Evictions (R100 to R103, R106): the scanner decides nothing below the high marks, and above them only copies that may go; at the
head of the hoist a copy that passes is dropped and counted, one that does not is cancelled and stays; one that is gone already is passed over,
and one on a frozen channel waits (R112). -/
def Obligations.EvictionsRun : Prop := ∀ (s : State) (d : Nat), s.Ok → d < s.m.n → s.m.ready d = true →
  (100 * s.m.t2Used d ≤ s.m.t2Cap d * s.m.markHigh d → 100 * s.m.t1Used d ≤ s.m.t1Max d * s.m.markHigh d →
    exec (.evictionScan d) s = .next { s with m := s.fresh }) ∧
  Runs (.evictionScan d) s (fun m => s.m.dataKept m ∧ s.m.regsKept m d []
    ∧ (∀ v ∈ (s.m.die d).tier.evicts, v ∈ (m.die d).tier.evicts)
    ∧ ∀ v ∈ (m.die d).tier.evicts, v ∈ (s.m.die d).tier.evicts ∨ s.m.evictable d v.ext v.idx v.tier = true) ∧
  (∀ v rest, (s.m.die d).tier.evicts = v :: rest → s.m.avail d v.ext v.idx v.tier = true →
    (if v.tier = 1 then (s.m.entry d v.ext v.idx).inT1 else (s.m.entry d v.ext v.idx).inT2) = true →
    (s.m.evictPasses d v = true → s.m.pinnedIn d v.ext v.idx v.tier = false → (s.m.entry d v.ext v.idx).inT3 = true →
      Runs (.evictionExecute d) s (fun m => (m.die d).tier.evicts = rest ∧ (m.entry d v.ext v.idx).inT1 = false
        ∧ (m.entry d v.ext v.idx).inT2 = (if v.tier = 1 then (s.m.entry d v.ext v.idx).inT2 else false)
        ∧ (m.entry d v.ext v.idx).inT3 = true ∧ m.rd d Reg.TIER_EVICT_COUNT.COUNT = satAdd 64 (s.m.rd d Reg.TIER_EVICT_COUNT.COUNT) 1
        ∧ m.wrote d uTier pEvict 0 2 ∧ s.m.bytesKept m ∧ m.lse = s.m.lse ∧ s.m.regsKept m d [Reg.TIER_EVICT_COUNT.COUNT.off])) ∧
    (s.m.evictPasses d v = false ∨ s.m.pinnedIn d v.ext v.idx v.tier = true ∨ (s.m.entry d v.ext v.idx).inT3 = false →
      Runs (.evictionExecute d) s (fun m => (m.die d).tier.evicts = rest
        ∧ m.rd d Reg.TIER_CANCEL_COUNT.COUNT = satAdd 32 (s.m.rd d Reg.TIER_CANCEL_COUNT.COUNT) 1 ∧ s.m.dataKept m
        ∧ s.m.regsKept m d [Reg.TIER_CANCEL_COUNT.COUNT.off]))) ∧
  (∀ v rest, (s.m.die d).tier.evicts = v :: rest → s.m.avail d v.ext v.idx v.tier = true →
    (if v.tier = 1 then (s.m.entry d v.ext v.idx).inT1 else (s.m.entry d v.ext v.idx).inT2) = false →
    Runs (.evictionExecute d) s (fun m => (m.die d).tier.evicts = rest ∧ s.m.dataKept m ∧ s.m.regsKept m d [])) ∧
  ((∀ v ∈ (s.m.die d).tier.evicts.head?, s.m.avail d v.ext v.idx v.tier = false) → exec (.evictionExecute d) s = .next { s with m := s.fresh })

/-- Relocations and settling (R107, R114): the durable new copy takes over by its entry alone, the old place goes once nothing reads it;
a frame of a sealed extent that only T2 holds is appended to T3. -/
def Obligations.RelocationsAndSettling : Prop := ∀ (s : State) (d ext idx : Nat), s.Ok → d < s.m.n → s.m.flashOk d = true →
  (∀ r g, (s.m.die d).tier.relocs.find? (fun r => decide (r.ext = ext) && decide (r.idx = idx) && r.switchedAt.isNone) = some r → r.written = some g →
    (s.m.entry d ext idx).inT3 = true → Runs (.relocationSwitch d ext idx) s (fun m =>
      m.entry d ext idx = { s.m.entry d ext idx with t3Loc := g } ∧ m.wrote d uTier pRelocate 0 2 ∧ s.m.bytesKept m ∧ m.lse = s.m.lse
      ∧ s.m.regsKept m d [])) ∧
  (∀ r, (s.m.die d).tier.relocs.find? (fun r => decide (r.ext = ext) && decide (r.idx = idx) && r.switchedAt.isSome) = some r →
    ((∀ f, s.m.fetch? d ext idx = some f → f.begunAt = none ∨ f.loc ≠ r.old) → Runs (.oldLocationTrim d ext idx) s (fun m =>
      (m.die d).tier.relocs = (s.m.die d).tier.relocs.erase r ∧ s.m.dataKept m ∧ s.m.regsKept m d [Reg.FLC_STATUS.FULL.off, Reg.FLC_SUPERBLOCKS.TOTAL.off, Reg.FLC_PE_STATS.MAX.off])) ∧
    (∀ f, s.m.fetch? d ext idx = some f → f.begunAt.isSome = true → f.loc = r.old →
      exec (.oldLocationTrim d ext idx) s = .next { s with m := s.fresh })) ∧
  (∀ x, s.m.ext? ext = some x → x.home = d → x.coded = true → x.state ≠ .clearing → x.hdrLocs ≠ [] → (s.m.entry d ext idx).inT3 = false →
    (s.m.entry d ext idx).inT2 = true → (s.m.entry d ext idx).state = .present → s.m.avail d ext idx 2 = true →
    s.m.runOpen d (256 * (s.m.entry d ext idx).t2Loc) (256 * (s.m.entry d ext idx).granules) = true →
    (s.m.fl d).copies.any (fun c => decide (c.kind = .settle ext idx)) = false → (s.m.openSb d .settling).isSome = true →
    (s.fresh.getBytes d 2 (256 * (s.m.entry d ext idx).t2Loc) (256 * (s.m.entry d ext idx).granules)).1.isSome = true →
    s.m.serving = true → Runs (.settleFrame d ext idx) s (fun m => (∃ c ∈ (m.fl d).copies, c.kind = .settle ext idx)
      ∧ m.rd d Reg.FLC_SETTLE_BYTES.COUNT = satAdd 64 (s.m.rd d Reg.FLC_SETTLE_BYTES.COUNT) (256 * (s.m.entry d ext idx).granules)
      ∧ ∀ a, m.norByte a = s.m.norByte a))

/-- Preload and checkpoints (R88, R97, R116): an entry whose slot held no sealed extent when the die became ready is skipped with a pennant of the
ensign, one whose frames are in their tier is done, and preload stops when T2 is at its high mark before a frame; a checkpoint cuts the journal and
shows its stamp. -/
def Obligations.PreloadAndCheckpoint : Prop := ∀ (s : State) (d : Nat), s.Ok → d < s.m.n →
  (s.m.ready d = true → ∀ k, (s.m.die d).tier.preload = some k → ∀ e, s.m.cfg.preload[k]? = some e → s.m.cfg.preload.length ≤ 65536 →
    let goesOn := fun (m : Mach) => s.m.dataKept m ∧ s.m.regsKept m d [Reg.TIER_PRELOAD_STATUS.NEXT.off]
      ∧ (k + 1 < s.m.cfg.preload.length → (m.die d).tier.preload = some (k + 1) ∧ m.rd d Reg.TIER_PRELOAD_STATUS.NEXT = k + 1)
      ∧ (s.m.cfg.preload.length ≤ k + 1 → (m.die d).tier.preload = none ∧ m.rd d Reg.TIER_PRELOAD_STATUS.ACTIVE = 0
          ∧ m.rd d Reg.TIER_PRELOAD_STATUS.DONE = 1)
    (s.m.preloadExt d k = none → Runs (.preloadEntry d) s (fun m => goesOn m ∧ (d = s.m.ens → m.wrote d uTier pPreloadSkip 1 1))) ∧
    (∀ x, s.m.preloadExt d k = some x → x.home ≠ d → Runs (.preloadEntry d) s goesOn) ∧
    (∀ x, s.m.preloadExt d k = some x → x.home = d → e.pin = false → (∀ i ∈ e.frames, s.m.inTier x i e.tier = true ∧ s.m.inTier x i 2 = true) →
      Runs (.preloadEntry d) s goesOn) ∧
    (∀ x, s.m.preloadExt d k = some x → x.home = d → e.pin = false → ∀ i rest, e.frames = i :: rest → s.m.inTier x i 2 = false →
      s.m.fetch? d x.num i = none → s.m.preloadFull d = true → Runs (.preloadEntry d) s (fun m =>
        (m.die d).tier.preload = none ∧ m.rd d Reg.TIER_PRELOAD_STATUS.ACTIVE = 0 ∧ m.rd d Reg.TIER_PRELOAD_STATUS.STOPPED = 1
        ∧ m.wrote d uTier pPreloadStop 0 2 ∧ s.m.dataKept m ∧ s.m.regsKept m d [Reg.TIER_PRELOAD_STATUS.NEXT.off])) ∧
    (∀ x, s.m.preloadExt d k = some x → x.home = d → e.pin = false → ∀ i, e.frames = [i] → s.m.inTier x i 2 = false → s.m.inTier x i e.tier = false →
      s.m.fetch? d x.num i = none → s.m.preloadFull d = false → (s.m.entry d x.num i).inT3 = true → Runs (.preloadEntry d) s (fun m =>
        (∃ f, m.fetch? d x.num i = some f ∧ f.rank = 2 ∧ f.thenT1 = decide (e.tier = 1)) ∧ (m.die d).tier.preload = some k ∧ s.m.bytesKept m))) ∧
  (s.m.flashOk d = true → s.m.serving = true → Runs (.mapCheckpoint d) s (fun m => (m.fl d).seg = [] ∧ (m.fl d).prevSeg = (s.m.fl d).seg
    ∧ (m.fl d).older = (s.m.fl d).newer
    ∧ (∃ sn, (m.fl d).newer = some sn ∧ s.m.stamp d ≤ sn.pck ∧ m.rd d Reg.TIER_CKPT_STAMP.STAMP = sn.pck % 2 ^ 64)
    ∧ m.wrote d uTier pCheckpoint 0 2 ∧ s.m.dataKept m ∧ s.m.regsKept m d [Reg.TIER_CKPT_STAMP.STAMP.off]))

/-- Table slots and blocks (R134 to R137, R140, R141): a table that no slot holds is loaded from the header's DRAM copy, under handle, TIDX and TGEN;
a block that passes its checks against the table it is bound to is counted; one that fails is counted, and the first failure since the last clearing is
captured.
Recoding (R138, R139, R146): XC_RECODE is ignored while one runs and refused for an extent that is not a settled sealed one at this die; a good one
begins; once all its frames and headers are durable the switch gives the extent its new header, tables and span; the old version goes once no earlier
job or host read needs it. -/
def Obligations.TablesBlocksRecoding : Prop :=
  (∀ (s : State) (d : Nat) (u : Expander) (ext : Nat) (x : Extent), s.Ok → d < s.m.n → s.m.ready d = true →
  s.m.ext? ext = some x → x.num = ext → x.coded = true → x.home = d →
  (∀ tidx, tidx < headerTables x.format x.spanLog2 → s.m.slotOf d u x.handle tidx x.tgen = none → ∀ h, s.m.dramHeader d ext = some h →
    headerOk x.handle h = true → ∀ t, headerTable x.format h tidx = some t → t.tgen = x.tgen → t.tidx = tidx →
    ((s.m.die d).xc.slots u).length < expanderSlots u ∨ (∃ k ∈ (s.m.die d).xc.slots u, k.inFlight = 0) → Runs (.tableLoad d u ext tidx) s (fun m =>
      (∃ k, m.slotOf d u x.handle tidx x.tgen = some k ∧ k.lengths = t.lengths)
      ∧ m.rd d Reg.XC_TABLE_LOADS.COUNT = satAdd 32 (s.m.rd d Reg.XC_TABLE_LOADS.COUNT) 1 ∧ s.m.dataKept m
      ∧ s.m.regsKept m d [Reg.XC_SLOT_USED.OP.off, Reg.XC_TABLE_LOADS.COUNT.off])) ∧
  (∀ tidx, headerTables x.format x.spanLog2 ≤ tidx ∨ (s.m.slotOf d u x.handle tidx x.tgen).isSome = true →
    exec (.tableLoad d u ext tidx) s = .next { s with m := s.fresh }) ∧
  (∀ idx b src, b < 16 → idx < 4096 → (s.m.entry d ext idx).state ≠ .zero → (s.m.entry d ext idx).state ≠ .lost →
    let e := s.m.entry d ext idx
    let r := s.fresh.storedBlock d e ext idx b src
    ∀ stored, r.1 = some (.ok stored) →
    let n := e.counts.getD b 0
    let bound := if (blockTable n stored).isSome then (r.2.bindTable d u x e.table).1 else none
    (∀ out, decodeBlock x.format n e.table bound stored allLanes = .ok out → Runs (.blockDecode d u ext idx b src) s (fun m =>
      m.rd d Reg.XC_BLOCKS_DECODED.COUNT = satAdd 64 (s.m.rd d Reg.XC_BLOCKS_DECODED.COUNT) 1 ∧ s.m.dataKept m)) ∧
    (∀ c < 16, decodeBlock x.format n e.table bound stored allLanes = .error c → Runs (.blockDecode d u ext idx b src) s (fun m =>
      m.rd d Reg.XC_ERR_COUNT.COUNT = satAdd 32 (s.m.rd d Reg.XC_ERR_COUNT.COUNT) 1
      ∧ (s.m.on d Reg.XC_ERR_FIRST.VALID = false → m.rd d Reg.XC_ERR_FIRST.VALID = 1 ∧ m.rd d Reg.XC_ERR_FIRST.CHECK = c
          ∧ m.rd d Reg.XC_ERR_FIRST.BLOCK = b ∧ m.rd d Reg.XC_ERR_FIRST.FRAME = idx)
      ∧ s.m.bytesKept m))) ∧
  (∀ idx, 16 ≤ idx → exec (.blockDecode d u ext 0 idx .t3) s = .fault (.absentUnit idx))) ∧
  (∀ (s : State) (d : Nat), s.Ok → d < s.m.n → s.m.ready d = true →
  (∀ v : Word, s.m.on d Reg.XC_RECODE_STATUS.BUSY = true → exec (.xcRecode d v) s = .next { s with m := s.fresh }) ∧
  (∀ v : Word, s.m.on d Reg.XC_RECODE_STATUS.BUSY = false →
    (∀ x, s.m.ext? (bits v.toNat 0 20) = some x → x.state ≠ .sealed ∨ x.settled = false ∨ x.home ≠ d ∨ 0 < bits v.toNat 20 4 ∧ bits v.toNat 20 4 < 4
      ∨ 12 < bits v.toNat 20 4) →
    Runs (.xcRecode d v) s (fun m => m.rd d Reg.XC_RECODE_STATUS.FAILED = 1 ∧ m.rd d Reg.XC_RECODE_STATUS.BUSY = 0
      ∧ m.rd d Reg.XC_RECODE_STATUS.EXTENT = bits v.toNat 0 20 ∧ s.m.dataKept m ∧ s.m.regsKept m d [Reg.XC_RECODE_STATUS.BUSY.off])) ∧
  (∀ (v : Word) x, s.m.on d Reg.XC_RECODE_STATUS.BUSY = false → s.m.ext? (bits v.toNat 0 20) = some x → x.num = bits v.toNat 0 20 → x.state = .sealed →
    x.settled = true → x.home = d → s.m.flashOk d = true → bits v.toNat 20 4 = 0 ∨ 4 ≤ bits v.toNat 20 4 ∧ bits v.toNat 20 4 ≤ 12 →
    Runs (.xcRecode d v) s (fun m => m.rd d Reg.XC_RECODE_STATUS.BUSY = 1 ∧ m.rd d Reg.XC_RECODE_STATUS.DONE = 0
      ∧ m.rd d Reg.XC_RECODE_STATUS.FAILED = 0 ∧ m.rd d Reg.XC_RECODE_STATUS.EXTENT = bits v.toNat 0 20
      ∧ (∃ r, (m.die d).xc.recode = some r ∧ r.ext = x.num ∧ r.tgen = (x.tgen + 1) % 4096
          ∧ r.span = (if bits v.toNat 20 4 = 0 then x.spanLog2 else bits v.toNat 20 4)) ∧ ∀ a, m.norByte a = s.m.norByte a)) ∧
  (let g := s.fresh.recodeGo d
   (∀ r, (g.die d).xc.recode = some r → g.recodeDone d r = false → exec (.recodeSwitch d) s = .next { s with m := g }) ∧
   (∀ r x, (g.die d).xc.recode = some r → g.ext? r.ext = some x → x.num = r.ext → g.recodeDone d r = true → Runs (.recodeSwitch d) s (fun m =>
    (m.die d).xc.recode = none ∧ m.rd d Reg.XC_RECODE_STATUS.BUSY = 0 ∧ m.rd d Reg.XC_RECODE_STATUS.DONE = 1
    ∧ (∃ y, m.ext? r.ext = some y ∧ y.hdrLocs = r.hdrLocs ∧ y.tgen = r.tgen ∧ y.spanLog2 = r.span ∧ y.state = x.state ∧ y.home = x.home)
    ∧ (∃ o ∈ (m.die d).xc.old, o.ext = r.ext ∧ o.tgen = x.tgen ∧ o.hdrLocs = x.hdrLocs)
    ∧ (∀ e a, m.flashByte e a = g.flashByte e a) ∧ ∀ a, m.norByte a = s.m.norByte a))) ∧
  (∀ o rest, (s.m.die d).xc.old = o :: rest →
    ((∀ y ∈ s.m.dies, ∀ j ∈ y.jobs, j.exts.contains o.ext = true → o.tc ≤ j.accept) →
     (∀ f ∈ (s.m.die d).tier.fetches, f.ext = oldNum o.ext o.tgen → f.begunAt = none ∧ f.loads = []) →
     (∀ w ∈ (s.m.die d).coh.waits ++ (s.m.die d).coh.held, w.req.pair.2 = o.ext → o.tc ≤ w.ingress) →
     (∀ c ∈ (s.m.die d).dram.chans, ∀ w ∈ c.waiting, w.req.pair.2 = o.ext → o.tc ≤ w.ingress) → Runs (.recodeTrim d) s (fun m =>
      (m.die d).xc.old = rest ∧ s.m.bytesKept m ∧ m.lse = s.m.lse)) ∧
    ((∃ y ∈ s.m.dies, ∃ j ∈ y.jobs, j.pre = false ∧ j.exts.contains o.ext = true ∧ j.accept < o.tc) →
      exec (.recodeTrim d) s = .next { s with m := s.fresh })))

/-! ## Flash -/

/-- Superblocks and programs (R335 to R338, R341, R347, R351): once the open superblock is done with, the next is erased and empty; below the critical mark
settling waits (log entry 112); a page that programs counts, one that fails closes its superblock; a copy whose last page and the lag after it are programmed
takes effect; the tail wait begins the program of a partly filled page.
Flash channels and the NVM table of bad blocks (R350, R357): a command timeout retrains the channel, which then serves again or is down,
the die read-only; under presence a stale table is copied to the die's NVM area, and no other byte of the NOR changes. -/
def Obligations.FlashPrograms : Prop :=
  (∀ (s : State) (d : Nat) (w : OpenSb), s.Ok → d < s.m.n → s.m.flashOk d = true →
  (∀ fails, s.m.openDone d w = true → Runs (.superblockOpen d w fails) s (fun m =>
    (∀ e a, m.dramByte e a = s.m.dramByte e a) ∧ (∀ a, m.norByte a = s.m.norByte a))) ∧
  (∀ fails, s.m.openDone d w = false → exec (.superblockOpen d w fails) s = .next { s with m := s.fresh }) ∧
  (s.m.openDone d w = true → (s.m.fl d).copies = [] → (s.m.nextSb d).isSome = true → (w = .settling → s.m.reclaimCrit d ≤ (s.m.freeSbs d).length) →
    Runs (.superblockOpen d w []) s (fun m => ∃ k, m.openSb d w = some k ∧ (m.sb d k).next = 0 ∧ (m.sb d k).done = 0 ∧ (m.sb d k).age = 0
      ∧ (∀ a, k * (256 * s.m.sbGran d) ≤ a → a < (k + 1) * (256 * s.m.sbGran d) → m.flashByte d a = 0)
      ∧ (∀ e a, (e ≠ d ∨ a < k * (256 * s.m.sbGran d) ∨ (k + 1) * (256 * s.m.sbGran d) ≤ a) → m.flashByte e a = s.m.flashByte e a)
      ∧ m.lse = s.m.lse ∧ ∀ e, (m.die e).tier.map = (s.m.die e).tier.map)) ∧
  (let g := (s.fresh.landAll d).freeUp d
   s.m.openSb d .settling = none → (g.nextSb d).isSome = true → (g.freeSbs d).length < g.reclaimCrit d →
    exec (.superblockOpen d .settling []) s = .next { s with m := g }) ∧
  (∀ n, s.m.openSb d w = some n → (s.m.sb d n).done < (s.m.sb d n).started →
    Runs (.pageProgramComplete d w true) s (fun m => (m.sb d n).done = (s.m.sb d n).done + 1
      ∧ m.rd d Reg.FLC_PROG_BYTES.COUNT = satAdd 64 (s.m.rd d Reg.FLC_PROG_BYTES.COUNT) 16384 ∧ s.m.bytesKept m
      ∧ ((s.m.fl d).copies = [] → s.m.dataKept m ∧ s.m.regsKept m d [Reg.FLC_PROG_BYTES.COUNT.off])) ∧
    (let c := pageChan (n * s.m.sbPages d + (s.m.sb d n).done)
     Runs (.pageProgramComplete d w false) s (fun m => m.openSb d w ≠ some n ∧ (∀ e a, m.dramByte e a = s.m.dramByte e a)
      ∧ m.rd d (Reg.FLC_CH_FAILS.PROG c) = satAdd 16 (s.m.rd d (Reg.FLC_CH_FAILS.PROG c)) 1)) ∧
    (∀ c g ext idx, (s.m.fl d).copies = [c] → c.kind = .settle ext idx → c.loc = some g → s.m.sbOf d g = n → (s.m.sb d n).st = openState w →
      (s.m.sb d n).done + 1 ≠ s.m.sbPages d → (s.m.ext? ext).isSome = true → (s.m.entry d ext idx).state = .present →
      (g + granulesOf c.data - 1) / 64 - n * s.m.sbPages d + s.m.rd d Reg.FLC_CONFIG.DURABLE_LAG * 8 * s.m.units d < (s.m.sb d n).done + 1 →
      Runs (.pageProgramComplete d w true) s (fun m => m.entry d ext idx = { s.m.entry d ext idx with inT3 := true, t3Loc := g }
        ∧ (m.fl d).copies = [] ∧ m.wrote d uTier pSettle 0 2))) ∧
  (∀ n, s.m.openSb d w = some n → (s.m.sb d n).next % 64 ≠ 0 → (s.m.sb d n).started ≤ (s.m.sb d n).next / 64 → Runs (.tailWaitExpiry d w) s (fun m =>
    (m.sb d n).tail = some ((s.m.sb d n).next / 64) ∧ (s.m.sb d n).next / 64 < (m.sb d n).started ∧ s.m.tailDue d n ≤ m.now d
    ∧ s.m.dataKept m ∧ s.m.regsKept m d []))) ∧
  (∀ (s : State) (d : Nat), s.Ok → d < s.m.n → s.m.alive = true →
  (∀ c < 8, s.m.rd d (Reg.FLC_CH_STATUS.STATE c) = 3 → Runs (.flashCommandTimeout d c) s (fun m => m.rd d (Reg.FLC_CH_STATUS.STATE c) = 2
    ∧ c ∈ (m.fl d).retraining ∧ s.m.dataKept m ∧ s.m.regsKept m d [(Reg.FLC_CH_STATUS.STATE c).off])) ∧
  (∀ c < 8, c ∈ (s.m.fl d).retraining →
    Runs (.flashChannelRetrain d c true) s (fun m => m.rd d (Reg.FLC_CH_STATUS.STATE c) = 3 ∧ c ∉ (m.fl d).retraining ∧ s.m.dataKept m
      ∧ s.m.regsKept m d [(Reg.FLC_CH_STATUS.STATE c).off]) ∧
    Runs (.flashChannelRetrain d c false) s (fun m => m.rd d (Reg.FLC_CH_STATUS.STATE c) = 5 ∧ m.rd d Reg.FLC_STATUS.READ_ONLY = 1
      ∧ bit (m.rd d Reg.FLC_STATUS.CH_DOWN) c = true ∧ m.rd d Reg.FLC_STATUS.RECLAIM_ACTIVE = 0 ∧ m.wrote d (uFlash c) pChDown
      ∧ c ∉ (m.fl d).retraining ∧ s.m.dataKept m ∧ s.m.regsKept m d [(Reg.FLC_CH_STATUS.STATE c).off, Reg.FLC_STATUS.READ_ONLY.off])) ∧
  (s.m.pres.active = true → s.m.rd d Reg.FLC_STATUS.NVM_BBT_STALE = 1 → s.m.nor.running = none →
    ((s.m.fl d).bbt (s.m.units d)).length ≤ 0x100000 → Runs (.bbtNvmCopy d) s (fun m => m.rd d Reg.FLC_STATUS.NVM_BBT_STALE = 0
      ∧ (∀ i < ((s.m.fl d).bbt (s.m.units d)).length, m.norByte (norBbt d + i) = ((s.m.fl d).bbt (s.m.units d)).getD i 0)
      ∧ (∀ a, a < norBbt d ∨ norBbt d + ((s.m.fl d).bbt (s.m.units d)).length ≤ a → m.norByte a = s.m.norByte a)
      ∧ (∀ e a, m.dramByte e a = s.m.dramByte e a) ∧ (∀ e a, m.flashByte e a = s.m.flashByte e a)
      ∧ s.m.regsKept m d [Reg.FLC_STATUS.NVM_BBT_STALE.off])))

/-- Flash at start-up (R324 to R330, R349): discovery of eight channels as the board section says shows the geometry, and the signature decides
between first discovery and recovery; a channel that is not so is a cause of half-mast; first discovery leaves empty maps and the package's serial
number; recovery takes the newer slot that passes, else the older one, and replays its journal. -/
def Obligations.FlashStartUp : Prop := ∀ (s : State) (d : Nat), s.Ok → d < s.m.n → s.m.pw.phase = .startup →
  (∀ f readable suspend, s.m.fw.state ≠ 5 → 5 ≤ s.m.rd d Reg.PWR_START_STEP.STEP → (s.m.fl d).phase = .off → f.ok = true → foundPop f = s.m.cfg.flPop →
    popLimits f = true → f.targets * f.luns < 64 → f.ppb < 8192 → Runs (.flashDiscovery d (List.replicate 8 f) readable suspend) s (fun m =>
      m.rd d Reg.FLC_GEOMETRY.UNITS = f.targets * f.luns ∧ m.rd d Reg.FLC_GEOMETRY.PPB = f.ppb
      ∧ (m.pw.phase = .startup → ∀ c < 8, m.rd d (Reg.FLC_CH_STATUS.STATE c) = 3) ∧ s.m.dataKept m
      ∧ ((s.m.fl d).sig = none → (m.fl d).phase = .first)
      ∧ ((s.m.fl d).sig = some s.m.serial → readable = true → (m.fl d).phase = .recognised)
      ∧ (∀ g, (s.m.fl d).sig = some g → g ≠ s.m.serial → readable = true → s.m.rd d Reg.FLC_CONFIG.FOREIGN = 0 →
          m.pw.phase = .halfMast ∧ m.rd d Reg.PWR_STATE.HALF_MAST_CAUSE = 7))) ∧
  (∀ factory, (s.m.fl d).phase = .first → s.m.rd d Reg.DMC_DEV_STATUS.INIT_DONE = 7 → Runs (.firstDiscovery d factory) s (fun m =>
    (m.fl d).phase = .ready ∧ (m.fl d).sig = some s.m.serial ∧ m.rd d Reg.FLC_STATUS.READY = 1 ∧ m.rd d Reg.FLC_STATUS.FIRST_DISCOVERY = 1
    ∧ m.rd d Reg.FLC_STATUS.NVM_BBT_STALE = 1 ∧ (m.die d).tier.map = [] ∧ (d = s.m.ens → m.lse = Lse.reset) ∧ (d ≠ s.m.ens → m.lse = s.m.lse)
    ∧ (∀ a, m.flashByte d a = 0) ∧ (∀ e a, e ≠ d → m.flashByte e a = s.m.flashByte e a) ∧ (∀ e a, m.dramByte e a = s.m.dramByte e a)
    ∧ ∀ a, m.norByte a = s.m.norByte a)) ∧
  (∀ found readable suspend, found.length = 8 → s.m.fw.state ≠ 5 → 5 ≤ s.m.rd d Reg.PWR_START_STEP.STEP → (s.m.fl d).phase = .off →
    (∃ f ∈ found, f.ok = false ∨ foundPop f ≠ s.m.cfg.flPop ∨ popLimits f = false) → Runs (.flashDiscovery d found readable suspend) s (fun m =>
      m.pw.phase = .halfMast ∧ m.rd d Reg.PWR_STATE.HALF_MAST_CAUSE = 7 ∧ s.m.dataKept m)) ∧
  (∀ tablesOk, (s.m.fl d).phase = .recognised → s.m.rd d Reg.DMC_DEV_STATUS.INIT_DONE = 7 →
    let from' := fun (sn : Snapshot) (m : Mach) => (d = s.m.ens → m.lse = sn.dir) ∧ (m.fl d).phase = .ready ∧ m.rd d Reg.FLC_STATUS.READY = 1
      ∧ m.rd d Reg.FLC_PROG_BYTES.COUNT = sn.prog % 2 ^ 64 ∧ s.m.bytesKept m
    let map := fun (sn : Snapshot) => sn.map.map (fun p => (p.1, p.2.recovered))
    (∀ older sn, (s.m.fl d).newer = some sn →
      ((s.m.fl d).seg = [] → Runs (.mapRecovery d true older ⟨tablesOk, none⟩) s (fun m => (m.die d).tier.map = map sn ∧ from' sn m)) ∧
      (∀ k e, (s.m.fl d).seg = [.map k e] → Runs (.mapRecovery d true older ⟨tablesOk, none⟩) s (fun m =>
        (m.die d).tier.map = SMap.set zeroEntry (map sn) k e.recovered ∧ from' sn m))) ∧
    (∀ sn, (s.m.fl d).newer.isSome = true → (s.m.fl d).older = some sn → (s.m.fl d).prevSeg ++ (s.m.fl d).seg = [] →
      Runs (.mapRecovery d false true ⟨tablesOk, none⟩) s (fun m => (m.die d).tier.map = map sn ∧ from' sn m)))

/-- Upkeep of the flash (R341, R346 to R348, R354, R356, R357): reclaim runs while too few superblocks are free and relocates what is live in the
fullest of them; levelling moves the least worn; a read count above its threshold with good samples is halved, with bad ones its superblock is relocated;
a scrub pass shows the endurance used; an unknown off-time begins a sweep, which ends with its last superblock. DRAM and maps keep all. -/
def Obligations.FlashUpkeep : Prop := ∀ (s : State) (d : Nat), s.Ok → d < s.m.n → s.m.flashOk d = true →
  let same := fun (m : Mach) => (∀ e a, m.dramByte e a = s.m.dramByte e a) ∧ (∀ a, m.norByte a = s.m.norByte a) ∧ m.lse = s.m.lse
    ∧ ∀ e, (m.die e).tier.map = (s.m.die e).tier.map
  let bits := (List.range 8).map (fun c => (Reg.FLC_CH_CE_BITS.COUNT c).off)
  (s.m.pw.phase = .run → (s.m.freeSbs d).length < s.m.rd d Reg.FLC_RECLAIM.LOW → Runs (.reclaimRound d) s (fun m => same m
    ∧ m.rd d Reg.FLC_STATUS.RECLAIM_ACTIVE = (if (m.freeSbs d).length < s.m.rd d Reg.FLC_RECLAIM.LOW then 1 else 0)
    ∧ ((s.m.fullSbs d).length ≤ 8 → ∀ p ∈ (s.m.die d).tier.map, s.m.entry d (p.1 / 4160) (p.1 % 4160) = p.2 → p.1 / 4160 < 2 ^ 20 → p.2.inT3 = true →
        s.m.sbOf d p.2.t3Loc ∈ s.m.fullSbs d → ∃ r ∈ (m.die d).tier.relocs, r.ext = p.1 / 4160 ∧ r.idx = p.1 % 4160))) ∧
  (s.m.pw.phase ≠ .run ∨ s.m.rd d Reg.FLC_RECLAIM.LOW ≤ (s.m.freeSbs d).length → exec (.reclaimRound d) s = .next { s with m := s.fresh }) ∧
  (s.m.pw.phase ≠ .run → exec (.staticLevelling d) s = .next { s with m := s.fresh }) ∧
  (∀ n, s.m.pw.phase = .run → (s.m.fl d).moving = none → minBy (s.m.peSum d) (s.m.fullSbs d) = some n →
    (maxOf ((s.m.dataSbs d).map (s.m.peSum d)) ≤ s.m.peSum d n + s.m.rd d Reg.FLC_WEAR.SPREAD * 8 * s.m.units d → Runs (.staticLevelling d) s (fun m =>
      (m.fl d).moving = none ∧ s.m.dataKept m ∧ s.m.regsKept m d [])) ∧
    (s.m.peSum d n + s.m.rd d Reg.FLC_WEAR.SPREAD * 8 * s.m.units d < maxOf ((s.m.dataSbs d).map (s.m.peSum d)) → Runs (.staticLevelling d) s (fun m =>
      (m.fl d).moving = some n ∧ same m))) ∧
  (∀ (b : BlockAddr) (xs : Samples), (8 ≤ b.ch → exec (.readDisturbCheck d b xs) s = .fault (.absentUnit b.ch)) ∧
    (b.ch < 8 → b.unit < s.m.units d → Runs (.readDisturbCheck d b xs) s same) ∧
    (∀ n, b.ch < 8 → b.unit < s.m.units d → s.m.sbOfBlock d b = some n →
      s.m.rdThresh d < SMap.get (fun _ => (s.m.fl d).readBase) (s.m.fl d).reads (blockKey b.ch b.unit b.blk) →
      xs.any (s.m.badSample d (s.m.sb d n).level) = false → Runs (.readDisturbCheck d b xs) s (fun m =>
        SMap.get (fun _ => (m.fl d).readBase) (m.fl d).reads (blockKey b.ch b.unit b.blk) = s.m.rdThresh d / 2 ∧ s.m.dataKept m ∧ s.m.regsKept m d bits))) ∧
  (∀ xs : List (Nat × Samples), Runs (.scrubPass d xs) s (fun m => same m ∧ s.m.scrubDue d ≤ m.now d
    ∧ (s.m.budgetBytes d = 0 → m.rd d Reg.FLC_ENDURANCE.USED = 0 ∧ m.rd d Reg.FLC_ENDURANCE.PROJECT_DAYS = 0xFFFF)
    ∧ (0 < s.m.budgetBytes d → m.rd d Reg.FLC_ENDURANCE.USED = min 1023 (s.m.rd d Reg.FLC_PROG_BYTES.COUNT * 1000 / s.m.budgetBytes d)))) ∧
  (s.m.ready d = true → (s.m.fl d).hostTime = false → s.m.rd d Reg.FLC_STATUS.SWEEP_ACTIVE = 0 → s.m.rd d Reg.FLC_STATUS.OFFTIME_KNOWN = 0 →
    Runs (.offtimeUnknownTimeout d) s (fun m => m.rd d Reg.FLC_STATUS.SWEEP_ACTIVE = 1 ∧ m.rd d Reg.FLC_SCRUB_STATUS.ACTIVE = 1
      ∧ m.wrote d (uFlash 0) pSweep ∧ s.m.dataKept m ∧ s.m.regsKept m d [Reg.FLC_STATUS.SWEEP_ACTIVE.off, Reg.FLC_SCRUB_STATUS.ACTIVE.off])) ∧
  (∀ xs : Samples, s.m.rd d Reg.FLC_STATUS.SWEEP_ACTIVE = 1 → s.m.pw.phase = .run → Runs (.sweepSuperblock d xs) s same) ∧
  (∀ n rest, s.m.rd d Reg.FLC_STATUS.SWEEP_ACTIVE = 1 → s.m.pw.phase = .run → s.m.unswept d = n :: rest → ∀ xs : Samples,
    xs.any (s.m.badSample d (s.m.sb d n).level) = false → Runs (.sweepSuperblock d xs) s (fun m => (m.sb d n).age = s.m.ageLimit d / 2
      ∧ n ∈ (m.fl d).swept ∧ m.rd d Reg.FLC_STATUS.SWEEP_ACTIVE = (if rest = [] then 0 else 1)
      ∧ (rest = [] → m.rd d Reg.FLC_SCRUB_STATUS.NEXT_SB = 0) ∧ s.m.dataKept m
      ∧ s.m.regsKept m d ([Reg.FLC_STATUS.SWEEP_ACTIVE.off, Reg.FLC_SCRUB_STATUS.ACTIVE.off] ++ bits)))

/-! ## Bandwidth -/

/-- Guarantees and their scaling (R374 to R377, R381): a recompute, which every written guarantee causes, shows what is deliverable, the sum, the
factor and every master's effective guarantee by the formulas of R375 and R376; a written guarantee takes its value alone. -/
def Obligations.QosScaling : Prop := (∀ (s : State) (d : Nat), s.Ok → d < s.m.n → s.m.ready d = true →
  ∀ c, (c = .qosRecompute d ∨ ∃ i v, c = .qosGuarWrite d i v ∧ ∀ k, i = some k → k < 194) →
    Runs c s (fun m => m.rd d Reg.QOS_DELIVERABLE.MBS = 25500 * m.servingCount d ∧ m.rd d Reg.QOS_GUAR_SUM.MBS = m.qSum d
      ∧ m.rd d Reg.QOS_SCALE.FACTOR = (if m.qSum d ≤ 25500 * m.servingCount d then 65536
          else if 25500 * m.servingCount d ≤ m.qMgmt d then 0
          else 65536 * (25500 * m.servingCount d - m.qMgmt d) / (m.qSum d - m.qMgmt d))
      ∧ m.rd d Reg.QOS_STATUS.SCALED = (if 25500 * m.servingCount d < m.qSum d then 1 else 0)
      ∧ (∀ i < 194, m.rd d (Reg.QOS_EFF.MBS i) = if m.qCounts i then m.qGuar d i * m.rd d Reg.QOS_SCALE.FACTOR / 65536 else 0)
      ∧ (∀ e c, m.chState e c = s.m.chState e c) ∧ s.m.dataKept m)) ∧
  (∀ (s : State) (d i : Nat) (v : Word), s.Ok → d < s.m.n → i < 194 → s.m.alive = true →
  Runs (.qosGuarWrite d (some i) v) s (fun m => m.rd d (Reg.QOS_GUAR.MBS i) = bits v.toNat 0 19
    ∧ (∀ k < 194, k ≠ i → m.rd d (Reg.QOS_GUAR.MBS k) = s.m.rd d (Reg.QOS_GUAR.MBS k)) ∧ m.rd d Reg.QOS_MGMT_RATE.MBS = s.m.rd d Reg.QOS_MGMT_RATE.MBS
    ∧ s.m.dataKept m) ∧
  Runs (.qosGuarWrite d none v) s (fun m => m.rd d Reg.QOS_MGMT_RATE.MBS = bits v.toNat 0 19
    ∧ (∀ k < 194, m.rd d (Reg.QOS_GUAR.MBS k) = s.m.rd d (Reg.QOS_GUAR.MBS k)) ∧ s.m.dataKept m))

/-- Admission and its clocks (R361 to R374, R379, R381): a request is charged to the master of its work; within its credit and its flash rate it is
admitted and counted, else at urgency 3 it goes into debt, or it borrows from the pool or waits; management is charged to its reserve; the next window pays
debt first and counts the warm-up down; a tick fills the pool up to its limit and follows congestion. -/
def Obligations.QosAdmission : Prop := ∀ (s : State) (d : Nat), s.Ok → d < s.m.n → s.m.ready d = true →
  (∀ w c accept deadline i port a l, chargeOf w c accept deadline = (some i, port, a, l) → i < 194 → ∀ bytes age,
    let r : QosReq := ⟨i, bytes, port, a, l, s.m.now d - age * 17 / 10⟩
    let x := s.m.master d i
    let counted := fun (m : Mach) => m.rd d (Reg.QOS_BYTES.COUNT i) = satAdd 64 (s.m.rd d (Reg.QOS_BYTES.COUNT i)) bytes
    let kept := fun (m : Mach) => (∀ k, k ≠ i → m.master d k = s.m.master d k) ∧ s.m.dataKept m
    let idle := (s.m.die d).qos.waiting = []
    (s.m.mayAdmit d r = true → Runs (.qosAdmit d w bytes c accept deadline age) s (fun m => counted m ∧ kept m
      ∧ m.master d i = { x with credit := x.credit - bytes, flash := s.m.flashNext d i bytes }
      ∧ (m.die d).qos.pool = (s.m.die d).qos.pool ∧ s.m.regsKept m d [(Reg.QOS_BYTES.COUNT i).off, (Reg.QOS_MSTAT.WAITING i).off])) ∧
    (s.m.mayAdmit d r = false → s.m.reqUrgency d r = 3 → Runs (.qosAdmit d w bytes c accept deadline age) s (fun m => counted m ∧ kept m
      ∧ m.master d i = { x with debt := x.debt + bytes, flash := s.m.flashNext d i bytes } ∧ m.rd d (Reg.QOS_MSTAT.IN_DEBT i) = 1
      ∧ s.m.regsKept m d [(Reg.QOS_BYTES.COUNT i).off, (Reg.QOS_MSTAT.WAITING i).off])) ∧
    (s.m.mayAdmit d r = false → s.m.reqUrgency d r ≠ 3 → Runs (.qosAdmit d w bytes c accept deadline age) s (fun m => s.m.dataKept m
      ∧ (m.die d).qos.pool ≤ (s.m.die d).qos.pool
      ∧ (idle → (s.m.canBorrow d r && s.m.flashFree d i) = false → m.master d i = x ∧ kept m ∧ (m.die d).qos.waiting = [r]
        ∧ m.rd d (Reg.QOS_MSTAT.WAITING i) = 1 ∧ s.m.regsKept m d [(Reg.QOS_MSTAT.WAITING i).off])
      ∧ (idle → s.m.canBorrow d r = true → s.m.flashFree d i = true → x.borrowed + s.m.lacks d r ≤ s.m.borrowLimit d r →
        s.m.lacks d r ≤ (s.m.die d).qos.pool → counted m ∧ kept m ∧ (m.die d).qos.waiting = []
        ∧ m.master d i = { x with
            credit := x.credit + s.m.lacks d r - bytes, borrowed := x.borrowed + s.m.lacks d r, flash := s.m.flashNext d i bytes }
        ∧ (m.die d).qos.pool = (s.m.die d).qos.pool - s.m.lacks d r)))) ∧
  (∀ bytes c accept deadline age, Runs (.qosAdmit d .management bytes c accept deadline age) s (fun m => (∀ k, m.master d k = s.m.master d k) ∧ s.m.dataKept m ∧ s.m.regsKept m d [])) ∧
  (∀ i, (194 ≤ i → exec (.qosWindowStart d i) s = .fault (.absentUnit i)) ∧ (i < 194 → Runs (.qosWindowStart d i) s (fun m =>
    (m.master d i).us = s.m.qWindow d i ∧ (m.master d i).window = m.now d / (Config.us * s.m.qWindow d i)
    ∧ ((s.m.master d i).window + 1) * (Config.us * s.m.qLength d i) ≤ m.now d
    ∧ m.rd d (Reg.QOS_MSTAT.BORROWED i) = (if 0 < (s.m.master d i).borrowed then 1 else 0)
    ∧ m.rd d (Reg.QOS_MSTAT.WARMUP i) = s.m.rd d (Reg.QOS_MSTAT.WARMUP i) - 1 ∧ s.m.dataKept m
    ∧ ((s.m.die d).qos.waiting = [] → (m.master d i).credit = s.m.windowCredit d i - min (s.m.windowCredit d i) (s.m.master d i).debt
      ∧ (m.master d i).debt = (s.m.master d i).debt - s.m.windowCredit d i ∧ (m.master d i).borrowed = 0
      ∧ m.rd d (Reg.QOS_MSTAT.IN_DEBT i) = (if s.m.windowCredit d i < (s.m.master d i).debt then 1 else 0)
      ∧ s.m.regsKept m d [(Reg.QOS_MSTAT.WAITING i).off])))) ∧
  Runs (.qosTick d) s (fun m => (s.m.die d).qos.lastTick < (m.die d).qos.lastTick
    ∧ ((s.m.die d).qos.waiting = [] → (m.die d).qos.pool = min (s.m.poolLimit d) ((s.m.die d).qos.pool + s.m.poolGain d))
    ∧ ((∃ c < 12, s.m.chServing d c = true ∧ s.m.qHigh d < s.m.queueLevel d c) → m.rd d Reg.QOS_STATUS.CONGESTED = 1)
    ∧ ((∀ c < 12, s.m.chServing d c = true → s.m.queueLevel d c ≤ s.m.qLow d) → m.rd d Reg.QOS_STATUS.CONGESTED = 0) ∧ s.m.dataKept m)

/-- The borrow step (R371): at each 8 µs boundary it rises by one to at most 4 during congestion and falls by one without; it scales what a request
without a deadline may borrow by 1, 1/2, 1/4, 1/8 or 0, not what one with a deadline may, and reduces no guaranteed credit. -/
def Obligations.BorrowStep : Prop :=  (∀ (s : State) (d : Nat), s.Ok → d < s.m.n → s.m.ready d = true → Runs (.borrowStepUpdate d) s (fun m => m.rd d Reg.QOS_STATUS.BORROW_STEP =
      (if s.m.rd d Reg.QOS_STATUS.CONGESTED = 0 then s.m.rd d Reg.QOS_STATUS.BORROW_STEP - 1 else min 4 (s.m.rd d Reg.QOS_STATUS.BORROW_STEP + 1))
    ∧ (s.m.die d).qos.lastStep < (m.die d).qos.lastStep
    ∧ s.m.dataKept m ∧ s.m.regsKept m d [Reg.QOS_STATUS.BORROW_STEP.off])) ∧
  (∀ (m : Mach) (d step : Nat) (r : QosReq), d < m.n → step ≤ 4 →
    let k := m.wr d Reg.QOS_STATUS.BORROW_STEP step
    k.borrowLimit d r = (if r.timed = true then m.qBorrow d r.m * m.qLength d r.m else if step = 4 then 0 else m.qBorrow d r.m * m.qLength d r.m / 2 ^ step)
    ∧ k.windowCredit d r.m = m.windowCredit d r.m)

/-! ## Pools, firmware, attestation -/

/-- Joins and roles (R476 to R479): the ensign package admits a compatible peer with a free number and names what is wrong otherwise; a worker asks
again, joins on the answer 0 and stops on another; a lost ensign package leaves it unjoined; POOL_ROLE_SET needs presence and its key.
Schedules (R494, R499): a schedule whose packages are members with an installed image and stay compatible after each step begins with T_act to its
first package; a confirmation goes on to the next, a fallback ends it; one that runs already refuses another. -/
def Obligations.PoolMembership : Prop :=
  (∀ s : State, s.Ok → s.m.ens < s.m.n →
  (∀ x : PoolMember, s.m.leads = true → ∀ c, c = Instr.poolJoin x.pkg x.version x.peerMin x.peerMax x.rid →
    (s.m.judgeJoin x = some 0 → Runs c s (fun m => x ∈ m.pool.members ∧ (∀ k ∈ s.m.pool.members, k.pkg ≠ x.pkg → k ∈ m.pool.members)
      ∧ m.out = [Out.pool 1 x.pkg (s.m.stamp s.m.ens) [0]] ∧ m.dies = s.m.dies ∧ s.m.dataKept m)) ∧
    (∀ a, s.m.judgeJoin x = some a → a ≠ 0 → Runs c s (fun m => m = { s.fresh with out := [Out.pool 1 x.pkg (s.m.stamp s.m.ens) [a]] })) ∧
    ((∀ p ∈ s.m.cfg.peers, p.2 ≠ x.rid) → exec c s = .next { s with m := s.fresh }) ∧
    ((∃ p ∈ s.m.cfg.peers, p.2 = x.rid) → (∃ k ∈ s.m.members, k.pkg = x.pkg ∧ k.rid ≠ x.rid) → s.m.judgeJoin x = some 1)) ∧
  (s.m.serving = true → s.m.pool.role = 2 → s.m.inPool = false → s.m.pool.refused = false →
    Runs (.joinRetry none) s (fun m => (∃ t, m.out = [Out.pool 0 0 t [s.m.pw.poolId, fwVersion s.m.fw.header, fwPeerMin s.m.fw.header, fwPeerMax s.m.fw.header]])
      ∧ s.m.dataKept m ∧ s.m.regsKept m 0 []) ∧
    Runs (.joinRetry (some 0)) s (fun m => m.inPool = true ∧ (∀ d < s.m.n, m.rd d Reg.POOL_STATUS.JOINED = 1)
      ∧ m.out = [Out.pool 4 0 (s.m.stamp s.m.ens) (3 :: s.m.pw.poolId :: s.m.ownCopies)] ∧ s.m.dataKept m) ∧
    Runs (.joinRetry (some 1)) s (fun m => m.pool.refused = true ∧ (∀ d < s.m.n, m.rd d Reg.POOL_STATUS.ID_CONFLICT = 1) ∧ m.out = [] ∧ s.m.dataKept m)) ∧
  (s.m.serving = true → s.m.pool.role = 2 → s.m.inPool = true → Runs .ensignLost s (fun m => m.inPool = false
    ∧ (∀ d < s.m.n, m.rd d Reg.POOL_STATUS.ENSIGN_LOST = 1 ∧ m.rd d Reg.POOL_STATUS.JOINED = 0) ∧ s.m.dataKept m)) ∧
  (∀ (d : Nat) (v : Word), d < s.m.n → s.m.serving = true → bits v.toNat 8 24 = 0x524F4C → bits v.toNat 0 8 ≤ 2 →
    (s.m.pres.active = true → Runs (.poolRoleSet .service d v) s (fun m =>
      (s.m.cfg.mgmtLd.isSome = true → m.pool.role = bits v.toNat 0 8) ∧ (s.m.cfg.mgmtLd = none → m.pool.role = 0)
      ∧ (∀ e < s.m.n, m.rd e Reg.POOL_STATUS.ROLE = m.pool.role ∧ m.rd e Reg.POOL_STATUS.JOINED = (if m.pool.role = 1 then 1 else 0)) ∧ s.m.dataKept m)) ∧
    (s.m.pres.active = false → exec (.poolRoleSet .service d v) s = .next { s with m := s.fresh }) ∧
    exec (.poolRoleSet .mgmt d v) s = .next { s with m := s.fresh })) ∧
  (∀ s : State, s.Ok → s.m.ens < s.m.n → s.m.leads = true →
  (∀ p rest delay news, s.m.pool.schedule = none →
    let all := news.filter (fun x => decide (x.1 ≠ s.m.pw.poolId)) ++ s.m.installedSelf.toList
    (∀ q ∈ p :: rest, (∃ k ∈ s.m.members, k.pkg = q) ∧ ∃ x ∈ all, x.1 = q) → s.m.pw.poolId ∉ (p :: rest).dropLast →
    stepsCompatible all s.m.members (p :: rest) = true → Runs (.poolSchedule (p :: rest) delay news) s (fun m =>
      m.pool.schedule = some ⟨p :: rest, delay⟩ ∧ Out.service 0x20 0 [0] ∈ m.out ∧ s.m.dataKept m ∧ m.dies = s.m.dies
      ∧ (p ≠ s.m.pw.poolId → Out.pool 13 p (s.m.stamp s.m.ens) [s.m.stamp s.m.ens + clamp 10 3600000 delay * Config.ms] ∈ m.out)
      ∧ (p = s.m.pw.poolId → m.fw.tact = some (s.m.stamp s.m.ens + clamp 10 3600000 delay * Config.ms)))) ∧
  (∀ order delay news, s.m.pool.schedule.isSome = true → Runs (.poolSchedule order delay news) s (fun m =>
    m.pool.schedule = s.m.pool.schedule ∧ m.out = [Out.service 0x20 0 [1]] ∧ s.m.dataKept m ∧ s.m.regsKept m s.m.ens [])) ∧
  (∀ p rest delay, s.m.pool.schedule = some ⟨p :: rest, delay⟩ →
    Runs (.scheduleConfirm p .confirmed) s (fun m => m.dies = s.m.dies ∧ s.m.dataKept m
      ∧ (rest = [] → m.pool.schedule = none ∧ m.out = [])
      ∧ (∀ q l, rest = q :: l → m.pool.schedule = some ⟨q :: l, delay⟩ ∧ (q ≠ s.m.pw.poolId →
          m.out = [Out.pool 13 q (s.m.stamp s.m.ens) [s.m.stamp s.m.ens + clamp 10 3600000 delay * Config.ms]]))) ∧
    Runs (.scheduleConfirm p .fellBack) s (fun m => m.pool.schedule = none ∧ m.out = [] ∧ s.m.dataKept m ∧ s.m.regsKept m s.m.ens [])))

/-- Time anchors (R384, R480 to R482): an anchor carries its send stamp; a worker's receive stamp exceeds it, its reply carries the three stamps, and
an offset slews every die or, below -340 ticks, steps its time forward; the ensign package takes the offset from the four stamps and above 1,700,000
ticks steps forward itself. -/
def Obligations.TimeAnchors : Prop := ∀ s : State, s.Ok → s.m.ens < s.m.n →
  (∀ pkg, s.m.leads = true → (s.m.pool.members.any (fun k => decide (k.pkg = pkg))) = true → Runs (.anchorSend pkg) s (fun m =>
    (∃ args, m.out = [Out.pool 2 pkg (m.die s.m.ens).clk.last args] ∧ args.length = 4
      ∧ (s.m.pool.thetas.find? (fun t => decide (t.1 = pkg)) = none → args.take 2 = [0, 0])) ∧ s.m.stamp s.m.ens ≤ (m.die s.m.ens).clk.last
    ∧ s.m.readyAt s.m.ens + clamp 100 100000 (s.m.rd s.m.ens Reg.POOL_ANCHOR_PERIOD.US) * Config.us ≤ m.now s.m.ens ∧ s.m.dataKept m ∧ s.m.regsKept m s.m.ens [])) ∧
  (∀ t1, s.m.serving = true → s.m.pool.role = 2 → s.m.inPool = true →
    (∀ theta, Runs (.anchorReceive t1 theta none) s (fun m => (∃ t2 t3, t1 < t2 ∧ t2 ≤ t3 ∧ m.out = [Out.pool 3 0 t3 [t1, t2, t3]]) ∧ s.m.dataKept m)) ∧
    (∀ q : Int, -340 ≤ q → q ≤ 1700000 → Runs (.anchorReceive t1 (some q) none) s (fun m => ∀ d < s.m.n, (m.die d).clk.slew = q
      ∧ m.now d = s.m.now d ∧ m.rd d Reg.POOL_OFFSET.TICKS = unsigned 32 q
      ∧ (s.m.pool.corrected = true → 340 < q → m.rd d Reg.POOL_STATUS.SKEW_ERR = 1))) ∧
    (∀ q : Int, q < -340 → -(2 ^ 31) ≤ q → Runs (.anchorReceive t1 (some q) none) s (fun m => ∀ d < s.m.n, m.rd d Reg.POOL_OFFSET.TICKS = unsigned 32 q
      ∧ ((s.m.die d).clk.fineRuns = true → m.now d = s.m.now d + q.natAbs)))) ∧
  (∀ (pkg t1 t2 t3 : Nat), s.m.leads = true → (s.m.pool.members.any (fun k => decide (k.pkg = pkg))) = true →
    let t4 := s.m.stamp s.m.ens (some t3)
    let theta : Int := (((t2 : Int) - t1) - ((t4 : Int) - t3)) / 2
    Runs (.anchorReply pkg t1 t2 t3) s (fun m => t3 < t4 ∧ m.pool.thetas.find? (fun t => decide (t.1 = pkg)) = some (pkg, theta)
      ∧ (theta ≤ 1700000 → ∀ d, m.now d = s.m.now d)
      ∧ (1700000 < theta → ∀ d < s.m.n, (s.m.die d).clk.fineRuns = true → m.now d = s.m.now d + theta.natAbs) ∧ s.m.dataKept m))

/-- The directory of replicas (R484, R485) and incoming pushes (R486, R487): a reported copy of a member is listed, a released one forgotten; a lookup
answers at most four copies; an OPEN that passes makes a SEALING extent, its frames are stored or LOST, CLOSE seals and offers it, and 10 s of silence
release it. -/
def Obligations.ReplicasAndPushes : Prop := ∀ s : State, s.Ok → s.m.ens < s.m.n →
  (∀ c : ReplicaCopy, s.m.leads = true → (s.m.pool.members.any (fun k => decide (k.pkg = c.pkg))) = true →
    (s.m.pool.directory.length < 1048576 → Runs (.replicaReport (.pushed c)) s (fun m => c ∈ m.pool.directory
      ∧ (∀ k ∈ s.m.pool.directory, k ∈ m.pool.directory) ∧ (∀ k ∈ m.pool.directory, k = c ∨ k ∈ s.m.pool.directory) ∧ m.dies = s.m.dies ∧ s.m.dataKept m)) ∧
    Runs (.replicaReport (.released c.pkg c.handle)) s (fun m => (∀ k, k ∈ m.pool.directory ↔ k ∈ s.m.pool.directory ∧ ¬ (k.pkg = c.pkg ∧ k.handle = c.handle))
      ∧ m.dies = s.m.dies ∧ s.m.dataKept m)) ∧
  (∀ asker op oh, s.m.leads = true → (s.m.pool.members.any (fun k => decide (k.pkg = asker))) = true → Runs (.replicaLookup asker op oh) s (fun m =>
    ∃ l, m = { s.fresh with out := [Out.pool 6 asker (s.m.stamp s.m.ens) l] } ∧ l.length ≤ 8
      ∧ (l = [] ↔ ∀ k ∈ s.m.pool.directory, k.originPkg = op → k.originHandle = oh → k.pkg = asker))) ∧
  (∀ src op oh header dim ld region slot, s.m.serving = true → s.m.inPool = true →
    (openHeaderOk header = false → Runs (.poolOpen src op oh header dim ld region slot) s (fun m =>
      m = { s.fresh with out := [Out.pool 10 src (s.m.stamp s.m.ens) [0, 0]] })) ∧
    (∀ k home num, openHeaderOk header = true → s.m.assigned ld = true → s.m.pushChecks ld region slot = .ok (k, home) → s.m.freeNumber = some num →
      (s.fresh.openPush src (op, oh) header dim ld region k home num).isSome = true → Runs (.poolOpen src op oh header dim ld region slot) s (fun m =>
        (∃ y, m.ext? num = some y ∧ y.state = .sealing ∧ y.home = home ∧ y.origin = some (op, oh) ∧ y.shared = decide (region = 1))
        ∧ (∃ r ∈ m.pool.rx, r.ext = num ∧ r.src = src ∧ r.ld = ld ∧ r.region = region ∧ r.slot = k) ∧ (∃ t, Out.pool 10 src t [1, home] ∈ m.out)))) ∧
  (∀ r x, s.m.serving = true → s.m.pool.rx.find? (fun q => decide (q.ext = x.num)) = some r → s.m.ext? x.num = some x → x.home < s.m.n →
    (∀ rx < 16, ∀ idx < 4160, Runs (.frameDone x.num rx idx []) s (fun m => (m.entry x.home x.num idx).state = .lost
      ∧ m.rd x.home Reg.ERR_ALERT_CAUSE.LOST = 1 ∧ m.wrote x.home uTier pLost 0 2 ∧ s.m.bytesKept m)) ∧
    (∀ rx < 16, ∀ idx < 4160, ∀ sectors : List Nat, sectors.length = 16 → (∀ n ∈ sectors, 1 ≤ n ∧ n ≤ 64) →
      let coded := s.m.rxBytes x.home rx (64 * sumOf sectors)
      ∀ bytes, s.m.decodeCopy x.home x (rxEntry x idx sectors) coded = .ok bytes →
      (s.fresh.storeT2 x.home x.num idx 2 sectors (rxEntry x idx sectors).table coded).isSome = true → Runs (.frameDone x.num rx idx sectors) s (fun m =>
        (m.entry x.home x.num idx).state = .present ∧ (m.entry x.home x.num idx).inT2 = true ∧ (m.entry x.home x.num idx).sectors = packSectors sectors
        ∧ (∀ e a, m.flashByte e a = s.m.flashByte e a) ∧ ∀ a, m.norByte a = s.m.norByte a)) ∧
    (x.state = .sealing → Runs (.poolClose x.num) s (fun m => (∃ y, m.ext? x.num = some y ∧ y.state = .sealed ∧ y.home = x.home)
      ∧ (∃ l ∈ m.lse.leases, l.ext = x.num ∧ l.ld = r.ld ∧ l.region = r.region ∧ l.slot = r.slot ∧ l.state = .offered)
      ∧ m.pool.rx = s.m.pool.rx.erase r ∧ (∃ t, Out.pool 11 r.src t [x.handle, r.slot, 0] ∈ m.out) ∧ s.m.bytesKept m)) ∧
    Runs (.pushTimeout x.num) s (fun m => (∃ y, m.ext? x.num = some y ∧ y.state = .releasing ∧ y.was = .sealing)
      ∧ m.pool.rx = s.m.pool.rx.erase r ∧ (∃ t, Out.pool 11 r.src t [0, 0, 2] ∈ m.out) ∧ s.m.bytesKept m))

/-- An install (R489 to R493): FW_BEGIN needs presence, no install under way and lengths that the slots hold; the backup copy fills the backup slot and
nothing else; FW_DATA in order programs the active slot; FW_END ends in INSTALLED or in the first error of R491, FW_ABORT in error 10, after which the
backup is copied back. -/
def Obligations.FirmwareInstall : Prop := ∀ s : State, s.Ok → s.m.ens < s.m.n → s.m.powered = true →
  (∀ imageLen cfgLen, 352 ≤ imageLen → imageLen ≤ fwSlotLen → cfgLen ≤ 8388608 →
    (s.m.pres.active = true → s.m.fw.state = 0 → Runs (.fwBegin imageLen cfgLen) s (fun m => m.fw.state = 1 ∧ m.fw.imageLen = imageLen ∧ m.fw.cfgLen = cfgLen
      ∧ m.fw.received = 0 ∧ m.nor.wpHigh = true ∧ (∀ d < s.m.n, m.rd d Reg.FW_STATUS.BACKUP_VALID = 0 ∧ m.rd d Reg.FW_STATUS.LAST_ERROR = 0)
      ∧ m.out = [Out.service 1 0 []] ∧ m.wrote s.m.ens uMgmt pInstall ∧ s.m.dataKept m)) ∧
    (s.m.pres.active = false → Runs (.fwBegin imageLen cfgLen) s (fun m => m.fw = s.m.fw ∧ (∀ d < s.m.n, m.rd d Reg.FW_STATUS.LAST_ERROR = 1)
      ∧ m.out = [Out.service 1 1 []] ∧ s.m.dataKept m)) ∧
    (s.m.pres.active = true → s.m.fw.state ≠ 0 → Runs (.fwBegin imageLen cfgLen) s (fun m => m.fw = s.m.fw ∧ (∀ d < s.m.n, m.rd d Reg.FW_STATUS.LAST_ERROR = 2)
      ∧ m.out = [Out.service 1 2 []] ∧ s.m.dataKept m))) ∧
  (s.m.fw.state = 1 → s.m.fw.restoring = none → s.m.rd s.m.ens Reg.FW_STATUS.RUNNING_SLOT = 0 → Runs (.backupCopyComplete true) s (fun m => m.fw.state = 2
    ∧ (∀ d < s.m.n, m.rd d Reg.FW_STATUS.BACKUP_VALID = 1) ∧ (∀ i < fwSlotLen, m.norByte (norFwSlot 1 + i) = s.m.norByte (norFwSlot 0 + i))
    ∧ (∀ a, a < norFwSlot 1 ∨ norFwSlot 1 + fwSlotLen ≤ a → m.norByte a = s.m.norByte a)
    ∧ (∀ e a, m.dramByte e a = s.m.dramByte e a) ∧ ∀ e a, m.flashByte e a = s.m.flashByte e a)) ∧
  (∀ data : List Byte, s.m.fw.state = 2 → s.m.fw.restoring = none → data.length ≤ 48 → s.m.fw.received + data.length ≤ s.m.fw.imageLen →
    Runs (.fwData s.m.fw.received data) s (fun m => m.fw.received = s.m.fw.received + data.length ∧ m.out = [Out.service 2 0 []]
      ∧ (∀ i < data.length, m.norByte (norFwSlot 0 + s.m.fw.received + i) = data.getD i 0)
      ∧ (∀ a, a < norFwSlot 0 + s.m.fw.received ∨ norFwSlot 0 + s.m.fw.received + data.length ≤ a → 0 < s.m.fw.received → m.norByte a = s.m.norByte a)
      ∧ (∀ a, a < norFwSlot 0 ∨ norFwSlot 0 + 16777216 ≤ a → s.m.fw.received = 0 → m.norByte a = s.m.norByte a) ∧ m.dies = s.m.dies)) ∧
  (∀ (offset : Nat) (data : List Byte), s.m.fw.state = 2 → s.m.fw.restoring = none → offset ≠ s.m.fw.received ∨ 48 < data.length →
    Runs (.fwData offset data) s (fun m => m.fw = s.m.fw ∧ (∀ d < s.m.n, m.rd d Reg.FW_STATUS.LAST_ERROR = 8) ∧ m.out = [Out.service 2 8 []] ∧ s.m.dataKept m)) ∧
  (∀ (v : FwVerdict) (e : Nat), s.m.fw.state = 2 → s.m.fw.restoring = none → (∀ other, s.m.fwFault v other = e) → Runs (.fwEnd v) s (fun m =>
    m.fw.state = (if e = 0 then 4 else 3) ∧ m.fw.restoring = (if e = 0 then none else some e) ∧ m.out = [Out.service 3 e []]
    ∧ (e = 0 → m.fw.newSec = fwSec (s.m.nor.fwHeader 0)) ∧ s.m.dataKept m ∧ m.dies = s.m.dies)) ∧
  (s.m.fw.restoring = none → s.m.fw.state ∈ [2, 3, 4] → Runs .fwAbort s (fun m => m.fw.restoring = some 10 ∧ m.fw.tact = none ∧ m.fw.state = s.m.fw.state
    ∧ m.out = [Out.service 6 0 []] ∧ s.m.dataKept m ∧ m.dies = s.m.dies)) ∧
  (∀ e, s.m.fw.restoring = some e → e < 16 → Runs (.restoreCopyComplete true) s (fun m => m.fw.state = 0 ∧ m.fw.restoring = none
    ∧ m.nor.wpHigh = s.m.pres.active ∧ (e ≠ 0 → ∀ d < s.m.n, m.rd d Reg.FW_STATUS.LAST_ERROR = e)
    ∧ (∀ i < fwSlotLen, m.norByte (norFwSlot 0 + i) = s.m.norByte (norFwSlot 1 + i))
    ∧ (∀ a, a < norFwSlot 0 ∨ norFwSlot 0 + fwSlotLen ≤ a → m.norByte a = s.m.norByte a)))

/-- Activation and confirmation (R494 to R497): FW_ACTIVATE sets T_act from an INSTALLED image outside a pool and is refused by name otherwise; at T_act the
die set restarts in ACTIVATED with its deadline; the new image's own confirmation with the key ends the install and raises the counter; the deadline
falls back and restarts.
Attestation and the service port (R488, R489, R500 to R502): SETDASA answers at static address 0x5A alone, ENTDAA gives the address; FW_STATUS, GET_CERT
and ATTEST answer and change nothing but the last stamp; the response names the die, the nonce and its stamp. -/
def Obligations.FirmwareActivation : Prop :=
  (∀ s : State, s.Ok → s.m.ens < s.m.n → s.m.powered = true →
  (∀ ms, s.m.fw.restoring = none →
    (s.m.inPool = false → s.m.fw.state = 4 → s.m.fw.tact = none → Runs (.fwActivate ms none) s (fun m =>
      m.fw.tact = some (s.m.stamp s.m.ens + clamp 10 3600000 ms * Config.ms) ∧ m.fw.state = 4 ∧ m.out = [Out.service 4 0 []] ∧ s.m.dataKept m
      ∧ s.m.regsKept m s.m.ens [])) ∧
    (∀ e, (s.m.inPool = true ∧ e = 9 ∨ s.m.inPool = false ∧ s.m.fw.state ≠ 4 ∧ e = 11 ∨ s.m.inPool = false ∧ s.m.fw.state = 4 ∧ s.m.fw.tact.isSome = true ∧ e = 2) →
      Runs (.fwActivate ms none) s (fun m => m.fw = s.m.fw ∧ m.out = [Out.service 4 e []] ∧ (∀ d < s.m.n, m.rd d Reg.FW_STATUS.LAST_ERROR = e) ∧ s.m.dataKept m))) ∧
  (∀ t, s.m.fw.restoring = none → s.m.fw.state = 4 → s.m.fw.tact = some t → s.m.nor.running = none → Runs .activation s (fun m => m.pw.phase = .startup ∧ m.fw.state = 5
    ∧ m.fw.deadline = t + 1020000000000 ∧ (∀ d < s.m.n, m.rd d Reg.PWR_START_STEP.STEP = 1) ∧ (∀ a, 4096 ≤ a → m.norByte a = s.m.norByte a)
    ∧ (s.m.fw.cfgAfter = s.m.fw.cfgBefore → ∀ a, m.norByte a = s.m.norByte a) ∧ ∀ d < s.m.n, ∀ a, m.flashByte d a = s.m.flashByte d a)) ∧
  Runs .fwConfirmReq s (fun m => (∀ d < s.m.n, m.rd d Reg.FW_STATUS.CONFIRM_REQ = 1) ∧ m.out = [Out.service 5 0 []] ∧ s.m.dataKept m) ∧
  (s.m.halted = false → s.m.fw.state = 5 → s.m.rd s.m.ens Reg.FW_STATUS.CONFIRM_MODE = 0 ∨ s.m.rd s.m.ens Reg.FW_STATUS.CONFIRM_REQ = 1 →
    Runs (.fwHealthConfirm true 0x434F4E46 true) s (fun m => m.fw.state = 0 ∧ m.nor.counter = max s.m.nor.counter s.m.fw.newSec
      ∧ m.nor.wpHigh = s.m.pres.active ∧ m.wrote s.m.ens uMgmt pConfirm
      ∧ (∀ d < s.m.n, m.rd d Reg.FW_COUNTS.INSTALLS = satAdd 16 (s.m.rd d Reg.FW_COUNTS.INSTALLS) 1) ∧ s.m.dataKept m)) ∧
  (∀ (own ok : Bool) (key : Word), own = false ∨ key ≠ 0x434F4E46 ∨ s.m.fw.state ≠ 5 → exec (.fwHealthConfirm own key ok) s = .next { s with m := s.fresh }) ∧
  (s.m.fw.state = 5 → s.m.nor.running = none → Runs .confirmDeadline s (fun m => m.pw.phase = .startup ∧ m.fw.state = 6
    ∧ (∀ d < s.m.n, m.rd d Reg.FW_COUNTS.FALLBACKS = satAdd 16 (s.m.rd d Reg.FW_COUNTS.FALLBACKS) 1) ∧ (∀ a, 4096 ≤ a → m.norByte a = s.m.norByte a)
    ∧ ∀ d < s.m.n, ∀ a, m.flashByte d a = s.m.flashByte d a))) ∧
  (∀ s : State, s.Ok → s.m.powered = true →
  (∀ st dyn, dyn < 128 → (st = 0x5A → Runs (.setdasa st dyn) s (fun m => m.pw.serviceAddr = some dyn ∧ m.dies = s.m.dies ∧ s.m.dataKept m)) ∧
    (st ≠ 0x5A → exec (.setdasa st dyn) s = .next { s with m := s.fresh }) ∧
    Runs (.entdaa dyn) s (fun m => m.pw.serviceAddr = some dyn ∧ m.dies = s.m.dies ∧ s.m.dataKept m)) ∧
  Runs .fwStatus s (fun m => ∃ bs : List Byte, bs.length = 4 ∧ bits (leNat bs) 1 3 = s.m.fw.state % 8
    ∧ m = { s.fresh with out := [Out.service 7 (s.m.rd s.m.ens Reg.FW_STATUS.LAST_ERROR) bs] }) ∧
  (∀ d offset, d < s.m.n → Runs (.getCert d offset) s (fun m => m = { s.fresh with out :=
    [Out.service 0x11 0 (s.m.nor.bytes (0x1000 + 0x1800 + d * 0x1C00 + offset) (min 48 (5120 - offset)))] })) ∧
  (∀ (d : Nat) (nonce : List Byte) (mask : Word), d < s.m.n → nonce.length = 32 → s.m.halted = false ∨ d = s.m.ens →
    (s.m.rd d Reg.FW_STATUS.IDENTITY_FAIL = 0 → Runs (.attest d nonce mask) s (fun m =>
      (∃ bs, m.out = [Out.service 0x10 0 bs] ∧ bs.length = 137 + 49 * ((List.range 8).filter (bit mask.toNat)).length
        ∧ bs.take 1 = [BitVec.ofNat 8 d] ∧ sub bs 1 32 = nonce ∧ field bs 33 8 = s.m.stamp d % 2 ^ 64)
      ∧ (m.die d).clk.last = s.m.stamp d ∧ s.m.dataKept m ∧ s.m.regsKept m d [])) ∧
    (s.m.rd d Reg.FW_STATUS.IDENTITY_FAIL = 1 → Runs (.attest d nonce mask) s (fun m =>
      (∃ e, e ≠ 0 ∧ m.out = [Out.service 0x10 e []]) ∧ m.dies = s.m.dies ∧ s.m.dataKept m))))
end

