-- ==== Sys2Proof/Laws/Map.lean ====
section
/-! SUPPORT. Laws of the sparse storage: a write is read back, leaves every other key alone, and keeps the canonical form; so do
erasing and writing runs. -/

namespace Sys2Proof.Machine

variable {α : Type}

/-- Keys strictly rising, as a proposition over all pairs. -/
theorem SMap.rising_iff (m : SMap α) : SMap.rising m = true ↔ m.Pairwise (fun a b => a.1 < b.1) := by
  induction m with
  | nil => simp [SMap.rising]
  | cons p t ih =>
    cases t with
    | nil => simp [SMap.rising]
    | cons q u =>
      obtain ⟨a, x⟩ := p
      obtain ⟨b, y⟩ := q
      simp only [SMap.rising, Bool.and_eq_true, decide_eq_true_eq, ih, List.pairwise_cons, List.mem_cons]
      constructor
      · rintro ⟨hab, hb, hu⟩
        exact ⟨fun c hc => hc.elim (fun e => e ▸ hab) (fun hc => Nat.lt_trans hab (hb c hc)), hb, hu⟩
      · rintro ⟨ha, hb, hu⟩
        exact ⟨ha (b, y) (Or.inl rfl), hb, hu⟩

theorem SMap.wf_iff [DecidableEq α] (d : Nat → α) (m : SMap α) :
    SMap.wf d m = true ↔ m.Pairwise (fun a b => a.1 < b.1) ∧ ∀ p ∈ m, p.2 ≠ d p.1 := by
  simp [SMap.wf, SMap.rising_iff]

@[simp] theorem SMap.wf_nil [DecidableEq α] (d : Nat → α) : SMap.wf d [] = true := by simp [SMap.wf_iff]

theorem SMap.mem_insert {k : Nat} {v : α} {m : SMap α} {p : Nat × α} (h : p ∈ SMap.insert k v m) : p = (k, v) ∨ p ∈ m := by
  induction m with
  | nil => simpa [SMap.insert] using h
  | cons q t ih =>
    obtain ⟨k', v'⟩ := q
    simp only [SMap.insert] at h
    split at h
    · simpa using h
    · split at h
      · simp only [List.mem_cons] at h ⊢
        exact h.elim Or.inl (fun h => Or.inr (Or.inr h))
      · simp only [List.mem_cons] at h ⊢
        rcases h with h | h
        · exact Or.inr (Or.inl h)
        · exact (ih h).elim Or.inl (fun h => Or.inr (Or.inr h))

theorem SMap.insert_rising {k : Nat} {v : α} {m : SMap α} (h : m.Pairwise (fun a b => a.1 < b.1)) :
    (SMap.insert k v m).Pairwise (fun a b => a.1 < b.1) := by
  induction m with
  | nil => simp [SMap.insert]
  | cons q t ih =>
    obtain ⟨k', v'⟩ := q
    rw [List.pairwise_cons] at h
    simp only [SMap.insert]
    split
    · rename_i hk
      exact List.pairwise_cons.2 ⟨fun p hp => by
        rcases List.mem_cons.1 hp with rfl | hp
        · exact hk
        · exact Nat.lt_trans hk (h.1 p hp), List.pairwise_cons.2 h⟩
    · split
      · rename_i hk; subst hk; exact List.pairwise_cons.2 h
      · refine List.pairwise_cons.2 ⟨fun p hp => ?_, ih h.2⟩
        rcases SMap.mem_insert hp with rfl | hp
        · show k' < k; omega
        · exact h.1 p hp

theorem SMap.erase_sublist (k : Nat) (m : SMap α) : (SMap.erase k m).Sublist m := by
  induction m with
  | nil => exact List.Sublist.refl _
  | cons q t ih =>
    obtain ⟨k', v'⟩ := q
    simp only [SMap.erase]
    split
    · exact ih.trans (List.sublist_cons_self _ _)
    · exact ih.cons_cons _

/-- A sublist of a canonical map is canonical. -/
theorem SMap.wf_sublist [DecidableEq α] {d : Nat → α} {m t : SMap α} (h : SMap.wf d m = true) (hs : t.Sublist m) : SMap.wf d t = true := by
  rw [SMap.wf_iff] at *
  exact ⟨h.1.sublist hs, fun p hp => h.2 p (hs.subset hp)⟩

/-- Writing keeps the canonical form. -/
theorem SMap.set_wf [DecidableEq α] {d : Nat → α} {m : SMap α} (k : Nat) (v : α) (h : SMap.wf d m = true) :
    SMap.wf d (SMap.set d m k v) = true := by
  unfold SMap.set
  split
  · exact SMap.wf_sublist h (SMap.erase_sublist k m)
  · rename_i hv
    rw [SMap.wf_iff] at *
    refine ⟨SMap.insert_rising h.1, fun p hp => ?_⟩
    rcases SMap.mem_insert hp with rfl | hp
    · exact hv
    · exact h.2 p hp

/-- Writing a run keeps the canonical form. -/
theorem SMap.setRun_wf [DecidableEq α] {d : Nat → α} (vs : List α) : ∀ {m : SMap α} (k : Nat), SMap.wf d m = true →
    SMap.wf d (SMap.setRun d m k vs) = true := by
  induction vs with
  | nil => intro m k h; exact h
  | cons v vs ih => intro m k h; exact ih _ (SMap.set_wf k v h)

/-- Removing a range keeps the canonical form. -/
theorem SMap.dropRange_wf [DecidableEq α] {d : Nat → α} {m : SMap α} (lo hi : Nat) (h : SMap.wf d m = true) :
    SMap.wf d (SMap.dropRange m lo hi) = true := SMap.wf_sublist h List.filter_sublist

/-- Writes one after another keep the canonical form. -/
theorem SMap.foldl_wf [DecidableEq α] {β : Type} {d : Nat → α} (f : SMap α → β → SMap α) (l : List β)
    (hf : ∀ m b, SMap.wf d m = true → SMap.wf d (f m b) = true) : ∀ {m : SMap α}, SMap.wf d m = true → SMap.wf d (l.foldl f m) = true := by
  induction l with
  | nil => intro m h; exact h
  | cons b l ih => intro m h; exact ih (hf m b h)

theorem SMap.get_insert_same {d : Nat → α} {k : Nat} {v : α} {m : SMap α} : SMap.get d (SMap.insert k v m) k = v := by
  induction m with
  | nil => simp [SMap.insert, SMap.get]
  | cons q t ih =>
    obtain ⟨k', v'⟩ := q
    simp only [SMap.insert]
    split
    · simp [SMap.get]
    · split
      · simp [SMap.get]
      · rename_i h; simp [SMap.get, Ne.symm h, ih]

theorem SMap.get_insert_other {d : Nat → α} {k j : Nat} {v : α} {m : SMap α} (hj : j ≠ k) :
    SMap.get d (SMap.insert k v m) j = SMap.get d m j := by
  induction m with
  | nil => simp [SMap.insert, SMap.get, Ne.symm hj]
  | cons q t ih =>
    obtain ⟨k', v'⟩ := q
    simp only [SMap.insert]
    split
    · simp [SMap.get, Ne.symm hj]
    · split
      · rename_i h; subst h; simp [SMap.get, Ne.symm hj]
      · simp [SMap.get, ih]

/-- An erased key reads as unlisted, whatever the list. -/
theorem SMap.get_erase_same {d : Nat → α} {m : SMap α} {k : Nat} : SMap.get d (SMap.erase k m) k = d k := by
  induction m with
  | nil => rfl
  | cons q t ih =>
    obtain ⟨k', v'⟩ := q
    simp only [SMap.erase]
    split
    · exact ih
    · rename_i e; simp [SMap.get, e, ih]

theorem SMap.get_erase_other {d : Nat → α} {m : SMap α} {k j : Nat} (hj : j ≠ k) :
    SMap.get d (SMap.erase k m) j = SMap.get d m j := by
  induction m with
  | nil => rfl
  | cons q t ih =>
    obtain ⟨k', v'⟩ := q
    simp only [SMap.erase]
    split
    · rename_i e; subst e; simp [SMap.get, Ne.symm hj, ih]
    · simp [SMap.get, ih]

/-- A write is read back, whatever the list. -/
theorem SMap.get_set_same [DecidableEq α] {d : Nat → α} {m : SMap α} {k : Nat} {v : α} :
    SMap.get d (SMap.set d m k v) k = v := by
  unfold SMap.set
  split
  · rename_i e; rw [SMap.get_erase_same, e]
  · exact SMap.get_insert_same

/-- A write leaves every other key alone. -/
theorem SMap.get_set_other [DecidableEq α] {d : Nat → α} {m : SMap α} {k j : Nat} {v : α} (hj : j ≠ k) :
    SMap.get d (SMap.set d m k v) j = SMap.get d m j := by
  unfold SMap.set
  split
  · exact SMap.get_erase_other hj
  · exact SMap.get_insert_other hj

/-- A run of writes leaves the keys outside it alone. -/
theorem SMap.get_setRun_other [DecidableEq α] {d : Nat → α} (vs : List α) : ∀ {m : SMap α} {k j : Nat},
    (j < k ∨ k + vs.length ≤ j) → SMap.get d (SMap.setRun d m k vs) j = SMap.get d m j := by
  induction vs with
  | nil => intro m k j _; rfl
  | cons v vs ih =>
    intro m k j hj
    simp only [List.length_cons] at hj
    simp only [SMap.setRun]
    rw [ih (by omega), SMap.get_set_other (by omega)]

end Sys2Proof.Machine
end

