-- ==== Sys2Proof/Laws/Keep.lean ====
section
/-! SUPPORT. Soundness (`Mach.Ok`) is kept: the base operations on a die and on the machine, folds, and the ways a command ends. -/

namespace Sys2Proof.Machine

variable {m : Mach}

/-! ## Dies -/

theorem Die.setReg_ok {x : Die} {off v : Nat} (h : x.Ok) : (x.setReg off v).Ok :=
  ⟨SMap.set_wf _ _ h.1, h.2⟩

theorem Die.wr_ok {x : Die} {f : Fld} {v : Nat} (h : x.Ok) : (x.wr f v).Ok := Die.setReg_ok h

theorem Die.reset_ok : Die.reset.Ok := ⟨rfl, rfl, rfl, rfl, rfl⟩

/-! ## The machine -/

theorem Mach.die_ok {d : Nat} (h : m.Ok) : (m.die d).Ok := by
  unfold Mach.die
  rw [List.getD_eq_getElem?_getD]
  cases hx : m.dies[d]? with
  | none => exact Die.reset_ok
  | some x => exact h.2.1 x (List.mem_of_getElem? hx)

theorem Mach.upd_ok {d : Nat} {f : Die → Die} (h : m.Ok) (hf : ∀ x : Die, x.Ok → (f x).Ok) : (m.upd d f).Ok := by
  refine ⟨?_, fun x hx => ?_, h.2.2⟩
  · show Config.variant (m.dies.modify d f).length
    rw [List.length_modify]; exact h.1
  · obtain ⟨i, hi⟩ := List.mem_iff_getElem?.1 (show x ∈ m.dies.modify d f from hx)
    rw [List.getElem?_modify] at hi
    cases hy : m.dies[i]? with
    | none => simp [hy] at hi
    | some y =>
      have hOk := h.2.1 y (List.mem_of_getElem? hy)
      simp only [hy, Option.map_eq_map, Option.map_some, Option.some.injEq] at hi
      split at hi
      · exact hi ▸ hf y hOk
      · exact hi ▸ hOk

/-- Every die changed by a function that keeps soundness. -/
theorem Mach.mapDies_ok {f : Die → Die} (h : m.Ok) (hf : ∀ x : Die, x.Ok → (f x).Ok) : ({ m with dies := m.dies.map f } : Mach).Ok := by
  refine ⟨?_, fun x hx => ?_, h.2.2⟩
  · show Config.variant (m.dies.map f).length
    rw [List.length_map]; exact h.1
  · obtain ⟨y, hy, e⟩ := List.mem_map.1 (show x ∈ m.dies.map f from hx)
    exact e ▸ hf y (h.2.1 y hy)

theorem foldl_ok {α : Type} {f : Mach → α → Mach} {l : List α} (hf : ∀ m a, m.Ok → (f m a).Ok) :
    ∀ {m : Mach}, m.Ok → (l.foldl f m).Ok := by
  induction l with
  | nil => intro m h; exact h
  | cons a l ih => intro m h; exact ih (hf m a h)

theorem foldl_die_ok {α : Type} {f : Die → α → Die} {l : List α} (hf : ∀ x a, x.Ok → (f x a).Ok) :
    ∀ {x : Die}, x.Ok → (l.foldl f x).Ok := by
  induction l with
  | nil => intro m h; exact h
  | cons a l ih => intro m h; exact ih (hf m a h)

theorem foldl_fst_ok {α β : Type} {f : Mach × β → α → Mach × β} {l : List α} (hf : ∀ b a, b.1.Ok → (f b a).1.Ok) :
    ∀ {b : Mach × β}, b.1.Ok → (l.foldl f b).1.Ok := by
  induction l with
  | nil => intro b h; exact h
  | cons a l ih => intro b h; exact ih (hf b a h)

theorem foldl_snd_ok {α β : Type} {f : β × Mach → α → β × Mach} {l : List α} (hf : ∀ b a, b.2.Ok → (f b a).2.Ok) :
    ∀ {b : β × Mach}, b.2.Ok → (l.foldl f b).2.Ok := by
  induction l with
  | nil => intro b h; exact h
  | cons a l ih => intro b h; exact ih (hf b a h)

theorem foldl_trd_ok {α β γ : Type} {f : β × γ × Mach → α → β × γ × Mach} {l : List α} (hf : ∀ b a, b.2.2.Ok → (f b a).2.2.Ok) :
    ∀ {b : β × γ × Mach}, b.2.2.Ok → (l.foldl f b).2.2.Ok := by
  induction l with
  | nil => intro b h; exact h
  | cons a l ih => intro b h; exact ih (hf b a h)

theorem getD_ok {o : Option Mach} (ho : ∀ r, o = some r → r.Ok) (h : m.Ok) : (o.getD m).Ok := by
  cases o with
  | none => exact h
  | some r => exact ho r rfl

/-- The machine beside a result that a match has named. -/
theorem pair_ok {β : Type} {p : β × Mach} {a : β} {r : Mach} (h : p.2.Ok) (e : p = (a, r)) : r.Ok := by subst e; exact h

theorem Mach.eachDie_ok {f : Mach → Nat → Mach} (h : m.Ok) (hf : ∀ m d, m.Ok → (f m d).Ok) : (m.eachDie f).Ok := foldl_ok hf h

theorem Mach.when_ok {c : Bool} {f : Mach → Mach} (h : m.Ok) (hf : ∀ m, m.Ok → (f m).Ok) : (m.when c f).Ok := by
  unfold Mach.when; split
  · exact hf m h
  · exact h

theorem Mach.send_ok {o : Out} (h : m.Ok) : (m.send o).Ok := h
theorem Mach.sendAll_ok {os : List Out} (h : m.Ok) : (m.sendAll os).Ok := h
theorem Mach.chosen_ok (h : m.Ok) : m.chosen.Ok := by unfold Mach.chosen; split <;> exact h
theorem Mach.choices_ok {n : Nat} : ∀ {m : Mach}, m.Ok → (m.choices n).2.Ok := by
  induction n with
  | zero => intro m h; exact h
  | succ n ih => intro m h; exact ih (Mach.chosen_ok h)
theorem Mach.freeBytes_ok {n : Nat} (h : m.Ok) : (m.freeBytes n).2.Ok := Mach.choices_ok h

theorem Mach.wr_ok {d : Nat} {f : Fld} {v : Nat} (h : m.Ok) : (m.wr d f v).Ok := Mach.upd_ok h (fun _ hx => Die.wr_ok hx)
theorem Mach.setBit_ok {d : Nat} {f : Fld} {b : Bool} (h : m.Ok) : (m.setBit d f b).Ok := Mach.wr_ok h
theorem Mach.bump_ok {d : Nat} {f : Fld} {k : Nat} (h : m.Ok) : (m.bump d f k).Ok := Mach.wr_ok h
theorem Mach.drop_ok {d : Nat} {f : Fld} {k : Nat} (h : m.Ok) : (m.drop d f k).Ok := Mach.wr_ok h
theorem Mach.latchHigh_ok {d off w : Nat} (h : m.Ok) : (m.latchHigh d off w).Ok := Mach.upd_ok h (fun _ hx => hx)
theorem Mach.wrAll_ok {f : Fld} {v : Nat} (h : m.Ok) : (m.wrAll f v).Ok := Mach.eachDie_ok h (fun _ _ h => Mach.wr_ok h)
theorem Mach.pass_ok {k : Nat} (h : m.Ok) : (m.pass k).Ok := Mach.mapDies_ok h (fun _ hx => hx)
theorem Mach.idle_ok (h : m.Ok) : m.idle.Ok := by
  unfold Mach.idle; split
  · exact h
  · exact Mach.pass_ok h
theorem Mach.runTo_ok {d t : Nat} (h : m.Ok) : (m.runTo d t).Ok := by
  unfold Mach.runTo; split
  · exact Mach.pass_ok h
  · exact h
theorem Mach.issue_ok {d t : Nat} (h : m.Ok) : (m.issue d t).Ok := Mach.upd_ok h (fun _ hx => hx)
theorem Mach.furlAbandon_ok {b : Nat} (h : m.Ok) : (m.furlAbandon b).Ok := by
  unfold Mach.furlAbandon; split
  · split <;> exact h
  · exact h

/-! ## Records changed in part -/

/-- Soundness of a die as a fact about its registers, its DRAM and its flash alone. -/
def Die.Parts (regs : SMap DWord) (dram : Dram) (fl : Flash) : Prop :=
  SMap.wf regDflt regs = true ∧ SMap.wf zeroByte dram.data = true ∧ SMap.wf zeroByte dram.check = true
    ∧ SMap.wf zeroByte fl.data = true ∧ dram.chans.length = 12

/-- Soundness of a machine as a fact about its NOR and its dies alone. -/
def Mach.Parts (nor : Nor) (dies : List Die) : Prop :=
  Config.variant dies.length ∧ (∀ x ∈ dies, x.Ok) ∧ SMap.wf erasedByte nor.array = true

theorem Die.ok_mk {r a z b c d} {dr : Dram} {e f g k} {fl : Flash} {l n o} :
    (Die.mk r a z b c d dr e f g k fl l n o).Ok = Die.Parts r dr fl := rfl
theorem Die.parts_ok {x : Die} (h : x.Ok) : Die.Parts x.regs x.dram x.fl := h
theorem Mach.ok_mk {a b c d e} {x : Nor} {f g k l n o} {ds : List Die} :
    (Mach.mk a b c d e x f g k l n o ds).Ok = Mach.Parts x ds := rfl
theorem Mach.parts_ok (h : m.Ok) : Mach.Parts m.nor m.dies := h

/-- The storage and the number of channels are those of a sound die. -/
theorem Die.parts_keep {x : Die} {r} {dr : Dram} {fl : Flash} (h : x.Ok) (h1 : r = x.regs) (h2 : dr.data = x.dram.data)
    (h3 : dr.check = x.dram.check) (h4 : fl.data = x.fl.data) (h5 : dr.chans.length = x.dram.chans.length) : Die.Parts r dr fl := by
  unfold Die.Parts; rw [h1, h2, h3, h4, h5]; exact h

theorem Mach.nor_wf (h : m.Ok) : SMap.wf erasedByte m.nor.array = true := h.2.2

/-- A changed NOR, its array in canonical form. -/
theorem Mach.parts_nor {x : Nor} (h : m.Ok) (hx : SMap.wf erasedByte x.array = true) : Mach.Parts x m.dies := ⟨h.1, h.2.1, hx⟩

/-- A die is sound when its storage and its number of channels are those of a sound one. -/
theorem Die.ok_keep {x y : Die} (h : x.Ok) (h1 : y.regs = x.regs) (h2 : y.dram.data = x.dram.data) (h3 : y.dram.check = x.dram.check)
    (h4 : y.fl.data = x.fl.data) (h5 : y.dram.chans.length = x.dram.chans.length) : y.Ok := by
  unfold Die.Ok; rw [h1, h2, h3, h4, h5]; exact h

/-! ## Commands -/

theorem State.run_ok {s t : State} {f : Mach → Mach} (h : s.m.Ok) (hf : ∀ m, m.Ok → (f m).Ok) (e : s.run f = .next t) : t.m.Ok := by
  unfold State.run State.done at e
  injection e with e; subst e
  exact hf _ h

theorem State.onDie_ok {s t : State} {d : Nat} {f : Mach → Mach} (h : s.m.Ok) (hf : ∀ m, m.Ok → (f m).Ok)
    (e : s.onDie d f = .next t) : t.m.Ok := by
  unfold State.onDie at e
  split at e
  · exact State.run_ok h hf e
  · cases e

theorem State.onUnit_ok {s t : State} {d i n : Nat} {f : Mach → Mach} (h : s.m.Ok) (hf : ∀ m, m.Ok → (f m).Ok)
    (e : s.onUnit d i n f = .next t) : t.m.Ok := by
  unfold State.onUnit at e
  split at e
  · exact State.onDie_ok h hf e
  · cases e

theorem State.tryRun_ok {s t : State} {f : Mach → Except Fault Mach} (h : s.m.Ok) (hf : ∀ m m', m.Ok → f m = .ok m' → m'.Ok)
    (e : s.tryRun f = .next t) : t.m.Ok := by
  unfold State.tryRun at e
  split at e
  · rename_i m' hm
    unfold State.done at e
    injection e with e; subst e
    exact hf s.fresh m' h hm
  · cases e

end Sys2Proof.Machine
end

