-- ==== Sys2Proof/Laws/KeepFlags.lean ====
section
/-! SUPPORT. Soundness is kept by the definitions of Machine/Flags.lean. -/

namespace Sys2Proof.Machine

theorem Die.logAppend_ok {x : Die} {r : BitVec 128} (hOk : x.Ok) : (Die.logAppend x r).Ok := by
  unfold Die.logAppend
  with_reducible repeat' first
    | assumption | apply Die.wr_ok | apply Die.parts_ok | split | dsimp only | rw [Die.ok_mk]

theorem Die.aonAppend_ok {x : Die} {r : BitVec 128} (hOk : x.Ok) : (Die.aonAppend x r).Ok := by
  unfold Die.aonAppend
  with_reducible repeat' first
    | assumption | apply Die.parts_ok | dsimp only | rw [Die.ok_mk]

theorem Die.logGroup_ok {x : Die} {halfMast : Bool} {rs : List (BitVec 128)} (hOk : x.Ok) : (Die.logGroup x halfMast rs).Ok := by
  unfold Die.logGroup
  with_reducible repeat' first
    | assumption | apply Die.wr_ok | apply Die.logAppend_ok | apply Die.aonAppend_ok | apply Die.parts_ok
    | apply foldl_die_ok | split | dsimp only | rw [Die.ok_mk]

theorem Mach.note_ok {m : Mach} {d unit : Nat} {pc : PCode} {detail : Nat} {args : List Nat} {flags : Nat} {carried : Option Nat} (hOk : m.Ok) : (Mach.note m d unit pc detail args flags carried).Ok := by
  unfold Mach.note
  with_reducible repeat' first
    | assumption | apply Mach.upd_ok | apply Mach.issue_ok | apply Die.logGroup_ok | split | intro _

theorem Mach.updLd_ok {m : Mach} {ld : Nat} {f : LdRec → LdRec} (hOk : m.Ok) : (Mach.updLd m ld f).Ok := by
  unfold Mach.updLd
  with_reducible repeat' first
    | assumption | apply Mach.parts_ok | rw [Mach.ok_mk]

theorem Mach.raiseVec_ok {m : Mach} {ld v : Nat} (hOk : m.Ok) : (Mach.raiseVec m ld v).Ok := by
  unfold Mach.raiseVec
  with_reducible repeat' first
    | assumption | apply Mach.send_ok | apply Mach.updLd_ok | split

theorem Mach.sendPending_ok {m : Mach} {ld : Nat} (hOk : m.Ok) : (Mach.sendPending m ld).Ok := by
  unfold Mach.sendPending
  with_reducible repeat' first
    | assumption | apply Mach.send_ok | apply Mach.updLd_ok | apply foldl_ok | split | intro _

theorem Mach.event_ok {m : Mach} {ld : Nat} {log : EventLog} {kind : Nat} {args : List Nat} (hOk : m.Ok) : (Mach.event m ld log kind args).Ok := by
  unfold Mach.event
  with_reducible repeat' first
    | assumption | apply Mach.updLd_ok | apply Mach.raiseVec_ok | split | dsimp only

theorem Mach.nmi_ok {m : Mach} {d : Nat} {b : Fld} {unit : Nat} {pc : PCode} {detail : Nat} {args : List Nat} (hOk : m.Ok) : (Mach.nmi m d b unit pc detail args).Ok := by
  unfold Mach.nmi
  with_reducible repeat' first
    | assumption | apply Mach.wr_ok | apply Mach.note_ok | apply Mach.updLd_ok | apply Mach.event_ok | apply foldl_ok | split
    | intro _

theorem Mach.correctable_ok {m : Mach} {d i : Nat} (hOk : m.Ok) : (Mach.correctable m d i).Ok := by
  unfold Mach.correctable
  with_reducible repeat' first
    | assumption | apply Mach.upd_ok | apply Mach.wr_ok | apply Mach.note_ok | apply Mach.event_ok | apply Die.wr_ok | split
    | intro _ | dsimp only

theorem Mach.leak_ok {m : Mach} {d i : Nat} (hOk : m.Ok) : (Mach.leak m d i).Ok := by
  unfold Mach.leak
  with_reducible repeat' first
    | assumption | apply Mach.drop_ok


end Sys2Proof.Machine
end

