-- ==== Sys2Proof/Laws/KeepImage.lean ====
section
/-! SUPPORT. Soundness is kept by the definitions of Machine/Image.lean. -/

namespace Sys2Proof.Machine

theorem Nor.program_wf {x : Nor} {off : Nat} {bs : List Byte} (h : SMap.wf erasedByte x.array = true) :
    SMap.wf erasedByte (x.program off bs).array = true := SMap.foldl_wf _ _ (fun _ _ h => SMap.set_wf _ _ h) h

theorem Nor.erase_wf {x : Nor} {off n : Nat} (h : SMap.wf erasedByte x.array = true) :
    SMap.wf erasedByte (x.erase off n).array = true := SMap.dropRange_wf _ _ h

theorem Nor.rewrite_wf {x : Nor} {off : Nat} {bs : List Byte} (h : SMap.wf erasedByte x.array = true) :
    SMap.wf erasedByte (x.rewrite off bs).array = true := SMap.setRun_wf _ _ (SMap.dropRange_wf _ _ h)

theorem Nor.copyArea_wf {x : Nor} {a b n : Nat} (h : SMap.wf erasedByte x.array = true) :
    SMap.wf erasedByte (x.copyArea a b n).array = true := SMap.foldl_wf _ _ (fun _ _ h => SMap.set_wf _ _ h) (SMap.dropRange_wf _ _ h)

theorem Nor.setActive_wf {x : Nor} {b : Nat} (h : SMap.wf erasedByte x.array = true) :
    SMap.wf erasedByte (x.setActive b).array = true := Nor.rewrite_wf h

theorem loadAll_ok {fs : List (Fld × Nat)} {m : Mach} {d : Nat} (hOk : m.Ok) : (loadAll fs m d).Ok := by
  unfold loadAll
  with_reducible repeat' first
    | assumption | apply Mach.wr_ok | apply foldl_ok | intro _


end Sys2Proof.Machine
end

