-- ==== Sys2Proof/Laws/KeepHalt.lean ====
section
/-! SUPPORT. Soundness is kept by the definitions of Machine/Halt.lean. -/

namespace Sys2Proof.Machine

theorem Mach.powerState_ok {m : Mach} {d st : Nat} (hOk : m.Ok) : (Mach.powerState m d st).Ok := by
  unfold Mach.powerState
  with_reducible repeat' first
    | assumption | apply Mach.wr_ok | apply Mach.note_ok | split

theorem Mach.ungate_ok {m : Mach} {d : Nat} {f : Fld} {i : Nat} (hOk : m.Ok) : (Mach.ungate m d f i).Ok := by
  unfold Mach.ungate
  with_reducible repeat' first
    | assumption | apply Mach.wr_ok | apply Mach.powerState_ok | split | dsimp only

theorem Mach.startStep_ok {m : Mach} {d k : Nat} (hOk : m.Ok) : (Mach.startStep m d k).Ok := by
  unfold Mach.startStep
  with_reducible repeat' first
    | assumption | apply Mach.wr_ok

theorem Mach.wpFollow_ok {m : Mach} (hOk : m.Ok) : (Mach.wpFollow m).Ok := by
  unfold Mach.wpFollow
  with_reducible repeat' first
    | assumption | apply Mach.parts_nor | apply Mach.nor_wf | dsimp only | rw [Mach.ok_mk]

theorem Mach.fwState_ok {m : Mach} {st : Nat} (hOk : m.Ok) : (Mach.fwState m st).Ok := by
  unfold Mach.fwState
  with_reducible repeat' first
    | assumption | apply Mach.wpFollow_ok | apply Mach.parts_ok | dsimp only | rw [Mach.ok_mk]

theorem Mach.darken_ok {m : Mach} {d : Nat} (hOk : m.Ok) : (Mach.darken m d).Ok := by
  unfold Mach.darken
  with_reducible repeat' first
    | assumption | apply Mach.upd_ok | apply Mach.wr_ok | apply Die.parts_ok | apply foldl_ok | split | intro _ | dsimp only
    | rw [Die.ok_mk]

theorem Mach.halfMast_ok {m : Mach} {d c : Nat} (hOk : m.Ok) : (Mach.halfMast m d c).Ok := by
  unfold Mach.halfMast
  with_reducible repeat' first
    | assumption | apply Mach.eachDie_ok | apply Mach.send_ok | apply Mach.wr_ok | apply Mach.note_ok | apply Mach.nmi_ok
    | apply Mach.powerState_ok | apply Mach.fwState_ok | apply Mach.darken_ok | apply Mach.parts_ok | apply Mach.parts_nor
    | apply Mach.nor_wf | apply Nor.setActive_wf | split | intro _ | dsimp only | rw [Mach.ok_mk]

theorem Mach.setUnacked_ok {m : Mach} {k : Nat} {fs : List Flit} (hOk : m.Ok) : (Mach.setUnacked m k fs).Ok := by
  unfold Mach.setUnacked
  with_reducible repeat' first
    | assumption | apply Mach.parts_ok | dsimp only | rw [Mach.ok_mk]

theorem Mach.putFlit_ok {m : Mach} {s : Nat} {f : Flit} (hOk : m.Ok) : (Mach.putFlit m s f).Ok := by
  unfold Mach.putFlit
  with_reducible repeat' first
    | assumption | apply Mach.setUnacked_ok | split

theorem Mach.cross_ok {m : Mach} {src ext a b : Nat} (hOk : m.Ok) : (Mach.cross m src ext a b).Ok := by
  unfold Mach.cross
  with_reducible repeat' first
    | assumption | apply Mach.putFlit_ok

theorem Mach.forward_ok {m : Mach} {s : Nat} {f : Flit} (hOk : m.Ok) : (Mach.forward m s f).Ok := by
  unfold Mach.forward
  with_reducible repeat' first
    | assumption | apply Mach.putFlit_ok | split

theorem Mach.reroute_ok {m : Mach} {s i : Nat} (hOk : m.Ok) : (Mach.reroute m s i).Ok := by
  unfold Mach.reroute
  with_reducible repeat' first
    | assumption | apply Mach.setUnacked_ok | apply Mach.putFlit_ok | apply foldl_ok | intro _

theorem Mach.linkDown_ok {m : Mach} {d i : Nat} (hOk : m.Ok) : (Mach.linkDown m d i).Ok := by
  unfold Mach.linkDown
  with_reducible repeat' first
    | assumption | apply Mach.wr_ok | apply Mach.note_ok | apply Mach.halfMast_ok | apply Mach.reroute_ok
    | apply Mach.parts_ok | split | dsimp only | rw [Mach.ok_mk]


end Sys2Proof.Machine
end

