-- ==== Sys2Proof/Laws/KeepTime.lean ====
section
/-! SUPPORT. Soundness is kept by the definitions of Machine/Time.lean. -/

namespace Sys2Proof.Machine

theorem Mach.countFrom_ok {m : Mach} {d key : Nat} (hOk : m.Ok) : (Mach.countFrom m d key).Ok := by
  unfold Mach.countFrom
  with_reducible repeat' first
    | assumption | apply Mach.upd_ok | apply Die.parts_ok | intro _ | dsimp only | rw [Die.ok_mk]

theorem Mach.every_ok {m : Mach} {d key start period : Nat} (hOk : m.Ok) : (Mach.every m d key start period).Ok := by
  unfold Mach.every
  with_reducible repeat' first
    | assumption | apply Mach.runTo_ok | apply Mach.countFrom_ok

theorem Mach.crystalStable_ok {m : Mach} {d cycles : Nat} (hOk : m.Ok) : (Mach.crystalStable m d cycles).Ok := by
  unfold Mach.crystalStable
  with_reducible repeat' first
    | assumption | apply Mach.upd_ok | apply Mach.wr_ok | apply Mach.runTo_ok | apply Mach.startStep_ok
    | apply Mach.countFrom_ok | apply Die.parts_ok | intro _ | dsimp only | rw [Die.ok_mk]

theorem execCrystalStable_ok {d cycles : Nat} {s : State} {t : State} (hOk : s.m.Ok) (e : execCrystalStable d cycles s = .next t) : t.m.Ok := by
  unfold execCrystalStable at e
  with_reducible repeat' first
    | assumption | refine State.onDie_ok (by assumption) ?_ e | apply Mach.when_ok | apply Mach.crystalStable_ok | intro _

theorem Mach.switchToIto_ok {m : Mach} {d missing : Nat} (hOk : m.Ok) : (Mach.switchToIto m d missing).Ok := by
  unfold Mach.switchToIto
  with_reducible repeat' first
    | assumption | apply Mach.upd_ok | apply Mach.send_ok | apply Mach.wr_ok | apply Mach.nmi_ok | apply Die.parts_ok | split
    | intro _ | dsimp only | rw [Die.ok_mk]

theorem execNoXtal_ok {d : Nat} {s : State} {t : State} (hOk : s.m.Ok) (e : execNoXtal d s = .next t) : t.m.Ok := by
  unfold execNoXtal at e
  with_reducible repeat' first
    | assumption | refine State.onDie_ok (by assumption) ?_ e | apply Mach.when_ok | apply Mach.wr_ok | apply Mach.runTo_ok
    | apply Mach.startStep_ok | apply Mach.switchToIto_ok | intro _

theorem Mach.fineRestart_ok {m : Mach} {d : Nat} (hOk : m.Ok) : (Mach.fineRestart m d).Ok := by
  unfold Mach.fineRestart
  with_reducible repeat' first
    | assumption | apply Mach.upd_ok | apply Die.parts_ok | intro _ | dsimp only | rw [Die.ok_mk]

theorem Mach.halyardSet_ok {m : Mach} (hOk : m.Ok) : (Mach.halyardSet m).Ok := by
  unfold Mach.halyardSet
  with_reducible repeat' first
    | assumption | apply Mach.upd_ok | apply Mach.eachDie_ok | apply Die.parts_ok | split | intro _ | dsimp only
    | rw [Die.ok_mk]

theorem execPllLock_ok {d : Nat} {s : State} {t : State} (hOk : s.m.Ok) (e : execPllLock d s = .next t) : t.m.Ok := by
  unfold execPllLock at e
  with_reducible repeat' first
    | assumption | refine State.onDie_ok (by assumption) ?_ e | apply Mach.when_ok | apply Mach.wr_ok
    | apply Mach.startStep_ok | apply Mach.fineRestart_ok | apply Mach.halyardSet_ok | split | intro _

theorem execClockMonitorWindow_ok {d count : Nat} {s : State} {t : State} (hOk : s.m.Ok) (e : execClockMonitorWindow d count s = .next t) : t.m.Ok := by
  unfold execClockMonitorWindow at e
  with_reducible repeat' first
    | assumption | refine State.onDie_ok (by assumption) ?_ e | split at e | apply Mach.when_ok | apply Mach.wr_ok
    | apply Mach.every_ok | apply Mach.switchToIto_ok | split | intro _

theorem execClockFailMessage_ok {d : Nat} {s : State} {t : State} (hOk : s.m.Ok) (e : execClockFailMessage d s = .next t) : t.m.Ok := by
  unfold execClockFailMessage at e
  with_reducible repeat' first
    | assumption | refine State.onDie_ok (by assumption) ?_ e | apply Mach.when_ok | apply Mach.switchToIto_ok | intro _

theorem execPllRelock_ok {d : Nat} {s : State} {t : State} (hOk : s.m.Ok) (e : execPllRelock d s = .next t) : t.m.Ok := by
  unfold execPllRelock at e
  with_reducible repeat' first
    | assumption | refine State.onDie_ok (by assumption) ?_ e | apply Mach.when_ok | apply Mach.wr_ok
    | apply Mach.fineRestart_ok | split | intro _ | dsimp only

theorem execClkOutCtrl_ok {d : Nat} {v : Word} {s : State} {t : State} (hOk : s.m.Ok) (e : execClkOutCtrl d v s = .next t) : t.m.Ok := by
  unfold execClkOutCtrl at e
  with_reducible repeat' first
    | assumption | refine State.onDie_ok (by assumption) ?_ e | apply Mach.when_ok | apply Mach.wr_ok | apply Mach.parts_ok
    | split | intro _ | dsimp only | rw [Mach.ok_mk]

theorem execHalyardMeasure_ok {d : Nat} {offset : Int} {s : State} {t : State} (hOk : s.m.Ok) (e : execHalyardMeasure d offset s = .next t) : t.m.Ok := by
  unfold execHalyardMeasure at e
  with_reducible repeat' first
    | assumption | refine State.onDie_ok (by assumption) ?_ e | apply Mach.when_ok | apply Mach.upd_ok | apply Mach.wr_ok
    | apply Mach.note_ok | apply Mach.every_ok | apply Die.parts_ok | split | intro _ | dsimp only | rw [Die.ok_mk]

theorem Mach.journalMark_ok {m : Mach} {d extra : Nat} (hOk : m.Ok) : (Mach.journalMark m d extra).Ok := by
  unfold Mach.journalMark
  with_reducible repeat' first
    | assumption | apply Mach.upd_ok | apply Die.parts_ok | intro _ | dsimp only | rw [Die.ok_mk]

theorem Mach.markDurable_ok {m : Mach} {d : Nat} (hOk : m.Ok) : (Mach.markDurable m d).Ok := by
  unfold Mach.markDurable
  with_reducible repeat' first
    | assumption | apply Mach.upd_ok | apply Mach.wr_ok | split | intro _ | refine Die.parts_keep ?_ rfl rfl rfl rfl rfl
    | dsimp only | rw [Die.ok_mk]

theorem Mach.furledMark_ok {m : Mach} {d : Nat} (hOk : m.Ok) : (Mach.furledMark m d).Ok := by
  unfold Mach.furledMark
  with_reducible repeat' first
    | assumption | apply Mach.journalMark_ok | apply Mach.markDurable_ok

theorem execTimeMark_ok {d : Nat} {s : State} {t : State} (hOk : s.m.Ok) (e : execTimeMark d s = .next t) : t.m.Ok := by
  unfold execTimeMark at e
  with_reducible repeat' first
    | assumption | refine State.onDie_ok (by assumption) ?_ e | apply Mach.when_ok | apply Mach.runTo_ok
    | apply Mach.journalMark_ok | intro _

theorem execTimeMarkDurable_ok {d : Nat} {s : State} {t : State} (hOk : s.m.Ok) (e : execTimeMarkDurable d s = .next t) : t.m.Ok := by
  unfold execTimeMarkDurable at e
  with_reducible repeat' first
    | assumption | refine State.onDie_ok (by assumption) ?_ e | apply Mach.when_ok | apply Mach.markDurable_ok | intro _

theorem execCeilingReached_ok {d : Nat} {s : State} {t : State} (hOk : s.m.Ok) (e : execCeilingReached d s = .next t) : t.m.Ok := by
  unfold execCeilingReached at e
  with_reducible repeat' first
    | assumption | refine State.onDie_ok (by assumption) ?_ e | apply Mach.when_ok | apply Mach.runTo_ok
    | apply Mach.halfMast_ok | intro _

theorem execTbTimeSet_ok {d : Nat} {v : DWord} {s : State} {t : State} (hOk : s.m.Ok) (e : execTbTimeSet d v s = .next t) : t.m.Ok := by
  unfold execTbTimeSet at e
  with_reducible repeat' first
    | assumption | refine State.onDie_ok (by assumption) ?_ e | split at e | cases ‹Host.Outcome.fault _ = _›
    | apply Mach.when_ok | apply Mach.upd_ok | apply Die.parts_ok | intro _ | dsimp only | rw [Die.ok_mk]

theorem execBytrathalTrainingDone_ok {failed : List (Nat × Nat)} {s : State} {t : State} (hOk : s.m.Ok) (e : execBytrathalTrainingDone failed s = .next t) : t.m.Ok := by
  unfold execBytrathalTrainingDone at e
  with_reducible repeat' first
    | assumption | refine State.run_ok (by assumption) ?_ e | apply Mach.when_ok | apply Mach.eachDie_ok
    | apply Mach.startStep_ok | apply Mach.linkDown_ok | apply Mach.parts_ok | apply foldl_ok | intro _ | dsimp only
    | rw [Mach.ok_mk]

theorem Mach.flipDone_ok {m : Mach} {d unit : Nat} (hOk : m.Ok) : (Mach.flipDone m d unit).Ok := by
  unfold Mach.flipDone
  with_reducible repeat' first
    | assumption | apply Mach.wr_ok | apply Mach.note_ok

theorem Mach.retryFails_ok {m : Mach} {d i : Nat} (hOk : m.Ok) : (Mach.retryFails m d i).Ok := by
  unfold Mach.retryFails
  with_reducible repeat' first
    | assumption | apply Mach.linkDown_ok | apply Mach.parts_ok | split | dsimp only | rw [Mach.ok_mk]

theorem Mach.flitTaken_ok {m : Mach} {d i : Nat} (hOk : m.Ok) : (Mach.flitTaken m d i).Ok := by
  unfold Mach.flitTaken
  with_reducible repeat' first
    | assumption | apply Mach.setUnacked_ok | apply Mach.forward_ok | split | dsimp only

theorem Mach.flitBad_ok {m : Mach} {d i : Nat} (hOk : m.Ok) : (Mach.flitBad m d i).Ok := by
  unfold Mach.flitBad
  with_reducible repeat' first
    | assumption | apply Mach.send_ok | apply Mach.retryFails_ok | apply Mach.parts_ok | split | dsimp only | rw [Mach.ok_mk]

theorem execFlitReceive_ok {d i : Nat} {crcOk : Bool} {s : State} {t : State} (hOk : s.m.Ok) (e : execFlitReceive d i crcOk s = .next t) : t.m.Ok := by
  unfold execFlitReceive at e
  with_reducible repeat' first
    | assumption | refine State.onUnit_ok (by assumption) ?_ e | apply Mach.when_ok | apply Mach.send_ok
    | apply Mach.correctable_ok | apply Mach.flipDone_ok | apply Mach.flitTaken_ok | apply Mach.flitBad_ok
    | apply Mach.parts_ok | split | intro _ | dsimp only | rw [Mach.ok_mk]

theorem execRetryFailure_ok {d i : Nat} {s : State} {t : State} (hOk : s.m.Ok) (e : execRetryFailure d i s = .next t) : t.m.Ok := by
  unfold execRetryFailure at e
  with_reducible repeat' first
    | assumption | refine State.onUnit_ok (by assumption) ?_ e | apply Mach.when_ok | apply Mach.retryFails_ok | intro _

theorem execHeartbeatSend_ok {d : Nat} {s : State} {t : State} (hOk : s.m.Ok) (e : execHeartbeatSend d s = .next t) : t.m.Ok := by
  unfold execHeartbeatSend at e
  with_reducible repeat' first
    | assumption | refine State.onDie_ok (by assumption) ?_ e | apply Mach.when_ok | apply Mach.send_ok
    | apply Mach.sendAll_ok | apply Mach.every_ok | split | intro _ | dsimp only

theorem Mach.beatNow_ok {m : Mach} {d p : Nat} (hOk : m.Ok) : (Mach.beatNow m d p).Ok := by
  unfold Mach.beatNow
  with_reducible repeat' first
    | assumption | apply Mach.upd_ok | apply Die.parts_ok | intro _ | dsimp only | rw [Die.ok_mk]

theorem execHeartbeatReceive_ok {d p : Nat} {s : State} {t : State} (hOk : s.m.Ok) (e : execHeartbeatReceive d p s = .next t) : t.m.Ok := by
  unfold execHeartbeatReceive at e
  with_reducible repeat' first
    | assumption | refine State.onDie_ok (by assumption) ?_ e | apply Mach.when_ok | apply Mach.beatNow_ok | intro _

theorem execHeartbeatLost_ok {d p : Nat} {s : State} {t : State} (hOk : s.m.Ok) (e : execHeartbeatLost d p s = .next t) : t.m.Ok := by
  unfold execHeartbeatLost at e
  with_reducible repeat' first
    | assumption | refine State.onDie_ok (by assumption) ?_ e | apply Mach.when_ok | apply Mach.runTo_ok | apply Mach.note_ok
    | apply Mach.halfMast_ok | intro _

theorem execHalfMastMessage_ok {d cause : Nat} {s : State} {t : State} (hOk : s.m.Ok) (e : execHalfMastMessage d cause s = .next t) : t.m.Ok := by
  unfold execHalfMastMessage at e
  with_reducible repeat' first
    | refine State.onDie_ok (by assumption) ?_ e | apply Mach.halfMast_ok | intro _

theorem execPwrHalt_ok {via : Via} {d : Nat} {key : Word} {s : State} {t : State} (hOk : s.m.Ok) (e : execPwrHalt via d key s = .next t) : t.m.Ok := by
  unfold execPwrHalt at e
  with_reducible repeat' first
    | assumption | refine State.onDie_ok (by assumption) ?_ e | apply Mach.when_ok | apply Mach.halfMast_ok | intro _

theorem execBucketLeak_ok {d i : Nat} {s : State} {t : State} (hOk : s.m.Ok) (e : execBucketLeak d i s = .next t) : t.m.Ok := by
  unfold execBucketLeak at e
  with_reducible repeat' first
    | assumption | refine State.onUnit_ok (by assumption) ?_ e | apply Mach.when_ok | apply Mach.upd_ok | apply Mach.runTo_ok
    | apply Mach.leak_ok | apply Die.parts_ok | intro _ | dsimp only | rw [Die.ok_mk]

theorem Mach.setLevel_ok {m : Mach} {d l : Nat} (hOk : m.Ok) : (Mach.setLevel m d l).Ok := by
  unfold Mach.setLevel
  with_reducible repeat' first
    | assumption | apply Mach.upd_ok | apply Mach.wr_ok | apply Mach.note_ok | apply Die.parts_ok | intro _ | dsimp only
    | rw [Die.ok_mk]

theorem Mach.thermalStep_ok {m : Mach} {d : Nat} {t : Int} (hOk : m.Ok) : (Mach.thermalStep m d t).Ok := by
  unfold Mach.thermalStep
  with_reducible repeat' first
    | assumption | apply Mach.upd_ok | apply Mach.setLevel_ok | apply Die.parts_ok | split | intro _ | dsimp only
    | rw [Die.ok_mk]

theorem Mach.throttleTime_ok {m : Mach} {d : Nat} (hOk : m.Ok) : (Mach.throttleTime m d).Ok := by
  unfold Mach.throttleTime
  with_reducible repeat' first
    | assumption | apply Mach.upd_ok | apply Mach.bump_ok | apply Die.parts_ok | split | intro _ | dsimp only
    | rw [Die.ok_mk]

theorem execThermalSample_ok {d : Nat} {rs : List Int} {s : State} {t : State} (hOk : s.m.Ok) (e : execThermalSample d rs s = .next t) : t.m.Ok := by
  unfold execThermalSample at e
  with_reducible repeat' first
    | assumption | refine State.onDie_ok (by assumption) ?_ e | apply Mach.when_ok | apply Mach.upd_ok | apply Mach.wr_ok
    | apply Mach.note_ok | apply Mach.nmi_ok | apply Mach.halfMast_ok | apply Mach.every_ok | apply Mach.thermalStep_ok
    | apply Mach.throttleTime_ok | apply Mach.parts_ok | apply Die.parts_ok | apply foldl_ok | split | intro _ | dsimp only
    | rw [Mach.ok_mk] | rw [Die.ok_mk]


end Sys2Proof.Machine
end

