-- ==== Sys2Proof/Laws/KeepNvm.lean ====
section
/-! SUPPORT. Soundness is kept by the definitions of Machine/Nvm.lean. -/

namespace Sys2Proof.Machine

theorem execPresenceOpen_ok {s : State} {t : State} (hOk : s.m.Ok) (e : execPresenceOpen s = .next t) : t.m.Ok := by
  unfold execPresenceOpen at e
  with_reducible repeat' first
    | assumption | refine State.run_ok (by assumption) ?_ e | apply Mach.when_ok | apply Mach.note_ok
    | apply Mach.wpFollow_ok | apply Mach.parts_ok | intro _ | rw [Mach.ok_mk]

theorem execPresenceClose_ok {s : State} {t : State} (hOk : s.m.Ok) (e : execPresenceClose s = .next t) : t.m.Ok := by
  unfold execPresenceClose at e
  with_reducible repeat' first
    | assumption | refine State.run_ok (by assumption) ?_ e | apply Mach.when_ok | apply Mach.runTo_ok | apply Mach.note_ok
    | apply Mach.wpFollow_ok | apply Mach.parts_ok | intro _ | dsimp only | rw [Mach.ok_mk]

theorem execCfgDebug_ok {via : Via} {d : Nat} {v : Word} {s : State} {t : State} (hOk : s.m.Ok) (e : execCfgDebug via d v s = .next t) : t.m.Ok := by
  unfold execCfgDebug at e
  with_reducible repeat' first
    | assumption | refine State.onDie_ok (by assumption) ?_ e | split at e | apply Mach.when_ok | apply Mach.wr_ok
    | apply Mach.note_ok | split | intro _

theorem Mach.setNvmBuffer_ok {m : Mach} {d : Nat} {bs : List Byte} (hOk : m.Ok) : (Mach.setNvmBuffer m d bs).Ok := by
  unfold Mach.setNvmBuffer
  with_reducible repeat' first
    | assumption | apply Mach.wr_ok | apply foldl_ok | intro _

theorem Mach.nvmRefuse_ok {m : Mach} {d r : Nat} (hOk : m.Ok) : (Mach.nvmRefuse m d r).Ok := by
  unfold Mach.nvmRefuse
  with_reducible repeat' first
    | assumption | apply Mach.wr_ok

theorem Mach.nvmCommand_ok {m : Mach} {d cmd : Nat} (hOk : m.Ok) : (Mach.nvmCommand m d cmd).Ok := by
  unfold Mach.nvmCommand
  with_reducible repeat' first
    | assumption | apply Mach.when_ok | apply Mach.send_ok | apply Mach.wr_ok | apply Mach.setNvmBuffer_ok
    | apply Mach.nvmRefuse_ok | apply Mach.parts_nor | apply Mach.nor_wf | split | intro _ | dsimp only | rw [Mach.ok_mk]

theorem execNvmRead_ok {d : Nat} {s : State} {t : State} (hOk : s.m.Ok) (e : execNvmRead d s = .next t) : t.m.Ok := by
  unfold execNvmRead at e
  with_reducible repeat' first
    | refine State.onDie_ok (by assumption) ?_ e | apply Mach.nvmCommand_ok | intro _

theorem execNvmProgram_ok {d : Nat} {s : State} {t : State} (hOk : s.m.Ok) (e : execNvmProgram d s = .next t) : t.m.Ok := by
  unfold execNvmProgram at e
  with_reducible repeat' first
    | refine State.onDie_ok (by assumption) ?_ e | apply Mach.nvmCommand_ok | intro _

theorem execNvmErase4K_ok {d : Nat} {s : State} {t : State} (hOk : s.m.Ok) (e : execNvmErase4K d s = .next t) : t.m.Ok := by
  unfold execNvmErase4K at e
  with_reducible repeat' first
    | refine State.onDie_ok (by assumption) ?_ e | apply Mach.nvmCommand_ok | intro _

theorem execNvmErase64K_ok {d : Nat} {s : State} {t : State} (hOk : s.m.Ok) (e : execNvmErase64K d s = .next t) : t.m.Ok := by
  unfold execNvmErase64K at e
  with_reducible repeat' first
    | refine State.onDie_ok (by assumption) ?_ e | apply Mach.nvmCommand_ok | intro _

theorem execNvmOperationComplete_ok {ok : Bool} {s : State} {t : State} (hOk : s.m.Ok) (e : execNvmOperationComplete ok s = .next t) : t.m.Ok := by
  unfold execNvmOperationComplete at e
  with_reducible repeat' first
    | assumption | refine State.run_ok (by assumption) ?_ e | split at e | apply Mach.freeBytes_ok | apply Mach.wr_ok
    | apply Mach.wpFollow_ok | apply Mach.nvmRefuse_ok | apply Mach.parts_nor | apply Mach.nor_wf | apply Nor.rewrite_wf
    | apply Nor.erase_wf | apply Nor.program_wf | split | intro _ | dsimp only | rw [Mach.ok_mk]


end Sys2Proof.Machine
end

