-- ==== Sys2Proof/Laws/KeepQos.lean ====
section
/-! SUPPORT. Soundness is kept by the definitions of Machine/Qos.lean. -/

namespace Sys2Proof.Machine

theorem Mach.qosRecompute_ok {m : Mach} {d : Nat} (hOk : m.Ok) : (Mach.qosRecompute m d).Ok := by
  unfold Mach.qosRecompute
  with_reducible repeat' first
    | assumption | apply Mach.wr_ok | apply Mach.note_ok | apply foldl_ok | split | intro _ | dsimp only

theorem Mach.qosChannels_ok {m : Mach} {d : Nat} (hOk : m.Ok) : (Mach.qosChannels m d).Ok := by
  unfold Mach.qosChannels
  with_reducible repeat' first
    | assumption | apply Mach.qosRecompute_ok | split

theorem Mach.updMaster_ok {m : Mach} {d i : Nat} {f : Master → Master} (hOk : m.Ok) : (Mach.updMaster m d i f).Ok := by
  unfold Mach.updMaster
  with_reducible repeat' first
    | assumption | apply Mach.upd_ok | apply Die.parts_ok | intro _ | dsimp only | rw [Die.ok_mk]

theorem Mach.setPool_ok {m : Mach} {d v : Nat} (hOk : m.Ok) : (Mach.setPool m d v).Ok := by
  unfold Mach.setPool
  with_reducible repeat' first
    | assumption | apply Mach.upd_ok | apply Mach.wr_ok | apply Die.parts_ok | intro _ | dsimp only | rw [Die.ok_mk]

theorem Mach.qosStart_ok {m : Mach} {d : Nat} (hOk : m.Ok) : (Mach.qosStart m d).Ok := by
  unfold Mach.qosStart
  with_reducible repeat' first
    | assumption | apply Mach.upd_ok | apply Mach.wr_ok | apply Mach.qosRecompute_ok | apply Mach.updMaster_ok
    | apply Mach.setPool_ok | apply Die.parts_ok | apply foldl_ok | intro _ | dsimp only | rw [Die.ok_mk]

theorem Mach.congestion_ok {m : Mach} {d : Nat} (hOk : m.Ok) : (Mach.congestion m d).Ok := by
  unfold Mach.congestion
  with_reducible repeat' first
    | assumption | apply Mach.wr_ok | split | dsimp only

theorem execBorrowStepUpdate_ok {d : Nat} {s : State} {t : State} (hOk : s.m.Ok) (e : execBorrowStepUpdate d s = .next t) : t.m.Ok := by
  unfold execBorrowStepUpdate at e
  with_reducible repeat' first
    | assumption | refine State.onDie_ok (by assumption) ?_ e | apply Mach.when_ok | apply Mach.upd_ok | apply Mach.wr_ok
    | apply Mach.runTo_ok | apply Die.parts_ok | intro _ | dsimp only | rw [Die.ok_mk]

theorem Mach.showWaits_ok {m : Mach} {d i : Nat} (hOk : m.Ok) : (Mach.showWaits m d i).Ok := by
  unfold Mach.showWaits
  with_reducible repeat' first
    | assumption | apply Mach.wr_ok

theorem Mach.admitReq_ok {m : Mach} {d : Nat} {r : QosReq} (hOk : m.Ok) : (Mach.admitReq m d r).Ok := by
  unfold Mach.admitReq
  with_reducible repeat' first
    | assumption | apply Mach.upd_ok | apply Mach.bump_ok | apply Mach.showWaits_ok | apply Die.parts_ok | intro _
    | dsimp only | rw [Die.ok_mk]

theorem Mach.admitCredit_ok {m : Mach} {d : Nat} {r : QosReq} (hOk : m.Ok) : (Mach.admitCredit m d r).Ok := by
  unfold Mach.admitCredit
  with_reducible repeat' first
    | assumption | apply Mach.updMaster_ok | apply Mach.admitReq_ok

theorem Mach.grantUnit_ok {m : Mach} {d : Nat} {r : QosReq} (hOk : m.Ok) : (Mach.grantUnit m d r).Ok := by
  unfold Mach.grantUnit
  with_reducible repeat' first
    | assumption | apply Mach.updMaster_ok | apply Mach.setPool_ok | apply Mach.admitCredit_ok | split | dsimp only

theorem Mach.admitDebt_ok {m : Mach} {d : Nat} {r : QosReq} (hOk : m.Ok) : (Mach.admitDebt m d r).Ok := by
  unfold Mach.admitDebt
  with_reducible repeat' first
    | assumption | apply Mach.wr_ok | apply Mach.updMaster_ok | apply Mach.admitReq_ok

theorem Mach.qosWait_ok {m : Mach} {d : Nat} {r : QosReq} (hOk : m.Ok) : (Mach.qosWait m d r).Ok := by
  unfold Mach.qosWait
  with_reducible repeat' first
    | assumption | apply Mach.upd_ok | apply Mach.showWaits_ok | apply Die.parts_ok | intro _ | dsimp only | rw [Die.ok_mk]

theorem Mach.serveCredit_ok {m : Mach} {d : Nat} (hOk : m.Ok) : (Mach.serveCredit m d).Ok := by
  unfold Mach.serveCredit
  with_reducible repeat' first
    | assumption | apply Mach.admitCredit_ok | apply foldl_ok | split | intro _

theorem Mach.servePool_ok {d : Nat} (n : Nat) : ∀ {m : Mach}, m.Ok → (m.servePool d n).Ok := by
  induction n with
  | zero => intro m h; exact h
  | succ n ih =>
    intro m h
    unfold Mach.servePool
    dsimp only
    split
    · exact ih (Mach.grantUnit_ok h)
    · exact h

theorem Mach.emptyPool_ok {m : Mach} {d : Nat} (h : m.Ok) : (m.emptyPool d).Ok := Mach.servePool_ok _ h

theorem Mach.serveLate_ok {m : Mach} {d : Nat} (hOk : m.Ok) : (Mach.serveLate m d).Ok := by
  unfold Mach.serveLate
  with_reducible repeat' first
    | assumption | apply Mach.showWaits_ok | apply Mach.admitDebt_ok | apply foldl_ok | split | intro _

theorem Mach.qosServe_ok {m : Mach} {d : Nat} (h : m.Ok) : (m.qosServe d).Ok :=
  Mach.serveLate_ok (Mach.emptyPool_ok (Mach.serveCredit_ok h))

theorem Mach.admitReserve_ok {m : Mach} {d port bytes : Nat} (hOk : m.Ok) : (Mach.admitReserve m d port bytes).Ok := by
  unfold Mach.admitReserve
  with_reducible repeat' first
    | assumption | apply Mach.upd_ok | apply Die.parts_ok | intro _ | dsimp only | rw [Die.ok_mk]

theorem Mach.qosRequest_ok {m : Mach} {d : Nat} {r : QosReq} (hOk : m.Ok) : (Mach.qosRequest m d r).Ok := by
  unfold Mach.qosRequest
  with_reducible repeat' first
    | assumption | apply Mach.admitCredit_ok | apply Mach.emptyPool_ok | apply Mach.admitDebt_ok | apply Mach.qosWait_ok
    | split | dsimp only

theorem execQosAdmit_ok {d : Nat} {w : QosWork} {bytes cls accept deadline ageNs : Nat} {s : State} {t : State} (hOk : s.m.Ok) (e : execQosAdmit d w bytes cls accept deadline ageNs s = .next t) : t.m.Ok := by
  unfold execQosAdmit at e
  with_reducible repeat' first
    | assumption | refine State.onDie_ok (by assumption) ?_ e | split at e | apply Mach.when_ok | apply Mach.admitReserve_ok
    | apply Mach.qosRequest_ok | intro _

theorem Mach.qosRelease_ok {m : Mach} {ld : Nat} (hOk : m.Ok) : (Mach.qosRelease m ld).Ok := by
  unfold Mach.qosRelease
  with_reducible repeat' first
    | assumption | apply Mach.upd_ok | apply Mach.eachDie_ok | apply Mach.showWaits_ok | apply Die.parts_ok | intro _
    | dsimp only | rw [Die.ok_mk]

theorem execQosTick_ok {d : Nat} {s : State} {t : State} (hOk : s.m.Ok) (e : execQosTick d s = .next t) : t.m.Ok := by
  unfold execQosTick at e
  with_reducible repeat' first
    | assumption | refine State.onDie_ok (by assumption) ?_ e | apply Mach.when_ok | apply Mach.upd_ok | apply Mach.wr_ok
    | apply Mach.runTo_ok | apply Mach.setPool_ok | apply Mach.congestion_ok | apply Mach.qosServe_ok | apply Die.parts_ok
    | apply foldl_ok | split | intro _ | dsimp only | rw [Die.ok_mk]

theorem execQosWindowStart_ok {d i : Nat} {s : State} {t : State} (hOk : s.m.Ok) (e : execQosWindowStart d i s = .next t) : t.m.Ok := by
  unfold execQosWindowStart at e
  with_reducible repeat' first
    | assumption | refine State.onUnit_ok (by assumption) ?_ e | apply Mach.when_ok | apply Mach.wr_ok | apply Mach.drop_ok
    | apply Mach.runTo_ok | apply Mach.updMaster_ok | apply Mach.qosServe_ok | intro _

theorem execQosRecompute_ok {d : Nat} {s : State} {t : State} (hOk : s.m.Ok) (e : execQosRecompute d s = .next t) : t.m.Ok := by
  unfold execQosRecompute at e
  with_reducible repeat' first
    | assumption | refine State.onDie_ok (by assumption) ?_ e | apply Mach.when_ok | apply Mach.qosRecompute_ok | intro _

theorem execQosGuarWrite_ok {d : Nat} {i : Option Nat} {v : Word} {s : State} {t : State} (hOk : s.m.Ok) (e : execQosGuarWrite d i v s = .next t) : t.m.Ok := by
  unfold execQosGuarWrite at e
  with_reducible repeat' first
    | assumption | refine State.onDie_ok (by assumption) ?_ e | refine State.onUnit_ok (by assumption) ?_ e | split at e
    | apply Mach.when_ok | apply Mach.wr_ok | apply Mach.qosRecompute_ok | split | intro _ | dsimp only


end Sys2Proof.Machine
end

