-- ==== Sys2Proof/Laws/KeepLayout.lean ====
section
/-! SUPPORT. Soundness is kept by the definitions of Machine/Layout.lean. -/

namespace Sys2Proof.Machine

theorem Mach.updTier_ok {m : Mach} {d : Nat} {f : Tier → Tier} (hOk : m.Ok) : (Mach.updTier m d f).Ok := by
  unfold Mach.updTier
  with_reducible repeat' first
    | assumption | apply Mach.upd_ok | apply Die.parts_ok | intro _ | rw [Die.ok_mk]

theorem Mach.setEntry_ok {m : Mach} {d ext idx : Nat} {e : FrameEntry} (h : m.Ok) : (m.setEntry d ext idx e).Ok := by
  unfold Mach.setEntry
  refine Mach.upd_ok h (fun x hx => ?_)
  dsimp only
  split <;> exact hx

theorem Mach.updEntry_ok {m : Mach} {d ext idx : Nat} {f : FrameEntry → FrameEntry} (hOk : m.Ok) : (Mach.updEntry m d ext idx f).Ok := by
  unfold Mach.updEntry
  with_reducible repeat' first
    | assumption | apply Mach.setEntry_ok

theorem Mach.setLse_ok {m : Mach} {l : Lse} (hOk : m.Ok) : (Mach.setLse m l).Ok := by
  unfold Mach.setLse
  with_reducible repeat' first
    | assumption | apply Mach.upd_ok | apply Mach.parts_ok | intro _ | refine Die.parts_keep ?_ rfl rfl rfl rfl rfl
    | dsimp only | rw [Mach.ok_mk] | rw [Die.ok_mk]

theorem Mach.updExt_ok {m : Mach} {e : Nat} {f : Extent → Extent} (hOk : m.Ok) : (Mach.updExt m e f).Ok := by
  unfold Mach.updExt
  with_reducible repeat' first
    | assumption | apply Mach.setLse_ok

theorem Mach.writeHome_ok {m : Mach} {e v : Nat} (hOk : m.Ok) : (Mach.writeHome m e v).Ok := by
  unfold Mach.writeHome
  with_reducible repeat' first
    | assumption | apply Mach.upd_ok | apply Mach.eachDie_ok | apply Die.parts_ok | intro _ | rw [Die.ok_mk]


end Sys2Proof.Machine
end

