-- ==== Sys2Proof/Laws/KeepHoist.lean ====
section
/-! SUPPORT. Soundness is kept by the definitions of Machine/Hoist.lean. -/

namespace Sys2Proof.Machine

theorem Mach.noteFrame_ok {m : Mach} {d : Nat} {pc : PCode} {ext idx : Nat} {detail : Nat} (hOk : m.Ok) : (Mach.noteFrame m d pc ext idx detail).Ok := by
  unfold Mach.noteFrame
  with_reducible repeat' first
    | assumption | apply Mach.note_ok

theorem Mach.heldOnce_ok {m : Mach} {ext idx t : Nat} (h : m.Ok) : (m.heldOnce ext idx t).Ok := Mach.mapDies_ok h (fun _ hx => hx)

theorem Mach.dropT1_ok {m : Mach} {d ext idx : Nat} (hOk : m.Ok) : (Mach.dropT1 m d ext idx).Ok := by
  unfold Mach.dropT1
  with_reducible repeat' first
    | assumption | apply Mach.updEntry_ok | apply Mach.heldOnce_ok | split

theorem Mach.clearUnavail_ok {m : Mach} {d ext idx : Nat} {ts : List Nat} (hOk : m.Ok) : (Mach.clearUnavail m d ext idx ts).Ok := by
  unfold Mach.clearUnavail
  with_reducible repeat' first
    | assumption | apply Mach.updTier_ok

theorem Mach.dropT2_ok {m : Mach} {d ext idx : Nat} (hOk : m.Ok) : (Mach.dropT2 m d ext idx).Ok := by
  unfold Mach.dropT2
  with_reducible repeat' first
    | assumption | apply Mach.updEntry_ok | apply Mach.heldOnce_ok | apply Mach.clearUnavail_ok | split

theorem Mach.updFetch_ok {m : Mach} {d ext idx : Nat} {f : Fetch → Fetch} (hOk : m.Ok) : (Mach.updFetch m d ext idx f).Ok := by
  unfold Mach.updFetch
  with_reducible repeat' first
    | assumption | apply Mach.updTier_ok

theorem Mach.evictNow_ok {m : Mach} {d : Nat} {v : Evict} (hOk : m.Ok) : (Mach.evictNow m d v).Ok := by
  unfold Mach.evictNow
  with_reducible repeat' first
    | assumption | apply Mach.bump_ok | apply Mach.noteFrame_ok | apply Mach.dropT1_ok | apply Mach.dropT2_ok | split
    | dsimp only

theorem Mach.hoistFirst_ok {m : Mach} {d : Nat} {first : Evict → Bool} (hOk : m.Ok) : (Mach.hoistFirst m d first).Ok := by
  unfold Mach.hoistFirst
  with_reducible repeat' first
    | assumption | apply Mach.updTier_ok | apply Mach.evictNow_ok | apply foldl_ok | intro _

theorem Mach.restartPromo_ok {m : Mach} {d : Nat} {p : Promo} (hOk : m.Ok) : (Mach.restartPromo m d p).Ok := by
  unfold Mach.restartPromo
  with_reducible repeat' first
    | assumption | apply Mach.updTier_ok | apply Mach.updFetch_ok | split

theorem Mach.retarget_ok {m : Mach} {d c : Nat} (hOk : m.Ok) : (Mach.retarget m d c).Ok := by
  unfold Mach.retarget
  with_reducible repeat' first
    | assumption | apply Mach.chosen_ok | apply Mach.updTier_ok | apply Mach.updFetch_ok | apply foldl_ok | split | intro _

theorem Mach.redirect_ok {m : Mach} {d c : Nat} (hOk : m.Ok) : (Mach.redirect m d c).Ok := by
  unfold Mach.redirect
  with_reducible repeat' first
    | assumption | apply Mach.note_ok | apply Mach.updTier_ok | apply Mach.hoistFirst_ok | apply Mach.restartPromo_ok
    | apply Mach.retarget_ok | apply foldl_ok | intro _


end Sys2Proof.Machine
end

