-- ==== Sys2Proof/Laws/KeepDmc.lean ====
section
/-! SUPPORT. Soundness is kept by the definitions of Machine/Dmc.lean. -/

namespace Sys2Proof.Machine

theorem Mach.updChan_ok {m : Mach} {d c : Nat} {f : Chan → Chan} (h : m.Ok) : (m.updChan d c f).Ok :=
  Mach.upd_ok h (fun _ hx => ⟨hx.1, hx.2.1, hx.2.2.1, hx.2.2.2.1, (List.length_modify ..).trans hx.2.2.2.2⟩)

theorem Mach.dramCmd_ok {m : Mach} {d c cmd bank row sector port len : Nat} (hOk : m.Ok) : (Mach.dramCmd m d c cmd bank row sector port len).Ok := by
  unfold Mach.dramCmd
  with_reducible repeat' first
    | assumption | apply Mach.updChan_ok

theorem Mach.markWhere_ok {m : Mach} {d c : Nat} {here : DramCmd → Bool} (h : m.Ok) : (m.markWhere d c here).Ok := Mach.updChan_ok h

theorem Mach.activate_ok {m : Mach} {d c bank row port : Nat} (hOk : m.Ok) : (Mach.activate m d c bank row port).Ok := by
  unfold Mach.activate
  with_reducible repeat' first
    | assumption | apply Mach.bump_ok | apply Mach.note_ok | apply Mach.updChan_ok | apply Mach.dramCmd_ok | apply foldl_ok
    | split | intro _ | dsimp only

theorem Mach.run_ok {m : Mach} {d c cmd bank row sector n port : Nat} (hOk : m.Ok) : (Mach.run m d c cmd bank row sector n port).Ok := by
  unfold Mach.run
  with_reducible repeat' first
    | assumption | apply Mach.dramCmd_ok | apply Mach.activate_ok

theorem Mach.showDirty_ok {m : Mach} {d c : Nat} (hOk : m.Ok) : (Mach.showDirty m d c).Ok := by
  unfold Mach.showDirty
  with_reducible repeat' first
    | assumption | apply Mach.setBit_ok

theorem Mach.segment_ok {m : Mach} {d c bank row : Nat} {dirty : Bool} (hOk : m.Ok) : (Mach.segment m d c bank row dirty).Ok := by
  unfold Mach.segment
  with_reducible repeat' first
    | assumption | apply Mach.run_ok | apply Mach.updChan_ok | apply Mach.showDirty_ok | split

theorem Mach.writeBackSegments_ok {m : Mach} {d c : Nat} (hOk : m.Ok) : (Mach.writeBackSegments m d c).Ok := by
  unfold Mach.writeBackSegments
  with_reducible repeat' first
    | assumption | apply Mach.run_ok | apply Mach.updChan_ok | apply Mach.showDirty_ok | apply foldl_ok | intro _

theorem Mach.wakeChan_ok {m : Mach} {d c : Nat} (hOk : m.Ok) : (Mach.wakeChan m d c).Ok := by
  unfold Mach.wakeChan
  with_reducible repeat' first
    | assumption | apply Mach.wr_ok | apply Mach.ungate_ok | apply Mach.dramCmd_ok | split

theorem Mach.freeze_ok {m : Mach} {d c cause bank row sector len : Nat} {failing : List Nat} (hOk : m.Ok) : (Mach.freeze m d c cause bank row sector len failing).Ok := by
  unfold Mach.freeze
  with_reducible repeat' first
    | assumption | apply Mach.wr_ok | apply Mach.bump_ok | apply Mach.furlAbandon_ok | apply Mach.note_ok | apply Mach.nmi_ok
    | apply Mach.qosChannels_ok | apply Mach.redirect_ok | apply Mach.updChan_ok | split | dsimp only

theorem Mach.decodeLine_ok {m : Mach} {d dda : Nat} (hOk : m.Ok) : (Mach.decodeLine m d dda).2.Ok := by
  unfold Mach.decodeLine
  with_reducible repeat' first
    | assumption | apply Mach.bump_ok | apply Mach.correctable_ok | apply Mach.markWhere_ok | apply Mach.freeze_ok | split
    | dsimp only

theorem Mach.oneLine_ok {m : Mach} {d dda : Nat} (hOk : m.Ok) : (Mach.oneLine m d dda).2.Ok := by
  unfold Mach.oneLine
  with_reducible repeat' first
    | assumption | apply Mach.bump_ok | apply Mach.decodeLine_ok | split | dsimp only

theorem Mach.readRun_ok {m : Mach} {d port dda n : Nat} (hOk : m.Ok) : (Mach.readRun m d port dda n).2.Ok := by
  unfold Mach.readRun
  with_reducible repeat' first
    | assumption | apply Mach.run_ok | apply Mach.segment_ok | apply Mach.wakeChan_ok | apply Mach.oneLine_ok
    | apply foldl_snd_ok | split | intro _ | dsimp only

theorem Mach.readLine_ok {m : Mach} {d port dda : Nat} (hOk : m.Ok) : (Mach.readLine m d port dda).2.Ok := by
  unfold Mach.readLine
  with_reducible repeat' first
    | assumption | apply Mach.readRun_ok

theorem Mach.storeLine_ok {m : Mach} {d : Nat} {e : WqEntry} (h : m.Ok) : (m.storeLine d e).Ok := by
  unfold Mach.storeLine
  extract_lets dda c allowed split flip chk chk1 chk2 mask data chk3 m1 m2
  have h1 : m1.Ok := Mach.upd_ok h (fun x hx =>
    ⟨hx.1, SMap.setRun_wf _ _ hx.2.1, SMap.setRun_wf _ _ hx.2.2.1, hx.2.2.2.1, hx.2.2.2.2⟩)
  have h2 : m2.Ok := by
    unfold m2; split
    · exact Mach.note_ok (Mach.wr_ok (Mach.wr_ok h1))
    · exact h1
  split
  · exact Mach.flipDone_ok h2
  · exact h2

theorem Mach.drainRuns_ok {d : Nat} (fuel : Nat) : ∀ {m : Mach} {es : List WqEntry}, m.Ok → (m.drainRuns d fuel es).Ok := by
  induction fuel with
  | zero => intro m es h; exact h
  | succ n ih =>
    intro m es h
    unfold Mach.drainRuns
    split
    · exact h
    · exact ih (foldl_ok (fun _ _ h => Mach.storeLine_ok h) (Mach.run_ok (Mach.segment_ok h)))

theorem Mach.drain_ok {m : Mach} {d c : Nat} (h : m.Ok) : (m.drain d c).Ok := Mach.updChan_ok (Mach.drainRuns_ok _ h)

theorem Mach.writeLine_ok {m : Mach} {d port dda : Nat} {data : List Byte} {poison : Bool} (hOk : m.Ok) : (Mach.writeLine m d port dda data poison).Ok := by
  unfold Mach.writeLine
  with_reducible repeat' first
    | assumption | apply Mach.updChan_ok | apply Mach.wakeChan_ok | apply Mach.drain_ok | split | dsimp only

theorem Mach.mergeLine_ok {m : Mach} {d port dda first : Nat} {data : List Byte} {poison : Bool} (hOk : m.Ok) : (Mach.mergeLine m d port dda first data poison).2.Ok := by
  unfold Mach.mergeLine
  with_reducible repeat' first
    | assumption | apply Mach.readLine_ok | apply Mach.writeLine_ok | split | dsimp only

theorem Mach.readLines_ok {d port : Nat} (fuel : Nat) : ∀ {m : Mach} {a n : Nat}, m.Ok → (m.readLines d port a n fuel).2.Ok := by
  induction fuel with
  | zero => intro m a n h; exact h
  | succ k ih =>
    intro m a n h
    unfold Mach.readLines
    split
    · exact h
    · exact ih (Mach.readRun_ok h)

theorem Mach.getBytes_ok {m : Mach} {d port a n : Nat} (h : m.Ok) : (m.getBytes d port a n).2.Ok := by
  unfold Mach.getBytes
  dsimp only
  split <;> exact Mach.readLines_ok _ h

theorem Mach.putBytes_ok {d port : Nat} {poison : Bool} (fuel : Nat) : ∀ {m : Mach} {a : Nat} {bs : List Byte}, m.Ok →
    (m.putBytes d port a bs poison fuel).Ok := by
  induction fuel with
  | zero => intro m a bs h; exact h
  | succ n ih =>
    intro m a bs h
    unfold Mach.putBytes
    split
    · exact h
    · exact ih (Mach.mergeLine_ok h)

theorem Mach.writeBytes_ok {m : Mach} {d port a : Nat} {bs : List Byte} {poison : Bool} (h : m.Ok) :
    (m.writeBytes d port a bs poison).Ok := Mach.putBytes_ok _ h

theorem Mach.setLane_ok {m : Mach} {d c : Nat} {l : Lane} (hOk : m.Ok) : (Mach.setLane m d c l).Ok := by
  unfold Mach.setLane
  with_reducible repeat' first
    | assumption | apply Mach.wr_ok | apply Mach.updChan_ok | apply Mach.dramCmd_ok

theorem Mach.laneFail_ok {m : Mach} {d c : Nat} (hOk : m.Ok) : (Mach.laneFail m d c).Ok := by
  unfold Mach.laneFail
  with_reducible repeat' first
    | assumption | apply Mach.wr_ok | apply Mach.note_ok

theorem Mach.trainLanes_ok {m : Mach} {d : Nat} {ls : List (Nat × Lane)} (hOk : m.Ok) : (Mach.trainLanes m d ls).Ok := by
  unfold Mach.trainLanes
  with_reducible repeat' first
    | assumption | apply Mach.halfMast_ok | apply Mach.setLane_ok | apply Mach.laneFail_ok | apply foldl_ok | split | intro _

theorem Mach.initDevice_ok {m : Mach} {d j : Nat} (h : m.Ok) : (m.initDevice d j).Ok :=
  Mach.wr_ok (Mach.upd_ok h (fun _ hx =>
    ⟨hx.1, SMap.dropRange_wf _ _ hx.2.1, SMap.dropRange_wf _ _ hx.2.2.1, hx.2.2.2.1, hx.2.2.2.2⟩))

theorem Mach.dramStart_ok {m : Mach} {d density : Nat} {lanes : List Lane} (h : m.Ok) : (m.dramStart d density lanes).Ok := by
  unfold Mach.dramStart
  split
  · exact Mach.halfMast_ok (Mach.note_ok h)
  · extract_lets form m1 m2 m3 m4 m5 m6 m7
    have h4 : m4.Ok := Mach.trainLanes_ok (Mach.wr_ok (Mach.wr_ok (foldl_ok (fun _ _ h => Mach.wr_ok h) (Mach.wr_ok h))))
    split
    · exact h4
    · exact Mach.startStep_ok (Mach.wr_ok (Mach.wr_ok (foldl_ok (fun _ _ h => Mach.wr_ok h) (foldl_ok (fun _ _ h => Mach.initDevice_ok h) h4))))

theorem execDramStartUp_ok {d density : Nat} {lanes : List Lane} {s t : State} (h : s.m.Ok)
    (e : execDramStartUp d density lanes s = .next t) : t.m.Ok := by
  unfold execDramStartUp at e
  split at e
  · cases e
  · exact State.onDie_ok h (fun _ h => Mach.when_ok h (fun _ h => Mach.dramStart_ok h)) e

theorem execWriteQueueDrain_ok {d c : Nat} {s : State} {t : State} (hOk : s.m.Ok) (e : execWriteQueueDrain d c s = .next t) : t.m.Ok := by
  unfold execWriteQueueDrain at e
  with_reducible repeat' first
    | assumption | refine State.onUnit_ok (by assumption) ?_ e | apply Mach.when_ok | apply Mach.writeBackSegments_ok
    | apply Mach.wakeChan_ok | apply Mach.drain_ok | intro _

theorem execRefresh_ok {d c bank : Nat} {s : State} {t : State} (hOk : s.m.Ok) (e : execRefresh d c bank s = .next t) : t.m.Ok := by
  unfold execRefresh at e
  with_reducible repeat' first
    | assumption | refine State.onUnit_ok (by assumption) ?_ e | apply Mach.when_ok | apply Mach.dramCmd_ok | intro _

theorem Mach.selfRefresh_ok {m : Mach} {d c : Nat} (hOk : m.Ok) : (m.selfRefresh d c).Ok :=
  Mach.wr_ok (Mach.wr_ok (Mach.dramCmd_ok (Mach.writeBackSegments_ok (Mach.drain_ok hOk))))

theorem execSelfRefreshEntry_ok {d c : Nat} {s : State} {t : State} (hOk : s.m.Ok) (e : execSelfRefreshEntry d c s = .next t) : t.m.Ok := by
  unfold execSelfRefreshEntry at e
  with_reducible repeat' first
    | assumption | refine State.onUnit_ok (by assumption) ?_ e | apply Mach.when_ok | apply Mach.powerState_ok | apply Mach.selfRefresh_ok
    | apply Mach.runTo_ok | intro _

theorem execRefreshWindow_ok {d c : Nat} {s : State} {t : State} (hOk : s.m.Ok) (e : execRefreshWindow d c s = .next t) : t.m.Ok := by
  unfold execRefreshWindow at e
  with_reducible repeat' first
    | assumption | refine State.onUnit_ok (by assumption) ?_ e | apply Mach.when_ok | apply Mach.updChan_ok | intro _

theorem execPeriodicRecentre_ok {d c : Nat} {lane : Lane} {s : State} {t : State} (hOk : s.m.Ok) (e : execPeriodicRecentre d c lane s = .next t) : t.m.Ok := by
  unfold execPeriodicRecentre at e
  with_reducible repeat' first
    | assumption | refine State.onUnit_ok (by assumption) ?_ e | split at e | apply Mach.when_ok | apply Mach.wr_ok
    | apply Mach.runTo_ok | apply Mach.updChan_ok | apply Mach.setLane_ok | apply Mach.laneFail_ok | split | intro _

theorem Mach.freezeFor_ok {m : Mach} {d c : Nat} {cause : FreezeCause} (h : m.Ok) : (m.freezeFor d c cause).Ok := by
  have mark (here : DramCmd → Bool) : (if m.chState d c = 5 then m else m.markWhere d c here).Ok := by
    split
    · exact h
    · exact Mach.markWhere_ok h
  unfold Mach.freezeFor
  cases cause <;> dsimp only
  · split
    · exact Mach.freeze_ok (mark _)
    · exact h
  · exact Mach.freeze_ok (mark _)
  · split
    · exact Mach.freeze_ok (mark _)
    · exact h

theorem execChannelFreeze_ok {d c : Nat} {cause : FreezeCause} {s t : State} (h : s.m.Ok)
    (e : execChannelFreeze d c cause s = .next t) : t.m.Ok :=
  State.onUnit_ok h (fun _ h => Mach.when_ok h (fun _ h => Mach.freezeFor_ok h)) e

theorem execChannelRelease_ok {d c : Nat} {v : Word} {s : State} {t : State} (hOk : s.m.Ok) (e : execChannelRelease d c v s = .next t) : t.m.Ok := by
  unfold execChannelRelease at e
  with_reducible repeat' first
    | assumption | refine State.onUnit_ok (by assumption) ?_ e | apply Mach.when_ok | apply Mach.updChan_ok | intro _

theorem execPwrRampExpiry_ok {d j : Nat} {s : State} {t : State} (hOk : s.m.Ok) (e : execPwrRampExpiry d j s = .next t) : t.m.Ok := by
  unfold execPwrRampExpiry at e
  with_reducible repeat' first
    | assumption | refine State.onUnit_ok (by assumption) ?_ e | apply Mach.when_ok | apply Mach.wr_ok | apply Mach.runTo_ok
    | apply foldl_ok | intro _

theorem execDeviceInitComplete_ok {d j : Nat} {lanes : List Lane} {s : State} {t : State} (hOk : s.m.Ok) (e : execDeviceInitComplete d j lanes s = .next t) : t.m.Ok := by
  unfold execDeviceInitComplete at e
  with_reducible repeat' first
    | assumption | refine State.onUnit_ok (by assumption) ?_ e | apply Mach.when_ok | apply Mach.wr_ok
    | apply Mach.qosChannels_ok | apply Mach.trainLanes_ok | apply Mach.initDevice_ok | apply foldl_ok | split | intro _
    | dsimp only


end Sys2Proof.Machine
end

