-- ==== Sys2Proof/Laws/KeepFlash.lean ====
section
/-! SUPPORT. Soundness is kept by the definitions of Machine/Flash.lean. -/

namespace Sys2Proof.Machine

theorem Mach.updFl_ok {m : Mach} {d : Nat} {f : Flash → Flash} (h : m.Ok)
    (hf : ∀ x : Flash, SMap.wf zeroByte x.data = true → SMap.wf zeroByte (f x).data = true) : (m.updFl d f).Ok :=
  Mach.upd_ok h (fun x hx => ⟨hx.1, hx.2.1, hx.2.2.1, hf x.fl hx.2.2.2.1, hx.2.2.2.2⟩)

theorem Mach.setSb_ok {m : Mach} {d s : Nat} {f : Sb → Sb} (h : m.Ok) : (m.setSb d s f).Ok := Mach.updFl_ok h (fun _ hx => hx)

theorem Mach.showSbs_ok {m : Mach} {d : Nat} (hOk : m.Ok) : (Mach.showSbs m d).Ok := by
  unfold Mach.showSbs
  with_reducible repeat' first
    | assumption | apply Mach.wr_ok

theorem Mach.freeUp_ok {m : Mach} {d : Nat} (hOk : m.Ok) : (Mach.freeUp m d).Ok := by
  unfold Mach.freeUp
  with_reducible repeat' first
    | assumption | apply Mach.wr_ok | apply Mach.setSb_ok | apply Mach.showSbs_ok | apply foldl_ok | split | intro _
    | dsimp only

theorem Mach.place_ok {m : Mach} {d s : Nat} {data : List Byte} (hOk : m.Ok) : (Mach.place m d s data).2.Ok := by
  unfold Mach.place
  with_reducible repeat' first
    | assumption | apply Mach.updFl_ok | apply Mach.setSb_ok | apply SMap.setRun_wf | split | intro _ | dsimp only

theorem Mach.apart_ok {m : Mach} {d s : Nat} {c : FCopy} (hOk : m.Ok) : (Mach.apart m d s c).Ok := by
  unfold Mach.apart
  with_reducible repeat' first
    | assumption | apply Mach.setSb_ok | split | dsimp only

theorem Mach.append1_ok {m : Mach} {d : Nat} {c : FCopy} (hOk : m.Ok) : (Mach.append1 m d c).Ok := by
  unfold Mach.append1
  with_reducible repeat' first
    | assumption | apply Mach.updFl_ok | apply Mach.place_ok | apply Mach.apart_ok | split | intro _

theorem Mach.relocate1_ok {m : Mach} {d ext idx : Nat} {w : OpenSb} (hOk : m.Ok) : (Mach.relocate1 m d ext idx w).Ok := by
  unfold Mach.relocate1
  with_reducible repeat' first
    | assumption | apply Mach.updTier_ok | apply Mach.append1_ok | split | dsimp only

theorem Mach.moveHeaders_ok {m : Mach} {d : Nat} {w : OpenSb} {hit : Nat → Nat → Bool} (hOk : m.Ok) : (Mach.moveHeaders m d w hit).Ok := by
  unfold Mach.moveHeaders
  with_reducible repeat' first
    | assumption | apply Mach.append1_ok | apply foldl_ok | split | intro _

theorem Mach.moveRecoded_ok {m : Mach} {d : Nat} {w : OpenSb} {hit : Nat → Nat → Bool} (hOk : m.Ok) : (Mach.moveRecoded m d w hit).Ok := by
  unfold Mach.moveRecoded
  with_reducible repeat' first
    | assumption | apply Mach.append1_ok | apply foldl_ok | split | intro _

theorem Mach.tailMerge_ok {m : Mach} {d s : Nat} {w : OpenSb} (hOk : m.Ok) : (Mach.tailMerge m d s w).Ok := by
  unfold Mach.tailMerge
  with_reducible repeat' first
    | assumption | apply Mach.updFl_ok | apply Mach.setSb_ok | apply Mach.append1_ok | apply Mach.relocate1_ok
    | apply Mach.moveHeaders_ok | apply Mach.moveRecoded_ok | apply foldl_ok | split | intro _

theorem Mach.append_ok {m : Mach} {d : Nat} {c : FCopy} (hOk : m.Ok) : (Mach.append m d c).Ok := by
  unfold Mach.append
  with_reducible repeat' first
    | assumption | apply Mach.append1_ok | apply Mach.tailMerge_ok | split

theorem Mach.relocate_ok {m : Mach} {d ext idx : Nat} {w : OpenSb} (hOk : m.Ok) : (Mach.relocate m d ext idx w).Ok := by
  unfold Mach.relocate
  with_reducible repeat' first
    | assumption | apply Mach.relocate1_ok | apply Mach.tailMerge_ok | split

theorem Mach.relocateFrom_ok {m : Mach} {d ext idx : Nat} {data : List Byte} (hOk : m.Ok) : (Mach.relocateFrom m d ext idx data).Ok := by
  unfold Mach.relocateFrom
  with_reducible repeat' first
    | assumption | apply Mach.updTier_ok | apply Mach.append_ok | split | dsimp only

theorem Mach.relocAll_ok {m : Mach} {d s : Nat} (hOk : m.Ok) : (Mach.relocAll m d s).Ok := by
  unfold Mach.relocAll
  with_reducible repeat' first
    | assumption | apply Mach.moveHeaders_ok | apply Mach.moveRecoded_ok | apply Mach.tailMerge_ok | apply Mach.relocate_ok
    | apply foldl_ok | split | intro _

theorem Mach.checkSettled_ok {m : Mach} {d ext : Nat} (hOk : m.Ok) : (Mach.checkSettled m d ext).Ok := by
  unfold Mach.checkSettled
  with_reducible repeat' first
    | assumption | apply Mach.updExt_ok | split

theorem Mach.landed_ok {m : Mach} {d : Nat} {c : FCopy} {g : Nat} (hOk : m.Ok) : (Mach.landed m d c g).Ok := by
  unfold Mach.landed
  with_reducible repeat' first
    | assumption | apply Mach.upd_ok | apply Mach.bump_ok | apply Mach.updTier_ok | apply Mach.updEntry_ok
    | apply Mach.updExt_ok | apply Mach.noteFrame_ok | apply Mach.checkSettled_ok | apply Die.parts_ok | split | intro _
    | dsimp only | rw [Die.ok_mk]

theorem Mach.landAll_ok {m : Mach} {d : Nat} (hOk : m.Ok) : (Mach.landAll m d).Ok := by
  unfold Mach.landAll
  with_reducible repeat' first
    | assumption | apply Mach.updFl_ok | apply Mach.landed_ok | apply foldl_ok | split | intro _

theorem Mach.noteFree_ok {m : Mach} {d unit cls : Nat} {detail : Nat} {args : List Nat} (hOk : m.Ok) : (Mach.noteFree m d unit cls detail args).Ok := by
  unfold Mach.noteFree
  with_reducible repeat' first
    | assumption | apply Mach.chosen_ok | apply Mach.note_ok

theorem Mach.growBad_ok {m : Mach} {d c u blk : Nat} (hOk : m.Ok) : (Mach.growBad m d c u blk).Ok := by
  unfold Mach.growBad
  with_reducible repeat' first
    | assumption | apply Mach.wr_ok | apply Mach.bump_ok | apply Mach.note_ok | apply Mach.updFl_ok | apply Mach.noteFree_ok
    | split | intro _ | dsimp only

theorem Mach.remapSlot_ok {m : Mach} {d c u s : Nat} (hOk : m.Ok) : (Mach.remapSlot m d c u s).Ok := by
  unfold Mach.remapSlot
  with_reducible repeat' first
    | assumption | apply Mach.updFl_ok | apply Mach.setSb_ok | apply Mach.showSbs_ok | apply Mach.relocAll_ok
    | apply Mach.noteFree_ok | split | intro _

theorem Mach.eraseSb_ok {m : Mach} {d s : Nat} (hOk : m.Ok) : (Mach.eraseSb m d s).Ok := by
  unfold Mach.eraseSb
  with_reducible repeat' first
    | assumption | apply Mach.updFl_ok | apply SMap.dropRange_wf | intro _

theorem Mach.placeWaiting_ok {m : Mach} {d : Nat} {w : OpenSb} (hOk : m.Ok) : (Mach.placeWaiting m d w).Ok := by
  unfold Mach.placeWaiting
  with_reducible repeat' first
    | assumption | apply Mach.updFl_ok | apply Mach.append_ok | apply foldl_ok | intro _

theorem Mach.checkFull_ok {m : Mach} {d : Nat} (hOk : m.Ok) : (Mach.checkFull m d).Ok := by
  unfold Mach.checkFull
  with_reducible repeat' first
    | assumption | apply Mach.wr_ok | apply Mach.noteFree_ok | split

theorem Mach.openOne_ok {m : Mach} {d : Nat} {w : OpenSb} {fails : List BlockAddr} (h : m.Ok) : (m.openOne d w fails).Ok := by
  unfold Mach.openOne
  extract_lets m1 m2 waits
  have h1 : m1.Ok := by
    unfold m1; split
    · exact Mach.setSb_ok h
    · exact h
  have h2 : m2.Ok := Mach.freeUp_ok (Mach.landAll_ok h1)
  clear_value m2 waits
  split
  · exact Mach.checkFull_ok h2
  · exact h2
  · dsimp only
    generalize hb : (List.foldl _ m2 _ : Mach) = m3
    have h3 : m3.Ok := hb ▸ foldl_ok (fun _ _ h => Mach.remapSlot_ok (Mach.growBad_ok (Mach.bump_ok h))) h2
    split
    · exact h3
    · exact Mach.placeWaiting_ok (Mach.showSbs_ok (Mach.updFl_ok (Mach.setSb_ok (Mach.eraseSb_ok h3)) (fun _ hx => hx)))

theorem execSuperblockOpen_ok {d : Nat} {w : OpenSb} {fails : List BlockAddr} {s : State} {t : State} (hOk : s.m.Ok) (e : execSuperblockOpen d w fails s = .next t) : t.m.Ok := by
  unfold execSuperblockOpen at e
  with_reducible repeat' first
    | assumption | refine State.onDie_ok (by assumption) ?_ e | apply Mach.when_ok | apply Mach.openOne_ok | intro _

theorem Mach.programFail_ok {m : Mach} {d s : Nat} {w : OpenSb} (hOk : m.Ok) : (Mach.programFail m d s w).Ok := by
  unfold Mach.programFail
  with_reducible repeat' first
    | assumption | apply Mach.bump_ok | apply Mach.updFl_ok | apply Mach.setSb_ok | apply Mach.freeUp_ok
    | apply Mach.landAll_ok | apply Mach.growBad_ok | apply Mach.remapSlot_ok | intro _

theorem execPageProgramComplete_ok {d : Nat} {w : OpenSb} {ok : Bool} {s : State} {t : State} (hOk : s.m.Ok) (e : execPageProgramComplete d w ok s = .next t) : t.m.Ok := by
  unfold execPageProgramComplete at e
  with_reducible repeat' first
    | assumption | refine State.onDie_ok (by assumption) ?_ e | split at e | apply Mach.when_ok | apply Mach.bump_ok
    | apply Mach.setSb_ok | apply Mach.landAll_ok | apply Mach.programFail_ok | split | intro _

theorem Mach.tailFlush_ok {m : Mach} {d : Nat} {w : OpenSb} (hOk : m.Ok) : (Mach.tailFlush m d w).Ok := by
  unfold Mach.tailFlush
  with_reducible repeat' first
    | assumption | apply Mach.setSb_ok | split

theorem execTailWaitExpiry_ok {d : Nat} {w : OpenSb} {s : State} {t : State} (hOk : s.m.Ok) (e : execTailWaitExpiry d w s = .next t) : t.m.Ok := by
  unfold execTailWaitExpiry at e
  with_reducible repeat' first
    | assumption | refine State.onDie_ok (by assumption) ?_ e | apply Mach.when_ok | apply Mach.runTo_ok
    | apply Mach.tailFlush_ok | split | intro _

theorem Mach.checkpoint_ok {m : Mach} {d : Nat} (hOk : m.Ok) : (Mach.checkpoint m d).Ok := by
  unfold Mach.checkpoint
  with_reducible repeat' first
    | assumption | apply Mach.choices_ok | apply Mach.wr_ok | apply Mach.note_ok | apply Mach.updFl_ok
    | apply Mach.tailFlush_ok | intro _

theorem execMapCheckpoint_ok {d : Nat} {s : State} {t : State} (hOk : s.m.Ok) (e : execMapCheckpoint d s = .next t) : t.m.Ok := by
  unfold execMapCheckpoint at e
  with_reducible repeat' first
    | assumption | refine State.onDie_ok (by assumption) ?_ e | apply Mach.when_ok | apply Mach.runTo_ok
    | apply Mach.checkpoint_ok | split | intro _

theorem Mach.flashFail_ok {m : Mach} {d c : Nat} (hOk : m.Ok) : (Mach.flashFail m d c).Ok := by
  unfold Mach.flashFail
  with_reducible repeat' first
    | assumption | apply Mach.note_ok | apply Mach.halfMast_ok

theorem Mach.signature_ok {m : Mach} {d : Nat} {readable : Bool} (hOk : m.Ok) : (Mach.signature m d readable).Ok := by
  unfold Mach.signature
  with_reducible repeat' first
    | assumption | apply Mach.halfMast_ok | apply Mach.updFl_ok | apply Mach.noteFree_ok | split | intro _

theorem execFlashDiscovery_ok {d : Nat} {found : List FoundChannel} {readable suspend : Bool} {s : State} {t : State} (hOk : s.m.Ok) (e : execFlashDiscovery d found readable suspend s = .next t) : t.m.Ok := by
  unfold execFlashDiscovery at e
  with_reducible repeat' first
    | assumption | refine State.onDie_ok (by assumption) ?_ e | apply Mach.when_ok | apply Mach.chosen_ok | apply Mach.wr_ok
    | apply Mach.setBit_ok | apply Mach.startStep_ok | apply Mach.halfMast_ok | apply Mach.updFl_ok | apply Mach.noteFree_ok
    | apply Mach.flashFail_ok | apply Mach.signature_ok | apply foldl_ok | split | intro _ | dsimp only

theorem Mach.discover_ok {m : Mach} {d : Nat} {factory : List BlockAddr} (h : m.Ok) : (m.discover d factory).Ok := by
  unfold Mach.discover
  extract_lets u src m1 spares least m2 m3 m4 m5 m6 m7 m8
  have h1 : m1.Ok := Mach.updFl_ok h (fun _ _ => rfl)
  have h2 : m2.Ok := Mach.updFl_ok h1 (fun _ hx => hx)
  have h3 : m3.Ok := foldl_ok (fun _ _ h => Mach.setSb_ok h) h2
  have h4 : m4.Ok := Mach.upd_ok h3 (fun _ hx => hx)
  have h0 : ∀ x : Mach, x.Ok → (if d = x.ens then { x with lse := Lse.reset } else x).Ok := by
    intro x hx; split <;> exact hx
  have h5 : m5.Ok := h0 m4 h4
  have h6 : m6.Ok := Mach.updFl_ok h5 (fun _ hx => hx)
  have h7 : m7.Ok := Mach.wr_ok (Mach.wr_ok h6)
  have h8 : m8.Ok := Mach.noteFree_ok (Mach.wr_ok (Mach.showSbs_ok h7))
  exact Mach.startStep_ok (Mach.wr_ok h8)

theorem execFirstDiscovery_ok {d : Nat} {factory : List BlockAddr} {s : State} {t : State} (hOk : s.m.Ok) (e : execFirstDiscovery d factory s = .next t) : t.m.Ok := by
  unfold execFirstDiscovery at e
  with_reducible repeat' first
    | assumption | refine State.onDie_ok (by assumption) ?_ e | apply Mach.when_ok | apply Mach.discover_ok | intro _

theorem Mach.eraseCount_ok {m : Mach} {d s : Nat} (hOk : m.Ok) : (Mach.eraseCount m d s).Ok := by
  unfold Mach.eraseCount
  with_reducible repeat' first
    | assumption | apply Mach.updFl_ok | intro _

theorem Mach.replay_ok {m : Mach} {d : Nat} {e : JEntry} (hOk : m.Ok) : (Mach.replay m d e).Ok := by
  unfold Mach.replay
  with_reducible repeat' first
    | assumption | apply Mach.upd_ok | apply Mach.updFl_ok | apply Mach.setSb_ok | apply Mach.eraseCount_ok
    | apply Mach.parts_ok | apply Die.parts_ok | split | intro _ | dsimp only | rw [Mach.ok_mk] | rw [Die.ok_mk]

theorem Mach.bbtFromNvm_ok {m : Mach} {d : Nat} (hOk : m.Ok) : (Mach.bbtFromNvm m d).Ok := by
  unfold Mach.bbtFromNvm
  with_reducible repeat' first
    | assumption | apply Mach.updFl_ok | intro _

theorem execMapRecovery_ok {d : Nat} {newerOk olderOk : Bool} {rest : Found} {s : State} {t : State} (hOk : s.m.Ok) (e : execMapRecovery d newerOk olderOk rest s = .next t) : t.m.Ok := by
  unfold execMapRecovery at e
  with_reducible repeat' first
    | assumption | refine State.onDie_ok (by assumption) ?_ e | split at e | apply Mach.when_ok | apply Mach.upd_ok
    | apply Mach.wr_ok | apply Mach.startStep_ok | apply Mach.updFl_ok | apply Mach.showSbs_ok | apply Mach.freeUp_ok
    | apply Mach.noteFree_ok | apply Mach.replay_ok | apply Mach.bbtFromNvm_ok | apply Mach.parts_ok | apply foldl_ok | split
    | intro _ | refine Die.parts_keep ?_ rfl rfl rfl rfl rfl | dsimp only | rw [Mach.ok_mk] | rw [Die.ok_mk]

theorem execBbtNvmCopy_ok {d : Nat} {s : State} {t : State} (hOk : s.m.Ok) (e : execBbtNvmCopy d s = .next t) : t.m.Ok := by
  unfold execBbtNvmCopy at e
  with_reducible repeat' first
    | assumption | refine State.onDie_ok (by assumption) ?_ e | apply Mach.when_ok | apply Mach.wr_ok | apply Mach.parts_nor
    | apply Mach.nor_wf | apply Nor.rewrite_wf | intro _ | rw [Mach.ok_mk]

theorem execFlashCommandTimeout_ok {d c : Nat} {s : State} {t : State} (hOk : s.m.Ok) (e : execFlashCommandTimeout d c s = .next t) : t.m.Ok := by
  unfold execFlashCommandTimeout at e
  with_reducible repeat' first
    | assumption | refine State.onUnit_ok (by assumption) ?_ e | apply Mach.when_ok | apply Mach.wr_ok | apply Mach.updFl_ok
    | intro _

theorem execFlashChannelRetrain_ok {d c : Nat} {ok : Bool} {s : State} {t : State} (hOk : s.m.Ok) (e : execFlashChannelRetrain d c ok s = .next t) : t.m.Ok := by
  unfold execFlashChannelRetrain at e
  with_reducible repeat' first
    | assumption | refine State.onUnit_ok (by assumption) ?_ e | split at e | apply Mach.when_ok | apply Mach.wr_ok
    | apply Mach.note_ok | apply Mach.updFl_ok | split | intro _


end Sys2Proof.Machine
end

