-- ==== Sys2Proof/Laws/KeepTier.lean ====
section
/-! SUPPORT. Soundness is kept by the definitions of Machine/Tier.lean. -/

namespace Sys2Proof.Machine

theorem Mach.putHeader_ok {m : Mach} {d e : Nat} {h : List Byte} (hOk : m.Ok) : (Mach.putHeader m d e h).Ok := by
  unfold Mach.putHeader
  with_reducible repeat' first
    | assumption | apply Mach.updTier_ok | apply Mach.writeBytes_ok | split

theorem Mach.loadTable_ok {m : Mach} {d : Nat} {x : Expander} {e : Extent} {tidx : Nat} (hOk : m.Ok) : (Mach.loadTable m d x e tidx).Ok := by
  unfold Mach.loadTable
  with_reducible repeat' first
    | assumption | apply Mach.upd_ok | apply Mach.wr_ok | apply Mach.bump_ok | apply Die.parts_ok | split | intro _
    | dsimp only | rw [Die.ok_mk]

theorem Mach.bindTable_ok {m : Mach} {d : Nat} {x : Expander} {e : Extent} {tidx : Nat} (hOk : m.Ok) : (Mach.bindTable m d x e tidx).2.Ok := by
  unfold Mach.bindTable
  with_reducible repeat' first
    | assumption | apply Mach.upd_ok | apply Mach.loadTable_ok | apply Die.parts_ok | split | intro _ | rw [Die.ok_mk]

theorem Mach.consume_ok {m : Mach} {d : Nat} (hOk : m.Ok) : (Mach.consume m d).Ok := by
  unfold Mach.consume
  with_reducible repeat' first
    | assumption | apply Mach.upd_ok | apply Die.parts_ok | intro _ | rw [Die.ok_mk]

theorem Mach.bindCoded_ok {m : Mach} {d : Nat} {x : Expander} {e : Extent} {ent : FrameEntry} {coded : List Byte} (hOk : m.Ok) : (Mach.bindCoded m d x e ent coded).Ok := by
  unfold Mach.bindCoded
  with_reducible repeat' first
    | assumption | apply Mach.bindTable_ok | apply Mach.consume_ok | split

theorem Mach.emptySlots_ok {m : Mach} {d : Nat} (hOk : m.Ok) : (Mach.emptySlots m d).Ok := by
  unfold Mach.emptySlots
  with_reducible repeat' first
    | assumption | apply Mach.upd_ok | apply Mach.wr_ok | apply Die.parts_ok | intro _ | dsimp only | rw [Die.ok_mk]

theorem Mach.codecFail_ok {m : Mach} {d ext idx block check tier unit : Nat} (hOk : m.Ok) : (Mach.codecFail m d ext idx block check tier unit).Ok := by
  unfold Mach.codecFail
  with_reducible repeat' first
    | assumption | apply Mach.wr_ok | apply Mach.bump_ok | apply Mach.note_ok | split

theorem Mach.touch_ok {m : Mach} {d ext idx inc : Nat} (hOk : m.Ok) : (Mach.touch m d ext idx inc).Ok := by
  unfold Mach.touch
  with_reducible repeat' first
    | assumption | apply Mach.updTier_ok

theorem execHeatDecayWalk_ok {d : Nat} {s : State} {t : State} (hOk : s.m.Ok) (e : execHeatDecayWalk d s = .next t) : t.m.Ok := by
  unfold execHeatDecayWalk at e
  with_reducible repeat' first
    | assumption | refine State.onDie_ok (by assumption) ?_ e | apply Mach.when_ok | apply Mach.runTo_ok
    | apply Mach.updTier_ok | apply Mach.dramCmd_ok | apply foldl_ok | split | intro _

theorem Mach.lose_ok {m : Mach} {d ext idx : Nat} (hOk : m.Ok) : (Mach.lose m d ext idx).Ok := by
  unfold Mach.lose
  with_reducible repeat' first
    | assumption | apply Mach.wr_ok | apply Mach.updTier_ok | apply Mach.updEntry_ok | apply Mach.noteFrame_ok
    | apply Mach.clearUnavail_ok | apply Mach.checkSettled_ok

theorem Mach.poisonOut_ok {m : Mach} {ld dpa : Nat} (hOk : m.Ok) : (Mach.poisonOut m ld dpa).Ok := by
  unfold Mach.poisonOut
  with_reducible repeat' first
    | assumption | apply Mach.send_ok | apply Mach.freeBytes_ok

theorem Mach.missOut_ok {m : Mach} {d ext idx ld dpa : Nat} (hOk : m.Ok) : (Mach.missOut m d ext idx ld dpa).Ok := by
  unfold Mach.missOut
  with_reducible repeat' first
    | assumption | apply Mach.bump_ok | apply Mach.updTier_ok | apply Mach.noteFrame_ok | apply Mach.poisonOut_ok | split
    | dsimp only

theorem Mach.updStage_ok {m : Mach} {d : Nat} {f : Stage → Stage} (hOk : m.Ok) : (Mach.updStage m d f).Ok := by
  unfold Mach.updStage
  with_reducible repeat' first
    | assumption | apply Mach.upd_ok | apply Die.parts_ok | intro _ | rw [Die.ok_mk]

theorem Mach.threadsPeak_ok {m : Mach} {d : Nat} (hOk : m.Ok) : (Mach.threadsPeak m d).Ok := by
  unfold Mach.threadsPeak
  with_reducible repeat' first
    | assumption | apply Mach.updStage_ok

theorem Mach.beginFetch_ok {m : Mach} {d ext idx : Nat} (hOk : m.Ok) : (Mach.beginFetch m d ext idx).Ok := by
  unfold Mach.beginFetch
  with_reducible repeat' first
    | assumption | apply Mach.chosen_ok | apply Mach.updEntry_ok | apply Mach.updFetch_ok | apply Mach.threadsPeak_ok | split

theorem Mach.tryFetch_ok {m : Mach} {d ext idx : Nat} (hOk : m.Ok) : (Mach.tryFetch m d ext idx).Ok := by
  unfold Mach.tryFetch
  with_reducible repeat' first
    | assumption | apply Mach.beginFetch_ok | split

theorem Mach.fetchToT2_ok {m : Mach} {d ext idx : Nat} (hOk : m.Ok) : (Mach.fetchToT2 m d ext idx).Ok := by
  unfold Mach.fetchToT2
  with_reducible repeat' first
    | assumption | apply Mach.chosen_ok | apply Mach.updFetch_ok | split

theorem Mach.needFetch_ok {m : Mach} {d ext idx rank : Nat} {dst : FetchDst} {thenT1 : Bool} {load : Option LoadWait} {job : Option (Nat × Nat)} (hOk : m.Ok) : (Mach.needFetch m d ext idx rank dst thenT1 load job).Ok := by
  unfold Mach.needFetch
  with_reducible repeat' first
    | assumption | apply Mach.updTier_ok | apply Mach.updFetch_ok | apply Mach.threadsPeak_ok | apply Mach.tryFetch_ok
    | apply Mach.fetchToT2_ok | split

theorem execFetchStart_ok {d ext idx : Nat} {s : State} {t : State} (hOk : s.m.Ok) (e : execFetchStart d ext idx s = .next t) : t.m.Ok := by
  unfold execFetchStart at e
  with_reducible repeat' first
    | assumption | refine State.onDie_ok (by assumption) ?_ e | apply Mach.when_ok | apply Mach.tryFetch_ok | split | intro _

theorem Mach.keepEnd_ok {m : Mach} {d : Nat} {p : Promo} (hOk : m.Ok) : (Mach.keepEnd m d p).Ok := by
  unfold Mach.keepEnd
  with_reducible repeat' first
    | assumption | apply Mach.updTier_ok

theorem Mach.promoEnd_ok {m : Mach} {d ext idx dst : Nat} (hOk : m.Ok) : (Mach.promoEnd m d ext idx dst).Ok := by
  unfold Mach.promoEnd
  with_reducible repeat' first
    | assumption | apply Mach.bump_ok | apply Mach.keepEnd_ok

theorem Mach.beginPromo_ok {m : Mach} {d ext idx dst slot : Nat} {jobs : List (Nat × Nat)} (hOk : m.Ok) : (Mach.beginPromo m d ext idx dst slot jobs).Ok := by
  unfold Mach.beginPromo
  with_reducible repeat' first
    | assumption | apply Mach.updTier_ok | apply Mach.threadsPeak_ok | split

theorem Mach.coldest_ok {m : Mach} {d tier : Nat} (hOk : m.Ok) : (Mach.coldest m d tier).2.Ok := by
  unfold Mach.coldest
  with_reducible repeat' first
    | assumption | apply Mach.choices_ok

theorem Mach.t1Target_ok {m : Mach} {d ext idx : Nat} {retained : Bool} (h : m.Ok) : (m.t1Target d ext idx retained).2.Ok := by
  unfold Mach.t1Target
  split
  · exact Mach.chosen_ok h
  · extract_lets c
    have hc : c.2.Ok := Mach.coldest_ok h
    clear_value c
    split
    · exact Mach.noteFrame_ok (Mach.bump_ok (Mach.dropT1_ok hc))
    · exact hc

theorem Mach.promoteT1_ok {m : Mach} {d ext idx : Nat} {retained : Bool} (h : m.Ok) : (m.promoteT1 d ext idx retained).Ok := by
  unfold Mach.promoteT1
  extract_lets e r
  have h1 : r.2.Ok := Mach.t1Target_ok h
  clear_value e r
  split
  · exact h
  · split
    · exact Mach.beginPromo_ok h1
    · exact h1

theorem Mach.scanTier_ok {m : Mach} {d tier used cap : Nat} (hOk : m.Ok) : (Mach.scanTier m d tier used cap).Ok := by
  unfold Mach.scanTier
  with_reducible repeat' first
    | assumption | apply Mach.updTier_ok | apply Mach.coldest_ok | apply foldl_fst_ok | split | intro _ | dsimp only

theorem execEvictionScan_ok {d : Nat} {s : State} {t : State} (hOk : s.m.Ok) (e : execEvictionScan d s = .next t) : t.m.Ok := by
  unfold execEvictionScan at e
  with_reducible repeat' first
    | assumption | refine State.onDie_ok (by assumption) ?_ e | apply Mach.when_ok | apply Mach.scanTier_ok | intro _

theorem execEvictionExecute_ok {d : Nat} {s : State} {t : State} (hOk : s.m.Ok) (e : execEvictionExecute d s = .next t) : t.m.Ok := by
  unfold execEvictionExecute at e
  with_reducible repeat' first
    | assumption | refine State.onDie_ok (by assumption) ?_ e | apply Mach.when_ok | apply Mach.updTier_ok
    | apply Mach.evictNow_ok | split | intro _

theorem Mach.showPin_ok {m : Mach} {d ext idx : Nat} (hOk : m.Ok) : (Mach.showPin m d ext idx).Ok := by
  unfold Mach.showPin
  with_reducible repeat' first
    | assumption | apply Mach.updEntry_ok | split | dsimp only

theorem Mach.addPin_ok {m : Mach} {d : Nat} {p : Pin} (hOk : m.Ok) : (Mach.addPin m d p).Ok := by
  unfold Mach.addPin
  with_reducible repeat' first
    | assumption | apply Mach.updTier_ok | apply Mach.hoistFirst_ok | apply Mach.showPin_ok | split

theorem Mach.dropPins_ok {m : Mach} {d : Nat} {which : Pin → Bool} (hOk : m.Ok) : (Mach.dropPins m d which).Ok := by
  unfold Mach.dropPins
  with_reducible repeat' first
    | assumption | apply Mach.updTier_ok | apply Mach.hoistFirst_ok | apply Mach.showPin_ok | apply foldl_ok | intro _

theorem Mach.relocateT2_ok {m : Mach} {d ext idx n : Nat} (hOk : m.Ok) : (Mach.relocateT2 m d ext idx n).Ok := by
  unfold Mach.relocateT2
  with_reducible repeat' first
    | assumption | apply Mach.getBytes_ok | apply Mach.relocateFrom_ok | split | refine pair_ok ?_ (by assumption)

theorem execRelocationSwitch_ok {d ext idx : Nat} {s : State} {t : State} (hOk : s.m.Ok) (e : execRelocationSwitch d ext idx s = .next t) : t.m.Ok := by
  unfold execRelocationSwitch at e
  with_reducible repeat' first
    | assumption | refine State.onDie_ok (by assumption) ?_ e | apply Mach.when_ok | apply Mach.updTier_ok
    | apply Mach.updEntry_ok | apply Mach.noteFrame_ok | apply Mach.relocateT2_ok | split | intro _

theorem execOldLocationTrim_ok {d ext idx : Nat} {s : State} {t : State} (hOk : s.m.Ok) (e : execOldLocationTrim d ext idx s = .next t) : t.m.Ok := by
  unfold execOldLocationTrim at e
  with_reducible repeat' first
    | assumption | refine State.onDie_ok (by assumption) ?_ e | apply Mach.when_ok | apply Mach.updTier_ok
    | apply Mach.freeUp_ok | split | intro _ | dsimp only

theorem Mach.settleHeader_ok {m : Mach} {d : Nat} {x : Extent} (hOk : m.Ok) : (Mach.settleHeader m d x).Ok := by
  unfold Mach.settleHeader
  with_reducible repeat' first
    | assumption | apply Mach.append_ok | split

theorem execSettleFrame_ok {d ext idx : Nat} {s : State} {t : State} (hOk : s.m.Ok) (e : execSettleFrame d ext idx s = .next t) : t.m.Ok := by
  unfold execSettleFrame at e
  with_reducible repeat' first
    | assumption | refine State.onDie_ok (by assumption) ?_ e | apply Mach.when_ok | apply Mach.bump_ok
    | apply Mach.getBytes_ok | apply Mach.append_ok | apply Mach.checkFull_ok | apply Mach.settleHeader_ok | split | intro _
    | refine pair_ok ?_ (by assumption) | dsimp only

theorem Mach.frameQuery_ok {m : Mach} {d ext frame : Nat} (hOk : m.Ok) : (Mach.frameQuery m d ext frame).Ok := by
  unfold Mach.frameQuery
  with_reducible repeat' first
    | assumption | apply Mach.wr_ok | apply foldl_ok | split | intro _

theorem execTierFrameQuery_ok {d : Nat} {v : Word} {s : State} {t : State} (hOk : s.m.Ok) (e : execTierFrameQuery d v s = .next t) : t.m.Ok := by
  unfold execTierFrameQuery at e
  with_reducible repeat' first
    | assumption | refine State.onDie_ok (by assumption) ?_ e | apply Mach.when_ok | apply Mach.frameQuery_ok | intro _


end Sys2Proof.Machine
end

