-- ==== Sys2Proof/Laws/KeepAccess.lean ====
section
/-! SUPPORT. Soundness is kept by the definitions of Machine/Access.lean. -/

namespace Sys2Proof.Machine

theorem Mach.zeroFill_ok {m : Mach} {d slot : Nat} (h : m.Ok) : (m.zeroFill d slot).Ok := by
  unfold Mach.zeroFill
  dsimp only
  split
  · exact foldl_ok (fun _ _ h => Mach.writeLine_ok h) h
  · exact Mach.upd_ok h (fun _ hx => ⟨hx.1, SMap.dropRange_wf _ _ hx.2.1, SMap.dropRange_wf _ _ hx.2.2.1, hx.2.2.2.1,
      (List.length_map ..).trans hx.2.2.2.2⟩)

theorem Mach.poisonRead_ok {m : Mach} {d : Nat} (hOk : m.Ok) : (Mach.poisonRead m d).Ok := by
  unfold Mach.poisonRead
  with_reducible repeat' first
    | assumption | apply Mach.bump_ok

theorem Mach.setOrigin_ok {m : Mach} {d a seq : Nat} (hOk : m.Ok) : (Mach.setOrigin m d a seq).Ok := by
  unfold Mach.setOrigin
  with_reducible repeat' first
    | assumption | apply Mach.upd_ok | intro _ | refine Die.parts_keep ?_ rfl rfl rfl rfl rfl | dsimp only | rw [Die.ok_mk]

theorem Mach.clearOrigin_ok {m : Mach} {d a : Nat} (hOk : m.Ok) : (Mach.clearOrigin m d a).Ok := by
  unfold Mach.clearOrigin
  with_reducible repeat' first
    | assumption | apply Mach.upd_ok | intro _ | refine Die.parts_keep ?_ rfl rfl rfl rfl rfl | dsimp only | rw [Die.ok_mk]

theorem Mach.poisonStored_ok {m : Mach} {d a : Nat} (hOk : m.Ok) : (Mach.poisonStored m d a).Ok := by
  unfold Mach.poisonStored
  with_reducible repeat' first
    | assumption | apply Mach.writeLine_ok

theorem Mach.updCoh_ok {m : Mach} {d : Nat} {f : Coh → Coh} (hOk : m.Ok) : (Mach.updCoh m d f).Ok := by
  unfold Mach.updCoh
  with_reducible repeat' first
    | assumption | apply Mach.upd_ok | apply Die.parts_ok | intro _ | rw [Die.ok_mk]

theorem Mach.bearLines_ok {m : Mach} {d ext idx : Nat} (hOk : m.Ok) : (Mach.bearLines m d ext idx).Ok := by
  unfold Mach.bearLines
  with_reducible repeat' first
    | assumption | apply Mach.setOrigin_ok | apply Mach.poisonStored_ok | apply Mach.updCoh_ok | apply foldl_ok | split
    | intro _

theorem Mach.materialise_ok {m : Mach} {d ext idx : Nat} {r : Mach} (hOk : m.Ok) (e : Mach.materialise m d ext idx = some r) : r.Ok := by
  unfold Mach.materialise at e
  with_reducible repeat' first
    | assumption | apply Mach.chosen_ok | apply Mach.updEntry_ok | apply Mach.zeroFill_ok | apply Mach.bearLines_ok
    | (injection ‹_ = some _› with e; subst e) | (cases ‹none = some _›) | split at e

theorem Mach.notePoisoned_ok {m : Mach} {d ext line n : Nat} (hOk : m.Ok) : (Mach.notePoisoned m d ext line n).2.Ok := by
  unfold Mach.notePoisoned
  with_reducible repeat' first
    | assumption | apply Mach.wr_ok | apply Mach.note_ok | apply Mach.updCoh_ok | split | dsimp only

theorem Mach.loseLine_ok {m : Mach} {d ext line n : Nat} (hOk : m.Ok) : (Mach.loseLine m d ext line n).Ok := by
  unfold Mach.loseLine
  with_reducible repeat' first
    | assumption | apply Mach.updChan_ok | apply Mach.setOrigin_ok | apply Mach.poisonStored_ok | apply Mach.updCoh_ok
    | apply Mach.notePoisoned_ok | refine Mach.materialise_ok ?_ (by assumption) | split | dsimp only

theorem Mach.showSf_ok {m : Mach} {d : Nat} (hOk : m.Ok) : (Mach.showSf m d).Ok := by
  unfold Mach.showSf
  with_reducible repeat' first
    | assumption | apply Mach.wr_ok

theorem Mach.setSf_ok {m : Mach} {d ext line : Nat} {holders : List Nat} {excl : Bool} (hOk : m.Ok) : (Mach.setSf m d ext line holders excl).Ok := by
  unfold Mach.setSf
  with_reducible repeat' first
    | assumption | apply Mach.updCoh_ok | apply Mach.showSf_ok

theorem Mach.dropHolder_ok {m : Mach} {d ext line ld : Nat} (hOk : m.Ok) : (Mach.dropHolder m d ext line ld).Ok := by
  unfold Mach.dropHolder
  with_reducible repeat' first
    | assumption | apply Mach.setSf_ok | split

theorem Mach.snoop_ok {m : Mach} {d ext line ld : Nat} {inv : Bool} {cause : BiCause} (hOk : m.Ok) : (Mach.snoop m d ext line ld inv cause).Ok := by
  unfold Mach.snoop
  with_reducible repeat' first
    | assumption | apply Mach.send_ok | apply Mach.cross_ok | apply Mach.updCoh_ok | split

theorem Mach.conflicts_ok {m : Mach} {d ext line ld : Nat} {excl needEntry : Bool} (hOk : m.Ok) : (Mach.conflicts m d ext line ld excl needEntry).2.Ok := by
  unfold Mach.conflicts
  with_reducible repeat' first
    | assumption | apply Mach.chosen_ok | apply Mach.bump_ok | apply Mach.snoop_ok | apply foldl_ok | split | intro _
    | dsimp only

theorem Mach.grant_ok {m : Mach} {d ext line ld : Nat} {excl : Bool} (hOk : m.Ok) : (Mach.grant m d ext line ld excl).Ok := by
  unfold Mach.grant
  with_reducible repeat' first
    | assumption | apply Mach.setSf_ok | split

theorem Mach.waitOn_ok {m : Mach} {d c : Nat} {r : Waiting} {ingress : Nat} (hOk : m.Ok) : (Mach.waitOn m d c r ingress).Ok := by
  unfold Mach.waitOn
  with_reducible repeat' first
    | assumption | apply Mach.updChan_ok

theorem Mach.tierMiss_ok {m : Mach} {d ext idx ld dpa line ingress : Nat} (hOk : m.Ok) : (Mach.tierMiss m d ext idx ld dpa line ingress).Ok := by
  unfold Mach.tierMiss
  with_reducible repeat' first
    | assumption | apply Mach.missOut_ok | apply Mach.needFetch_ok | split | dsimp only

theorem Mach.t2Line_ok {m : Mach} {d : Nat} {x : Extent} {idx line : Nat} (hOk : m.Ok) : (Mach.t2Line m d x idx line).2.Ok := by
  unfold Mach.t2Line
  with_reducible repeat' first
    | assumption | apply Mach.bump_ok | apply Mach.ungate_ok | apply Mach.getBytes_ok | apply Mach.bindTable_ok
    | apply Mach.consume_ok | split | refine pair_ok ?_ (by assumption) | dsimp only

theorem Mach.loadSealed_ok {m : Mach} {d : Nat} {x : Extent} {ld dpa line ingress : Nat} {excl : Bool} (hOk : m.Ok) : (Mach.loadSealed m d x ld dpa line ingress excl).Ok := by
  unfold Mach.loadSealed
  with_reducible repeat' first
    | assumption | apply Mach.send_ok | apply Mach.dropT1_ok | apply Mach.dropT2_ok | apply Mach.readLine_ok
    | apply Mach.codecFail_ok | apply Mach.touch_ok | apply Mach.lose_ok | apply Mach.poisonOut_ok | apply Mach.promoteT1_ok
    | apply Mach.poisonRead_ok | apply Mach.waitOn_ok | apply Mach.tierMiss_ok | apply Mach.t2Line_ok | split
    | refine pair_ok ?_ (by assumption) | dsimp only

theorem Mach.loadOpen_ok {m : Mach} {d : Nat} {x : Extent} {ld dpa line ingress : Nat} {excl : Bool} (hOk : m.Ok) : (Mach.loadOpen m d x ld dpa line ingress excl).Ok := by
  unfold Mach.loadOpen
  with_reducible repeat' first
    | assumption | apply Mach.send_ok | apply Mach.readLine_ok | apply Mach.poisonRead_ok | apply Mach.waitOn_ok | split
    | refine pair_ok ?_ (by assumption) | dsimp only

theorem Mach.storeOpen_ok {m : Mach} {d : Nat} {x : Extent} {ld dpa line first : Nat} {data : List Byte} {poison : Bool} {ingress : Nat} (hOk : m.Ok) : (Mach.storeOpen m d x ld dpa line first data poison ingress).Ok := by
  unfold Mach.storeOpen
  with_reducible repeat' first
    | assumption | apply Mach.send_ok | apply Mach.note_ok | apply Mach.mergeLine_ok | apply Mach.setOrigin_ok
    | apply Mach.clearOrigin_ok | apply Mach.waitOn_ok | refine Mach.materialise_ok ?_ (by assumption) | split
    | refine pair_ok ?_ (by assumption) | dsimp only

theorem Mach.storeSealed_ok {m : Mach} {d : Nat} {x : Extent} {ld dpa line first : Nat} {data : List Byte} {poison : Bool} (hOk : m.Ok) : (Mach.storeSealed m d x ld dpa line first data poison).Ok := by
  unfold Mach.storeSealed
  with_reducible repeat' first
    | assumption | apply Mach.send_ok | apply Mach.chosen_ok | apply Mach.mergeLine_ok | split

theorem Mach.serve_ok {m : Mach} {d : Nat} {r : Waiting} {ingress : Nat} (hOk : m.Ok) : (Mach.serve m d r ingress).Ok := by
  unfold Mach.serve
  with_reducible repeat' first
    | assumption | apply Mach.send_ok | apply Mach.poisonOut_ok | apply Mach.grant_ok | apply Mach.loadSealed_ok
    | apply Mach.loadOpen_ok | apply Mach.storeOpen_ok | apply Mach.storeSealed_ok | split

theorem Mach.hold1_ok {m : Mach} {d : Nat} {r : Waiting} {ingress : Nat} (hOk : m.Ok) : (Mach.hold1 m d r ingress).Ok := by
  unfold Mach.hold1
  with_reducible repeat' first
    | assumption | apply Mach.updCoh_ok

theorem Mach.begin1_ok {m : Mach} {d : Nat} {r : Waiting} {ingress : Nat} (hOk : m.Ok) : (Mach.begin1 m d r ingress).Ok := by
  unfold Mach.begin1
  with_reducible repeat' first
    | assumption | apply Mach.updCoh_ok | apply Mach.conflicts_ok | apply Mach.serve_ok | apply Mach.hold1_ok | split
    | dsimp only

theorem Mach.request_ok {m : Mach} {d : Nat} {r : Waiting} {ingress : Nat} (hOk : m.Ok) : (Mach.request m d r ingress).Ok := by
  unfold Mach.request
  with_reducible repeat' first
    | assumption | apply Mach.hold1_ok | apply Mach.begin1_ok | split

theorem Mach.letGo_ok {m : Mach} {d : Nat} (hOk : m.Ok) : (Mach.letGo m d).Ok := by
  unfold Mach.letGo
  with_reducible repeat' first
    | assumption | apply Mach.updCoh_ok | apply Mach.request_ok | apply foldl_ok | intro _

theorem Mach.resume_ok {m : Mach} {d : Nat} (hOk : m.Ok) : (Mach.resume m d).Ok := by
  unfold Mach.resume
  with_reducible repeat' first
    | assumption | apply Mach.updCoh_ok | apply Mach.begin1_ok | apply Mach.letGo_ok | apply foldl_ok | intro _

theorem Mach.trace_ok {m : Mach} {ld dpa t : Nat} {wr : Bool} (hOk : m.Ok) : (Mach.trace m ld dpa t wr).Ok := by
  unfold Mach.trace
  with_reducible repeat' first
    | assumption | apply Mach.upd_ok | apply Mach.bump_ok | apply Mach.note_ok | apply Die.parts_ok | split | intro _
    | dsimp only | rw [Die.ok_mk]

theorem Mach.ingress_ok {m : Mach} {ld dpa t : Nat} {wr : Bool} (hOk : m.Ok) : (Mach.ingress m ld dpa t wr).Ok := by
  unfold Mach.ingress
  with_reducible repeat' first
    | assumption | apply Mach.runTo_ok | apply Mach.issue_ok | apply Mach.furlAbandon_ok | apply Mach.trace_ok
    | apply Mach.parts_ok | dsimp only | rw [Mach.ok_mk]

theorem Mach.toHome_ok {m : Mach} {h : Nat} {r : Waiting} {ingress : Nat} (hOk : m.Ok) : (Mach.toHome m h r ingress).Ok := by
  unfold Mach.toHome
  with_reducible repeat' first
    | assumption | apply Mach.cross_ok | apply Mach.request_ok

theorem execHostLoad_ok {ld dpa : Nat} {excl : Bool} {ingress : Nat} {s : State} {t : State} (hOk : s.m.Ok) (e : execHostLoad ld dpa excl ingress s = .next t) : t.m.Ok := by
  unfold execHostLoad at e
  with_reducible repeat' first
    | assumption | refine State.onDie_ok (by assumption) ?_ e | apply Mach.when_ok | apply Mach.poisonOut_ok
    | apply Mach.ingress_ok | apply Mach.toHome_ok | split | intro _ | dsimp only

theorem execHostStore_ok {ld dpa first : Nat} {data : List Byte} {poison : Bool} {ingress : Nat} {s : State} {t : State} (hOk : s.m.Ok) (e : execHostStore ld dpa first data poison ingress s = .next t) : t.m.Ok := by
  unfold execHostStore at e
  with_reducible repeat' first
    | assumption | refine State.onDie_ok (by assumption) ?_ e | apply Mach.when_ok | apply Mach.send_ok | apply Mach.bump_ok
    | apply Mach.ingress_ok | apply Mach.toHome_ok | split | intro _ | dsimp only

theorem Mach.addStale_ok {m : Mach} {d c a : Nat} (hOk : m.Ok) : (Mach.addStale m d c a).Ok := by
  unfold Mach.addStale
  with_reducible repeat' first
    | assumption | apply Mach.wr_ok | apply Mach.updChan_ok | split | dsimp only

theorem Mach.writeBack_ok {m : Mach} {d ext line : Nat} {bs : List Byte} (hOk : m.Ok) : (Mach.writeBack m d ext line bs).Ok := by
  unfold Mach.writeBack
  with_reducible repeat' first
    | assumption | apply Mach.mergeLine_ok | apply Mach.clearOrigin_ok | apply Mach.addStale_ok
    | refine Mach.materialise_ok ?_ (by assumption) | split | refine pair_ok ?_ (by assumption) | dsimp only

theorem execBiResponse_ok {ld ext line : Nat} {wb : Option (List Byte)} {s : State} {t : State} (hOk : s.m.Ok) (e : execBiResponse ld ext line wb s = .next t) : t.m.Ok := by
  unfold execBiResponse at e
  with_reducible repeat' first
    | assumption | refine State.run_ok (by assumption) ?_ e | split at e | apply Mach.when_ok | apply Mach.updCoh_ok
    | apply Mach.setSf_ok | apply Mach.dropHolder_ok | apply Mach.resume_ok | apply Mach.writeBack_ok | split | intro _

theorem Mach.showLoss_ok {m : Mach} {d ld n : Nat} (hOk : m.Ok) : (Mach.showLoss m d ld n).Ok := by
  unfold Mach.showLoss
  with_reducible repeat' first
    | assumption | apply Mach.choices_ok | apply Mach.wr_ok | apply Mach.note_ok | split

theorem execBiTimeout_ok {ld ext line : Nat} {s : State} {t : State} (hOk : s.m.Ok) (e : execBiTimeout ld ext line s = .next t) : t.m.Ok := by
  unfold execBiTimeout at e
  with_reducible repeat' first
    | assumption | refine State.run_ok (by assumption) ?_ e | apply Mach.when_ok | apply Mach.runTo_ok | apply Mach.note_ok
    | apply Mach.updCoh_ok | apply Mach.loseLine_ok | apply Mach.dropHolder_ok | apply Mach.resume_ok
    | apply Mach.showLoss_ok | split | intro _

theorem Mach.hostLossDie_ok {m : Mach} {d ld : Nat} (hOk : m.Ok) : (Mach.hostLossDie m d ld).Ok := by
  unfold Mach.hostLossDie
  with_reducible repeat' first
    | assumption | apply Mach.updCoh_ok | apply Mach.loseLine_ok | apply Mach.dropHolder_ok | apply Mach.resume_ok
    | apply Mach.showLoss_ok | apply foldl_ok | apply foldl_fst_ok | intro _

theorem Mach.hostLoss_ok {m : Mach} {ld : Nat} (hOk : m.Ok) : (Mach.hostLoss m ld).Ok := by
  unfold Mach.hostLoss
  with_reducible repeat' first
    | assumption | apply Mach.eachDie_ok | apply Mach.hostLossDie_ok | intro _

theorem Mach.countRead_ok {m : Mach} {d p : Nat} (hOk : m.Ok) : (Mach.countRead m d p).Ok := by
  unfold Mach.countRead
  with_reducible repeat' first
    | assumption | apply Mach.updFl_ok | intro _

theorem Mach.failFetch_ok {m : Mach} {d : Nat} {f : Fetch} (hOk : m.Ok) : (Mach.failFetch m d f).Ok := by
  unfold Mach.failFetch
  with_reducible repeat' first
    | assumption | apply Mach.bump_ok | apply Mach.updTier_ok | apply Mach.freeUp_ok | apply Mach.lose_ok
    | apply Mach.poisonOut_ok | apply Mach.poisonRead_ok | apply foldl_ok | split | intro _

theorem Mach.pageLost_ok {m : Mach} {d p : Nat} (hOk : m.Ok) : (Mach.pageLost m d p).Ok := by
  unfold Mach.pageLost
  with_reducible repeat' first
    | assumption | apply Mach.bump_ok | apply Mach.note_ok | apply Mach.setSb_ok | apply Mach.relocate_ok
    | apply Mach.growBad_ok | apply Mach.remapSlot_ok | apply foldl_ok | split | intro _ | dsimp only

theorem Mach.askReplica_ok {m : Mach} {d : Nat} {f : Fetch} (hOk : m.Ok) : (Mach.askReplica m d f).Ok := by
  unfold Mach.askReplica
  with_reducible repeat' first
    | assumption | apply Mach.send_ok | apply Mach.updFetch_ok | apply Mach.failFetch_ok | split | dsimp only

theorem Mach.updReloc_ok {m : Mach} {d : Nat} {r : Reloc} {f : Reloc → Reloc} (hOk : m.Ok) : (Mach.updReloc m d r f).Ok := by
  unfold Mach.updReloc
  with_reducible repeat' first
    | assumption | apply Mach.updTier_ok

theorem Mach.relocLost_ok {m : Mach} {d : Nat} {r : Reloc} {page : Nat} (hOk : m.Ok) : (Mach.relocLost m d r page).Ok := by
  unfold Mach.relocLost
  with_reducible repeat' first
    | assumption | apply Mach.updFl_ok | apply Mach.needFetch_ok | apply Mach.relocateT2_ok | apply Mach.pageLost_ok
    | apply Mach.updReloc_ok | split | intro _ | dsimp only

theorem Mach.relocRead_ok {m : Mach} {d : Nat} {r : Reloc} {page : Nat} {bits : Option Nat} (hOk : m.Ok) : (Mach.relocRead m d r page bits).Ok := by
  unfold Mach.relocRead
  with_reducible repeat' first
    | assumption | apply Mach.bump_ok | apply Mach.ungate_ok | apply Mach.countRead_ok | apply Mach.updReloc_ok
    | apply Mach.relocLost_ok | split | dsimp only

theorem Mach.relocStep_ok {m : Mach} {d : Nat} {r : Reloc} {page k : Nat} {ok : Bool} (hOk : m.Ok) : (Mach.relocStep m d r page k ok).Ok := by
  unfold Mach.relocStep
  with_reducible repeat' first
    | assumption | apply Mach.correctable_ok | apply Mach.countRead_ok | apply Mach.updReloc_ok | apply Mach.relocLost_ok
    | split | dsimp only

theorem execPageReadComplete_ok {d ext idx page : Nat} {bits : Option Nat} {s : State} {t : State} (hOk : s.m.Ok) (e : execPageReadComplete d ext idx page bits s = .next t) : t.m.Ok := by
  unfold execPageReadComplete at e
  with_reducible repeat' first
    | assumption | refine State.onDie_ok (by assumption) ?_ e | apply Mach.when_ok | apply Mach.bump_ok
    | apply Mach.ungate_ok | apply Mach.updFetch_ok | apply Mach.countRead_ok | apply Mach.pageLost_ok
    | apply Mach.askReplica_ok | apply Mach.relocRead_ok | split | intro _ | dsimp only

theorem Mach.fetchStep_ok {m : Mach} {d : Nat} {f : Fetch} {k : Nat} {ok : Bool} (hOk : m.Ok) : (Mach.fetchStep m d f k ok).Ok := by
  unfold Mach.fetchStep
  with_reducible repeat' first
    | assumption | apply Mach.correctable_ok | apply Mach.updFetch_ok | apply Mach.countRead_ok | apply Mach.pageLost_ok
    | apply Mach.askReplica_ok | apply foldl_ok | split | intro _ | dsimp only

theorem Mach.fromReplica_ok {m : Mach} {d : Nat} {f : Fetch} (hOk : m.Ok) : (Mach.fromReplica m d f).Ok := by
  unfold Mach.fromReplica
  with_reducible repeat' first
    | assumption | apply Mach.freeBytes_ok | apply Mach.updFetch_ok

theorem execReadRetryStep_ok {d ext idx : Nat} {ok : Bool} {s : State} {t : State} (hOk : s.m.Ok) (e : execReadRetryStep d ext idx ok s = .next t) : t.m.Ok := by
  unfold execReadRetryStep at e
  with_reducible repeat' first
    | assumption | refine State.onDie_ok (by assumption) ?_ e | split at e | apply Mach.when_ok | apply Mach.failFetch_ok
    | apply Mach.relocStep_ok | apply Mach.fetchStep_ok | apply Mach.fromReplica_ok | split | intro _

theorem execLookupTimeout_ok {d ext idx : Nat} {s : State} {t : State} (hOk : s.m.Ok) (e : execLookupTimeout d ext idx s = .next t) : t.m.Ok := by
  unfold execLookupTimeout at e
  with_reducible repeat' first
    | assumption | refine State.onDie_ok (by assumption) ?_ e | apply Mach.when_ok | apply Mach.failFetch_ok | split
    | intro _

theorem Mach.headerLost_ok {m : Mach} {d : Nat} {x : Extent} (hOk : m.Ok) : (Mach.headerLost m d x).Ok := by
  unfold Mach.headerLost
  with_reducible repeat' first
    | assumption | apply Mach.wr_ok | apply Mach.note_ok | apply Mach.updTier_ok | apply Mach.updEntry_ok
    | apply Mach.poisonOut_ok | apply Mach.poisonRead_ok | apply foldl_ok | intro _

theorem Mach.ensureHeader_ok {m : Mach} {d : Nat} {x : Extent} (hOk : m.Ok) : (Mach.ensureHeader m d x).2.Ok := by
  unfold Mach.ensureHeader
  with_reducible repeat' first
    | assumption | apply Mach.updTier_ok | apply Mach.putHeader_ok | split

theorem execTierMissHoldExpiry_ok {d ext idx ld line : Nat} {s : State} {t : State} (hOk : s.m.Ok) (e : execTierMissHoldExpiry d ext idx ld line s = .next t) : t.m.Ok := by
  unfold execTierMissHoldExpiry at e
  with_reducible repeat' first
    | assumption | refine State.onDie_ok (by assumption) ?_ e | apply Mach.when_ok | apply Mach.runTo_ok
    | apply Mach.updFetch_ok | apply Mach.missOut_ok | split | intro _

theorem Mach.holdOver_ok {m : Mach} {d c : Nat} {r : Waiting} (hOk : m.Ok) : (Mach.holdOver m d c r).Ok := by
  unfold Mach.holdOver
  with_reducible repeat' first
    | assumption | apply Mach.send_ok | apply Mach.poisonOut_ok | apply Mach.addStale_ok | split | dsimp only

theorem execFreezeHoldExpiry_ok {d c : Nat} {s : State} {t : State} (hOk : s.m.Ok) (e : execFreezeHoldExpiry d c s = .next t) : t.m.Ok := by
  unfold execFreezeHoldExpiry at e
  with_reducible repeat' first
    | assumption | refine State.onUnit_ok (by assumption) ?_ e | apply Mach.when_ok | apply Mach.runTo_ok
    | apply Mach.updChan_ok | apply Mach.letGo_ok | apply Mach.holdOver_ok | apply foldl_ok | split | intro _

theorem Mach.badAtRelease_ok {m : Mach} {d c ext idx tier : Nat} {settled : Bool} (hOk : m.Ok) : (Mach.badAtRelease m d c ext idx tier settled).Ok := by
  unfold Mach.badAtRelease
  with_reducible repeat' first
    | assumption | apply Mach.note_ok | apply Mach.dropT1_ok | apply Mach.dropT2_ok | apply Mach.lose_ok
    | apply Mach.needFetch_ok | split | dsimp only

theorem Mach.renewT1_ok {m : Mach} {d ext idx : Nat} (hOk : m.Ok) : (Mach.renewT1 m d ext idx).Ok := by
  unfold Mach.renewT1
  with_reducible repeat' first
    | assumption | apply Mach.updFetch_ok | apply Mach.promoteT1_ok | split

theorem Mach.restoreCopies_ok {m : Mach} {d c : Nat} {failing : List Nat} (hOk : m.Ok) : (Mach.restoreCopies m d c failing).Ok := by
  unfold Mach.restoreCopies
  with_reducible repeat' first
    | assumption | apply Mach.updTier_ok | apply Mach.badAtRelease_ok | apply Mach.renewT1_ok | apply foldl_ok | intro _

theorem execReleaseRetrainDone_ok {d c : Nat} {lane : Lane} {s : State} {t : State} (hOk : s.m.Ok) (e : execReleaseRetrainDone d c lane s = .next t) : t.m.Ok := by
  unfold execReleaseRetrainDone at e
  with_reducible repeat' first
    | assumption | refine State.onUnit_ok (by assumption) ?_ e | split at e | apply Mach.when_ok | apply Mach.wr_ok
    | apply Mach.note_ok | apply Mach.qosChannels_ok | apply Mach.updChan_ok | apply Mach.drain_ok | apply Mach.setLane_ok
    | apply Mach.laneFail_ok | apply Mach.setOrigin_ok | apply Mach.poisonStored_ok | apply Mach.serve_ok
    | apply Mach.letGo_ok | apply Mach.restoreCopies_ok | apply foldl_ok | split | intro _

theorem Mach.plistPop_ok {m : Mach} {d : Nat} (hOk : m.Ok) : (Mach.plistPop m d).2.Ok := by
  unfold Mach.plistPop
  with_reducible repeat' first
    | assumption | apply Mach.latchHigh_ok | apply Mach.updCoh_ok

theorem execLsePlistPop_ok {d : Nat} {s : State} {t : State} (hOk : s.m.Ok) (e : execLsePlistPop d s = .next t) : t.m.Ok := by
  unfold execLsePlistPop at e
  with_reducible repeat' first
    | assumption | refine State.onDie_ok (by assumption) ?_ e | apply Mach.when_ok | apply Mach.send_ok
    | apply Mach.plistPop_ok | intro _


end Sys2Proof.Machine
end

