-- ==== Sys2Proof/Laws/KeepRingMem.lean ====
section
/-! SUPPORT. Soundness is kept by the definitions of Machine/RingMem.lean. -/

namespace Sys2Proof.Machine

theorem Mach.wrr_ok {m : Mach} {r : Nat} {f : Nat → Fld} {v : Nat} (hOk : m.Ok) : (Mach.wrr m r f v).Ok := by
  unfold Mach.wrr
  with_reducible repeat' first
    | assumption | apply Mach.wr_ok

theorem Mach.updJob_ok {m : Mach} {d j : Nat} {f : Job → Job} (hOk : m.Ok) : (Mach.updJob m d j f).Ok := by
  unfold Mach.updJob
  with_reducible repeat' first
    | assumption | apply Mach.upd_ok | apply Die.parts_ok | intro _ | rw [Die.ok_mk]

theorem Mach.showRing_ok {m : Mach} {r : Nat} (hOk : m.Ok) : (Mach.showRing m r).Ok := by
  unfold Mach.showRing
  with_reducible repeat' first
    | assumption | apply Mach.wr_ok | apply Mach.wrr_ok

theorem Mach.ringStop_ok {m : Mach} {r : Nat} (hOk : m.Ok) : (Mach.ringStop m r).Ok := by
  unfold Mach.ringStop
  with_reducible repeat' first
    | assumption | apply Mach.upd_ok | apply Mach.wrr_ok | apply Die.parts_ok | intro _ | rw [Die.ok_mk]

theorem Mach.noEntries_ok {m : Mach} {r : Nat} (hOk : m.Ok) : (Mach.noEntries m r).Ok := by
  unfold Mach.noEntries
  with_reducible repeat' first
    | assumption | apply Mach.upd_ok | apply Die.parts_ok | intro _ | rw [Die.ok_mk]

theorem Mach.ringLost_ok {m : Mach} {r : Nat} (hOk : m.Ok) : (Mach.ringLost m r).Ok := by
  unfold Mach.ringLost
  with_reducible repeat' first
    | assumption | apply Mach.chosen_ok | apply Mach.note_ok | apply Mach.wrr_ok | apply Mach.ringStop_ok
    | apply Mach.noEntries_ok

theorem Mach.slotLost_ok {m : Mach} {ld region slot : Nat} (hOk : m.Ok) : (Mach.slotLost m ld region slot).Ok := by
  unfold Mach.slotLost
  with_reducible repeat' first
    | assumption | apply Mach.noEntries_ok | apply Mach.ringLost_ok | apply foldl_ok | split | intro _

theorem Mach.extLost_ok {m : Mach} {e : Nat} (hOk : m.Ok) : (Mach.extLost m e).Ok := by
  unfold Mach.extLost
  with_reducible repeat' first
    | assumption | apply Mach.slotLost_ok | apply foldl_ok | intro _


end Sys2Proof.Machine
end

