-- ==== Sys2Proof/Laws/KeepLease.lean ====
section
/-! SUPPORT. Soundness is kept by the definitions of Machine/Lease.lean. -/

namespace Sys2Proof.Machine

theorem Mach.extPennant_ok {m : Mach} {x : Extent} {st : ExtState} (hOk : m.Ok) : (Mach.extPennant m x st).Ok := by
  unfold Mach.extPennant
  with_reducible repeat' first
    | assumption | apply Mach.note_ok

theorem Mach.extState_ok {m : Mach} {e : Nat} {st : ExtState} (hOk : m.Ok) : (Mach.extState m e st).Ok := by
  unfold Mach.extState
  with_reducible repeat' first
    | assumption | apply Mach.updExt_ok | apply Mach.extPennant_ok | split

theorem Mach.newExtent_ok {m : Mach} {num home : Nat} {st : ExtState} {shared budgeted : Bool} (hOk : m.Ok) : (Mach.newExtent m num home st shared budgeted).Ok := by
  unfold Mach.newExtent
  with_reducible repeat' first
    | assumption | apply Mach.setLse_ok | apply Mach.writeHome_ok | apply Mach.extPennant_ok

theorem Mach.addLease_ok {m : Mach} {l : Lease} (hOk : m.Ok) : (Mach.addLease m l).Ok := by
  unfold Mach.addLease
  with_reducible repeat' first
    | assumption | apply Mach.setLse_ok

theorem Mach.updLease_ok {m : Mach} {l : Lease} {f : Lease → Lease} (hOk : m.Ok) : (Mach.updLease m l f).Ok := by
  unfold Mach.updLease
  with_reducible repeat' first
    | assumption | apply Mach.setLse_ok

theorem Mach.notePair_ok {m : Mach} {pc : PCode} {e ld : Nat} (hOk : m.Ok) : (Mach.notePair m pc e ld).Ok := by
  unfold Mach.notePair
  with_reducible repeat' first
    | assumption | apply Mach.note_ok

theorem Mach.dcEvent_ok {m : Mach} {ld kind region slot e : Nat} (hOk : m.Ok) : (Mach.dcEvent m ld kind region slot e).Ok := by
  unfold Mach.dcEvent
  with_reducible repeat' first
    | assumption | apply Mach.event_ok

theorem Mach.offer_ok {m : Mach} {ld region slot e : Nat} (hOk : m.Ok) : (Mach.offer m ld region slot e).Ok := by
  unfold Mach.offer
  with_reducible repeat' first
    | assumption | apply Mach.addLease_ok | apply Mach.notePair_ok | apply Mach.dcEvent_ok

theorem Mach.hold_ok {m : Mach} {ld region slot e : Nat} (hOk : m.Ok) : (Mach.hold m ld region slot e).Ok := by
  unfold Mach.hold
  with_reducible repeat' first
    | assumption | apply Mach.addLease_ok

theorem Mach.refuse_ok {m : Mach} {check : Nat} (hOk : m.Ok) : (Mach.refuse m check).Ok := by
  unfold Mach.refuse
  with_reducible repeat' first
    | assumption | apply Mach.note_ok

theorem execFmAddDynamicCapacity_ok {ld region : Nat} {slot share : Option Nat} {s : State} {t : State} (hOk : s.m.Ok) (e : execFmAddDynamicCapacity ld region slot share s = .next t) : t.m.Ok := by
  unfold execFmAddDynamicCapacity at e
  with_reducible repeat' first
    | assumption | refine State.run_ok (by assumption) ?_ e | apply Mach.when_ok | apply Mach.send_ok | apply Mach.chosen_ok
    | apply Mach.newExtent_ok | apply Mach.offer_ok | apply Mach.refuse_ok | split | intro _

theorem Mach.stopRecode_ok {m : Mach} {d e : Nat} (hOk : m.Ok) : (Mach.stopRecode m d e).Ok := by
  unfold Mach.stopRecode
  with_reducible repeat' first
    | assumption | apply Mach.upd_ok | apply Mach.wr_ok | apply Mach.freeUp_ok | split | intro _
    | refine Die.parts_keep ?_ rfl rfl rfl rfl rfl | dsimp only | rw [Die.ok_mk]

theorem Mach.lastEnd_ok {m : Mach} {e t : Nat} (hOk : m.Ok) : (Mach.lastEnd m e t).Ok := by
  unfold Mach.lastEnd
  with_reducible repeat' first
    | assumption | apply Mach.setLse_ok | apply Mach.updExt_ok | apply Mach.writeHome_ok | apply Mach.dropPins_ok
    | apply Mach.extLost_ok | apply Mach.extPennant_ok | apply Mach.stopRecode_ok | split

theorem Mach.endRx_ok {m : Mach} {r : RxPush} (hOk : m.Ok) : (Mach.endRx m r).Ok := by
  unfold Mach.endRx
  with_reducible repeat' first
    | assumption | apply Mach.updExt_ok | apply Mach.extPennant_ok | apply Mach.parts_ok | split | dsimp only
    | rw [Mach.ok_mk]

theorem Mach.withdraw_ok {m : Mach} {l : Lease} (hOk : m.Ok) : (Mach.withdraw m l).Ok := by
  unfold Mach.withdraw
  with_reducible repeat' first
    | assumption | apply Mach.setLse_ok | apply Mach.notePair_ok | apply Mach.lastEnd_ok

theorem Mach.endLease_ok {m : Mach} {l : Lease} {t : Nat} (hOk : m.Ok) : (Mach.endLease m l t).Ok := by
  unfold Mach.endLease
  with_reducible repeat' first
    | assumption | apply Mach.dropPins_ok | apply Mach.snoop_ok | apply Mach.slotLost_ok | apply Mach.updLease_ok
    | apply Mach.lastEnd_ok | apply foldl_ok | split | intro _

theorem Mach.accept_ok {m : Mach} {l : Lease} (hOk : m.Ok) : (Mach.accept m l).Ok := by
  unfold Mach.accept
  with_reducible repeat' first
    | assumption | apply Mach.extState_ok | apply Mach.updLease_ok | apply Mach.notePair_ok | split | dsimp only

theorem execAddDynamicCapacityResponse_ok {ld : Nat} {accepted rejected : List SlotRef} {s : State} {t : State} (hOk : s.m.Ok) (e : execAddDynamicCapacityResponse ld accepted rejected s = .next t) : t.m.Ok := by
  unfold execAddDynamicCapacityResponse at e
  with_reducible repeat' first
    | assumption | refine State.run_ok (by assumption) ?_ e | apply Mach.when_ok | apply Mach.send_ok
    | apply Mach.withdraw_ok | apply Mach.accept_ok | apply foldl_ok | split | intro _

theorem execOfferTimeout_ok {ld region slot : Nat} {s : State} {t : State} (hOk : s.m.Ok) (e : execOfferTimeout ld region slot s = .next t) : t.m.Ok := by
  unfold execOfferTimeout at e
  with_reducible repeat' first
    | assumption | refine State.run_ok (by assumption) ?_ e | apply Mach.when_ok | apply Mach.runTo_ok
    | apply Mach.withdraw_ok | split | intro _

theorem execReleaseDynamicCapacity_ok {ld : Nat} {slots : List SlotRef} {ingress : Nat} {s : State} {t : State} (hOk : s.m.Ok) (e : execReleaseDynamicCapacity ld slots ingress s = .next t) : t.m.Ok := by
  unfold execReleaseDynamicCapacity at e
  with_reducible repeat' first
    | assumption | refine State.run_ok (by assumption) ?_ e | apply Mach.when_ok | apply Mach.send_ok | apply Mach.runTo_ok
    | apply Mach.issue_ok | apply Mach.notePair_ok | apply Mach.endLease_ok | apply foldl_ok | split | intro _ | dsimp only

theorem execInitiateDynamicCapacityRelease_ok {ld region slot : Nat} {s : State} {t : State} (hOk : s.m.Ok) (e : execInitiateDynamicCapacityRelease ld region slot s = .next t) : t.m.Ok := by
  unfold execInitiateDynamicCapacityRelease at e
  with_reducible repeat' first
    | assumption | refine State.run_ok (by assumption) ?_ e | apply Mach.when_ok | apply Mach.send_ok
    | apply Mach.updLease_ok | apply Mach.withdraw_ok | split | intro _

theorem Mach.notice_ok {m : Mach} {l : Lease} {tn : Nat} (hOk : m.Ok) : (Mach.notice m l tn).Ok := by
  unfold Mach.notice
  with_reducible repeat' first
    | assumption | apply Mach.updLease_ok | apply Mach.notePair_ok | apply Mach.dcEvent_ok | split

theorem execRevokeAcknowledged_ok {ld region slot : Nat} {s : State} {t : State} (hOk : s.m.Ok) (e : execRevokeAcknowledged ld region slot s = .next t) : t.m.Ok := by
  unfold execRevokeAcknowledged at e
  with_reducible repeat' first
    | assumption | refine State.run_ok (by assumption) ?_ e | apply Mach.when_ok | apply Mach.notice_ok | split | intro _

theorem execRevokeStampReached_ok {ld region slot : Nat} {s : State} {t : State} (hOk : s.m.Ok) (e : execRevokeStampReached ld region slot s = .next t) : t.m.Ok := by
  unfold execRevokeStampReached at e
  with_reducible repeat' first
    | assumption | refine State.run_ok (by assumption) ?_ e | apply Mach.when_ok | apply Mach.runTo_ok
    | apply Mach.notePair_ok | apply Mach.dcEvent_ok | apply Mach.endLease_ok | split | intro _

theorem execLinkdownRevokeExpiry_ok {ld : Nat} {s : State} {t : State} (hOk : s.m.Ok) (e : execLinkdownRevokeExpiry ld s = .next t) : t.m.Ok := by
  unfold execLinkdownRevokeExpiry at e
  with_reducible repeat' first
    | assumption | refine State.run_ok (by assumption) ?_ e | apply Mach.when_ok | apply Mach.runTo_ok
    | apply Mach.withdraw_ok | apply Mach.notice_ok | apply foldl_ok | split | intro _

theorem Mach.extQuery_ok {m : Mach} {d num : Nat} (hOk : m.Ok) : (Mach.extQuery m d num).Ok := by
  unfold Mach.extQuery
  with_reducible repeat' first
    | assumption | apply Mach.wr_ok | split

theorem execLseExtQuery_ok {d : Nat} {v : Word} {s : State} {t : State} (hOk : s.m.Ok) (e : execLseExtQuery d v s = .next t) : t.m.Ok := by
  unfold execLseExtQuery at e
  with_reducible repeat' first
    | assumption | refine State.onDie_ok (by assumption) ?_ e | apply Mach.when_ok | apply Mach.extQuery_ok | intro _


end Sys2Proof.Machine
end

