-- ==== Sys2Proof/Laws/KeepContent.lean ====
section
/-! SUPPORT. Soundness is kept by the definitions of Machine/Content.lean. -/

namespace Sys2Proof.Machine

theorem Mach.obtain_ok {m : Mach} {d ext lo hi : Nat} {write : Bool} (hOk : m.Ok) : (Mach.obtain m d ext lo hi write).2.Ok := by
  unfold Mach.obtain
  with_reducible repeat' first
    | assumption | apply Mach.snoop_ok | apply foldl_ok | intro _


end Sys2Proof.Machine
end

