-- ==== Sys2Proof/Laws/KeepRing.lean ====
section
/-! SUPPORT. Soundness is kept by the definitions of Machine/Ring.lean. -/

namespace Sys2Proof.Machine

theorem State.onRing_ok {s t : State} {r : Nat} {f : Mach → Mach} (h : s.m.Ok) (hf : ∀ m, m.Ok → (f m).Ok)
    (e : s.onRing r f = .next t) : t.m.Ok := by
  unfold State.onRing at e
  split at e
  · exact State.onDie_ok h (fun _ h => Mach.when_ok h hf) e
  · cases e

theorem Mach.ringCtrl_ok {m : Mach} {r v : Nat} (hOk : m.Ok) : (Mach.ringCtrl m r v).Ok := by
  unfold Mach.ringCtrl
  with_reducible repeat' first
    | assumption | apply Mach.upd_ok | apply Mach.wrr_ok | apply Mach.ringStop_ok | apply Die.parts_ok | split | intro _
    | dsimp only | rw [Die.ok_mk]

theorem execRingEnable_ok {r : Nat} {v : Word} {s : State} {t : State} (hOk : s.m.Ok) (e : execRingEnable r v s = .next t) : t.m.Ok := by
  unfold execRingEnable at e
  with_reducible repeat' first
    | refine State.onRing_ok (by assumption) ?_ e | apply Mach.ringCtrl_ok | intro _

theorem execRingDisable_ok {r : Nat} {v : Word} {s : State} {t : State} (hOk : s.m.Ok) (e : execRingDisable r v s = .next t) : t.m.Ok := by
  unfold execRingDisable at e
  with_reducible repeat' first
    | refine State.onRing_ok (by assumption) ?_ e | apply Mach.ringCtrl_ok | intro _

theorem Mach.ringDoorbell_ok {m : Mach} {r v : Nat} (hOk : m.Ok) : (Mach.ringDoorbell m r v).Ok := by
  unfold Mach.ringDoorbell
  with_reducible repeat' first
    | assumption | apply Mach.furlAbandon_ok | apply Mach.wrr_ok | apply Mach.parts_ok | split | dsimp only | rw [Mach.ok_mk]

theorem execRingDoorbell_ok {r : Nat} {v : Word} {s : State} {t : State} (hOk : s.m.Ok) (e : execRingDoorbell r v s = .next t) : t.m.Ok := by
  unfold execRingDoorbell at e
  with_reducible repeat' first
    | refine State.onRing_ok (by assumption) ?_ e | apply Mach.ringDoorbell_ok | intro _

theorem Mach.setUnreleased_ok {m : Mach} {r k : Nat} (hOk : m.Ok) : (Mach.setUnreleased m r k).Ok := by
  unfold Mach.setUnreleased
  with_reducible repeat' first
    | assumption | apply Mach.upd_ok | apply Die.parts_ok | intro _ | rw [Die.ok_mk]

theorem Mach.showStall_ok {m : Mach} {r : Nat} (hOk : m.Ok) : (Mach.showStall m r).Ok := by
  unfold Mach.showStall
  with_reducible repeat' first
    | assumption | apply Mach.wrr_ok

theorem Mach.ringCqHead_ok {m : Mach} {r v : Nat} (hOk : m.Ok) : (Mach.ringCqHead m r v).Ok := by
  unfold Mach.ringCqHead
  with_reducible repeat' first
    | assumption | apply Mach.wrr_ok | apply Mach.setUnreleased_ok | apply Mach.showStall_ok | split | dsimp only

theorem execRingCqHead_ok {r : Nat} {v : Word} {s : State} {t : State} (hOk : s.m.Ok) (e : execRingCqHead r v s = .next t) : t.m.Ok := by
  unfold execRingCqHead at e
  with_reducible repeat' first
    | refine State.onRing_ok (by assumption) ?_ e | apply Mach.ringCqHead_ok | intro _

theorem Mach.cqReady_ok {m : Mach} {r : Nat} (hOk : m.Ok) : (Mach.cqReady m r).2.Ok := by
  unfold Mach.cqReady
  with_reducible repeat' first
    | assumption | apply Mach.obtain_ok | split

theorem Mach.putEntry_ok {m : Mach} {r : Nat} {e : List Byte} (hOk : m.Ok) : (Mach.putEntry m r e).Ok := by
  unfold Mach.putEntry
  with_reducible repeat' first
    | assumption | apply Mach.writeBytes_ok | apply Mach.wrr_ok | apply Mach.setUnreleased_ok
    | refine Mach.materialise_ok ?_ (by assumption) | split

theorem Mach.complete_ok {m : Mach} {r ld index accept : Nat} {ds : List Byte} {x : Done} (hOk : m.Ok) : (Mach.complete m r ld index accept ds x).Ok := by
  unfold Mach.complete
  with_reducible repeat' first
    | assumption | apply Mach.send_ok | apply Mach.bump_ok | apply Mach.raiseVec_ok | apply Mach.showStall_ok
    | apply Mach.putEntry_ok | split

theorem Mach.noteJob_ok {m : Mach} {d : Nat} {pc : PCode} {r tag : Nat} {detail : Nat} (hOk : m.Ok) : (Mach.noteJob m d pc r tag detail).Ok := by
  unfold Mach.noteJob
  with_reducible repeat' first
    | assumption | apply Mach.note_ok

theorem Mach.passHead_ok {m : Mach} {r : Nat} (hOk : m.Ok) : (Mach.passHead m r).Ok := by
  unfold Mach.passHead
  with_reducible repeat' first
    | assumption | apply Mach.wrr_ok | apply Mach.showStall_ok

theorem Mach.refuseDesc_ok {m : Mach} {r ld index : Nat} {ds : List Byte} {reason : Nat} (hOk : m.Ok) : (Mach.refuseDesc m r ld index ds reason).Ok := by
  unfold Mach.refuseDesc
  with_reducible repeat' first
    | assumption | apply Mach.note_ok | apply Mach.complete_ok | apply Mach.passHead_ok

theorem Mach.acceptJob_ok {m : Mach} {j : Job} {hs : List Nat} (hOk : m.Ok) : (Mach.acceptJob m j hs).Ok := by
  unfold Mach.acceptJob
  with_reducible repeat' first
    | assumption | apply Mach.upd_ok | apply Mach.wr_ok | apply Mach.bump_ok | apply Mach.note_ok | apply Mach.wrr_ok
    | apply Mach.showRing_ok | apply Mach.passHead_ok | apply Die.parts_ok | intro _ | dsimp only | rw [Die.ok_mk]

theorem Mach.hostRead_ok {m : Mach} {d : Nat} {j : Job} {b : Buf} {n pass : Nat} (hOk : m.Ok) : (Mach.hostRead m d j b n pass).Ok := by
  unfold Mach.hostRead
  with_reducible repeat' first
    | assumption | apply Mach.send_ok | apply Mach.updJob_ok

theorem Mach.decide3_ok {m : Mach} {j : Job} {hs : List Nat} (hOk : m.Ok) : (Mach.decide3 m j hs).Ok := by
  unfold Mach.decide3
  with_reducible repeat' first
    | assumption | apply Mach.upd_ok | apply Mach.refuseDesc_ok | apply Mach.acceptJob_ok | apply Die.parts_ok | split
    | intro _ | dsimp only | rw [Die.ok_mk]

theorem Mach.takeDesc_ok {m : Mach} {r ld num : Nat} {vs : List LineVal} (hOk : m.Ok) : (Mach.takeDesc m r ld num vs).Ok := by
  unfold Mach.takeDesc
  with_reducible repeat' first
    | assumption | apply Mach.upd_ok | apply Mach.refuseDesc_ok | apply Mach.hostRead_ok | apply Mach.decide3_ok
    | apply Die.parts_ok | split | intro _ | dsimp only | rw [Die.ok_mk]

theorem Mach.listReady_ok {m : Mach} {ld : Nat} {ds : List Byte} (hOk : m.Ok) : (Mach.listReady m ld ds).2.Ok := by
  unfold Mach.listReady
  with_reducible repeat' first
    | assumption | apply Mach.obtain_ok | apply foldl_snd_ok | split | intro _

theorem Mach.fetchDesc_ok {m : Mach} {r ld num : Nat} {x : Extent} {line : Nat} (h : m.Ok) : (m.fetchDesc r ld num x line).Ok := by
  unfold Mach.fetchDesc
  extract_lets o q m2 e g vs l
  have ho : o.2.Ok := by
    unfold o; split
    · exact Mach.obtain_ok h
    · exact h
  clear_value o
  have hq : q.2.Ok := Mach.cqReady_ok ho
  clear_value q
  have hg : g.2.Ok := by
    unfold g; split
    · exact hq
    · exact Mach.getBytes_ok hq
  clear_value g
  have hl : l.2.Ok := Mach.listReady_ok hg
  clear_value l
  split
  · exact hq
  · split
    · exact hg
    · split
      · exact Mach.takeDesc_ok hl
      · exact hl

theorem Mach.resumePre_ok {m : Mach} {j : Job} (h : m.Ok) : (m.resumePre j).Ok := by
  unfold Mach.resumePre
  split
  · exact h
  · split
    · exact Mach.decide3_ok h
    · exact h

theorem Mach.fetchNext_ok {m : Mach} {r ld num : Nat} (h : m.Ok) : (m.fetchNext r ld num).Ok := by
  unfold Mach.fetchNext
  cases m.openRun ld (m.headDpa r) 256 with
  | none => exact h
  | some x => exact Mach.fetchDesc_ok h

theorem Mach.acceptNext_ok {m : Mach} {r : Nat} (h : m.Ok) : (m.acceptNext r).Ok := by
  unfold Mach.acceptNext
  extract_lets d m1
  have h1 : m1.Ok := Mach.showStall_ok h
  clear_value m1
  split
  · split
    · exact h1
    · cases (m1.jobs d).find? (fun k => decide (k.ring = r) && k.pre) with
      | some j => exact Mach.resumePre_ok h1
      | none => exact Mach.fetchNext_ok h1
  · exact Mach.wr_ok h1

theorem execDescriptorAccept_ok {r : Nat} {s : State} {t : State} (hOk : s.m.Ok) (e : execDescriptorAccept r s = .next t) : t.m.Ok := by
  unfold execDescriptorAccept at e
  with_reducible repeat' first
    | assumption | refine State.onRing_ok (by assumption) ?_ e | apply Mach.when_ok | apply Mach.acceptNext_ok | intro _


end Sys2Proof.Machine
end

