-- ==== Sys2Proof/Laws/KeepJobs.lean ====
section
/-! SUPPORT. Soundness is kept by the definitions of Machine/Jobs.lean. -/

namespace Sys2Proof.Machine

theorem State.onJob_ok {s t : State} {d n op : Nat} {f : Mach → Job → Mach} (h : s.m.Ok) (hf : ∀ m j, m.Ok → (f m j).Ok)
    (e : s.onJob d n op f = .next t) : t.m.Ok := by
  refine State.onDie_ok h (fun m h => Mach.when_ok h (fun m h => ?_)) e
  split
  · split
    · exact hf _ _ h
    · exact h
  · exact h

theorem State.onJobIf_ok {s t : State} {d n op : Nat} {c : Mach → Job → Bool} {f : Mach → Job → Mach} (h : s.m.Ok)
    (hf : ∀ m j, m.Ok → (f m j).Ok) (e : s.onJobIf d n op c f = .next t) : t.m.Ok := by
  unfold State.onJobIf at e
  split at e
  · split at e
    · cases e
    · exact State.onJob_ok h hf e
  · exact State.onJob_ok h hf e

theorem readyAll_ok {α : Type} {m : Mach} {f : Mach → α → Ready × Mach} {l : List α} (hf : ∀ m a, m.Ok → (f m a).2.Ok)
    (h : m.Ok) : (readyAll m f l).2.Ok := by
  unfold readyAll
  refine foldl_snd_ok (fun b a hb => ?_) h
  exact hf b.2 a hb

theorem Mach.useT0_ok {m : Mach} {d c ext idx : Nat} (hOk : m.Ok) : (Mach.useT0 m d c ext idx).Ok := by
  unfold Mach.useT0
  with_reducible repeat' first
    | assumption | apply Mach.updStage_ok

theorem Mach.dropT0_ok {m : Mach} {d ext idx : Nat} (hOk : m.Ok) : (Mach.dropT0 m d ext idx).Ok := by
  unfold Mach.dropT0
  with_reducible repeat' first
    | assumption | apply Mach.updStage_ok

theorem Mach.dropExtents_ok {d c size : Nat} (n : Nat) : ∀ {m : Mach}, m.Ok → (m.dropExtents d c size n).Ok := by
  induction n with
  | zero => intro m h; exact h
  | succ n ih =>
    intro m h
    unfold Mach.dropExtents
    dsimp only
    split
    · split
      · exact h
      · exact ih (Mach.updStage_ok h)
    · exact h

theorem Mach.updPart_ok {m : Mach} {a : Nat × Nat} {home head : Nat} {f : HeadPart → HeadPart} (hOk : m.Ok) : (Mach.updPart m a home head f).Ok := by
  unfold Mach.updPart
  with_reducible repeat' first
    | assumption | apply Mach.updJob_ok

theorem Mach.spill_ok {m : Mach} {d : Nat} {a : Nat × Nat} {head size : Nat} (hOk : m.Ok) : (Mach.spill m d a head size).Ok := by
  unfold Mach.spill
  with_reducible repeat' first
    | assumption | apply Mach.chosen_ok | apply Mach.bump_ok | apply Mach.updPart_ok

theorem Mach.spillParts_ok {m : Mach} {d c size : Nat} (hOk : m.Ok) : (Mach.spillParts m d c size).Ok := by
  unfold Mach.spillParts
  with_reducible repeat' first
    | assumption | apply Mach.spill_ok | apply foldl_ok | split | intro _

theorem Mach.stageRoom_ok {m : Mach} {d c size : Nat} (hOk : m.Ok) : (Mach.stageRoom m d c size).2.Ok := by
  unfold Mach.stageRoom
  with_reducible repeat' first
    | assumption | apply Mach.dropExtents_ok | apply Mach.spillParts_ok | split | dsimp only

theorem Mach.startWant_ok {m : Mach} {d : Nat} {w : T0Want} (hOk : m.Ok) : (Mach.startWant m d w).Ok := by
  unfold Mach.startWant
  with_reducible repeat' first
    | assumption | apply Mach.updStage_ok | apply Mach.needFetch_ok | apply Mach.beginPromo_ok | apply foldl_ok | split
    | intro _ | dsimp only

theorem Mach.issue1_ok {d : Nat} (ws : List T0Want) : ∀ {m : Mach} {full : List Nat}, m.Ok → (m.issue1 d ws full).Ok := by
  induction ws with
  | nil => intro m full h; exact h
  | cons w ws ih =>
    intro m full h
    unfold Mach.issue1
    dsimp only
    split
    · exact ih h
    · split
      · exact ih (Mach.startWant_ok (Mach.stageRoom_ok h))
      · exact ih (Mach.stageRoom_ok h)

theorem Mach.pump_ok {m : Mach} {d : Nat} (hOk : m.Ok) : (Mach.pump m d).Ok := by
  unfold Mach.pump
  with_reducible repeat' first
    | assumption | apply Mach.issue1_ok

theorem Mach.tidyT0_ok {m : Mach} {d : Nat} (hOk : m.Ok) : (Mach.tidyT0 m d).Ok := by
  unfold Mach.tidyT0
  with_reducible repeat' first
    | assumption | apply Mach.updStage_ok | apply Mach.pump_ok

theorem Mach.bindCopy_ok {m : Mach} {d : Nat} {x : Extent} {k : T0Copy} (hOk : m.Ok) : (Mach.bindCopy m d x k).Ok := by
  unfold Mach.bindCopy
  with_reducible repeat' first
    | assumption | apply Mach.bindCoded_ok

theorem Mach.climbBlock_ok {m : Mach} {d ext idx b : Nat} {step : Nat} (hOk : m.Ok) : (Mach.climbBlock m d ext idx b step).Ok := by
  unfold Mach.climbBlock
  with_reducible repeat' first
    | assumption | apply Mach.updFetch_ok

theorem Mach.copyFails_ok {m : Mach} {d : Nat} {x : Extent} {idx b c : Nat} {fromT3 : Bool} {jobs : List (Nat × Nat)} (hOk : m.Ok) : (Mach.copyFails m d x idx b c fromT3 jobs).Ok := by
  unfold Mach.copyFails
  with_reducible repeat' first
    | assumption | apply Mach.dropT2_ok | apply Mach.codecFail_ok | apply Mach.lose_ok | apply Mach.needFetch_ok
    | apply Mach.dropT0_ok | apply Mach.climbBlock_ok | apply foldl_ok | split | intro _ | dsimp only

theorem Mach.takeCopy_ok {m : Mach} {d : Nat} {x : Extent} {a : Nat × Nat} {k : T0Copy} (hOk : m.Ok) : (Mach.takeCopy m d x a k).Ok := by
  unfold Mach.takeCopy
  with_reducible repeat' first
    | assumption | apply Mach.bump_ok | apply Mach.updJob_ok | apply Mach.bindCopy_ok | apply Mach.copyFails_ok | split
    | dsimp only

theorem Mach.installT0_ok {m : Mach} {d : Nat} {x : Extent} {idx : Nat} {coded : List Byte} {fromT3 : Bool} {jobs : List (Nat × Nat)} (hOk : m.Ok) : (Mach.installT0 m d x idx coded fromT3 jobs).Ok := by
  unfold Mach.installT0
  with_reducible repeat' first
    | assumption | apply Mach.updStage_ok | apply Mach.tidyT0_ok | apply Mach.takeCopy_ok | apply foldl_ok | split | intro _

theorem Mach.needFrame_ok {m : Mach} {d : Nat} {x : Extent} {idx c : Nat} {acc : Nat × Nat} (hOk : m.Ok) : (Mach.needFrame m d x idx c acc).Ok := by
  unfold Mach.needFrame
  with_reducible repeat' first
    | assumption | apply Mach.touch_ok | apply Mach.updStage_ok | apply Mach.needFetch_ok | apply Mach.beginPromo_ok
    | apply Mach.useT0_ok | apply Mach.pump_ok | apply Mach.takeCopy_ok | split | dsimp only

theorem Mach.useFrame_ok {m : Mach} {d : Nat} {x : Extent} {acc : Nat × Nat} {idx : Nat} (hOk : m.Ok) : (Mach.useFrame m d x acc idx).2.Ok := by
  unfold Mach.useFrame
  with_reducible repeat' first
    | assumption | apply Mach.pump_ok | apply Mach.needFrame_ok | split | dsimp only

theorem Mach.lend_ok {m : Mach} {j : Job} (hOk : m.Ok) : (Mach.lend m j).Ok := by
  unfold Mach.lend
  with_reducible repeat' first
    | assumption | apply Mach.updStage_ok | apply foldl_ok | intro _

theorem Mach.unlend_ok {m : Mach} (hOk : m.Ok) : (Mach.unlend m).Ok := by
  unfold Mach.unlend
  with_reducible repeat' first
    | assumption | apply Mach.eachDie_ok | apply Mach.updStage_ok | intro _

theorem Mach.stageWrite_ok {m : Mach} {h : Nat} (hOk : m.Ok) : (Mach.stageWrite m h).2.Ok := by
  unfold Mach.stageWrite
  with_reducible repeat' first
    | assumption | apply Mach.chosen_ok | apply Mach.bump_ok | apply Mach.note_ok | apply Mach.correctable_ok
    | apply Mach.flipDone_ok | split | dsimp only

theorem Mach.promoInstall_ok {m : Mach} {d : Nat} {p : Promo} {x : Extent} {bs : List Byte} {poison : Bool} (hOk : m.Ok) : (Mach.promoInstall m d p x bs poison).Ok := by
  unfold Mach.promoInstall
  with_reducible repeat' first
    | assumption | apply Mach.bump_ok | apply Mach.updTier_ok | apply Mach.updEntry_ok | apply Mach.noteFrame_ok
    | apply Mach.dropT2_ok | apply Mach.writeBytes_ok | apply Mach.bindCoded_ok | apply Mach.codecFail_ok
    | apply Mach.lose_ok | apply Mach.needFetch_ok | apply Mach.promoEnd_ok | apply Mach.copyFails_ok
    | apply Mach.installT0_ok | apply Mach.stageWrite_ok | split | dsimp only

theorem execPromotionEnd_ok {d ext idx dst : Nat} {s : State} {t : State} (hOk : s.m.Ok) (e : execPromotionEnd d ext idx dst s = .next t) : t.m.Ok := by
  unfold execPromotionEnd at e
  with_reducible repeat' first
    | assumption | refine State.onDie_ok (by assumption) ?_ e | split at e | apply Mach.when_ok | apply Mach.updTier_ok
    | apply Mach.getBytes_ok | apply Mach.promoEnd_ok | apply Mach.promoInstall_ok | split | intro _ | dsimp only

theorem Mach.fetchDone_ok {m : Mach} {d : Nat} {f : Fetch} {x : Extent} {coded bytes : List Byte} (hOk : m.Ok) : (Mach.fetchDone m d f x coded bytes).Ok := by
  unfold Mach.fetchDone
  with_reducible repeat' first
    | assumption | apply Mach.send_ok | apply Mach.bump_ok | apply Mach.updTier_ok | apply Mach.updEntry_ok
    | apply Mach.noteFrame_ok | apply Mach.clearUnavail_ok | apply Mach.writeBytes_ok | apply Mach.freeUp_ok
    | apply Mach.relocateFrom_ok | apply Mach.promoEnd_ok | apply Mach.promoteT1_ok | apply Mach.installT0_ok
    | apply foldl_ok | split | intro _

theorem Mach.fetchCheck_ok {m : Mach} {d : Nat} {f : Fetch} {x : Extent} (hOk : m.Ok) : (Mach.fetchCheck m d f x).Ok := by
  unfold Mach.fetchCheck
  with_reducible repeat' first
    | assumption | apply Mach.updFetch_ok | apply Mach.bindCoded_ok | apply Mach.codecFail_ok | apply Mach.failFetch_ok
    | apply Mach.askReplica_ok | apply Mach.climbBlock_ok | apply Mach.stageWrite_ok | apply Mach.fetchDone_ok | split
    | dsimp only

theorem execFetchInstall_ok {d ext idx : Nat} {s : State} {t : State} (hOk : s.m.Ok) (e : execFetchInstall d ext idx s = .next t) : t.m.Ok := by
  unfold execFetchInstall at e
  with_reducible repeat' first
    | assumption | refine State.onDie_ok (by assumption) ?_ e | apply Mach.when_ok | apply Mach.headerLost_ok
    | apply Mach.ensureHeader_ok | apply Mach.fetchCheck_ok | split | intro _ | dsimp only

theorem Mach.useLines_ok {m : Mach} {x : Extent} {lo hi : Nat} (hOk : m.Ok) : (Mach.useLines m x lo hi).2.Ok := by
  unfold Mach.useLines
  with_reducible repeat' first
    | assumption | apply Mach.readLine_ok | apply Mach.obtain_ok | apply readyAll_ok | split | intro _ | dsimp only

theorem Mach.useRun_ok {m : Mach} {x : Extent} {acc : Nat × Nat} {lo n : Nat} (hOk : m.Ok) : (Mach.useRun m x acc lo n).2.Ok := by
  unfold Mach.useRun
  with_reducible repeat' first
    | assumption | apply readyAll_ok | apply Mach.useFrame_ok | apply Mach.useLines_ok | split | intro _

theorem Mach.needRun_ok {m : Mach} {x : Extent} {acc : Nat × Nat} {c lo n : Nat} (hOk : m.Ok) : (Mach.needRun m x acc c lo n).Ok := by
  unfold Mach.needRun
  with_reducible repeat' first
    | assumption | apply Mach.needFrame_ok | apply foldl_ok | split | intro _

theorem Mach.useBuf_ok {m : Mach} {j : Job} {acc : Nat × Nat} {b : Buf} {n : Nat} (hOk : m.Ok) : (Mach.useBuf m j acc b n).2.Ok := by
  unfold Mach.useBuf
  with_reducible repeat' first
    | assumption | apply readyAll_ok | apply Mach.useRun_ok | split | intro _

theorem Mach.countPoison_ok {m : Mach} {d k : Nat} (hOk : m.Ok) : (Mach.countPoison m d k).Ok := by
  unfold Mach.countPoison
  with_reducible repeat' first
    | assumption | apply Mach.bump_ok | split

theorem Mach.showScratch_ok {m : Mach} {h : Nat} (hOk : m.Ok) : (Mach.showScratch m h).Ok := by
  unfold Mach.showScratch
  with_reducible repeat' first
    | assumption | apply Mach.wr_ok

theorem Mach.showSubs_ok {m : Mach} (hOk : m.Ok) : (Mach.showSubs m).Ok := by
  unfold Mach.showSubs
  with_reducible repeat' first
    | assumption | apply Mach.eachDie_ok | apply Mach.wr_ok | intro _

theorem Mach.withScratch_ok {m : Mach} {d : Nat} {j : Job} {homes : List Nat} {scratch : Nat → Nat} {go : Mach → Mach}
    (hf : ∀ m, m.Ok → (go m).Ok) (h : m.Ok) : (m.withScratch d j homes scratch go).Ok := by
  unfold Mach.withScratch
  split
  · exact hf _ (Mach.updJob_ok h)
  · exact Mach.updJob_ok h

theorem Mach.withLists_ok {m : Mach} {d : Nat} {j : Job} {bs : List (Buf × Nat)} {go : Mach → Mach}
    (hf : ∀ m, m.Ok → (go m).Ok) (h : m.Ok) : (m.withLists d j bs go).Ok := by
  unfold Mach.withLists
  extract_lets r
  have hr : r.2.Ok := readyAll_ok (fun _ _ h => Mach.useBuf_ok h) h
  clear_value r
  split
  · exact hf _ (Mach.updJob_ok hr)
  · exact hr
  · exact Mach.updJob_ok hr
  · exact hf _ (Mach.updJob_ok (Mach.runTo_ok hr))

theorem Mach.startParts_ok {m : Mach} {d : Nat} {j : Job} {homes : List Nat} {scratch : Nat → Nat} (hOk : m.Ok) : (Mach.startParts m d j homes scratch).Ok := by
  unfold Mach.startParts
  with_reducible repeat' first
    | assumption | apply Mach.note_ok | apply Mach.cross_ok | apply Mach.updJob_ok | apply Mach.showScratch_ok
    | apply Mach.showSubs_ok | apply foldl_ok | apply foldl_fst_ok | split | intro _

theorem Mach.abortBus_ok {m : Mach} {d : Nat} {j : Job} (hOk : m.Ok) : (Mach.abortBus m d j).Ok := by
  unfold Mach.abortBus
  with_reducible repeat' first
    | assumption | apply Mach.updJob_ok

theorem Mach.readInputs_ok {m : Mach} {d : Nat} {j : Job} {bs : List (Buf × Nat × Nat)} (hOk : m.Ok) : (Mach.readInputs m d j bs).Ok := by
  unfold Mach.readInputs
  with_reducible repeat' first
    | assumption | apply Mach.hostRead_ok | apply Mach.needRun_ok | apply Mach.abortBus_ok | apply foldl_ok | split | intro _
    | dsimp only

theorem Mach.closeBunting_ok {m : Mach} {h id : Nat} (hOk : m.Ok) : (Mach.closeBunting m h id).Ok := by
  unfold Mach.closeBunting
  with_reducible repeat' first
    | assumption | apply Mach.bump_ok | apply Mach.updStage_ok | split

theorem Mach.joinBunting_ok {m : Mach} {h c fmt ext idx : Nat} {mem : BMember} (hOk : m.Ok) : (Mach.joinBunting m h c fmt ext idx mem).Ok := by
  unfold Mach.joinBunting
  with_reducible repeat' first
    | assumption | apply Mach.updStage_ok | apply Mach.closeBunting_ok | apply foldl_ok | split | intro _ | dsimp only

theorem execBuntingClose_ok {d id : Nat} {s : State} {t : State} (hOk : s.m.Ok) (e : execBuntingClose d id s = .next t) : t.m.Ok := by
  unfold execBuntingClose at e
  with_reducible repeat' first
    | assumption | refine State.onDie_ok (by assumption) ?_ e | apply Mach.when_ok | apply Mach.runTo_ok
    | apply Mach.closeBunting_ok | split | intro _

theorem Mach.leaveBuntings_ok {m : Mach} {acc : Nat × Nat} (hOk : m.Ok) : (Mach.leaveBuntings m acc).Ok := by
  unfold Mach.leaveBuntings
  with_reducible repeat' first
    | assumption | apply Mach.eachDie_ok | apply Mach.updStage_ok | intro _

theorem Mach.leaveFetches_ok {m : Mach} {acc : Nat × Nat} (hOk : m.Ok) : (Mach.leaveFetches m acc).Ok := by
  unfold Mach.leaveFetches
  with_reducible repeat' first
    | assumption | apply Mach.eachDie_ok | apply Mach.updTier_ok | apply Mach.updStage_ok | intro _

theorem Mach.outReady_ok {m : Mach} {j : Job} {s : OutSeg} (hOk : m.Ok) : (Mach.outReady m j s).2.Ok := by
  unfold Mach.outReady
  with_reducible repeat' first
    | assumption | apply Mach.obtain_ok | apply readyAll_ok | split | intro _ | dsimp only

theorem Mach.putLine_ok {m : Mach} {j : Job} {w : Nat × List Byte × Bool} (hOk : m.Ok) : (Mach.putLine m j w).Ok := by
  unfold Mach.putLine
  with_reducible repeat' first
    | assumption | apply Mach.mergeLine_ok | apply Mach.setOrigin_ok | apply Mach.clearOrigin_ok | apply Mach.addStale_ok
    | refine Mach.materialise_ok ?_ (by assumption) | split | refine pair_ok ?_ (by assumption) | dsimp only

theorem Mach.putSeg_ok {m : Mach} {j : Job} {s : OutSeg} (hOk : m.Ok) : (Mach.putSeg m j s).Ok := by
  unfold Mach.putSeg
  with_reducible repeat' first
    | assumption | apply Mach.send_ok | apply Mach.putLine_ok | apply foldl_ok | split | intro _


end Sys2Proof.Machine
end

