-- ==== Sys2Proof/Laws/KeepEncoder.lean ====
section
/-! SUPPORT. Soundness is kept by the definitions of Machine/Encoder.lean. -/

namespace Sys2Proof.Machine

theorem Mach.storeT2_ok {m : Mach} {d ext idx port : Nat} {counts : List Nat} {table : Nat} {coded : List Byte} {r : Mach} (hOk : m.Ok) (e : Mach.storeT2 m d ext idx port counts table coded = some r) : r.Ok := by
  unfold Mach.storeT2 at e
  with_reducible repeat' first
    | assumption | apply Mach.chosen_ok | apply Mach.updEntry_ok | apply Mach.writeBytes_ok
    | (injection ‹_ = some _› with e; subst e) | (cases ‹none = some _›) | split at e

theorem Mach.encodeOne_ok {m r : Mach} {d ext format span : Nat} {tables : List (List Nat)} {q : Nat × List Byte} (h : m.Ok)
    (e : m.encodeOne d ext format span tables q = some r) : r.Ok := by
  unfold Mach.encodeOne at e
  split at e
  · injection e with e; subst e; exact Mach.updEntry_ok h
  · obtain ⟨x, hx, e⟩ := Option.map_eq_some_iff.1 e
    subst e
    exact Mach.bump_ok (Mach.bump_ok (Mach.bump_ok (Mach.storeT2_ok h hx)))

/-- A fold that may give up keeps soundness while it goes on. -/
theorem foldl_bind_ok {α : Type} {f : Mach → α → Option Mach} {l : List α} (hf : ∀ m a r, m.Ok → f m a = some r → r.Ok) :
    ∀ {o : Option Mach} {r : Mach}, (∀ x, o = some x → x.Ok) → l.foldl (fun o a => o.bind (fun m => f m a)) o = some r → r.Ok := by
  induction l with
  | nil => intro o r h e; exact h r e
  | cons a l ih =>
    intro o r h e
    refine ih (fun x hx => ?_) e
    obtain ⟨m, hm, hf'⟩ := Option.bind_eq_some_iff.1 hx
    exact hf m a x (h m hm) hf'

theorem Mach.encodeExtent_ok {m r : Mach} {d : Nat} {x : Extent} {format span dim : Nat} {src : List SrcFrame} (h : m.Ok)
    (e : m.encodeExtent d x format span dim src = some r) : r.Ok := by
  unfold Mach.encodeExtent at e
  extract_lets good tables m1 m2 m3 pages m4 at e
  have h2 : m2.Ok := Mach.putHeader_ok (Mach.updExt_ok h)
  split at e
  · cases e
  · obtain ⟨y, hy, e⟩ := Option.map_eq_some_iff.1 e
    subst e
    refine foldl_ok (fun _ _ h => Mach.lose_ok h) (foldl_bind_ok (fun _ _ _ h e => Mach.storeT2_ok h e) (fun z hz => ?_) hy)
    exact foldl_bind_ok (fun _ _ _ h e => Mach.encodeOne_ok h e) (fun _ e => by injection e with e; subst e; exact h2) hz

theorem Mach.sealDone_ok {m : Mach} {e : Nat} (hOk : m.Ok) : (Mach.sealDone m e).Ok := by
  unfold Mach.sealDone
  with_reducible repeat' first
    | assumption | apply Mach.upd_ok | apply Mach.updExt_ok | apply Mach.checkSettled_ok | apply Mach.extPennant_ok
    | apply Die.parts_ok | split | intro _ | dsimp only | rw [Die.ok_mk]


end Sys2Proof.Machine
end

