-- ==== Sys2Proof/Laws/KeepAttend.lean ====
section
/-! SUPPORT. Soundness is kept by the definitions of Machine/Attend.lean. -/

namespace Sys2Proof.Machine

theorem Mach.addRows_ok {m : Mach} {home : Nat} {a : Nat × Nat} {head size : Nat} {rs : List RowPart} (hOk : m.Ok) : (Mach.addRows m home a head size rs).Ok := by
  unfold Mach.addRows
  with_reducible repeat' first
    | assumption | apply Mach.updJob_ok

theorem Mach.poisonHead_ok {m : Mach} {home : Nat} {a : Nat × Nat} {head : Nat} {p : AttP} {why : Option NoteRef} (hOk : m.Ok) : (Mach.poisonHead m home a head p why).Ok := by
  unfold Mach.poisonHead
  with_reducible repeat' first
    | assumption | apply Mach.addRows_ok

theorem Mach.joinAll_ok {m : Mach} {d : Nat} {j : Job} {home : Nat} {fs : List (Extent × Nat × Nat)} (hOk : m.Ok) : (Mach.joinAll m d j home fs).Ok := by
  unfold Mach.joinAll
  with_reducible repeat' first
    | assumption | apply Mach.needFrame_ok | apply Mach.joinBunting_ok | apply Mach.poisonHead_ok | apply foldl_ok | split
    | intro _ | dsimp only

theorem Mach.selectPart_ok {m : Mach} {j : Job} {home : Nat} (hOk : m.Ok) : (Mach.selectPart m j home).2.2.Ok := by
  unfold Mach.selectPart
  with_reducible repeat' first
    | assumption | apply Mach.bump_ok | apply Mach.note_ok | apply foldl_ok | intro _

theorem Mach.selectAll_ok {m : Mach} {j : Job} (hOk : m.Ok) : (Mach.selectAll m j).2.2.Ok := by
  unfold Mach.selectAll
  with_reducible repeat' first
    | assumption | apply Mach.selectPart_ok | apply foldl_trd_ok | intro _

theorem Mach.leaveStuck_ok {m : Mach} {a : Nat × Nat} {p : AttP} (hOk : m.Ok) : (Mach.leaveStuck m a p).Ok := by
  unfold Mach.leaveStuck
  with_reducible repeat' first
    | assumption | apply Mach.eachDie_ok | apply Mach.updStage_ok | apply Mach.poisonHead_ok | apply foldl_ok | split
    | intro _

theorem Mach.attendOut_ok {m : Mach} {j : Job} (hOk : m.Ok) : (Mach.attendOut m j).2.Ok := by
  unfold Mach.attendOut
  with_reducible repeat' first
    | assumption | apply Mach.choices_ok | apply foldl_snd_ok | intro _

theorem Mach.openAttention_ok {m : Mach} {d : Nat} {j : Job} (hOk : m.Ok) : (Mach.openAttention m d j).Ok := by
  unfold Mach.openAttention
  with_reducible repeat' first
    | assumption | apply Mach.updJob_ok | apply Mach.joinAll_ok | apply foldl_ok | intro _

theorem Mach.endSelection_ok {m : Mach} {d n : Nat} (hOk : m.Ok) : (Mach.endSelection m d n).Ok := by
  unfold Mach.endSelection
  with_reducible repeat' first
    | assumption | apply Mach.updJob_ok | apply Mach.lend_ok | apply Mach.unlend_ok | apply Mach.selectAll_ok
    | apply Mach.openAttention_ok | split | dsimp only

theorem Mach.attStart_ok {m : Mach} {d : Nat} {j : Job} (hOk : m.Ok) : (Mach.attStart m d j).Ok := by
  unfold Mach.attStart
  with_reducible repeat' first
    | assumption | apply Mach.ungate_ok | apply Mach.updJob_ok | apply Mach.withScratch_ok | apply Mach.withLists_ok
    | apply Mach.startParts_ok | apply Mach.readInputs_ok | apply Mach.joinAll_ok | apply Mach.openAttention_ok
    | apply Mach.endSelection_ok | apply foldl_ok | split | intro _ | dsimp only

theorem execAttend_ok {d n : Nat} {s : State} {t : State} (hOk : s.m.Ok) (e : execAttend d n s = .next t) : t.m.Ok := by
  unfold execAttend at e
  with_reducible repeat' first
    | refine State.onJobIf_ok (by assumption) ?_ e | apply Mach.attStart_ok | intro _

theorem execSelect_ok {d n : Nat} {s : State} {t : State} (hOk : s.m.Ok) (e : execSelect d n s = .next t) : t.m.Ok := by
  unfold execSelect at e
  with_reducible repeat' first
    | refine State.onJobIf_ok (by assumption) ?_ e | apply Mach.attStart_ok | intro _

theorem Mach.runMember_ok {m : Mach} {h : Nat} {b : Bunting} {x : Extent} {k : BMember} (hOk : m.Ok) : (Mach.runMember m h b x k).Ok := by
  unfold Mach.runMember
  with_reducible repeat' first
    | assumption | apply Mach.updJob_ok | apply Mach.addRows_ok | apply Mach.poisonHead_ok | split

theorem Mach.spoilRow_ok {m : Mach} {h : Nat} {b : Bunting} (hOk : m.Ok) : (Mach.spoilRow m h b).Ok := by
  unfold Mach.spoilRow
  with_reducible repeat' first
    | assumption | apply Mach.chosen_ok | apply Mach.addRows_ok | split | dsimp only

theorem Mach.runRows_ok {m : Mach} {h : Nat} {b : Bunting} {x : Extent} {copy : Option T0Copy} (hOk : m.Ok) : (Mach.runRows m h b x copy).Ok := by
  unfold Mach.runRows
  with_reducible repeat' first
    | assumption | apply Mach.bump_ok | apply Mach.ungate_ok | apply Mach.updStage_ok | apply Mach.useT0_ok
    | apply Mach.tidyT0_ok | apply Mach.bindCopy_ok | apply Mach.stageWrite_ok | apply Mach.endSelection_ok
    | apply Mach.runMember_ok | apply Mach.spoilRow_ok | apply foldl_ok | split | intro _

theorem Mach.runBunting_ok {m : Mach} {h : Nat} {b : Bunting} {x : Extent} (hOk : m.Ok) : (Mach.runBunting m h b x).Ok := by
  unfold Mach.runBunting
  with_reducible repeat' first
    | assumption | apply Mach.copyFails_ok | apply Mach.useLines_ok | apply Mach.runRows_ok | split | dsimp only

theorem Mach.rowsReady_ok {m : Mach} {b : Bunting} (hOk : m.Ok) : (Mach.rowsReady m b).2.Ok := by
  unfold Mach.rowsReady
  with_reducible repeat' first
    | assumption | apply readyAll_ok | apply Mach.useBuf_ok | split | intro _

theorem execBuntingRun_ok {d id : Nat} {s : State} {t : State} (hOk : s.m.Ok) (e : execBuntingRun d id s = .next t) : t.m.Ok := by
  unfold execBuntingRun at e
  with_reducible repeat' first
    | assumption | refine State.onDie_ok (by assumption) ?_ e | apply Mach.when_ok | apply Mach.pump_ok
    | apply Mach.runBunting_ok | apply Mach.rowsReady_ok | split | intro _ | dsimp only


end Sys2Proof.Machine
end

