-- ==== Sys2Proof/Laws/KeepLinear.lean ====
section
/-! SUPPORT. Soundness is kept by the definitions of Machine/Linear.lean. -/

namespace Sys2Proof.Machine

theorem Mach.holdScratch_ok {m : Mach} {d : Nat} {j : Job} {homes : List Nat} {n : Nat} (hOk : m.Ok) : (Mach.holdScratch m d j homes n).Ok := by
  unfold Mach.holdScratch
  with_reducible repeat' first
    | assumption | apply Mach.updJob_ok | apply Mach.showScratch_ok | split

theorem Mach.linStart_ok {m : Mach} {d : Nat} {j : Job} (hOk : m.Ok) : (Mach.linStart m d j).Ok := by
  unfold Mach.linStart
  with_reducible repeat' first
    | assumption | apply Mach.bump_ok | apply Mach.ungate_ok | apply Mach.needRun_ok | apply Mach.withScratch_ok
    | apply Mach.withLists_ok | apply Mach.startParts_ok | apply Mach.readInputs_ok | apply Mach.holdScratch_ok
    | apply foldl_ok | split | intro _ | dsimp only

theorem execLinear_ok {d n : Nat} {s : State} {t : State} (hOk : s.m.Ok) (e : execLinear d n s = .next t) : t.m.Ok := by
  unfold execLinear at e
  with_reducible repeat' first
    | assumption | refine State.onJobIf_ok (by assumption) ?_ e | apply Mach.linStart_ok | split | intro _

theorem execGroupedLinear_ok {d n : Nat} {s : State} {t : State} (hOk : s.m.Ok) (e : execGroupedLinear d n s = .next t) : t.m.Ok := by
  unfold execGroupedLinear at e
  with_reducible repeat' first
    | assumption | refine State.onJobIf_ok (by assumption) ?_ e | apply Mach.hostRead_ok | apply Mach.abortBus_ok
    | apply Mach.linStart_ok | split | intro _

theorem Mach.poisonRow_ok {m : Mach} {p : LinP} {o : Option NoteRef} (hOk : m.Ok) : (Mach.poisonRow m p o).2.Ok := by
  unfold Mach.poisonRow
  with_reducible repeat' first
    | assumption | apply Mach.choices_ok

theorem Mach.linRow_ok {m : Mach} {p : LinP} {xs : List Val} {cols : List (Except (Option NoteRef) (List Val))} (hOk : m.Ok) : (Mach.linRow m p xs cols).2.Ok := by
  unfold Mach.linRow
  with_reducible repeat' first
    | assumption | apply Mach.choices_ok

theorem Mach.spoilLinear_ok {m : Mach} {p : LinP} {rs : List LinRow} (hOk : m.Ok) : (Mach.spoilLinear m p rs).2.Ok := by
  unfold Mach.spoilLinear
  with_reducible repeat' first
    | assumption | apply Mach.choices_ok

theorem Mach.linStage_ok {m : Mach} {j : Job} {p : LinP} {rs : List LinRow} (hOk : m.Ok) : (Mach.linStage m j p rs).2.Ok := by
  unfold Mach.linStage
  with_reducible repeat' first
    | assumption | apply Mach.stageWrite_ok | apply Mach.spoilLinear_ok | apply foldl_snd_ok | split | intro _ | dsimp only

theorem Mach.linearResult_ok {m : Mach} {j : Job} (hOk : m.Ok) : (Mach.linearResult m j).2.Ok := by
  unfold Mach.linearResult
  with_reducible repeat' first
    | assumption | apply Mach.poisonRow_ok | apply Mach.linRow_ok | apply Mach.linStage_ok | apply foldl_snd_ok | split
    | intro _

theorem Mach.countWeights_ok {m : Mach} {j : Job} {h : Nat} (hOk : m.Ok) : (Mach.countWeights m j h).Ok := by
  unfold Mach.countWeights
  with_reducible repeat' first
    | assumption | apply Mach.chosen_ok | apply Mach.bump_ok


end Sys2Proof.Machine
end

