-- ==== Sys2Proof/Laws/KeepDataOps.lean ====
section
/-! SUPPORT. Soundness is kept by the definitions of Machine/DataOps.lean. -/

namespace Sys2Proof.Machine

theorem Mach.beginSeal_ok {m : Mach} {d : Nat} {j : Job} {x : Extent} {ts : Nat} (hOk : m.Ok) : (Mach.beginSeal m d j x ts).Ok := by
  unfold Mach.beginSeal
  with_reducible repeat' first
    | assumption | apply Mach.note_ok | apply Mach.ungate_ok | apply Mach.updExt_ok | apply Mach.snoop_ok
    | apply Mach.updJob_ok | apply Mach.extLost_ok | apply Mach.extPennant_ok | apply foldl_ok | split | intro _

theorem Mach.sealStart_ok {m : Mach} {d : Nat} {j : Job} (hOk : m.Ok) : (Mach.sealStart m d j).Ok := by
  unfold Mach.sealStart
  with_reducible repeat' first
    | assumption | apply Mach.startParts_ok | apply Mach.beginSeal_ok | split

theorem execSeal_ok {d n : Nat} {s : State} {t : State} (hOk : s.m.Ok) (e : execSeal d n s = .next t) : t.m.Ok := by
  unfold execSeal at e
  with_reducible repeat' first
    | refine State.onJobIf_ok (by assumption) ?_ e | apply Mach.sealStart_ok | intro _

theorem Mach.sealReady_ok {m : Mach} {h ext : Nat} (hOk : m.Ok) : (Mach.sealReady m h ext).2.Ok := by
  unfold Mach.sealReady
  with_reducible repeat' first
    | assumption | apply Mach.getBytes_ok | apply readyAll_ok | split | intro _ | dsimp only

theorem Mach.sealEnd_ok {m : Mach} {j : Job} (hOk : m.Ok) : (Mach.sealEnd m j).2.Ok := by
  unfold Mach.sealEnd
  with_reducible repeat' first
    | assumption | apply Mach.countPoison_ok | apply Mach.sealDone_ok | refine Mach.encodeExtent_ok ?_ (by assumption)
    | split | dsimp only

theorem Mach.wantFrame_ok {m : Mach} {acc : Nat × Nat} {x : Extent} {idx t : Nat} {retained : Bool} (hOk : m.Ok) : (Mach.wantFrame m acc x idx t retained).Ok := by
  unfold Mach.wantFrame
  with_reducible repeat' first
    | assumption | apply Mach.needFetch_ok | apply Mach.promoteT1_ok | split | dsimp only

theorem Mach.prefetchStart_ok {m : Mach} {d : Nat} {j : Job} (hOk : m.Ok) : (Mach.prefetchStart m d j).Ok := by
  unfold Mach.prefetchStart
  with_reducible repeat' first
    | assumption | apply Mach.touch_ok | apply Mach.startParts_ok | apply Mach.wantFrame_ok | apply foldl_ok | intro _

theorem execPrefetch_ok {d n : Nat} {s : State} {t : State} (hOk : s.m.Ok) (e : execPrefetch d n s = .next t) : t.m.Ok := by
  unfold execPrefetch at e
  with_reducible repeat' first
    | refine State.onJobIf_ok (by assumption) ?_ e | apply Mach.prefetchStart_ok | intro _

theorem Mach.touchWant_ok {m : Mach} {acc : Nat × Nat} {x : Extent} {idx t : Nat} (hOk : m.Ok) : (Mach.touchWant m acc x idx t).Ok := by
  unfold Mach.touchWant
  with_reducible repeat' first
    | assumption | apply Mach.touch_ok | apply Mach.wantFrame_ok | split

theorem Mach.pinPart_ok {m : Mach} {d : Nat} {j : Job} {h : Nat} (hOk : m.Ok) : (Mach.pinPart m d j h).Ok := by
  unfold Mach.pinPart
  with_reducible repeat' first
    | assumption | apply Mach.addPin_ok | apply Mach.updJob_ok | apply Mach.touchWant_ok | apply foldl_snd_ok | split
    | intro _ | dsimp only

theorem Mach.pinStart_ok {m : Mach} {d : Nat} {j : Job} (hOk : m.Ok) : (Mach.pinStart m d j).Ok := by
  unfold Mach.pinStart
  with_reducible repeat' first
    | assumption | apply Mach.startParts_ok | apply Mach.pinPart_ok | apply foldl_ok | intro _

theorem execPin_ok {d n : Nat} {s : State} {t : State} (hOk : s.m.Ok) (e : execPin d n s = .next t) : t.m.Ok := by
  unfold execPin at e
  with_reducible repeat' first
    | refine State.onJobIf_ok (by assumption) ?_ e | apply Mach.pinStart_ok | intro _

theorem Mach.unpinStart_ok {m : Mach} {d : Nat} {j : Job} (hOk : m.Ok) : (Mach.unpinStart m d j).Ok := by
  unfold Mach.unpinStart
  with_reducible repeat' first
    | assumption | apply Mach.dropPins_ok | apply Mach.startParts_ok | apply foldl_ok | intro _

theorem execUnpin_ok {d n : Nat} {s : State} {t : State} (hOk : s.m.Ok) (e : execUnpin d n s = .next t) : t.m.Ok := by
  unfold execUnpin at e
  with_reducible repeat' first
    | refine State.onJobIf_ok (by assumption) ?_ e | apply Mach.unpinStart_ok | intro _

theorem Mach.moveT2_ok {m : Mach} {h ext idx : Nat} {r : Mach} (hOk : m.Ok) (e : Mach.moveT2 m h ext idx = some r) : r.Ok := by
  unfold Mach.moveT2 at e
  with_reducible repeat' first
    | assumption | apply Mach.chosen_ok | apply Mach.updEntry_ok | apply Mach.getBytes_ok | apply Mach.writeBytes_ok
    | (injection ‹_ = some _› with e; subst e) | (cases ‹none = some _›) | split at e | dsimp only at e

theorem Mach.moveT1_ok {m : Mach} {h ext idx : Nat} {r : Mach} (hOk : m.Ok) (e : Mach.moveT1 m h ext idx = some r) : r.Ok := by
  unfold Mach.moveT1 at e
  with_reducible repeat' first
    | assumption | apply Mach.chosen_ok | apply Mach.updEntry_ok | apply Mach.getBytes_ok | apply Mach.writeBytes_ok
    | (injection ‹_ = some _› with e; subst e) | (cases ‹none = some _›) | split at e | dsimp only at e

theorem Mach.moveTo_ok {m : Mach} {x : Extent} {idx t : Nat} (h : m.Ok) : (m.moveTo x idx t).2.Ok := by
  unfold Mach.moveTo
  split
  · rename_i y hr
    obtain ⟨z, hz, e2⟩ := Option.bind_eq_some_iff.1 hr
    have hz := Mach.moveT2_ok h hz
    split at e2
    · exact Mach.moveT1_ok hz e2
    · injection e2 with e2; subst e2; exact hz
  · exact h

theorem Mach.settlePin_ok {m : Mach} {acc : Nat × Nat} {x : Extent} {idx t : Nat} (hOk : m.Ok) : (Mach.settlePin m acc x idx t).2.Ok := by
  unfold Mach.settlePin
  with_reducible repeat' first
    | assumption | apply Mach.wantFrame_ok | apply Mach.moveTo_ok | split | dsimp only

theorem Mach.tierPart_ok {m : Mach} {d : Nat} {j : Job} {h : Nat} (hOk : m.Ok) : (Mach.tierPart m d j h).2.Ok := by
  unfold Mach.tierPart
  with_reducible repeat' first
    | assumption | apply readyAll_ok | apply Mach.wantFrame_ok | apply Mach.settlePin_ok | split | intro _

theorem Mach.gatherStart_ok {m : Mach} {d : Nat} {j : Job} (hOk : m.Ok) : (Mach.gatherStart m d j).Ok := by
  unfold Mach.gatherStart
  with_reducible repeat' first
    | assumption | apply Mach.needRun_ok | apply Mach.startParts_ok | split

theorem execGather_ok {d n : Nat} {s : State} {t : State} (hOk : s.m.Ok) (e : execGather d n s = .next t) : t.m.Ok := by
  unfold execGather at e
  with_reducible repeat' first
    | refine State.onJobIf_ok (by assumption) ?_ e | apply Mach.gatherStart_ok | intro _

theorem Mach.copyStart_ok {m : Mach} {d : Nat} {j : Job} (hOk : m.Ok) : (Mach.copyStart m d j).Ok := by
  unfold Mach.copyStart
  with_reducible repeat' first
    | assumption | apply Mach.startParts_ok | apply Mach.readInputs_ok

theorem execCopy_ok {d n : Nat} {s : State} {t : State} (hOk : s.m.Ok) (e : execCopy d n s = .next t) : t.m.Ok := by
  unfold execCopy at e
  with_reducible repeat' first
    | refine State.onJobIf_ok (by assumption) ?_ e | apply Mach.copyStart_ok | intro _

theorem Mach.countData_ok {m : Mach} {h n : Nat} (hOk : m.Ok) : (Mach.countData m h n).Ok := by
  unfold Mach.countData
  with_reducible repeat' first
    | assumption | apply Mach.bump_ok

theorem Mach.gatherEnd_ok {m : Mach} {j : Job} (hOk : m.Ok) : (Mach.gatherEnd m j).2.Ok := by
  unfold Mach.gatherEnd
  with_reducible repeat' first
    | assumption | apply Mach.countPoison_ok | apply Mach.countData_ok | split

theorem Mach.copyEnd_ok {m : Mach} {d : Nat} {j : Job} (hOk : m.Ok) : (Mach.copyEnd m d j).2.Ok := by
  unfold Mach.copyEnd
  with_reducible repeat' first
    | assumption | apply Mach.countPoison_ok | apply Mach.countData_ok | apply foldl_ok | split | intro _

theorem Mach.ingestStart_ok {m : Mach} {d : Nat} {j : Job} (hOk : m.Ok) : (Mach.ingestStart m d j).Ok := by
  unfold Mach.ingestStart
  with_reducible repeat' first
    | assumption | apply Mach.chosen_ok | apply Mach.ungate_ok | apply Mach.updExt_ok | apply Mach.updJob_ok
    | apply Mach.newExtent_ok | apply Mach.refuse_ok | apply Mach.startParts_ok | apply Mach.readInputs_ok | split
    | dsimp only

theorem execIngest_ok {d n : Nat} {s : State} {t : State} (hOk : s.m.Ok) (e : execIngest d n s = .next t) : t.m.Ok := by
  unfold execIngest at e
  with_reducible repeat' first
    | refine State.onJobIf_ok (by assumption) ?_ e | apply Mach.ingestStart_ok | intro _

theorem Mach.failRecord_ok {m : Mach} (hOk : m.Ok) : (Mach.failRecord m).2.Ok := by
  unfold Mach.failRecord
  with_reducible repeat' first
    | assumption | apply Mach.choices_ok

theorem Mach.ingestEnd_ok {m : Mach} {j : Job} (hOk : m.Ok) : (Mach.ingestEnd m j).2.Ok := by
  unfold Mach.ingestEnd
  with_reducible repeat' first
    | assumption | apply Mach.offer_ok | apply Mach.sealDone_ok | apply Mach.countData_ok | apply Mach.failRecord_ok
    | refine Mach.encodeExtent_ok ?_ (by assumption) | split | dsimp only

theorem Mach.showRepl_ok {m : Mach} {h : Nat} (hOk : m.Ok) : (Mach.showRepl m h).Ok := by
  unfold Mach.showRepl
  with_reducible repeat' first
    | assumption | apply Mach.wr_ok

theorem Mach.memberPkg_ok {m : Mach} {p : Nat} (hOk : m.Ok) : (Mach.memberPkg m p).2.Ok := by
  unfold Mach.memberPkg
  with_reducible repeat' first
    | assumption | apply Mach.chosen_ok | split

theorem Mach.pushFail_ok {m : Mach} {d : Nat} {j : Job} {x : Extent} {detail : Nat} (hOk : m.Ok) : (Mach.pushFail m d j x detail).Ok := by
  unfold Mach.pushFail
  with_reducible repeat' first
    | assumption | apply Mach.note_ok | apply Mach.updJob_ok

theorem Mach.replStart_ok {m : Mach} {d : Nat} {j : Job} {f : Mach → Extent → Mach} (hf : ∀ m x, m.Ok → (f m x).Ok) (h : m.Ok) :
    (m.replStart d j f).Ok := by
  unfold Mach.replStart
  split
  · exact h
  · split
    · exact Mach.showRepl_ok h
    · split
      · exact Mach.showRepl_ok (Mach.abortBus_ok h)
      · exact Mach.showRepl_ok (hf _ _ (Mach.startParts_ok h))

theorem execReplicatePush_ok {d n : Nat} {s : State} {t : State} (hOk : s.m.Ok) (e : execReplicatePush d n s = .next t) : t.m.Ok := by
  unfold execReplicatePush at e
  with_reducible repeat' first
    | assumption | refine State.onJobIf_ok (by assumption) ?_ e | apply Mach.memberPkg_ok | apply Mach.pushFail_ok
    | apply Mach.replStart_ok | split | intro _ | dsimp only

theorem execReplicateRepair_ok {d n : Nat} {s : State} {t : State} (hOk : s.m.Ok) (e : execReplicateRepair d n s = .next t) : t.m.Ok := by
  unfold execReplicateRepair at e
  with_reducible repeat' first
    | assumption | refine State.onJobIf_ok (by assumption) ?_ e | apply Mach.replStart_ok | split | intro _

theorem Mach.sendPush_ok {m : Mach} {j : Job} {x : Extent} (hOk : m.Ok) : (Mach.sendPush m j x).Ok := by
  unfold Mach.sendPush
  with_reducible repeat' first
    | assumption | apply Mach.send_ok | apply foldl_ok | intro _

theorem Mach.pushEnd_ok {m : Mach} {d : Nat} {j : Job} {x : Extent} (hOk : m.Ok) : (Mach.pushEnd m d j x).2.Ok := by
  unfold Mach.pushEnd
  with_reducible repeat' first
    | assumption | apply Mach.choices_ok | apply Mach.note_ok | apply Mach.updJob_ok | apply Mach.failRecord_ok
    | apply Mach.pushFail_ok | apply Mach.sendPush_ok | split | dsimp only

theorem Mach.repairSources_ok {m : Mach} {j : Job} {x : Extent} (hOk : m.Ok) : (Mach.repairSources m j x).2.Ok := by
  unfold Mach.repairSources
  with_reducible repeat' first
    | assumption | apply Mach.send_ok | apply Mach.chosen_ok | split

theorem Mach.replicaMatches_ok {m : Mach} {x : Extent} (hOk : m.Ok) : (Mach.replicaMatches m x).2.Ok := by
  unfold Mach.replicaMatches
  with_reducible repeat' first
    | assumption | apply Mach.freeBytes_ok | split

theorem Mach.chooseReplica_ok {m : Mach} {j : Job} {x : Extent} (hOk : m.Ok) : (Mach.chooseReplica m j x).2.Ok := by
  unfold Mach.chooseReplica
  with_reducible repeat' first
    | assumption | apply Mach.repairSources_ok | apply Mach.replicaMatches_ok | apply foldl_snd_ok | split | intro _

theorem Mach.repairFrame_ok {m : Mach} {j : Job} {x : Extent} {idx : Nat} (hOk : m.Ok) : (Mach.repairFrame m j x idx).Ok := by
  unfold Mach.repairFrame
  with_reducible repeat' first
    | assumption | apply Mach.freeBytes_ok | apply Mach.append_ok | split | dsimp only

theorem Mach.repairEnd_ok {m : Mach} {d : Nat} {j : Job} {x : Extent} (hOk : m.Ok) : (Mach.repairEnd m d j x).2.Ok := by
  unfold Mach.repairEnd
  with_reducible repeat' first
    | assumption | apply Mach.updJob_ok | apply Mach.chooseReplica_ok | apply Mach.repairFrame_ok | split | dsimp only

theorem Mach.replEnd_ok {m : Mach} {d : Nat} {j : Job} (hOk : m.Ok) : (Mach.replEnd m d j).2.Ok := by
  unfold Mach.replEnd
  with_reducible repeat' first
    | assumption | apply Mach.pushEnd_ok | apply Mach.repairEnd_ok | split


end Sys2Proof.Machine
end

