-- ==== Sys2Proof/Laws/KeepFinish.lean ====
section
/-! SUPPORT. Soundness is kept by the definitions of Machine/Finish.lean. -/

namespace Sys2Proof.Machine

theorem Mach.partReady_ok {m : Mach} {d : Nat} {j : Job} {h : Nat} (hOk : m.Ok) : (Mach.partReady m d j h).2.Ok := by
  unfold Mach.partReady
  with_reducible repeat' first
    | assumption | apply readyAll_ok | apply Mach.useRun_ok | apply Mach.sealReady_ok | apply Mach.tierPart_ok | split
    | intro _ | dsimp only

theorem Mach.removeJob_ok {m : Mach} {d : Nat} {j : Job} (hOk : m.Ok) : (Mach.removeJob m d j).Ok := by
  unfold Mach.removeJob
  with_reducible repeat' first
    | assumption | apply Mach.upd_ok | apply Mach.eachDie_ok | apply Mach.wr_ok | apply Mach.showRing_ok
    | apply Mach.tidyT0_ok | apply Mach.showScratch_ok | apply Mach.showSubs_ok | apply Mach.leaveBuntings_ok
    | apply Mach.leaveFetches_ok | apply Mach.showRepl_ok | apply Die.parts_ok | apply foldl_ok | split | intro _
    | rw [Die.ok_mk]

theorem Mach.endWith_ok {m : Mach} {d : Nat} {j : Job} {status : Nat} {why : Option NoteRef} {honour keep : Bool} (hOk : m.Ok) : (Mach.endWith m d j status why honour keep).Ok := by
  unfold Mach.endWith
  with_reducible repeat' first
    | assumption | apply Mach.note_ok | apply Mach.updJob_ok | apply Mach.showRing_ok | apply Mach.complete_ok
    | apply Mach.removeJob_ok | split

theorem Mach.endJob_ok {m : Mach} {d : Nat} {j : Job} {status : Nat} {why : Option NoteRef} {honour : Bool} (hOk : m.Ok) : (Mach.endJob m d j status why honour).Ok := by
  unfold Mach.endJob
  with_reducible repeat' first
    | assumption | apply Mach.endWith_ok

theorem Mach.dropExtent_ok {m : Mach} {j : Job} (hOk : m.Ok) : (Mach.dropExtent m j).Ok := by
  unfold Mach.dropExtent
  with_reducible repeat' first
    | assumption | apply Mach.lastEnd_ok | split

theorem Mach.endBus_ok {m : Mach} {d : Nat} {j : Job} (hOk : m.Ok) : (Mach.endBus m d j).Ok := by
  unfold Mach.endBus
  with_reducible repeat' first
    | assumption | apply Mach.bump_ok | apply Mach.note_ok | apply Mach.endJob_ok | apply Mach.dropExtent_ok

theorem Mach.ringOpen_ok {m : Mach} {j : Job} (hOk : m.Ok) : (Mach.ringOpen m j).2.Ok := by
  unfold Mach.ringOpen
  with_reducible repeat' first
    | assumption | apply Mach.cqReady_ok | split

theorem Mach.instant_ok {m : Mach} {d : Nat} {j : Job} (hOk : m.Ok) : (Mach.instant m d j).Ok := by
  unfold Mach.instant
  with_reducible repeat' first
    | assumption | apply Mach.startParts_ok | apply Mach.endJob_ok | apply Mach.ringOpen_ok | split | dsimp only

theorem execNop_ok {d n : Nat} {s : State} {t : State} (hOk : s.m.Ok) (e : execNop d n s = .next t) : t.m.Ok := by
  unfold execNop at e
  with_reducible repeat' first
    | refine State.onJob_ok (by assumption) ?_ e | apply Mach.instant_ok | intro _

theorem execFence_ok {d n : Nat} {s : State} {t : State} (hOk : s.m.Ok) (e : execFence d n s = .next t) : t.m.Ok := by
  unfold execFence at e
  with_reducible repeat' first
    | assumption | refine State.onJob_ok (by assumption) ?_ e | apply Mach.instant_ok | split | intro _

theorem Mach.returnPart_ok {m : Mach} {d : Nat} {j : Job} {h : Nat} {part : Bool} (hOk : m.Ok) : (Mach.returnPart m d j h part).Ok := by
  unfold Mach.returnPart
  with_reducible repeat' first
    | assumption | apply Mach.note_ok | apply Mach.cross_ok | apply Mach.updJob_ok | apply Mach.showSubs_ok | split

theorem Mach.mergeSelection_ok {m : Mach} {d n : Nat} (hOk : m.Ok) : (Mach.mergeSelection m d n).Ok := by
  unfold Mach.mergeSelection
  with_reducible repeat' first
    | assumption | apply Mach.updJob_ok | apply Mach.openAttention_ok | split | dsimp only

theorem Mach.returnCands_ok {m : Mach} {d : Nat} {j : Job} {h : Nat} (hOk : m.Ok) : (Mach.returnCands m d j h).Ok := by
  unfold Mach.returnCands
  with_reducible repeat' first
    | assumption | apply Mach.updJob_ok | apply Mach.lend_ok | apply Mach.unlend_ok | apply Mach.selectPart_ok
    | apply Mach.returnPart_ok | apply Mach.mergeSelection_ok | split

theorem execSubJobFinish_ok {d n h : Nat} {s : State} {t : State} (hOk : s.m.Ok) (e : execSubJobFinish d n h s = .next t) : t.m.Ok := by
  unfold execSubJobFinish at e
  with_reducible repeat' first
    | assumption | refine State.onDie_ok (by assumption) ?_ e | apply Mach.when_ok | apply readyAll_ok | apply Mach.useBuf_ok
    | apply Mach.partReady_ok | apply Mach.returnPart_ok | apply Mach.returnCands_ok | split | intro _ | dsimp only

theorem Mach.outcome_ok {m : Mach} {d : Nat} {j : Job} (hOk : m.Ok) : (Mach.outcome m d j).2.Ok := by
  unfold Mach.outcome
  with_reducible repeat' first
    | assumption | apply Mach.bump_ok | apply Mach.selectAll_ok | apply Mach.attendOut_ok | apply Mach.linearResult_ok
    | apply Mach.countWeights_ok | apply Mach.sealEnd_ok | apply Mach.gatherEnd_ok | apply Mach.copyEnd_ok
    | apply Mach.ingestEnd_ok | apply Mach.replEnd_ok | apply foldl_ok | split | intro _

theorem Mach.produce_ok {m : Mach} {d : Nat} {j : Job} (hOk : m.Ok) : (Mach.produce m d j).2.Ok := by
  unfold Mach.produce
  with_reducible repeat' first
    | assumption | apply Mach.lend_ok | apply Mach.unlend_ok | apply Mach.outcome_ok

theorem Mach.workDone_ok {m : Mach} {d : Nat} {j : Job} (hOk : m.Ok) : (Mach.workDone m d j).2.Ok := by
  unfold Mach.workDone
  with_reducible repeat' first
    | assumption | apply readyAll_ok | apply Mach.useBuf_ok | apply Mach.partReady_ok | split | intro _

theorem Mach.deliver_ok {m : Mach} {d : Nat} {j : Job} {e : JobEnd} (hOk : m.Ok) : (Mach.deliver m d j e).Ok := by
  unfold Mach.deliver
  with_reducible repeat' first
    | assumption | apply Mach.putSeg_ok | apply Mach.endJob_ok | apply foldl_ok | split | intro _

theorem Mach.finishReady_ok {m : Mach} {d : Nat} {j : Job} {held : Bool} (hOk : m.Ok) : (Mach.finishReady m d j held).Ok := by
  unfold Mach.finishReady
  with_reducible repeat' first
    | assumption | apply Mach.updJob_ok | apply readyAll_ok | apply Mach.outReady_ok | apply Mach.ringOpen_ok
    | apply Mach.produce_ok | apply Mach.deliver_ok | split | intro _ | dsimp only

theorem Mach.trySelection_ok {m : Mach} {d : Nat} {j : Job} (hOk : m.Ok) : (Mach.trySelection m d j).Ok := by
  unfold Mach.trySelection
  with_reducible repeat' first
    | assumption | apply Mach.endSelection_ok | split

theorem Mach.leaveHeld_ok {m : Mach} {d : Nat} {j : Job} (hOk : m.Ok) : (Mach.leaveHeld m d j).Ok := by
  unfold Mach.leaveHeld
  with_reducible repeat' first
    | assumption | apply Mach.leaveStuck_ok | split

theorem Mach.tryBus_ok {m : Mach} {d : Nat} {j : Job} (hOk : m.Ok) : (Mach.tryBus m d j).Ok := by
  unfold Mach.tryBus
  with_reducible repeat' first
    | assumption | apply Mach.endBus_ok | apply Mach.ringOpen_ok | split | dsimp only

theorem Mach.finishJob_ok {m : Mach} {d : Nat} {j : Job} (hOk : m.Ok) : (Mach.finishJob m d j).Ok := by
  unfold Mach.finishJob
  with_reducible repeat' first
    | assumption | apply Mach.runTo_ok | apply Mach.updJob_ok | apply Mach.endJob_ok | apply Mach.dropExtent_ok
    | apply Mach.endBus_ok | apply Mach.ringOpen_ok | apply Mach.workDone_ok | apply Mach.finishReady_ok
    | apply Mach.trySelection_ok | apply Mach.leaveHeld_ok | apply Mach.tryBus_ok | split | dsimp only

theorem execJobFinish_ok {d n : Nat} {s t : State} (h : s.m.Ok) (e : execJobFinish d n s = .next t) : t.m.Ok := by
  unfold execJobFinish at e
  cases hj : s.m.job? d n with
  | none => rw [hj] at e; exact State.onDie_ok h (fun _ h => h) e
  | some j =>
    rw [hj] at e
    dsimp only at e
    split at e
    · cases e
    · exact State.onDie_ok h (fun _ h => Mach.when_ok h (fun _ h => Mach.finishJob_ok h)) e

theorem Mach.readBack_ok {m : Mach} {d : Nat} {j : Job} {r : HostRead} {data : List Byte} {good late : Bool} (hOk : m.Ok) : (Mach.readBack m d j r data good late).Ok := by
  unfold Mach.readBack
  with_reducible repeat' first
    | assumption | apply Mach.note_ok | apply Mach.noteFree_ok | apply Mach.updJob_ok | apply Mach.hostRead_ok | split
    | dsimp only

theorem execUpstreamReadCompletion_ok {d n addr : Nat} {data : List Byte} {ep ok : Bool} {s : State} {t : State} (hOk : s.m.Ok) (e : execUpstreamReadCompletion d n addr data ep ok s = .next t) : t.m.Ok := by
  unfold execUpstreamReadCompletion at e
  with_reducible repeat' first
    | assumption | refine State.onDie_ok (by assumption) ?_ e | split at e | apply Mach.when_ok | apply Mach.freeBytes_ok
    | apply Mach.readBack_ok | split | intro _

theorem execPortCplTimeout_ok {d n addr : Nat} {s : State} {t : State} (hOk : s.m.Ok) (e : execPortCplTimeout d n addr s = .next t) : t.m.Ok := by
  unfold execPortCplTimeout at e
  with_reducible repeat' first
    | assumption | refine State.onDie_ok (by assumption) ?_ e | apply Mach.when_ok | apply Mach.freeBytes_ok
    | apply Mach.runTo_ok | apply Mach.readBack_ok | split | intro _


end Sys2Proof.Machine
end

