-- ==== Sys2Proof/Laws/KeepUpkeep.lean ====
section
/-! SUPPORT. Soundness is kept by the definitions of Machine/Upkeep.lean. -/

namespace Sys2Proof.Machine

theorem Mach.preloadJudge_ok {m : Mach} {d : Nat} (hOk : m.Ok) : (Mach.preloadJudge m d).Ok := by
  unfold Mach.preloadJudge
  with_reducible repeat' first
    | assumption | apply Mach.updTier_ok

theorem Mach.bringFrame_ok {m : Mach} {x : Extent} {idx t : Nat} {retained : Bool} (hOk : m.Ok) : (Mach.bringFrame m x idx t retained).Ok := by
  unfold Mach.bringFrame
  with_reducible repeat' first
    | assumption | apply Mach.needFetch_ok | apply Mach.promoteT1_ok | split

theorem Mach.preloadPins_ok {m : Mach} {x : Extent} {e : PreloadEntry} (hOk : m.Ok) : (Mach.preloadPins m x e).2.Ok := by
  unfold Mach.preloadPins
  with_reducible repeat' first
    | assumption | apply Mach.addPin_ok | apply foldl_snd_ok | split | intro _

theorem Mach.preloadNext_ok {m : Mach} {d k : Nat} (hOk : m.Ok) : (Mach.preloadNext m d k).Ok := by
  unfold Mach.preloadNext
  with_reducible repeat' first
    | assumption | apply Mach.wr_ok | apply Mach.updTier_ok | split

theorem Mach.preloadFrames_ok {m : Mach} {d : Nat} {x : Extent} {e : PreloadEntry} (hOk : m.Ok) : (Mach.preloadFrames m d x e).2.Ok := by
  unfold Mach.preloadFrames
  with_reducible repeat' first
    | assumption | apply Mach.bringFrame_ok | apply foldl_snd_ok | split | intro _

theorem Mach.preloadStep_ok {m : Mach} {d k : Nat} {e : PreloadEntry} (hOk : m.Ok) : (Mach.preloadStep m d k e).Ok := by
  unfold Mach.preloadStep
  with_reducible repeat' first
    | assumption | apply Mach.wr_ok | apply Mach.note_ok | apply Mach.updTier_ok | apply Mach.noteFrame_ok
    | apply readyAll_ok | apply Mach.moveTo_ok | apply Mach.preloadPins_ok | apply Mach.preloadNext_ok
    | apply Mach.preloadFrames_ok | split | intro _ | dsimp only

theorem execPreloadEntry_ok {d : Nat} {s : State} {t : State} (hOk : s.m.Ok) (e : execPreloadEntry d s = .next t) : t.m.Ok := by
  unfold execPreloadEntry at e
  with_reducible repeat' first
    | assumption | refine State.onDie_ok (by assumption) ?_ e | apply Mach.when_ok | apply Mach.preloadNext_ok
    | apply Mach.preloadStep_ok | split | intro _

theorem execDrainComplete_ok {e : Nat} {s : State} {t : State} (hOk : s.m.Ok) (e : execDrainComplete e s = .next t) : t.m.Ok := by
  unfold execDrainComplete at e
  with_reducible repeat' first
    | assumption | refine State.run_ok (by assumption) ?_ e | apply Mach.when_ok | apply Mach.extState_ok | split | intro _

theorem Mach.poolForget_ok {m : Mach} {handle kind : Nat} (hOk : m.Ok) : (Mach.poolForget m handle kind).Ok := by
  unfold Mach.poolForget
  with_reducible repeat' first
    | assumption | apply Mach.send_ok | apply Mach.parts_ok | split | dsimp only | rw [Mach.ok_mk]

theorem Mach.dropOld_ok {m : Mach} {d alt : Nat} (hOk : m.Ok) : (Mach.dropOld m d alt).Ok := by
  unfold Mach.dropOld
  with_reducible repeat' first
    | assumption | apply Mach.updTier_ok | apply Mach.updStage_ok

theorem Mach.wipeExt_ok {m : Mach} {d : Nat} {x : Extent} (hOk : m.Ok) : (Mach.wipeExt m d x).Ok := by
  unfold Mach.wipeExt
  with_reducible repeat' first
    | assumption | apply Mach.upd_ok | apply Mach.wr_ok | apply Mach.updTier_ok | apply Mach.setEntry_ok
    | apply Mach.updFl_ok | apply Mach.showSf_ok | apply Mach.dropOld_ok | apply Die.parts_ok | apply foldl_ok | intro _
    | dsimp only | rw [Die.ok_mk]

theorem Mach.freeExtent_ok {m : Mach} {x : Extent} (hOk : m.Ok) : (Mach.freeExtent m x).Ok := by
  unfold Mach.freeExtent
  with_reducible repeat' first
    | assumption | apply Mach.setLse_ok | apply Mach.writeHome_ok | apply Mach.freeUp_ok | apply Mach.extPennant_ok

theorem Mach.clearExt_ok {m : Mach} {x : Extent} (hOk : m.Ok) : (Mach.clearExt m x).Ok := by
  unfold Mach.clearExt
  with_reducible repeat' first
    | assumption | apply Mach.hoistFirst_ok | apply Mach.poolForget_ok | apply Mach.wipeExt_ok | apply Mach.freeExtent_ok
    | split

theorem execClearingComplete_ok {e : Nat} {s : State} {t : State} (hOk : s.m.Ok) (e : execClearingComplete e s = .next t) : t.m.Ok := by
  unfold execClearingComplete at e
  with_reducible repeat' first
    | assumption | refine State.run_ok (by assumption) ?_ e | apply Mach.when_ok | apply Mach.clearExt_ok | split | intro _
    | dsimp only

theorem execTableLoad_ok {d : Nat} {x : Expander} {ext tidx : Nat} {s : State} {t : State} (hOk : s.m.Ok) (e : execTableLoad d x ext tidx s = .next t) : t.m.Ok := by
  unfold execTableLoad at e
  with_reducible repeat' first
    | assumption | refine State.onDie_ok (by assumption) ?_ e | apply Mach.when_ok | apply Mach.loadTable_ok
    | apply Mach.headerLost_ok | apply Mach.ensureHeader_ok | split | intro _ | dsimp only

theorem Mach.storedBlock_ok {m : Mach} {d : Nat} {e : FrameEntry} {ext idx b : Nat} {src : CopyTier} (hOk : m.Ok) : (Mach.storedBlock m d e ext idx b src).2.Ok := by
  unfold Mach.storedBlock
  with_reducible repeat' first
    | assumption | apply Mach.getBytes_ok | split | refine pair_ok ?_ (by assumption)

theorem Mach.blockFails_ok {m : Mach} {d : Nat} {x : Extent} {idx b c : Nat} {src : CopyTier} {unit : Expander} (hOk : m.Ok) : (Mach.blockFails m d x idx b c src unit).Ok := by
  unfold Mach.blockFails
  with_reducible repeat' first
    | assumption | apply Mach.dropT2_ok | apply Mach.codecFail_ok | apply Mach.lose_ok | apply Mach.needFetch_ok
    | apply Mach.climbBlock_ok | apply Mach.copyFails_ok | split | dsimp only

theorem execBlockDecode_ok {d : Nat} {x : Expander} {ext idx b : Nat} {src : CopyTier} {s : State} {t : State} (hOk : s.m.Ok) (e : execBlockDecode d x ext idx b src s = .next t) : t.m.Ok := by
  unfold execBlockDecode at e
  with_reducible repeat' first
    | assumption | refine State.onUnit_ok (by assumption) ?_ e | apply Mach.when_ok | apply Mach.bump_ok
    | apply Mach.bindTable_ok | apply Mach.consume_ok | apply Mach.storedBlock_ok | apply Mach.blockFails_ok | split
    | intro _ | dsimp only

theorem Mach.recodeRead_ok {m : Mach} {d : Nat} {x : Extent} {idx : Nat} (hOk : m.Ok) : (Mach.recodeRead m d x idx).2.Ok := by
  unfold Mach.recodeRead
  with_reducible repeat' first
    | assumption | apply Mach.dropT2_ok | apply Mach.getBytes_ok | apply Mach.bindCoded_ok | apply Mach.codecFail_ok
    | apply Mach.needFetch_ok | apply Mach.climbBlock_ok | split | refine pair_ok ?_ (by assumption) | dsimp only

theorem Mach.updRecode_ok {m : Mach} {d : Nat} {f : Recode → Recode} (hOk : m.Ok) : (Mach.updRecode m d f).Ok := by
  unfold Mach.updRecode
  with_reducible repeat' first
    | assumption | apply Mach.upd_ok | apply Die.parts_ok | intro _ | dsimp only | rw [Die.ok_mk]

theorem Mach.recodeTables_ok {m : Mach} {d : Nat} {x : Extent} {r : Recode} (hOk : m.Ok) : (Mach.recodeTables m d x r).Ok := by
  unfold Mach.recodeTables
  with_reducible repeat' first
    | assumption | apply Mach.ungate_ok | apply Mach.append_ok | apply Mach.recodeRead_ok | apply Mach.updRecode_ok
    | apply foldl_snd_ok | split | intro _ | dsimp only

theorem Mach.recodeFrame_ok {m z : Mach} {d : Nat} {x : Extent} {r : Recode} {f : Nat} (h : m.Ok)
    (e : m.recodeFrame d x r f = some z) : z.Ok := by
  unfold Mach.recodeFrame at e
  extract_lets e0 done at e
  split at e
  · injection e with e; subst e; exact Mach.updRecode_ok h
  · have hr := Mach.recodeRead_ok (d := d) (x := x) (idx := f) h
    split at e
    · cases e
    · rename_i heq
      rw [heq] at hr
      extract_lets t lengths c at e
      split at e
      · cases e
      · injection e with e; subst e
        exact Mach.append_ok (Mach.updRecode_ok (Mach.bump_ok (Mach.bump_ok (Mach.bump_ok
          (Mach.updRecode_ok (Mach.writeBytes_ok (Mach.chosen_ok hr)))))))

theorem Mach.recodeGo_ok {m : Mach} {d : Nat} (h : m.Ok) : (m.recodeGo d).Ok := by
  unfold Mach.recodeGo
  split
  · exact h
  · split
    · exact h
    · extract_lets m1
      have h1 : m1.Ok := by
        unfold m1; split
        · exact Mach.recodeTables_ok h
        · exact h
      clear_value m1
      split
      · exact h1
      · exact foldl_ok (fun _ _ h => getD_ok (fun _ e => Mach.recodeFrame_ok h e) h) h1

theorem execXcRecode_ok {d : Nat} {v : Word} {s : State} {t : State} (hOk : s.m.Ok) (e : execXcRecode d v s = .next t) : t.m.Ok := by
  unfold execXcRecode at e
  with_reducible repeat' first
    | assumption | refine State.onDie_ok (by assumption) ?_ e | apply Mach.when_ok | apply Mach.upd_ok | apply Mach.wr_ok
    | apply Mach.recodeGo_ok | apply Die.parts_ok | split | intro _ | dsimp only | rw [Die.ok_mk]

theorem Mach.switchFrame_ok {m : Mach} {d ext idx : Nat} {n : FrameEntry} (hOk : m.Ok) : (Mach.switchFrame m d ext idx n).Ok := by
  unfold Mach.switchFrame
  with_reducible repeat' first
    | assumption | apply Mach.setEntry_ok | split | dsimp only

theorem Mach.setAside_ok {m : Mach} {d ext alt : Nat} (hOk : m.Ok) : (Mach.setAside m d ext alt).Ok := by
  unfold Mach.setAside
  with_reducible repeat' first
    | assumption | apply Mach.updTier_ok | apply Mach.setEntry_ok | apply Mach.updStage_ok | apply Die.parts_ok
    | apply Mach.mapDies_ok | apply foldl_ok | intro _ | dsimp only | rw [Die.ok_mk]

theorem execRecodeSwitch_ok {d : Nat} {s : State} {t : State} (hOk : s.m.Ok) (e : execRecodeSwitch d s = .next t) : t.m.Ok := by
  unfold execRecodeSwitch at e
  with_reducible repeat' first
    | assumption | refine State.onDie_ok (by assumption) ?_ e | apply Mach.when_ok | apply Mach.upd_ok | apply Mach.wr_ok
    | apply Mach.note_ok | apply Mach.updTier_ok | apply Mach.updExt_ok | apply Mach.putHeader_ok | apply Mach.poolForget_ok
    | apply Mach.recodeGo_ok | apply Mach.switchFrame_ok | apply Mach.setAside_ok | apply Die.parts_ok | apply foldl_ok
    | split | intro _ | dsimp only | rw [Die.ok_mk]

theorem execRecodeTrim_ok {d : Nat} {s : State} {t : State} (hOk : s.m.Ok) (e : execRecodeTrim d s = .next t) : t.m.Ok := by
  unfold execRecodeTrim at e
  with_reducible repeat' first
    | assumption | refine State.onDie_ok (by assumption) ?_ e | apply Mach.when_ok | apply Mach.upd_ok | apply Mach.freeUp_ok
    | apply Mach.dropOld_ok | apply Die.parts_ok | split | intro _ | dsimp only | rw [Die.ok_mk]

theorem execReclaimRound_ok {d : Nat} {s : State} {t : State} (hOk : s.m.Ok) (e : execReclaimRound d s = .next t) : t.m.Ok := by
  unfold execReclaimRound at e
  with_reducible repeat' first
    | assumption | refine State.onDie_ok (by assumption) ?_ e | apply Mach.when_ok | apply Mach.wr_ok | apply Mach.freeUp_ok
    | apply Mach.relocAll_ok | apply foldl_ok | intro _

theorem execStaticLevelling_ok {d : Nat} {s : State} {t : State} (hOk : s.m.Ok) (e : execStaticLevelling d s = .next t) : t.m.Ok := by
  unfold execStaticLevelling at e
  with_reducible repeat' first
    | assumption | refine State.onDie_ok (by assumption) ?_ e | apply Mach.when_ok | apply Mach.updFl_ok
    | apply Mach.freeUp_ok | apply Mach.relocAll_ok | split | intro _ | dsimp only

theorem Mach.sample_ok {m : Mach} {d page : Nat} {x : Option Nat} (hOk : m.Ok) : (Mach.sample m d page x).Ok := by
  unfold Mach.sample
  with_reducible repeat' first
    | assumption | apply Mach.bump_ok | apply Mach.correctable_ok | apply Mach.countRead_ok | split

theorem Mach.samples_ok {m : Mach} {d s first : Nat} {xs : Samples} (hOk : m.Ok) : (Mach.samples m d s first xs).Ok := by
  unfold Mach.samples
  with_reducible repeat' first
    | assumption | apply Mach.sample_ok | apply foldl_ok | intro _

theorem execReadDisturbCheck_ok {d : Nat} {b : BlockAddr} {xs : Samples} {s : State} {t : State} (hOk : s.m.Ok) (e : execReadDisturbCheck d b xs s = .next t) : t.m.Ok := by
  unfold execReadDisturbCheck at e
  with_reducible repeat' first
    | assumption | refine State.onUnit_ok (by assumption) ?_ e | apply Mach.when_ok | apply Mach.updFl_ok
    | apply Mach.setSb_ok | apply Mach.freeUp_ok | apply Mach.relocAll_ok | apply Mach.sample_ok | apply foldl_ok | split
    | intro _ | dsimp only

theorem Mach.endurance_ok {m : Mach} {d : Nat} (hOk : m.Ok) : (Mach.endurance m d).Ok := by
  unfold Mach.endurance
  with_reducible repeat' first
    | assumption | apply Mach.wr_ok | apply Mach.note_ok | apply Mach.updFl_ok | apply foldl_ok | split | intro _
    | dsimp only

theorem execScrubPass_ok {d : Nat} {xs : List (Nat × Samples)} {s : State} {t : State} (hOk : s.m.Ok) (e : execScrubPass d xs s = .next t) : t.m.Ok := by
  unfold execScrubPass at e
  with_reducible repeat' first
    | assumption | refine State.onDie_ok (by assumption) ?_ e | apply Mach.when_ok | apply Mach.runTo_ok
    | apply Mach.furledMark_ok | apply Mach.setSb_ok | apply Mach.freeUp_ok | apply Mach.relocAll_ok | apply Mach.samples_ok
    | apply Mach.endurance_ok | apply foldl_ok | split | intro _ | dsimp only

theorem Mach.sweepStart_ok {m : Mach} {d : Nat} (hOk : m.Ok) : (Mach.sweepStart m d).Ok := by
  unfold Mach.sweepStart
  with_reducible repeat' first
    | assumption | apply Mach.wr_ok | apply Mach.note_ok | apply Mach.updFl_ok | intro _

theorem Mach.sweepEnd_ok {m : Mach} {d : Nat} (hOk : m.Ok) : (Mach.sweepEnd m d).Ok := by
  unfold Mach.sweepEnd
  with_reducible repeat' first
    | assumption | apply Mach.wr_ok

theorem Mach.offtimeNote_ok {m : Mach} {d detail seconds : Nat} (hOk : m.Ok) : (Mach.offtimeNote m d detail seconds).Ok := by
  unfold Mach.offtimeNote
  with_reducible repeat' first
    | assumption | apply Mach.upd_ok | apply Mach.wr_ok | apply Mach.note_ok | apply Die.parts_ok | split | intro _
    | dsimp only | rw [Die.ok_mk]

theorem Mach.offtime_ok {m : Mach} {d pnow hnow : Nat} (hOk : m.Ok) : (Mach.offtime m d pnow hnow).Ok := by
  unfold Mach.offtime
  with_reducible repeat' first
    | assumption | apply Mach.wr_ok | apply Mach.updFl_ok | apply Mach.sweepStart_ok | apply Mach.sweepEnd_ok
    | apply Mach.offtimeNote_ok | split | intro _

theorem Mach.hostTimeCame_ok {m : Mach} {pnow hnow : Nat} (hOk : m.Ok) : (Mach.hostTimeCame m pnow hnow).Ok := by
  unfold Mach.hostTimeCame
  with_reducible repeat' first
    | assumption | apply Mach.eachDie_ok | apply Mach.updFl_ok | apply Mach.offtime_ok | split | intro _

theorem execOfftimeUnknownTimeout_ok {d : Nat} {s : State} {t : State} (hOk : s.m.Ok) (e : execOfftimeUnknownTimeout d s = .next t) : t.m.Ok := by
  unfold execOfftimeUnknownTimeout at e
  with_reducible repeat' first
    | assumption | refine State.onDie_ok (by assumption) ?_ e | apply Mach.when_ok | apply Mach.runTo_ok
    | apply Mach.sweepStart_ok | split | intro _

theorem execSweepSuperblock_ok {d : Nat} {xs : Samples} {s : State} {t : State} (hOk : s.m.Ok) (e : execSweepSuperblock d xs s = .next t) : t.m.Ok := by
  unfold execSweepSuperblock at e
  with_reducible repeat' first
    | assumption | refine State.onDie_ok (by assumption) ?_ e | apply Mach.when_ok | apply Mach.wr_ok | apply Mach.updFl_ok
    | apply Mach.setSb_ok | apply Mach.relocAll_ok | apply Mach.samples_ok | apply Mach.sweepEnd_ok | split | intro _


end Sys2Proof.Machine
end

