-- ==== Sys2Proof/Laws/KeepPort.lean ====
section
/-! SUPPORT. Soundness is kept by the definitions of Machine/Port.lean. -/

namespace Sys2Proof.Machine

theorem Mach.setLink_ok {m : Mach} {d half : Nat} {up : Bool} {rate width : Nat} (hOk : m.Ok) : (Mach.setLink m d half up rate width).Ok := by
  unfold Mach.setLink
  with_reducible repeat' first
    | assumption | apply Mach.wr_ok | apply Mach.setBit_ok | split | dsimp only

theorem Mach.postForced_ok {m : Mach} {ld : Nat} (hOk : m.Ok) : (Mach.postForced m ld).Ok := by
  unfold Mach.postForced
  with_reducible repeat' first
    | assumption | apply Mach.event_ok | apply Mach.setLse_ok | apply foldl_ok | split | intro _

theorem execLinkUp_ok {d half : Nat} {negotiated : Bool} {rate width : Nat} {s : State} {t : State} (hOk : s.m.Ok) (e : execLinkUp d half negotiated rate width s = .next t) : t.m.Ok := by
  unfold execLinkUp at e
  with_reducible repeat' first
    | assumption | refine State.onUnit_ok (by assumption) ?_ e | split at e | apply Mach.when_ok | apply Mach.wr_ok
    | apply Mach.note_ok | apply Mach.updLd_ok | apply Mach.startStep_ok | apply Mach.setLink_ok | apply Mach.postForced_ok
    | apply foldl_ok | split | intro _ | dsimp only

theorem execLdReady_ok {ld : Nat} {s : State} {t : State} (hOk : s.m.Ok) (e : execLdReady ld s = .next t) : t.m.Ok := by
  unfold execLdReady at e
  with_reducible repeat' first
    | assumption | refine State.run_ok (by assumption) ?_ e | apply Mach.when_ok | apply Mach.wr_ok | apply Mach.startStep_ok
    | split | intro _ | dsimp only

theorem Mach.resetJob_ok {m : Mach} {d : Nat} {j : Job} (hOk : m.Ok) : (Mach.resetJob m d j).Ok := by
  unfold Mach.resetJob
  with_reducible repeat' first
    | assumption | apply Mach.upd_ok | apply Mach.endWith_ok | apply Mach.dropExtent_ok | apply Mach.ringOpen_ok
    | apply Die.parts_ok | split | intro _ | rw [Die.ok_mk]

theorem Mach.resetJobs_ok {m : Mach} {ld : Nat} (hOk : m.Ok) : (Mach.resetJobs m ld).Ok := by
  unfold Mach.resetJobs
  with_reducible repeat' first
    | assumption | apply Mach.eachDie_ok | apply Mach.resetJob_ok | apply foldl_ok | intro _

theorem Mach.resetRing_ok {m : Mach} {r : Nat} (h : m.Ok) : (m.resetRing r).Ok :=
  Mach.upd_ok h (fun _ hx => ⟨SMap.dropRange_wf _ _ hx.1, hx.2⟩)

theorem Mach.resetConfig_ok {m : Mach} {ld : Nat} (hOk : m.Ok) : (Mach.resetConfig m ld).Ok := by
  unfold Mach.resetConfig
  with_reducible repeat' first
    | assumption | apply Mach.wr_ok | apply Mach.updLd_ok

theorem Mach.resetLd_ok {m : Mach} {ld : Nat} (hOk : m.Ok) : (Mach.resetLd m ld).Ok := by
  unfold Mach.resetLd
  with_reducible repeat' first
    | assumption | apply Mach.eachDie_ok | apply Mach.qosRelease_ok | apply Mach.dropPins_ok | apply Mach.hostLoss_ok
    | apply Mach.ringStop_ok | apply Mach.resetJobs_ok | apply Mach.resetRing_ok | apply Mach.resetConfig_ok | apply foldl_ok
    | split | intro _

theorem execFunctionLevelReset_ok {ld : Nat} {s : State} {t : State} (hOk : s.m.Ok) (e : execFunctionLevelReset ld s = .next t) : t.m.Ok := by
  unfold execFunctionLevelReset at e
  with_reducible repeat' first
    | assumption | refine State.run_ok (by assumption) ?_ e | apply Mach.send_ok | apply Mach.wr_ok | apply Mach.bump_ok
    | apply Mach.note_ok | apply Mach.resetLd_ok | split | intro _

theorem execFlrComplete_ok {ld : Nat} {s : State} {t : State} (hOk : s.m.Ok) (e : execFlrComplete ld s = .next t) : t.m.Ok := by
  unfold execFlrComplete at e
  with_reducible repeat' first
    | assumption | refine State.run_ok (by assumption) ?_ e | apply Mach.when_ok | apply Mach.wr_ok | intro _

theorem Mach.poolLinkLost_ok {m : Mach} (hOk : m.Ok) : (Mach.poolLinkLost m).Ok := by
  unfold Mach.poolLinkLost
  with_reducible repeat' first
    | assumption | apply Mach.endRx_ok | apply Mach.pushFail_ok | apply foldl_ok | intro _

theorem Mach.linkLost_ok {m : Mach} {d half : Nat} (hOk : m.Ok) : (Mach.linkLost m d half).Ok := by
  unfold Mach.linkLost
  with_reducible repeat' first
    | assumption | apply Mach.when_ok | apply Mach.updLd_ok | apply Mach.setLink_ok | apply Mach.resetLd_ok
    | apply Mach.poolLinkLost_ok | apply foldl_ok | split | intro _ | dsimp only

theorem Mach.linkReset_ok {m : Mach} {d : Nat} (hOk : m.Ok) : (Mach.linkReset m d).Ok := by
  unfold Mach.linkReset
  with_reducible repeat' first
    | assumption | apply Mach.bump_ok | apply Mach.note_ok

theorem Mach.perstReset_ok {m : Mach} {d : Nat} (hOk : m.Ok) : (Mach.perstReset m d).Ok := by
  unfold Mach.perstReset
  with_reducible repeat' first
    | assumption | apply Mach.furlAbandon_ok | apply Mach.linkLost_ok | apply Mach.linkReset_ok | split | dsimp only

theorem execPerstNAssert_ok {d : Nat} {s : State} {t : State} (hOk : s.m.Ok) (e : execPerstNAssert d s = .next t) : t.m.Ok := by
  unfold execPerstNAssert at e
  with_reducible repeat' first
    | assumption | refine State.onDie_ok (by assumption) ?_ e | apply Mach.when_ok | apply Mach.perstReset_ok
    | apply Mach.parts_ok | intro _ | dsimp only | rw [Mach.ok_mk]

theorem execPerstNDeassert_ok {d : Nat} {s : State} {t : State} (hOk : s.m.Ok) (e : execPerstNDeassert d s = .next t) : t.m.Ok := by
  unfold execPerstNDeassert at e
  with_reducible repeat' first
    | assumption | refine State.onDie_ok (by assumption) ?_ e | apply Mach.when_ok | apply Mach.furlAbandon_ok
    | apply Mach.parts_ok | intro _ | dsimp only | rw [Mach.ok_mk]

theorem execHotReset_ok {d half : Nat} {s : State} {t : State} (hOk : s.m.Ok) (e : execHotReset d half s = .next t) : t.m.Ok := by
  unfold execHotReset at e
  with_reducible repeat' first
    | assumption | refine State.onUnit_ok (by assumption) ?_ e | apply Mach.when_ok | apply Mach.furlAbandon_ok
    | apply Mach.linkLost_ok | apply Mach.linkReset_ok | intro _

theorem execDataLinkDown_ok {d half : Nat} {s : State} {t : State} (hOk : s.m.Ok) (e : execDataLinkDown d half s = .next t) : t.m.Ok := by
  unfold execDataLinkDown at e
  with_reducible repeat' first
    | assumption | refine State.onUnit_ok (by assumption) ?_ e | apply Mach.when_ok | apply Mach.linkLost_ok
    | apply Mach.linkReset_ok | intro _

theorem Mach.clearBme_ok {m : Mach} {ld : Nat} (hOk : m.Ok) : (Mach.clearBme m ld).Ok := by
  unfold Mach.clearBme
  with_reducible repeat' first
    | assumption | apply Mach.eachDie_ok | apply Mach.wr_ok | apply Mach.updLd_ok | apply Mach.abortBus_ok | apply foldl_ok
    | intro _

theorem Mach.cfgWrite_ok {m : Mach} {ld : Nat} {req : CfgReq} (hOk : m.Ok) : (Mach.cfgWrite m ld req).Ok := by
  unfold Mach.cfgWrite
  with_reducible repeat' first
    | assumption | apply Mach.send_ok | apply Mach.wr_ok | apply Mach.setBit_ok | apply Mach.updLd_ok
    | apply Mach.sendPending_ok | apply Mach.clearBme_ok | split

theorem execConfigurationRequest_ok {ld : Nat} {req : CfgReq} {s : State} {t : State} (hOk : s.m.Ok) (e : execConfigurationRequest ld req s = .next t) : t.m.Ok := by
  unfold execConfigurationRequest at e
  with_reducible repeat' first
    | assumption | refine State.run_ok (by assumption) ?_ e | apply Mach.when_ok | apply Mach.send_ok
    | apply Mach.cfgWrite_ok | split | intro _

theorem Mach.msixWrite_ok {m : Mach} {ld vector addr data : Nat} {mask : Bool} (hOk : m.Ok) : (Mach.msixWrite m ld vector addr data mask).Ok := by
  unfold Mach.msixWrite
  with_reducible repeat' first
    | assumption | apply Mach.updLd_ok | apply Mach.sendPending_ok

theorem execMsixTableWrite_ok {ld vector : Nat} {addr : DWord} {data : Word} {mask : Bool} {s : State} {t : State} (hOk : s.m.Ok) (e : execMsixTableWrite ld vector addr data mask s = .next t) : t.m.Ok := by
  unfold execMsixTableWrite at e
  with_reducible repeat' first
    | assumption | refine State.run_ok (by assumption) ?_ e | split at e | cases ‹Host.Outcome.fault _ = _›
    | apply Mach.when_ok | apply Mach.msixWrite_ok | intro _

theorem execPtmDialog_ok {d : Nat} {s : State} {t : State} (hOk : s.m.Ok) (e : execPtmDialog d s = .next t) : t.m.Ok := by
  unfold execPtmDialog at e
  with_reducible repeat' first
    | assumption | refine State.onDie_ok (by assumption) ?_ e | apply Mach.when_ok | apply Mach.upd_ok | apply Mach.send_ok
    | apply Mach.runTo_ok | apply Die.parts_ok | split | intro _ | dsimp only | rw [Die.ok_mk]

theorem execPtmResponse_ok {d hostNs localTicks : Nat} {s : State} {t : State} (hOk : s.m.Ok) (e : execPtmResponse d hostNs localTicks s = .next t) : t.m.Ok := by
  unfold execPtmResponse at e
  with_reducible repeat' first
    | assumption | refine State.onDie_ok (by assumption) ?_ e | apply Mach.when_ok | apply Mach.upd_ok | apply Mach.wr_ok
    | apply Mach.note_ok | apply Mach.hostTimeCame_ok | apply Die.parts_ok | split | intro _ | dsimp only | rw [Die.ok_mk]

theorem execDoeDiscovery_ok {ld index : Nat} {s : State} {t : State} (hOk : s.m.Ok) (e : execDoeDiscovery ld index s = .next t) : t.m.Ok := by
  unfold execDoeDiscovery at e
  with_reducible repeat' first
    | assumption | refine State.run_ok (by assumption) ?_ e | split at e | apply Mach.when_ok | apply Mach.send_ok | split
    | intro _

theorem execCxlTableAccess_ok {ld : Nat} {s : State} {t : State} (hOk : s.m.Ok) (e : execCxlTableAccess ld s = .next t) : t.m.Ok := by
  unfold execCxlTableAccess at e
  with_reducible repeat' first
    | assumption | refine State.run_ok (by assumption) ?_ e | apply Mach.when_ok | apply Mach.send_ok | intro _


end Sys2Proof.Machine
end

