-- ==== Sys2Proof/Laws/KeepMailbox.lean ====
section
/-! SUPPORT. Soundness is kept by the definitions of Machine/Mailbox.lean. -/

namespace Sys2Proof.Machine

theorem State.onMailbox_ok {s t : State} {ld : Nat} {f : Mach → Mach} (h : s.m.Ok) (hf : ∀ m, m.Ok → (f m).Ok)
    (e : s.onMailbox ld f = .next t) : t.m.Ok := State.run_ok h (fun _ h => Mach.when_ok h hf) e

theorem Mach.answer_ok {m : Mach} {ld op : Nat} {payload : List Nat} (hOk : m.Ok) : (Mach.answer m ld op payload).Ok := by
  unfold Mach.answer
  with_reducible repeat' first
    | assumption | apply Mach.send_ok

theorem execIdentifyMemoryDevice_ok {ld : Nat} {s : State} {t : State} (hOk : s.m.Ok) (e : execIdentifyMemoryDevice ld s = .next t) : t.m.Ok := by
  unfold execIdentifyMemoryDevice at e
  with_reducible repeat' first
    | refine State.onMailbox_ok (by assumption) ?_ e | apply Mach.answer_ok | intro _

theorem execGetDynamicCapacityConfiguration_ok {ld : Nat} {s : State} {t : State} (hOk : s.m.Ok) (e : execGetDynamicCapacityConfiguration ld s = .next t) : t.m.Ok := by
  unfold execGetDynamicCapacityConfiguration at e
  with_reducible repeat' first
    | refine State.onMailbox_ok (by assumption) ?_ e | apply Mach.answer_ok | intro _

theorem execGetDynamicCapacityExtentList_ok {ld : Nat} {s : State} {t : State} (hOk : s.m.Ok) (e : execGetDynamicCapacityExtentList ld s = .next t) : t.m.Ok := by
  unfold execGetDynamicCapacityExtentList at e
  with_reducible repeat' first
    | refine State.onMailbox_ok (by assumption) ?_ e | apply Mach.answer_ok | intro _

theorem execGetEventRecords_ok {ld : Nat} {log : EventLog} {s : State} {t : State} (hOk : s.m.Ok) (e : execGetEventRecords ld log s = .next t) : t.m.Ok := by
  unfold execGetEventRecords at e
  with_reducible repeat' first
    | assumption | refine State.onMailbox_ok (by assumption) ?_ e | apply Mach.chosen_ok | apply Mach.answer_ok | split
    | intro _

theorem execClearEventRecords_ok {ld : Nat} {log : EventLog} {count : Nat} {s : State} {t : State} (hOk : s.m.Ok) (e : execClearEventRecords ld log count s = .next t) : t.m.Ok := by
  unfold execClearEventRecords at e
  with_reducible repeat' first
    | assumption | refine State.onMailbox_ok (by assumption) ?_ e | apply Mach.updLd_ok | apply Mach.answer_ok | intro _

theorem execGetEventInterruptPolicy_ok {ld : Nat} {s : State} {t : State} (hOk : s.m.Ok) (e : execGetEventInterruptPolicy ld s = .next t) : t.m.Ok := by
  unfold execGetEventInterruptPolicy at e
  with_reducible repeat' first
    | refine State.onMailbox_ok (by assumption) ?_ e | apply Mach.answer_ok | intro _

theorem execSetEventInterruptPolicy_ok {ld : Nat} {log : EventLog} {vector : Option Nat} {s : State} {t : State} (hOk : s.m.Ok) (e : execSetEventInterruptPolicy ld log vector s = .next t) : t.m.Ok := by
  unfold execSetEventInterruptPolicy at e
  with_reducible repeat' first
    | assumption | refine State.onMailbox_ok (by assumption) ?_ e | split at e | cases ‹Host.Outcome.fault _ = _›
    | apply Mach.updLd_ok | apply Mach.answer_ok | intro _

theorem execGetSupportedLogs_ok {ld : Nat} {s : State} {t : State} (hOk : s.m.Ok) (e : execGetSupportedLogs ld s = .next t) : t.m.Ok := by
  unfold execGetSupportedLogs at e
  with_reducible repeat' first
    | refine State.onMailbox_ok (by assumption) ?_ e | apply Mach.answer_ok | intro _

theorem execGetLog_ok {ld : Nat} {s : State} {t : State} (hOk : s.m.Ok) (e : execGetLog ld s = .next t) : t.m.Ok := by
  unfold execGetLog at e
  with_reducible repeat' first
    | refine State.onMailbox_ok (by assumption) ?_ e | apply Mach.answer_ok | intro _

theorem execGetTimestamp_ok {ld : Nat} {s : State} {t : State} (hOk : s.m.Ok) (e : execGetTimestamp ld s = .next t) : t.m.Ok := by
  unfold execGetTimestamp at e
  with_reducible repeat' first
    | assumption | refine State.onMailbox_ok (by assumption) ?_ e | apply Mach.chosen_ok | apply Mach.answer_ok | split
    | intro _

theorem execSetTimestamp_ok {ld ns : Nat} {s : State} {t : State} (hOk : s.m.Ok) (e : execSetTimestamp ld ns s = .next t) : t.m.Ok := by
  unfold execSetTimestamp at e
  with_reducible repeat' first
    | assumption | refine State.onMailbox_ok (by assumption) ?_ e | apply Mach.updLd_ok | apply Mach.answer_ok | intro _

theorem execMailboxUnsupported_ok {ld opcode : Nat} {s : State} {t : State} (hOk : s.m.Ok) (e : execMailboxUnsupported ld opcode s = .next t) : t.m.Ok := by
  unfold execMailboxUnsupported at e
  with_reducible repeat' first
    | refine State.onMailbox_ok (by assumption) ?_ e | apply Mach.send_ok | intro _


end Sys2Proof.Machine
end

