-- ==== Sys2Proof/Laws/KeepStart.lean ====
section
/-! SUPPORT. Soundness is kept by the definitions of Machine/Start.lean. -/

namespace Sys2Proof.Machine

theorem Mach.norCut_ok {m : Mach} (hOk : m.Ok) : (Mach.norCut m).Ok := by
  unfold Mach.norCut
  with_reducible repeat' first
    | assumption | apply Mach.freeBytes_ok | apply Mach.parts_nor | apply Mach.nor_wf | apply Nor.rewrite_wf | split
    | dsimp only | rw [Mach.ok_mk]

/-- Every die put in place of one at reset, its flash data in canonical form. -/
theorem dies_ok {m : Mach} {f : Die → Die} (h : m.Ok) (hf : ∀ x : Die, x.Ok → (f x).Ok) :
    Config.variant (m.dies.map f).length ∧ ∀ x ∈ m.dies.map f, x.Ok := by
  refine ⟨by rw [List.length_map]; exact h.1, fun x hx => ?_⟩
  obtain ⟨y, hy, e⟩ := List.mem_map.1 hx
  exact e ▸ hf y (h.2.1 y hy)

theorem Mach.powerOff_ok {m : Mach} (h : m.Ok) : m.powerOff.Ok := by
  unfold Mach.powerOff
  extract_lets m1
  have h1 : m1.Ok := Mach.norCut_ok h
  clear_value m1
  rw [Mach.ok_mk]
  have hd := dies_ok (f := fun x => { Die.reset with fl := x.fl.cold, clk := { Clock.reset with timeSet := x.clk.timeSet } }) h1
    (fun x hx => ⟨rfl, rfl, rfl, hx.2.2.2.1, rfl⟩)
  exact ⟨hd.1, hd.2, h1.2.2⟩

theorem execPorNAssert_ok {s : State} {t : State} (hOk : s.m.Ok) (e : execPorNAssert s = .next t) : t.m.Ok := by
  unfold execPorNAssert at e
  with_reducible repeat' first
    | assumption | refine State.run_ok (by assumption) ?_ e | apply Mach.when_ok | apply Mach.powerOff_ok | intro _

theorem execRailUndervoltage_ok {u0 : Rail} {s : State} {t : State} (hOk : s.m.Ok) (e : execRailUndervoltage u0 s = .next t) : t.m.Ok := by
  unfold execRailUndervoltage at e
  with_reducible repeat' first
    | assumption | refine State.run_ok (by assumption) ?_ e | apply Mach.when_ok | apply Mach.powerOff_ok | intro _

theorem execPorNDeassert_ok {ensignSel poolId : Nat} {s : State} {t : State} (hOk : s.m.Ok) (e : execPorNDeassert ensignSel poolId s = .next t) : t.m.Ok := by
  unfold execPorNDeassert at e
  with_reducible repeat' first
    | assumption | refine State.run_ok (by assumption) ?_ e | apply Mach.when_ok | apply Mach.upd_ok | apply Mach.eachDie_ok
    | apply Mach.chosen_ok | apply Mach.wr_ok | apply Mach.pass_ok | apply Mach.startStep_ok | apply Mach.halfMast_ok
    | apply Mach.parts_ok | apply Die.parts_ok | split | intro _ | dsimp only | rw [Mach.ok_mk] | rw [Die.ok_mk]

theorem Die.restarted_ok {x : Die} (h : x.Ok) : x.restarted.Ok := by
  unfold Die.restarted
  extract_lets r p y
  exact Die.wr_ok (Die.wr_ok ⟨SMap.wf_sublist h.1 (List.filter_sublist ..), rfl, rfl, h.2.2.2.1, (List.length_map ..).trans h.2.2.2.2⟩)

theorem Mach.boot_ok {m : Mach} {d p0 : Nat} (hOk : m.Ok) : (Mach.boot m d p0).Ok := by
  unfold Mach.boot
  with_reducible repeat' first
    | assumption | apply Mach.wr_ok | apply Mach.note_ok

theorem Mach.restart_ok {m : Mach} {why : Nat} (h : m.Ok) : (m.restart why).Ok := by
  unfold Mach.restart
  extract_lets m1 early p0 src src2 src3 src4 m2
  have h1 : m1.Ok := Mach.norCut_ok (Mach.eachDie_ok h (fun _ _ h => Mach.note_ok h))
  have hd := dies_ok (f := Die.restarted) h1 (fun _ hx => Die.restarted_ok hx)
  have h2 : m2.Ok := ⟨hd.1, hd.2, h1.2.2⟩
  refine Mach.eachDie_ok h2 (fun x d hx => ?_)
  have hx := Mach.wr_ok (d := d) (f := Reg.PWR_START_STEP.STEP) (v := 1) (Mach.wr_ok (d := d) (f := Reg.POOL_STATUS.PACKAGE) (v := x.pw.poolId) hx)
  dsimp only
  split
  · exact hx
  · exact Mach.boot_ok hx

theorem execPwrReset_ok {via : Via} {d : Nat} {key : Word} {s : State} {t : State} (hOk : s.m.Ok) (e : execPwrReset via d key s = .next t) : t.m.Ok := by
  unfold execPwrReset at e
  with_reducible repeat' first
    | assumption | refine State.onDie_ok (by assumption) ?_ e | apply Mach.when_ok | apply Mach.restart_ok | intro _

theorem Mach.checkFails_ok {m : Mach} {k : Nat} (hOk : m.Ok) : (Mach.checkFails m k).Ok := by
  unfold Mach.checkFails
  with_reducible repeat' first
    | assumption | apply Mach.wrAll_ok | apply Mach.note_ok | apply Mach.halfMast_ok

theorem Mach.recordAtStart_ok {m : Mach} (hOk : m.Ok) : (Mach.recordAtStart m).Ok := by
  unfold Mach.recordAtStart
  with_reducible repeat' first
    | assumption | apply Mach.chosen_ok | apply Mach.wpFollow_ok | apply Mach.parts_ok | split | dsimp only | rw [Mach.ok_mk]

theorem Mach.showImage_ok {m : Mach} {slot : Nat} {backupOk : Bool} (hOk : m.Ok) : (Mach.showImage m slot backupOk).Ok := by
  unfold Mach.showImage
  with_reducible repeat' first
    | assumption | apply Mach.eachDie_ok | apply Mach.wr_ok | apply Mach.setBit_ok | apply Mach.parts_ok | intro _
    | dsimp only | rw [Mach.ok_mk]

theorem Mach.classPennants_ok {m : Mach} (hOk : m.Ok) : (Mach.classPennants m).Ok := by
  unfold Mach.classPennants
  with_reducible repeat' first
    | assumption | apply Mach.note_ok | apply foldl_ok | intro _

theorem Mach.takeRole_ok {m : Mach} {role : Nat} (hOk : m.Ok) : (Mach.takeRole m role).Ok := by
  unfold Mach.takeRole
  with_reducible repeat' first
    | assumption | apply Mach.wrAll_ok | apply Mach.parts_ok | split | dsimp only | rw [Mach.ok_mk]

theorem Mach.sendJoin_ok {m : Mach} (hOk : m.Ok) : (Mach.sendJoin m).Ok := by
  unfold Mach.sendJoin
  with_reducible repeat' first
    | assumption | apply Mach.send_ok | apply Mach.parts_ok | dsimp only | rw [Mach.ok_mk]

theorem Mach.startRole_ok {m : Mach} (hOk : m.Ok) : (Mach.startRole m).Ok := by
  unfold Mach.startRole
  with_reducible repeat' first
    | assumption | apply Mach.note_ok | apply Mach.takeRole_ok | split | dsimp only

theorem Mach.loadImage_ok {m : Mach} {hdr slot : List Byte} {img : List SecRead} {bad : List Nat} (hOk : m.Ok) : (Mach.loadImage m hdr slot img bad).Ok := by
  unfold Mach.loadImage
  with_reducible repeat' first
    | assumption | apply Mach.eachDie_ok | apply Mach.wr_ok | apply Mach.note_ok | apply loadAll_ok | apply Mach.startStep_ok
    | apply Mach.noteFree_ok | apply Mach.classPennants_ok | apply Mach.startRole_ok | apply Mach.parts_ok | apply foldl_ok
    | split | intro _ | rw [Mach.ok_mk]

theorem Mach.startImage_ok {m : Mach} {hdr slot : List Byte} {active backup : FwVerdict} {bad : List Nat} (hOk : m.Ok) : (Mach.startImage m hdr slot active backup bad).Ok := by
  unfold Mach.startImage
  with_reducible repeat' first
    | assumption | apply Mach.halfMast_ok | apply Mach.noteFree_ok | apply Mach.checkFails_ok | apply Mach.recordAtStart_ok
    | apply Mach.showImage_ok | apply Mach.loadImage_ok | split | dsimp only

theorem execImageLoad_ok {nor : NorReport} {active backup : FwVerdict} {identityFail : List Nat} {s : State} {t : State} (hOk : s.m.Ok) (e : execImageLoad nor active backup identityFail s = .next t) : t.m.Ok := by
  unfold execImageLoad at e
  with_reducible repeat' first
    | assumption | refine State.run_ok (by assumption) ?_ e | split at e | apply Mach.when_ok | apply Mach.wrAll_ok
    | apply Mach.checkFails_ok | apply Mach.startImage_ok | split | intro _ | dsimp only

theorem Mach.establish_ok {m : Mach} {d p0 : Nat} (hOk : m.Ok) : (Mach.establish m d p0).Ok := by
  unfold Mach.establish
  with_reducible repeat' first
    | assumption | apply Mach.upd_ok | apply Mach.wr_ok | apply Die.wr_ok | apply Die.logAppend_ok | apply Die.aonAppend_ok
    | apply Die.parts_ok | apply foldl_die_ok | intro _ | dsimp only | rw [Die.ok_mk]

theorem Mach.establishAll_ok {m : Mach} (hOk : m.Ok) : (Mach.establishAll m).Ok := by
  unfold Mach.establishAll
  with_reducible repeat' first
    | assumption | apply Mach.upd_ok | apply Mach.eachDie_ok | apply Mach.note_ok | apply Mach.establish_ok
    | apply Mach.parts_ok | apply Die.parts_ok | split | intro _ | dsimp only | rw [Mach.ok_mk] | rw [Die.ok_mk]

theorem Mach.withdrawOffers_ok {m : Mach} {e : Nat} (hOk : m.Ok) : (Mach.withdrawOffers m e).Ok := by
  unfold Mach.withdrawOffers
  with_reducible repeat' first
    | assumption | apply Mach.setLse_ok | apply Mach.notePair_ok | apply foldl_ok | intro _

theorem Mach.dropAtStart_ok {m : Mach} {x : Extent} (hOk : m.Ok) : (Mach.dropAtStart m x).Ok := by
  unfold Mach.dropAtStart
  with_reducible repeat' first
    | assumption | apply Mach.note_ok | apply Mach.setLse_ok | apply Mach.wipeExt_ok | apply Mach.freeExtent_ok
    | apply Mach.withdrawOffers_ok | split

theorem Mach.clearAtStart_ok {m : Mach} {x : Extent} (hOk : m.Ok) : (Mach.clearAtStart m x).Ok := by
  unfold Mach.clearAtStart
  with_reducible repeat' first
    | assumption | apply Mach.extState_ok | apply Mach.clearExt_ok | split

theorem Mach.restoreLeases_ok {m : Mach} {x : Extent} (hOk : m.Ok) : (Mach.restoreLeases m x).Ok := by
  unfold Mach.restoreLeases
  with_reducible repeat' first
    | assumption | apply Mach.setLse_ok | apply Mach.writeHome_ok | apply Mach.updLease_ok | apply Mach.notePair_ok
    | apply Mach.withdrawOffers_ok | apply Mach.clearAtStart_ok | apply foldl_ok | split | intro _ | dsimp only

theorem Mach.restoreDirectory_ok {m : Mach} (hOk : m.Ok) : (Mach.restoreDirectory m).Ok := by
  unfold Mach.restoreDirectory
  with_reducible repeat' first
    | assumption | apply Mach.eachDie_ok | apply Mach.setEntry_ok | apply Mach.freeUp_ok | apply Mach.dropAtStart_ok
    | apply Mach.clearAtStart_ok | apply Mach.restoreLeases_ok | apply foldl_ok | intro _

theorem Mach.staticLease_ok {m : Mach} {have' : List (Nat × Nat × Nat)} {e : StaticLease} (hOk : m.Ok) : (Mach.staticLease m have' e).2.Ok := by
  unfold Mach.staticLease
  with_reducible repeat' first
    | assumption | apply Mach.chosen_ok | apply Mach.newExtent_ok | apply Mach.hold_ok | apply Mach.refuse_ok | split
    | dsimp only

theorem Mach.staticLeases_ok {m : Mach} (hOk : m.Ok) : (Mach.staticLeases m).Ok := by
  unfold Mach.staticLeases
  with_reducible repeat' first
    | assumption | apply Mach.staticLease_ok | apply foldl_snd_ok | intro _

theorem Mach.buildRom_ok {m : Mach} (hOk : m.Ok) : (Mach.buildRom m).Ok := by
  unfold Mach.buildRom
  with_reducible repeat' first
    | assumption | apply Mach.updLd_ok | apply foldl_ok | intro _

theorem Mach.dieReady_ok {m : Mach} {d : Nat} (hOk : m.Ok) : (Mach.dieReady m d).Ok := by
  unfold Mach.dieReady
  with_reducible repeat' first
    | assumption | apply Mach.wr_ok | apply Mach.note_ok | apply Mach.startStep_ok | apply Mach.journalMark_ok
    | apply Mach.markDurable_ok | apply Mach.beatNow_ok | apply Mach.qosStart_ok | apply Mach.updTier_ok
    | apply Mach.preloadJudge_ok | apply Mach.preloadNext_ok | apply foldl_ok | split | intro _ | dsimp only

theorem Mach.setReady_ok {m : Mach} (hOk : m.Ok) : (Mach.setReady m).Ok := by
  unfold Mach.setReady
  with_reducible repeat' first
    | assumption | apply Mach.eachDie_ok | apply Mach.sendJoin_ok | apply Mach.establishAll_ok
    | apply Mach.restoreDirectory_ok | apply Mach.staticLeases_ok | apply Mach.buildRom_ok | apply Mach.dieReady_ok
    | apply Mach.parts_ok | split | dsimp only | rw [Mach.ok_mk]

theorem execDieSetReady_ok {s : State} {t : State} (hOk : s.m.Ok) (e : execDieSetReady s = .next t) : t.m.Ok := by
  unfold execDieSetReady at e
  with_reducible repeat' first
    | assumption | refine State.run_ok (by assumption) ?_ e | apply Mach.when_ok | apply Mach.setReady_ok | intro _


end Sys2Proof.Machine
end

