-- ==== Sys2Proof/Laws/KeepPower.lean ====
section
/-! SUPPORT. Soundness is kept by the definitions of Machine/Power.lean. -/

namespace Sys2Proof.Machine

theorem execUnitIdleGate_ok {d : Nat} {u : GateUnit} {s : State} {t : State} (hOk : s.m.Ok) (e : execUnitIdleGate d u s = .next t) : t.m.Ok := by
  unfold execUnitIdleGate at e
  with_reducible repeat' first
    | assumption | refine State.onDie_ok (by assumption) ?_ e | split at e | apply Mach.when_ok | apply Mach.wr_ok
    | apply Mach.runTo_ok | apply Mach.powerState_ok | apply Mach.selfRefresh_ok | intro _

theorem execUnitWake_ok {d : Nat} {u : GateUnit} {s : State} {t : State} (hOk : s.m.Ok) (e : execUnitWake d u s = .next t) : t.m.Ok := by
  unfold execUnitWake at e
  with_reducible repeat' first
    | assumption | refine State.onDie_ok (by assumption) ?_ e | split at e | apply Mach.when_ok | apply Mach.ungate_ok
    | apply Mach.wakeChan_ok | intro _

theorem Mach.ungateAll_ok {m : Mach} {d : Nat} (hOk : m.Ok) : (Mach.ungateAll m d).Ok := by
  unfold Mach.ungateAll
  with_reducible repeat' first
    | assumption | apply Mach.ungate_ok | apply Mach.wakeChan_ok | apply foldl_ok | split | intro _

theorem Mach.furlBlocked_ok {m : Mach} {bs : List Nat} (hOk : m.Ok) : (Mach.furlBlocked m bs).Ok := by
  unfold Mach.furlBlocked
  with_reducible repeat' first
    | assumption | apply Mach.eachDie_ok | apply Mach.wr_ok | apply Mach.noteFree_ok | apply foldl_ok | intro _

theorem Mach.furlStart_ok {m : Mach} {asked : Bool} (hOk : m.Ok) : (Mach.furlStart m asked).Ok := by
  unfold Mach.furlStart
  with_reducible repeat' first
    | assumption | apply Mach.eachDie_ok | apply Mach.wr_ok | apply Mach.wrAll_ok | apply Mach.furlBlocked_ok
    | apply Mach.parts_ok | split | intro _ | dsimp only | rw [Mach.ok_mk]

theorem Mach.pwrCtrl_ok {m : Mach} {d v : Nat} (hOk : m.Ok) : (Mach.pwrCtrl m d v).Ok := by
  unfold Mach.pwrCtrl
  with_reducible repeat' first
    | assumption | apply Mach.wr_ok | apply Mach.furlAbandon_ok | apply Mach.ungateAll_ok | apply Mach.furlStart_ok | split
    | dsimp only

theorem execFurlReq_ok {d : Nat} {v : Word} {s : State} {t : State} (hOk : s.m.Ok) (e : execFurlReq d v s = .next t) : t.m.Ok := by
  unfold execFurlReq at e
  with_reducible repeat' first
    | assumption | refine State.onDie_ok (by assumption) ?_ e | apply Mach.when_ok | apply Mach.pwrCtrl_ok | intro _

theorem execFurlCancel_ok {d : Nat} {v : Word} {s : State} {t : State} (hOk : s.m.Ok) (e : execFurlCancel d v s = .next t) : t.m.Ok := by
  unfold execFurlCancel at e
  with_reducible repeat' first
    | assumption | refine State.onDie_ok (by assumption) ?_ e | apply Mach.when_ok | apply Mach.pwrCtrl_ok | intro _

theorem execFurlIdleTimeout_ok {s : State} {t : State} (hOk : s.m.Ok) (e : execFurlIdleTimeout s = .next t) : t.m.Ok := by
  unfold execFurlIdleTimeout at e
  with_reducible repeat' first
    | assumption | refine State.run_ok (by assumption) ?_ e | apply Mach.when_ok | apply Mach.runTo_ok
    | apply Mach.furlStart_ok | intro _

theorem Mach.dropOff_ok {m : Mach} {d : Nat} (hOk : m.Ok) : (Mach.dropOff m d).Ok := by
  unfold Mach.dropOff
  with_reducible repeat' first
    | assumption | apply Mach.updTier_ok | apply Mach.dropT1_ok | apply Mach.dropT2_ok | apply Mach.updStage_ok
    | apply foldl_ok | split | intro _

theorem Mach.furlDevices_ok {m : Mach} {d : Nat} (hOk : m.Ok) : (Mach.furlDevices m d).Ok := by
  unfold Mach.furlDevices
  with_reducible repeat' first
    | assumption | apply Mach.wr_ok | apply Mach.updChan_ok | apply Mach.dramCmd_ok | apply Mach.writeBackSegments_ok
    | apply Mach.drain_ok | apply Mach.dropOff_ok | apply foldl_ok | split | intro _

theorem Mach.furlStop_ok {m : Mach} {d : Nat} (hOk : m.Ok) : (Mach.furlStop m d).Ok := by
  unfold Mach.furlStop
  with_reducible repeat' first
    | assumption | apply Mach.upd_ok | apply Mach.wr_ok | apply Mach.powerState_ok | apply Die.parts_ok | intro _
    | dsimp only | rw [Die.ok_mk]

theorem Mach.devicesBack_ok {m : Mach} {d : Nat} (hOk : m.Ok) : (Mach.devicesBack m d).Ok := by
  unfold Mach.devicesBack
  with_reducible repeat' first
    | assumption | apply Mach.upd_ok | apply Mach.wr_ok | apply Mach.qosStart_ok | apply Mach.ungate_ok | apply Mach.dramCmd_ok
    | apply Mach.emptySlots_ok | apply Die.parts_ok | apply foldl_ok | split | intro _ | dsimp only | rw [Die.ok_mk]

theorem Mach.furlEnd_ok {m : Mach} {k : Nat} (hOk : m.Ok) : (Mach.furlEnd m k).Ok := by
  unfold Mach.furlEnd
  with_reducible repeat' first
    | assumption | apply Mach.eachDie_ok | apply Mach.wrAll_ok | apply Mach.furlBlocked_ok | apply Mach.devicesBack_ok
    | apply Mach.parts_ok | split | dsimp only | rw [Mach.ok_mk]

theorem Mach.furlStep_ok {m : Mach} {k : Nat} {r : Mach} (hOk : m.Ok) (e : Mach.furlStep m k = some r) : r.Ok := by
  unfold Mach.furlStep at e
  with_reducible repeat' first
    | assumption | apply Mach.eachDie_ok | apply Mach.furledMark_ok | apply Mach.checkpoint_ok | apply Mach.furlDevices_ok
    | apply Mach.furlStop_ok | intro _ | (injection ‹_ = some _› with e; subst e) | (cases ‹none = some _›) | split at e

theorem Mach.furlAdvance_ok {m : Mach} {k : Nat} (hOk : m.Ok) : (Mach.furlAdvance m k).Ok := by
  unfold Mach.furlAdvance
  with_reducible repeat' first
    | assumption | apply Mach.furlEnd_ok | refine Mach.furlStep_ok ?_ (by assumption) | apply Mach.parts_ok | split
    | dsimp only | rw [Mach.ok_mk]

theorem execFurlEntryStep_ok {s : State} {t : State} (hOk : s.m.Ok) (e : execFurlEntryStep s = .next t) : t.m.Ok := by
  unfold execFurlEntryStep at e
  with_reducible repeat' first
    | assumption | refine State.run_ok (by assumption) ?_ e | apply Mach.furlAdvance_ok | split | intro _

theorem execFurlL1Timeout_ok {d : Nat} {s : State} {t : State} (hOk : s.m.Ok) (e : execFurlL1Timeout d s = .next t) : t.m.Ok := by
  unfold execFurlL1Timeout at e
  with_reducible repeat' first
    | assumption | refine State.onDie_ok (by assumption) ?_ e | apply Mach.when_ok | apply Mach.runTo_ok
    | apply Mach.furlAbandon_ok | apply Mach.furlEnd_ok | intro _

theorem Mach.wakeDie_ok {m : Mach} {d src who : Nat} (hOk : m.Ok) : (Mach.wakeDie m d src who).Ok := by
  unfold Mach.wakeDie
  with_reducible repeat' first
    | assumption | apply Mach.wr_ok | apply Mach.bump_ok | apply Mach.powerState_ok | apply Mach.fineRestart_ok
    | apply Mach.beatNow_ok | apply Mach.devicesBack_ok | apply foldl_ok | split | intro _

theorem execFurledWake_ok {src : WakeSource} {d : Nat} {failed : List (Nat × Nat)} {s : State} {t : State} (hOk : s.m.Ok) (e : execFurledWake src d failed s = .next t) : t.m.Ok := by
  unfold execFurledWake at e
  with_reducible repeat' first
    | assumption | refine State.onDie_ok (by assumption) ?_ e | apply Mach.when_ok | apply Mach.eachDie_ok
    | apply Mach.send_ok | apply Mach.halfMast_ok | apply Mach.laneFail_ok | apply Mach.wakeDie_ok | apply Mach.parts_ok
    | apply foldl_ok | split | intro _ | dsimp only | rw [Mach.ok_mk]


end Sys2Proof.Machine
end

