-- ==== Sys2Proof/Laws/KeepPool.lean ====
section
/-! SUPPORT. Soundness is kept by the definitions of Machine/Pool.lean. -/

namespace Sys2Proof.Machine

theorem Mach.notePool_ok {m : Mach} (hOk : m.Ok) : (Mach.notePool m).Ok := by
  unfold Mach.notePool
  with_reducible repeat' first
    | assumption | apply Mach.noteFree_ok

theorem Mach.setPoolState_ok {m : Mach} {f : Pool → Pool} (hOk : m.Ok) : (Mach.setPoolState m f).Ok := by
  unfold Mach.setPoolState
  with_reducible repeat' first
    | assumption | apply Mach.parts_ok | rw [Mach.ok_mk]

theorem execPoolJoin_ok {pkg version peerMin peerMax requester : Nat} {s : State} {t : State} (hOk : s.m.Ok) (e : execPoolJoin pkg version peerMin peerMax requester s = .next t) : t.m.Ok := by
  unfold execPoolJoin at e
  with_reducible repeat' first
    | assumption | refine State.run_ok (by assumption) ?_ e | apply Mach.when_ok | apply Mach.send_ok
    | apply Mach.setPoolState_ok | split | intro _ | dsimp only

theorem execJoinRetry_ok {answer : Option Nat} {s : State} {t : State} (hOk : s.m.Ok) (e : execJoinRetry answer s = .next t) : t.m.Ok := by
  unfold execJoinRetry at e
  with_reducible repeat' first
    | assumption | refine State.run_ok (by assumption) ?_ e | split at e | apply Mach.when_ok | apply Mach.send_ok
    | apply Mach.wrAll_ok | apply Mach.runTo_ok | apply Mach.sendJoin_ok | apply Mach.notePool_ok
    | apply Mach.setPoolState_ok | split | intro _

theorem execEnsignLost_ok {s : State} {t : State} (hOk : s.m.Ok) (e : execEnsignLost s = .next t) : t.m.Ok := by
  unfold execEnsignLost at e
  with_reducible repeat' first
    | assumption | refine State.run_ok (by assumption) ?_ e | apply Mach.when_ok | apply Mach.wrAll_ok | apply Mach.runTo_ok
    | apply Mach.notePool_ok | apply Mach.setPoolState_ok | intro _

theorem execPoolRoleSet_ok {via : Via} {d : Nat} {v : Word} {s : State} {t : State} (hOk : s.m.Ok) (e : execPoolRoleSet via d v s = .next t) : t.m.Ok := by
  unfold execPoolRoleSet at e
  with_reducible repeat' first
    | assumption | refine State.onDie_ok (by assumption) ?_ e | apply Mach.when_ok | apply Mach.note_ok
    | apply Mach.takeRole_ok | apply Mach.sendJoin_ok | apply Mach.setPoolState_ok | split | intro _ | dsimp only

theorem execAnchorSend_ok {pkg : Nat} {s : State} {t : State} (hOk : s.m.Ok) (e : execAnchorSend pkg s = .next t) : t.m.Ok := by
  unfold execAnchorSend at e
  with_reducible repeat' first
    | assumption | refine State.run_ok (by assumption) ?_ e | apply Mach.when_ok | apply Mach.send_ok | apply Mach.issue_ok
    | apply Mach.every_ok | apply Mach.setPoolState_ok | intro _

theorem Mach.stepForward_ok {m : Mach} {dt : Nat} (h : m.Ok) : (m.stepForward dt).Ok := by
  unfold Mach.stepForward
  exact Mach.note_ok (Mach.wrAll_ok (Mach.mapDies_ok (Mach.note_ok h) (fun _ hx => hx)))

theorem Mach.correct_ok {m : Mach} {theta : Int} (h : m.Ok) : (m.correct theta).Ok := by
  unfold Mach.correct
  extract_lets m1 m2 m3
  have h1 : m1.Ok := Mach.wrAll_ok h
  have h2 : m2.Ok := by
    unfold m2; split
    · exact Mach.noteFree_ok (Mach.wrAll_ok h1)
    · exact h1
  have h3 : m3.Ok := Mach.setPoolState_ok h2
  split
  · exact h2
  · split
    · exact Mach.stepForward_ok h3
    · exact Mach.mapDies_ok h3 (fun _ hx => hx)

theorem execAnchorReceive_ok {t1 : Nat} {theta : Option Int} {hostNs : Option Nat} {s : State} {t : State} (hOk : s.m.Ok) (e : execAnchorReceive t1 theta hostNs s = .next t) : t.m.Ok := by
  unfold execAnchorReceive at e
  with_reducible repeat' first
    | assumption | refine State.run_ok (by assumption) ?_ e | split at e | apply Mach.when_ok | apply Mach.send_ok
    | apply Mach.issue_ok | apply Mach.hostTimeCame_ok | apply Mach.setPoolState_ok | apply Mach.correct_ok | intro _

theorem execAnchorReply_ok {pkg t1 t2 t3 : Nat} {s : State} {t : State} (hOk : s.m.Ok) (e : execAnchorReply pkg t1 t2 t3 s = .next t) : t.m.Ok := by
  unfold execAnchorReply at e
  with_reducible repeat' first
    | assumption | refine State.run_ok (by assumption) ?_ e | apply Mach.when_ok | apply Mach.issue_ok
    | apply Mach.setPoolState_ok | apply Mach.stepForward_ok | split | intro _ | dsimp only

theorem Mach.listCopy_ok {m : Mach} {c : ReplicaCopy} (hOk : m.Ok) : (Mach.listCopy m c).Ok := by
  unfold Mach.listCopy
  with_reducible repeat' first
    | assumption | apply Mach.notePool_ok | apply Mach.setPoolState_ok | split

theorem Mach.unlist_ok {m : Mach} {gone : ReplicaCopy → Bool} (hOk : m.Ok) : (Mach.unlist m gone).Ok := by
  unfold Mach.unlist
  with_reducible repeat' first
    | assumption | apply Mach.setPoolState_ok

theorem execReplicaReport_ok {r : ReplicaReport} {s : State} {t : State} (hOk : s.m.Ok) (e : execReplicaReport r s = .next t) : t.m.Ok := by
  unfold execReplicaReport at e
  with_reducible repeat' first
    | assumption | refine State.run_ok (by assumption) ?_ e | split at e | apply Mach.when_ok | apply Mach.listCopy_ok
    | apply Mach.unlist_ok | apply foldl_ok | intro _

theorem execReplicaLookup_ok {asker originPkg originHandle : Nat} {s : State} {t : State} (hOk : s.m.Ok) (e : execReplicaLookup asker originPkg originHandle s = .next t) : t.m.Ok := by
  unfold execReplicaLookup at e
  with_reducible repeat' first
    | assumption | refine State.run_ok (by assumption) ?_ e | apply Mach.when_ok | apply Mach.send_ok | intro _

theorem Mach.openPush_ok {m : Mach} {src : Nat} {origin : Nat × Nat} {header : List Byte} {dim ld region slot home num : Nat} {r : Mach} (hOk : m.Ok) (e : Mach.openPush m src origin header dim ld region slot home num = some r) : r.Ok := by
  unfold Mach.openPush at e
  with_reducible repeat' first
    | assumption | apply Mach.chosen_ok | apply Mach.updExt_ok | apply Mach.putHeader_ok | apply Mach.newExtent_ok
    | apply Mach.setPoolState_ok | (injection ‹_ = some _› with e; subst e) | (cases ‹none = some _›) | split at e
    | dsimp only at e

theorem Mach.answerOpen_ok {m : Mach} {src ok x : Nat} (hOk : m.Ok) : (Mach.answerOpen m src ok x).Ok := by
  unfold Mach.answerOpen
  with_reducible repeat' first
    | assumption | apply Mach.send_ok

theorem execPoolOpen_ok {src originPkg originHandle : Nat} {header : List Byte} {dim ld region : Nat} {slot : Option Nat} {s : State} {t : State} (hOk : s.m.Ok) (e : execPoolOpen src originPkg originHandle header dim ld region slot s = .next t) : t.m.Ok := by
  unfold execPoolOpen at e
  with_reducible repeat' first
    | assumption | refine State.run_ok (by assumption) ?_ e | split at e | apply Mach.when_ok | apply Mach.refuse_ok
    | apply Mach.answerOpen_ok | refine Mach.openPush_ok ?_ (by assumption) | split | intro _

theorem Mach.rxFailed_ok {m : Mach} {r : RxPush} {idx : Nat} (hOk : m.Ok) : (Mach.rxFailed m r idx).Ok := by
  unfold Mach.rxFailed
  with_reducible repeat' first
    | assumption | apply Mach.send_ok | apply Mach.endRx_ok | apply Mach.setPoolState_ok | split

theorem Mach.rxFrame_ok {m : Mach} {r : RxPush} {x : Extent} {rx idx : Nat} {sectors : List Nat} (hOk : m.Ok) : (Mach.rxFrame m r x rx idx sectors).Ok := by
  unfold Mach.rxFrame
  with_reducible repeat' first
    | assumption | apply Mach.codecFail_ok | apply Mach.lose_ok | apply Mach.setPoolState_ok | apply Mach.rxFailed_ok
    | refine Mach.storeT2_ok ?_ (by assumption) | split | dsimp only

theorem execFrameDone_ok {ext rx idx : Nat} {sectors : List Nat} {s : State} {t : State} (hOk : s.m.Ok) (e : execFrameDone ext rx idx sectors s = .next t) : t.m.Ok := by
  unfold execFrameDone at e
  with_reducible repeat' first
    | assumption | refine State.run_ok (by assumption) ?_ e | split at e | cases ‹Host.Outcome.fault _ = _›
    | apply Mach.when_ok | apply Mach.rxFrame_ok | split | intro _

theorem Mach.reportCopy_ok {m : Mach} {x : Extent} (hOk : m.Ok) : (Mach.reportCopy m x).Ok := by
  unfold Mach.reportCopy
  with_reducible repeat' first
    | assumption | apply Mach.send_ok | apply Mach.listCopy_ok | split

theorem execPoolClose_ok {ext : Nat} {s : State} {t : State} (hOk : s.m.Ok) (e : execPoolClose ext s = .next t) : t.m.Ok := by
  unfold execPoolClose at e
  with_reducible repeat' first
    | assumption | refine State.run_ok (by assumption) ?_ e | apply Mach.when_ok | apply Mach.send_ok | apply Mach.offer_ok
    | apply Mach.sealDone_ok | apply Mach.setPoolState_ok | apply Mach.reportCopy_ok | split | intro _

theorem execPushTimeout_ok {ext : Nat} {s : State} {t : State} (hOk : s.m.Ok) (e : execPushTimeout ext s = .next t) : t.m.Ok := by
  unfold execPushTimeout at e
  with_reducible repeat' first
    | assumption | refine State.run_ok (by assumption) ?_ e | apply Mach.when_ok | apply Mach.send_ok | apply Mach.runTo_ok
    | apply Mach.endRx_ok | apply Mach.pushFail_ok | apply foldl_ok | split | intro _

theorem Mach.scheduleNext_ok {m : Mach} (hOk : m.Ok) : (Mach.scheduleNext m).Ok := by
  unfold Mach.scheduleNext
  with_reducible repeat' first
    | assumption | apply Mach.send_ok | apply Mach.setPoolState_ok | apply Mach.parts_ok | split | dsimp only
    | rw [Mach.ok_mk]

theorem Mach.scheduleStep_ok {m : Mach} {confirmed : Bool} (hOk : m.Ok) : (Mach.scheduleStep m confirmed).Ok := by
  unfold Mach.scheduleStep
  with_reducible repeat' first
    | assumption | apply Mach.notePool_ok | apply Mach.setPoolState_ok | apply Mach.scheduleNext_ok | split

theorem execPoolSchedule_ok {order : List Nat} {delayMs : Nat} {news : List (Nat × Nat × Nat × Nat)} {s : State} {t : State} (hOk : s.m.Ok) (e : execPoolSchedule order delayMs news s = .next t) : t.m.Ok := by
  unfold execPoolSchedule at e
  with_reducible repeat' first
    | assumption | refine State.run_ok (by assumption) ?_ e | apply Mach.when_ok | apply Mach.send_ok
    | apply Mach.notePool_ok | apply Mach.setPoolState_ok | apply Mach.scheduleNext_ok | split | intro _ | dsimp only

theorem execScheduleConfirm_ok {pkg : Nat} {res : ScheduleResult} {s : State} {t : State} (hOk : s.m.Ok) (e : execScheduleConfirm pkg res s = .next t) : t.m.Ok := by
  unfold execScheduleConfirm at e
  with_reducible repeat' first
    | assumption | refine State.run_ok (by assumption) ?_ e | apply Mach.when_ok | apply Mach.scheduleStep_ok | intro _


end Sys2Proof.Machine
end

