-- ==== Sys2Proof/Laws/KeepFirmware.lean ====
section
/-! SUPPORT. Soundness is kept by the definitions of Machine/Firmware.lean. -/

namespace Sys2Proof.Machine

theorem execSetdasa_ok {static dynamic : Nat} {s : State} {t : State} (hOk : s.m.Ok) (e : execSetdasa static dynamic s = .next t) : t.m.Ok := by
  unfold execSetdasa at e
  with_reducible repeat' first
    | assumption | refine State.run_ok (by assumption) ?_ e | apply Mach.when_ok | apply Mach.parts_ok | intro _ | dsimp only
    | rw [Mach.ok_mk]

theorem execEntdaa_ok {dynamic : Nat} {s : State} {t : State} (hOk : s.m.Ok) (e : execEntdaa dynamic s = .next t) : t.m.Ok := by
  unfold execEntdaa at e
  with_reducible repeat' first
    | assumption | refine State.run_ok (by assumption) ?_ e | apply Mach.when_ok | apply Mach.parts_ok | intro _ | dsimp only
    | rw [Mach.ok_mk]

theorem Mach.lastError_ok {m : Mach} {e : Nat} (hOk : m.Ok) : (Mach.lastError m e).Ok := by
  unfold Mach.lastError
  with_reducible repeat' first
    | assumption | apply Mach.wrAll_ok

theorem Mach.fwRefuse_ok {m : Mach} {code e : Nat} (hOk : m.Ok) : (Mach.fwRefuse m code e).Ok := by
  unfold Mach.fwRefuse
  with_reducible repeat' first
    | assumption | apply Mach.send_ok | apply Mach.lastError_ok

theorem Mach.fwRefuseFree_ok {m : Mach} {code : Nat} (hOk : m.Ok) : (Mach.fwRefuseFree m code).Ok := by
  unfold Mach.fwRefuseFree
  with_reducible repeat' first
    | assumption | apply Mach.chosen_ok | apply Mach.fwRefuse_ok

theorem Mach.noteFw_ok {m : Mach} (hOk : m.Ok) : (Mach.noteFw m).Ok := by
  unfold Mach.noteFw
  with_reducible repeat' first
    | assumption | apply Mach.noteFree_ok

theorem Mach.setFw_ok {m : Mach} {f : Fw → Fw} (hOk : m.Ok) : (Mach.setFw m f).Ok := by
  unfold Mach.setFw
  with_reducible repeat' first
    | assumption | apply Mach.parts_ok | rw [Mach.ok_mk]

theorem execFwBegin_ok {imageLen cfgLen : Nat} {s : State} {t : State} (hOk : s.m.Ok) (e : execFwBegin imageLen cfgLen s = .next t) : t.m.Ok := by
  unfold execFwBegin at e
  with_reducible repeat' first
    | assumption | refine State.run_ok (by assumption) ?_ e | split at e | apply Mach.when_ok | apply Mach.send_ok
    | apply Mach.wrAll_ok | apply Mach.note_ok | apply Mach.fwState_ok | apply Mach.lastError_ok | apply Mach.fwRefuse_ok
    | apply Mach.setFw_ok | split | intro _

theorem Mach.norSpoilt_ok {m : Mach} {off n : Nat} (hOk : m.Ok) : (Mach.norSpoilt m off n).Ok := by
  unfold Mach.norSpoilt
  with_reducible repeat' first
    | assumption | apply Mach.freeBytes_ok | apply Mach.parts_nor | apply Mach.nor_wf | apply Nor.rewrite_wf | dsimp only
    | rw [Mach.ok_mk]

theorem execBackupCopyComplete_ok {ok : Bool} {s : State} {t : State} (hOk : s.m.Ok) (e : execBackupCopyComplete ok s = .next t) : t.m.Ok := by
  unfold execBackupCopyComplete at e
  with_reducible repeat' first
    | assumption | refine State.run_ok (by assumption) ?_ e | split at e | apply Mach.when_ok | apply Mach.wrAll_ok
    | apply Mach.fwState_ok | apply Mach.lastError_ok | apply Mach.noteFw_ok | apply Mach.norSpoilt_ok | apply Mach.parts_nor
    | apply Mach.nor_wf | apply Nor.copyArea_wf | split | intro _ | rw [Mach.ok_mk]

theorem Mach.fwStore_ok {m : Mach} {off : Nat} {data : List Byte} (hOk : m.Ok) : (Mach.fwStore m off data).Ok := by
  unfold Mach.fwStore
  with_reducible repeat' first
    | assumption | apply Mach.parts_nor | apply Mach.nor_wf | apply Nor.rewrite_wf | apply Nor.erase_wf | split | dsimp only
    | rw [Mach.ok_mk]

theorem execFwData_ok {offset : Nat} {data : List Byte} {s : State} {t : State} (hOk : s.m.Ok) (e : execFwData offset data s = .next t) : t.m.Ok := by
  unfold execFwData at e
  with_reducible repeat' first
    | assumption | refine State.run_ok (by assumption) ?_ e | apply Mach.when_ok | apply Mach.send_ok
    | apply Mach.fwRefuse_ok | apply Mach.fwRefuseFree_ok | apply Mach.setFw_ok | apply Mach.fwStore_ok | split | intro _

theorem execFwEnd_ok {v : FwVerdict} {s : State} {t : State} (hOk : s.m.Ok) (e : execFwEnd v s = .next t) : t.m.Ok := by
  unfold execFwEnd at e
  with_reducible repeat' first
    | assumption | refine State.run_ok (by assumption) ?_ e | apply Mach.when_ok | apply Mach.send_ok | apply Mach.chosen_ok
    | apply Mach.fwState_ok | apply Mach.fwRefuseFree_ok | apply Mach.setFw_ok | split | intro _ | dsimp only

theorem execFwAbort_ok {s : State} {t : State} (hOk : s.m.Ok) (e : execFwAbort s = .next t) : t.m.Ok := by
  unfold execFwAbort at e
  with_reducible repeat' first
    | assumption | refine State.run_ok (by assumption) ?_ e | apply Mach.when_ok | apply Mach.send_ok | apply Mach.fwState_ok
    | apply Mach.lastError_ok | apply Mach.fwRefuseFree_ok | apply Mach.noteFw_ok | apply Mach.setFw_ok | split | intro _

theorem execRestoreCopyComplete_ok {ok : Bool} {s : State} {t : State} (hOk : s.m.Ok) (e : execRestoreCopyComplete ok s = .next t) : t.m.Ok := by
  unfold execRestoreCopyComplete at e
  with_reducible repeat' first
    | assumption | refine State.run_ok (by assumption) ?_ e | split at e | apply Mach.when_ok | apply Mach.fwState_ok
    | apply Mach.lastError_ok | apply Mach.noteFw_ok | apply Mach.setFw_ok | apply Mach.norSpoilt_ok | apply Mach.parts_nor
    | apply Mach.nor_wf | apply Nor.copyArea_wf | split | intro _ | rw [Mach.ok_mk]

theorem execFwActivate_ok {delayMs : Nat} {scheduled : Option Nat} {s : State} {t : State} (hOk : s.m.Ok) (e : execFwActivate delayMs scheduled s = .next t) : t.m.Ok := by
  unfold execFwActivate at e
  with_reducible repeat' first
    | assumption | refine State.run_ok (by assumption) ?_ e | split at e | apply Mach.when_ok | apply Mach.send_ok
    | apply Mach.issue_ok | apply Mach.fwRefuse_ok | apply Mach.fwRefuseFree_ok | apply Mach.setFw_ok | split | intro _

theorem execActivation_ok {s : State} {t : State} (hOk : s.m.Ok) (e : execActivation s = .next t) : t.m.Ok := by
  unfold execActivation at e
  with_reducible repeat' first
    | assumption | refine State.run_ok (by assumption) ?_ e | apply Mach.when_ok | apply Mach.runTo_ok | apply Mach.note_ok
    | apply Mach.fwState_ok | apply Mach.restart_ok | apply Mach.setFw_ok | apply Mach.parts_nor | apply Mach.nor_wf
    | apply Nor.setActive_wf | split | intro _ | rw [Mach.ok_mk]

theorem execFwConfirmReq_ok {s : State} {t : State} (hOk : s.m.Ok) (e : execFwConfirmReq s = .next t) : t.m.Ok := by
  unfold execFwConfirmReq at e
  with_reducible repeat' first
    | assumption | refine State.run_ok (by assumption) ?_ e | apply Mach.when_ok | apply Mach.send_ok | apply Mach.wrAll_ok
    | intro _

theorem Mach.advanceCounter_ok {m : Mach} {ok : Bool} (hOk : m.Ok) : (Mach.advanceCounter m ok).Ok := by
  unfold Mach.advanceCounter
  with_reducible repeat' first
    | assumption | apply Mach.chosen_ok | apply Mach.wrAll_ok | apply Mach.noteFw_ok | apply Mach.parts_nor
    | apply Mach.nor_wf | split | dsimp only | rw [Mach.ok_mk]

theorem Mach.confirm_ok {m : Mach} {ok : Bool} (hOk : m.Ok) : (Mach.confirm m ok).Ok := by
  unfold Mach.confirm
  with_reducible repeat' first
    | assumption | apply Mach.eachDie_ok | apply Mach.bump_ok | apply Mach.wrAll_ok | apply Mach.note_ok
    | apply Mach.fwState_ok | apply Mach.scheduleStep_ok | apply Mach.setFw_ok | apply Mach.advanceCounter_ok | split
    | intro _ | dsimp only

theorem execFwHealthConfirm_ok {own : Bool} {key : Word} {counterOk : Bool} {s : State} {t : State} (hOk : s.m.Ok) (e : execFwHealthConfirm own key counterOk s = .next t) : t.m.Ok := by
  unfold execFwHealthConfirm at e
  with_reducible repeat' first
    | assumption | refine State.run_ok (by assumption) ?_ e | apply Mach.when_ok | apply Mach.confirm_ok | intro _

theorem execConfirmDeadline_ok {s : State} {t : State} (hOk : s.m.Ok) (e : execConfirmDeadline s = .next t) : t.m.Ok := by
  unfold execConfirmDeadline at e
  with_reducible repeat' first
    | assumption | refine State.run_ok (by assumption) ?_ e | apply Mach.when_ok | apply Mach.eachDie_ok | apply Mach.bump_ok
    | apply Mach.runTo_ok | apply Mach.note_ok | apply Mach.fwState_ok | apply Mach.restart_ok | apply Mach.scheduleStep_ok
    | apply Mach.parts_nor | apply Mach.nor_wf | apply Nor.setActive_wf | split | intro _ | rw [Mach.ok_mk]

theorem execFwStatus_ok {s : State} {t : State} (hOk : s.m.Ok) (e : execFwStatus s = .next t) : t.m.Ok := by
  unfold execFwStatus at e
  with_reducible repeat' first
    | assumption | refine State.run_ok (by assumption) ?_ e | apply Mach.when_ok | apply Mach.send_ok | intro _

theorem execAttest_ok {d : Nat} {nonce : List Byte} {mask : Word} {s : State} {t : State} (hOk : s.m.Ok) (e : execAttest d nonce mask s = .next t) : t.m.Ok := by
  unfold execAttest at e
  with_reducible repeat' first
    | assumption | refine State.onDie_ok (by assumption) ?_ e | apply Mach.when_ok | apply Mach.send_ok
    | apply Mach.chosen_ok | apply Mach.issue_ok | split | intro _

theorem execGetCert_ok {d offset : Nat} {s : State} {t : State} (hOk : s.m.Ok) (e : execGetCert d offset s = .next t) : t.m.Ok := by
  unfold execGetCert at e
  with_reducible repeat' first
    | assumption | refine State.onDie_ok (by assumption) ?_ e | apply Mach.when_ok | apply Mach.send_ok | intro _


end Sys2Proof.Machine
end

