-- ==== Sys2Proof/Laws/KeepRegfile.lean ====
section
/-! SUPPORT. Soundness is kept by the definitions of Machine/Regfile.lean. -/

namespace Sys2Proof.Machine

theorem Mach.armGate_ok {m : Mach} {d off : Nat} (hOk : m.Ok) : (Mach.armGate m d off).Ok := by
  unfold Mach.armGate
  with_reducible repeat' first
    | assumption | apply Mach.wr_ok | split

theorem Mach.putWord_ok {m : Mach} {d off v : Nat} (hOk : m.Ok) : (Mach.putWord m d off v).Ok := by
  unfold Mach.putWord
  with_reducible repeat' first
    | assumption | apply Mach.upd_ok | apply Mach.updStage_ok | apply Mach.armGate_ok | apply Die.setReg_ok | split | intro _

theorem Mach.ringWrite_ok {m : Mach} {r rel v : Nat} (hOk : m.Ok) : (Mach.ringWrite m r rel v).Ok := by
  unfold Mach.ringWrite
  with_reducible repeat' first
    | assumption | apply Mach.when_ok | apply Mach.ringCtrl_ok | apply Mach.ringDoorbell_ok | apply Mach.ringCqHead_ok
    | apply Mach.putWord_ok | split | intro _

theorem Mach.ctlWrite_ok {m : Mach} {d off v : Nat} (hOk : m.Ok) : (Mach.ctlWrite m d off v).Ok := by
  unfold Mach.ctlWrite
  with_reducible repeat' first
    | assumption | apply Mach.putWord_ok | apply Mach.ringWrite_ok | split

theorem Mach.msixWord_ok {m : Mach} {ld off v : Nat} (hOk : m.Ok) : (Mach.msixWord m ld off v).Ok := by
  unfold Mach.msixWord
  with_reducible repeat' first
    | assumption | apply Mach.msixWrite_ok | split

theorem execRegisterWrite_ok {via : Via} {d off : Nat} {v : Word} {s : State} {t : State} (hOk : s.m.Ok) (e : execRegisterWrite via d off v s = .next t) : t.m.Ok := by
  unfold execRegisterWrite at e
  with_reducible repeat' first
    | assumption | refine State.onDie_ok (by assumption) ?_ e | split at e | cases ‹Host.Outcome.fault _ = _›
    | apply Mach.when_ok | apply Mach.ctlWrite_ok | apply Mach.msixWord_ok | intro _

theorem Mach.getWord_ok {m : Mach} {d off : Nat} (hOk : m.Ok) : (Mach.getWord m d off).2.Ok := by
  unfold Mach.getWord
  with_reducible repeat' first
    | assumption | apply Mach.upd_ok | apply Mach.latchHigh_ok | apply Mach.plistPop_ok | apply Die.parts_ok | split
    | intro _ | dsimp only | rw [Die.ok_mk]

theorem Mach.bar0Word_ok {m : Mach} {ld off : Nat} (hOk : m.Ok) : (Mach.bar0Word m ld off).2.Ok := by
  unfold Mach.bar0Word
  with_reducible repeat' first
    | assumption | apply Mach.chosen_ok | apply Mach.getWord_ok | split

theorem Mach.barWord_ok {m : Mach} {ld b d off : Nat} (hOk : m.Ok) : (Mach.barWord m ld b d off).2.Ok := by
  unfold Mach.barWord
  with_reducible repeat' first
    | assumption | apply Mach.getWord_ok | apply Mach.bar0Word_ok | split

theorem Mach.barRead_ok {m : Mach} {ld b d off : Nat} (hOk : m.Ok) : (Mach.barRead m ld b d off).Ok := by
  unfold Mach.barRead
  with_reducible repeat' first
    | assumption | apply Mach.when_ok | apply Mach.send_ok | apply Mach.barWord_ok | split | intro _

theorem execLowWordRead_ok {w : Window} {off : Nat} {s : State} {t : State} (hOk : s.m.Ok) (e : execLowWordRead w off s = .next t) : t.m.Ok := by
  unfold execLowWordRead at e
  with_reducible repeat' first
    | assumption | refine State.onDie_ok (by assumption) ?_ e | split at e | cases ‹Host.Outcome.fault _ = _›
    | apply Mach.when_ok | apply Mach.send_ok | apply Mach.getWord_ok | apply Mach.barRead_ok | split | intro _


end Sys2Proof.Machine
end

