-- ==== Sys2Proof/Laws/State.lean ====
section
/-! SUPPORT. What each update of the state does to each field, and what a register field reads after a write: cited by later
proofs in place of unfolding. -/

namespace Sys2Proof.Machine

/-! ## Outcomes -/

theorem State.run_eq (s : State) (f : Mach → Mach) : s.run f = .next { s with m := f s.fresh } := rfl

theorem State.onDie_eq {s : State} {d : Nat} (h : d < s.m.dies.length) (f : Mach → Mach) :
    s.onDie d f = .next { s with m := f s.fresh } := by unfold State.onDie; rw [if_pos h]; rfl

theorem State.onDie_absent {s : State} {d : Nat} (h : s.m.dies.length ≤ d) (f : Mach → Mach) :
    s.onDie d f = .fault (.absentDie d) := by unfold State.onDie; rw [if_neg (by omega)]

theorem State.onUnit_eq {s : State} {d i n : Nat} (hi : i < n) (f : Mach → Mach) : s.onUnit d i n f = s.onDie d f := by
  unfold State.onUnit; rw [if_pos hi]

theorem State.onUnit_absent {s : State} {d i n : Nat} (hi : n ≤ i) (f : Mach → Mach) :
    s.onUnit d i n f = .fault (.absentUnit i) := by unfold State.onUnit; rw [if_neg (by omega)]

theorem Mach.when_true (m : Mach) (f : Mach → Mach) : m.when true f = f m := rfl
theorem Mach.when_false (m : Mach) (f : Mach → Mach) : m.when false f = m := rfl

@[simp] theorem State.fresh_out (s : State) : s.fresh.out = [] := rfl
@[simp] theorem State.fresh_dies (s : State) : s.fresh.dies = s.m.dies := rfl
@[simp] theorem State.fresh_die (s : State) (d : Nat) : s.fresh.die d = s.m.die d := rfl
@[simp] theorem State.fresh_rd (s : State) (d : Nat) (f : Fld) : s.fresh.rd d f = s.m.rd d f := rfl
@[simp] theorem State.fresh_on (s : State) (d : Nat) (f : Fld) : s.fresh.on d f = s.m.on d f := rfl
@[simp] theorem State.fresh_pw (s : State) : s.fresh.pw = s.m.pw := rfl
@[simp] theorem State.fresh_pres (s : State) : s.fresh.pres = s.m.pres := rfl
@[simp] theorem State.fresh_nor (s : State) : s.fresh.nor = s.m.nor := rfl
@[simp] theorem State.fresh_cfg (s : State) : s.fresh.cfg = s.m.cfg := rfl
@[simp] theorem State.fresh_fw (s : State) : s.fresh.fw = s.m.fw := rfl
@[simp] theorem State.fresh_fab (s : State) : s.fresh.fab = s.m.fab := rfl
@[simp] theorem State.fresh_lds (s : State) : s.fresh.lds = s.m.lds := rfl
@[simp] theorem State.fresh_lse (s : State) : s.fresh.lse = s.m.lse := rfl
@[simp] theorem State.fresh_pool (s : State) : s.fresh.pool = s.m.pool := rfl
@[simp] theorem State.fresh_freeCtr (s : State) : s.fresh.freeCtr = s.m.freeCtr := rfl
@[simp] theorem State.fresh_supply (s : State) : s.fresh.supply = s.m.supply := rfl

/-! ## One die changed -/

section
variable (m : Mach) (d : Nat) (f : Die → Die)
@[simp] theorem Mach.upd_out : (m.upd d f).out = m.out := rfl
@[simp] theorem Mach.upd_freeCtr : (m.upd d f).freeCtr = m.freeCtr := rfl
@[simp] theorem Mach.upd_supply : (m.upd d f).supply = m.supply := rfl
@[simp] theorem Mach.upd_pw : (m.upd d f).pw = m.pw := rfl
@[simp] theorem Mach.upd_pres : (m.upd d f).pres = m.pres := rfl
@[simp] theorem Mach.upd_nor : (m.upd d f).nor = m.nor := rfl
@[simp] theorem Mach.upd_cfg : (m.upd d f).cfg = m.cfg := rfl
@[simp] theorem Mach.upd_fw : (m.upd d f).fw = m.fw := rfl
@[simp] theorem Mach.upd_fab : (m.upd d f).fab = m.fab := rfl
@[simp] theorem Mach.upd_lds : (m.upd d f).lds = m.lds := rfl
@[simp] theorem Mach.upd_lse : (m.upd d f).lse = m.lse := rfl
@[simp] theorem Mach.upd_pool : (m.upd d f).pool = m.pool := rfl
@[simp] theorem Mach.upd_length : (m.upd d f).dies.length = m.dies.length := List.length_modify ..
@[simp] theorem Mach.upd_n : (m.upd d f).n = m.n := List.length_modify ..
end

theorem Mach.die_upd_same {m : Mach} {d : Nat} (h : d < m.dies.length) (f : Die → Die) : (m.upd d f).die d = f (m.die d) := by
  unfold Mach.die Mach.upd
  simp [List.getD_eq_getElem?_getD, h]

theorem Mach.die_upd_other {m : Mach} {d e : Nat} (h : e ≠ d) (f : Die → Die) : (m.upd d f).die e = m.die e := by
  unfold Mach.die Mach.upd
  simp only [List.getD_eq_getElem?_getD, List.getElem?_modify]
  cases m.dies[e]? <;> simp [Ne.symm h]

/-! ## Bit fields -/

theorem bits_lt (n lo w : Nat) : bits n lo w < 2 ^ w := Nat.mod_lt _ (Nat.two_pow_pos w)

/-- A field's part of a number, and the rest. -/
theorem bits_split (n lo w : Nat) : n = n / 2 ^ (lo + w) * 2 ^ (lo + w) + bits n lo w * 2 ^ lo + n % 2 ^ lo := by
  unfold bits
  have h1 := Nat.div_add_mod n (2 ^ lo)
  have h2 := Nat.div_add_mod (n / 2 ^ lo) (2 ^ w)
  rw [Nat.div_div_eq_div_mul, ← Nat.pow_add] at h2
  have h3 : 2 ^ lo * (2 ^ w * (n / 2 ^ (lo + w))) = n / 2 ^ (lo + w) * 2 ^ (lo + w) := by
    rw [Nat.pow_add]; grind
  have h4 : 2 ^ lo * (n / 2 ^ lo) = 2 ^ lo * (2 ^ w * (n / 2 ^ (lo + w))) + n / 2 ^ lo % 2 ^ w * 2 ^ lo := by
    have h5 := congrArg (2 ^ lo * ·) h2
    grind
  omega

theorem setBits_eq (n lo w v : Nat) :
    setBits n lo w v = n / 2 ^ (lo + w) * 2 ^ (lo + w) + v % 2 ^ w * 2 ^ lo + n % 2 ^ lo := by
  have h := bits_split n lo w
  unfold setBits
  omega

/-- What a field reads after it is written. -/
theorem bits_setBits_same (n lo w v : Nat) : bits (setBits n lo w v) lo w = v % 2 ^ w := by
  rw [setBits_eq]
  unfold bits
  have hlo := Nat.two_pow_pos lo
  have e : n / 2 ^ (lo + w) * 2 ^ (lo + w) + v % 2 ^ w * 2 ^ lo + n % 2 ^ lo
      = n % 2 ^ lo + 2 ^ lo * (v % 2 ^ w + 2 ^ w * (n / 2 ^ (lo + w))) := by rw [Nat.pow_add]; grind
  rw [e, Nat.add_mul_div_left _ _ hlo, Nat.div_eq_of_lt (Nat.mod_lt _ hlo), Nat.zero_add, Nat.add_mul_mod_self_left, Nat.mod_mod]

/-- A field below one that is written. -/
theorem bits_setBits_below (n lo w v lo' w' : Nat) (h : lo' + w' ≤ lo) : bits (setBits n lo w v) lo' w' = bits n lo' w' := by
  rw [setBits_eq]
  obtain ⟨k, rfl⟩ := Nat.exists_eq_add_of_le h
  unfold bits
  have hlo := Nat.two_pow_pos lo'
  have key : ∀ a b : Nat, (b + 2 ^ (lo' + w' + k) * a) / 2 ^ lo' % 2 ^ w' = b / 2 ^ lo' % 2 ^ w' := by
    intro a b
    rw [show 2 ^ (lo' + w' + k) * a = 2 ^ lo' * (2 ^ w' * (2 ^ k * a)) by rw [Nat.pow_add, Nat.pow_add]; grind,
      Nat.add_mul_div_left _ _ hlo, Nat.add_mul_mod_self_left]
  have e1 : n / 2 ^ (lo' + w' + k + w) * 2 ^ (lo' + w' + k + w) + v % 2 ^ w * 2 ^ (lo' + w' + k) + n % 2 ^ (lo' + w' + k)
      = n % 2 ^ (lo' + w' + k) + 2 ^ (lo' + w' + k) * (v % 2 ^ w + 2 ^ w * (n / 2 ^ (lo' + w' + k + w))) := by
    rw [Nat.pow_add 2 (lo' + w' + k) w]; grind
  have e3 := key (n / 2 ^ (lo' + w' + k)) (n % 2 ^ (lo' + w' + k))
  rw [Nat.mod_add_div] at e3
  rw [e1, key, e3]

/-- A field above one that is written. -/
theorem bits_setBits_above (n lo w v lo' w' : Nat) (h : lo + w ≤ lo') : bits (setBits n lo w v) lo' w' = bits n lo' w' := by
  rw [setBits_eq]
  obtain ⟨k, rfl⟩ := Nat.exists_eq_add_of_le h
  unfold bits
  have hp := Nat.two_pow_pos (lo + w)
  have hb : v % 2 ^ w * 2 ^ lo + n % 2 ^ lo < 2 ^ (lo + w) := by
    have h1 := Nat.mod_lt v (Nat.two_pow_pos w)
    have h2 := Nat.mod_lt n (Nat.two_pow_pos lo)
    rw [Nat.pow_add]
    calc v % 2 ^ w * 2 ^ lo + n % 2 ^ lo < v % 2 ^ w * 2 ^ lo + 2 ^ lo := by omega
      _ = (v % 2 ^ w + 1) * 2 ^ lo := by grind
      _ ≤ 2 ^ w * 2 ^ lo := Nat.mul_le_mul_right _ h1
      _ = 2 ^ lo * 2 ^ w := Nat.mul_comm _ _
  have e : (n / 2 ^ (lo + w) * 2 ^ (lo + w) + v % 2 ^ w * 2 ^ lo + n % 2 ^ lo) / 2 ^ (lo + w) = n / 2 ^ (lo + w) := by
    rw [Nat.add_assoc, Nat.add_comm, Nat.add_mul_div_right _ _ hp, Nat.div_eq_of_lt hb, Nat.zero_add]
  rw [Nat.pow_add 2 (lo + w) k, ← Nat.div_div_eq_div_mul, e, Nat.div_div_eq_div_mul]

theorem bits_of_lt {n w : Nat} (h : n < 2 ^ w) : bits n 0 w = n := by unfold bits; rw [Nat.pow_zero, Nat.div_one, Nat.mod_eq_of_lt h]

theorem setBits_lt {n lo w v k : Nat} (hn : n < 2 ^ k) (hk : lo + w ≤ k) : setBits n lo w v < 2 ^ k := by
  rw [setBits_eq]
  obtain ⟨j, rfl⟩ := Nat.exists_eq_add_of_le hk
  have hp := Nat.two_pow_pos (lo + w)
  have hb : v % 2 ^ w * 2 ^ lo + n % 2 ^ lo < 2 ^ (lo + w) := by
    have h1 := Nat.mod_lt v (Nat.two_pow_pos w)
    have h2 := Nat.mod_lt n (Nat.two_pow_pos lo)
    rw [Nat.pow_add]
    calc v % 2 ^ w * 2 ^ lo + n % 2 ^ lo < v % 2 ^ w * 2 ^ lo + 2 ^ lo := by omega
      _ = (v % 2 ^ w + 1) * 2 ^ lo := by grind
      _ ≤ 2 ^ w * 2 ^ lo := Nat.mul_le_mul_right _ h1
      _ = 2 ^ lo * 2 ^ w := Nat.mul_comm _ _
  have hd : n / 2 ^ (lo + w) < 2 ^ j := by
    rw [Nat.div_lt_iff_lt_mul hp, ← Nat.pow_add, Nat.add_comm]; exact hn
  calc n / 2 ^ (lo + w) * 2 ^ (lo + w) + v % 2 ^ w * 2 ^ lo + n % 2 ^ lo
      < (n / 2 ^ (lo + w) + 1) * 2 ^ (lo + w) := by rw [Nat.add_mul, Nat.one_mul]; omega
    _ ≤ 2 ^ j * 2 ^ (lo + w) := Nat.mul_le_mul_right _ hd
    _ = 2 ^ (lo + w + j) := by rw [← Nat.pow_add, Nat.add_comm]

/-! ## Registers -/

theorem Die.reg_lt (x : Die) (off : Nat) : x.reg off < 2 ^ 64 := (SMap.get regDflt x.regs off).isLt

theorem Die.reg_setReg_same (x : Die) (off v : Nat) : (x.setReg off v).reg off = v % 2 ^ 64 := by
  unfold Die.reg Die.setReg
  rw [SMap.get_set_same, BitVec.toNat_ofNat]

theorem Die.reg_setReg_other (x : Die) {off o : Nat} (v : Nat) (h : o ≠ off) : (x.setReg off v).reg o = x.reg o := by
  unfold Die.reg Die.setReg
  rw [SMap.get_set_other h]

/-- A field reads what was last written to it, cut to its width. -/
theorem Die.rd_wr_same (x : Die) {f : Fld} (hf : f.lo + f.w ≤ 64) (v : Nat) : (x.wr f v).rd f = v % 2 ^ f.w := by
  unfold Die.rd Die.wr
  rw [Die.reg_setReg_same, Nat.mod_eq_of_lt (setBits_lt (x.reg_lt _) hf), bits_setBits_same]

/-- A field of another register keeps its value. -/
theorem Die.rd_wr_reg (x : Die) {f g : Fld} (v : Nat) (h : g.off ≠ f.off) : (x.wr f v).rd g = x.rd g := by
  unfold Die.rd Die.wr
  rw [Die.reg_setReg_other x _ h]

/-- Another field of the same register keeps its value. -/
theorem Die.rd_wr_fld (x : Die) {f g : Fld} (v : Nat) (hf : f.lo + f.w ≤ 64) (ho : g.off = f.off)
    (hd : g.lo + g.w ≤ f.lo ∨ f.lo + f.w ≤ g.lo) : (x.wr f v).rd g = x.rd g := by
  unfold Die.rd Die.wr
  rw [ho, Die.reg_setReg_same, Nat.mod_eq_of_lt (setBits_lt (x.reg_lt _) hf)]
  cases hd with
  | inl h => exact bits_setBits_below _ _ _ _ _ _ h
  | inr h => exact bits_setBits_above _ _ _ _ _ _ h

theorem Mach.rd_wr_same {m : Mach} {d : Nat} (hd : d < m.dies.length) {f : Fld} (hf : f.lo + f.w ≤ 64) (v : Nat) :
    (m.wr d f v).rd d f = v % 2 ^ f.w := by
  unfold Mach.rd Mach.wr
  rw [Mach.die_upd_same hd]
  exact Die.rd_wr_same _ hf v

theorem Mach.rd_wr_reg {m : Mach} {d e : Nat} {f g : Fld} (v : Nat) (h : g.off ≠ f.off) : (m.wr d f v).rd e g = m.rd e g := by
  unfold Mach.rd Mach.wr
  by_cases he : e = d
  · subst he
    by_cases hd : e < m.dies.length
    · rw [Mach.die_upd_same hd]; exact Die.rd_wr_reg _ v h
    · unfold Mach.die Mach.upd
      simp [List.getD_eq_getElem?_getD, hd]
  · rw [Mach.die_upd_other he]

theorem Mach.rd_wr_die {m : Mach} {d e : Nat} {f g : Fld} (v : Nat) (h : e ≠ d) : (m.wr d f v).rd e g = m.rd e g := by
  unfold Mach.rd Mach.wr; rw [Mach.die_upd_other h]

theorem Mach.rd_wr_fld {m : Mach} {d e : Nat} {f g : Fld} (v : Nat) (hf : f.lo + f.w ≤ 64) (ho : g.off = f.off)
    (hd : g.lo + g.w ≤ f.lo ∨ f.lo + f.w ≤ g.lo) : (m.wr d f v).rd e g = m.rd e g := by
  unfold Mach.rd Mach.wr
  by_cases he : e = d
  · subst he
    by_cases hl : e < m.dies.length
    · rw [Mach.die_upd_same hl]; exact Die.rd_wr_fld _ v hf ho hd
    · unfold Mach.die Mach.upd
      simp [List.getD_eq_getElem?_getD, hl]
  · rw [Mach.die_upd_other he]

section
variable (m : Mach) (d : Nat) (f : Fld) (v : Nat)
@[simp] theorem Mach.wr_out : (m.wr d f v).out = m.out := rfl
@[simp] theorem Mach.wr_freeCtr : (m.wr d f v).freeCtr = m.freeCtr := rfl
@[simp] theorem Mach.wr_supply : (m.wr d f v).supply = m.supply := rfl
@[simp] theorem Mach.wr_pw : (m.wr d f v).pw = m.pw := rfl
@[simp] theorem Mach.wr_pres : (m.wr d f v).pres = m.pres := rfl
@[simp] theorem Mach.wr_nor : (m.wr d f v).nor = m.nor := rfl
@[simp] theorem Mach.wr_cfg : (m.wr d f v).cfg = m.cfg := rfl
@[simp] theorem Mach.wr_fw : (m.wr d f v).fw = m.fw := rfl
@[simp] theorem Mach.wr_fab : (m.wr d f v).fab = m.fab := rfl
@[simp] theorem Mach.wr_lds : (m.wr d f v).lds = m.lds := rfl
@[simp] theorem Mach.wr_lse : (m.wr d f v).lse = m.lse := rfl
@[simp] theorem Mach.wr_pool : (m.wr d f v).pool = m.pool := rfl
@[simp] theorem Mach.wr_length : (m.wr d f v).dies.length = m.dies.length := List.length_modify ..
end

/-! ## The other parts of a die -/

section
variable (x : Die) (f : Fld) (off v : Nat)
@[simp] theorem Die.setReg_latch : (x.setReg off v).latch = x.latch := rfl
@[simp] theorem Die.setReg_homes : (x.setReg off v).homes = x.homes := rfl
@[simp] theorem Die.setReg_clk : (x.setReg off v).clk = x.clk := rfl
@[simp] theorem Die.setReg_log : (x.setReg off v).log = x.log := rfl
@[simp] theorem Die.setReg_aux : (x.setReg off v).aux = x.aux := rfl
@[simp] theorem Die.setReg_dram : (x.setReg off v).dram = x.dram := rfl
@[simp] theorem Die.setReg_qos : (x.setReg off v).qos = x.qos := rfl
@[simp] theorem Die.setReg_coh : (x.setReg off v).coh = x.coh := rfl
@[simp] theorem Die.setReg_tier : (x.setReg off v).tier = x.tier := rfl
@[simp] theorem Die.setReg_xc : (x.setReg off v).xc = x.xc := rfl
@[simp] theorem Die.setReg_fl : (x.setReg off v).fl = x.fl := rfl
@[simp] theorem Die.setReg_jobs : (x.setReg off v).jobs = x.jobs := rfl
@[simp] theorem Die.setReg_unreleased : (x.setReg off v).unreleased = x.unreleased := rfl
@[simp] theorem Die.setReg_stage : (x.setReg off v).stage = x.stage := rfl
@[simp] theorem Die.wr_latch : (x.wr f v).latch = x.latch := rfl
@[simp] theorem Die.wr_homes : (x.wr f v).homes = x.homes := rfl
@[simp] theorem Die.wr_clk : (x.wr f v).clk = x.clk := rfl
@[simp] theorem Die.wr_log : (x.wr f v).log = x.log := rfl
@[simp] theorem Die.wr_aux : (x.wr f v).aux = x.aux := rfl
@[simp] theorem Die.wr_dram : (x.wr f v).dram = x.dram := rfl
@[simp] theorem Die.wr_qos : (x.wr f v).qos = x.qos := rfl
@[simp] theorem Die.wr_coh : (x.wr f v).coh = x.coh := rfl
@[simp] theorem Die.wr_tier : (x.wr f v).tier = x.tier := rfl
@[simp] theorem Die.wr_xc : (x.wr f v).xc = x.xc := rfl
@[simp] theorem Die.wr_fl : (x.wr f v).fl = x.fl := rfl
@[simp] theorem Die.wr_jobs : (x.wr f v).jobs = x.jobs := rfl
@[simp] theorem Die.wr_unreleased : (x.wr f v).unreleased = x.unreleased := rfl
@[simp] theorem Die.wr_stage : (x.wr f v).stage = x.stage := rfl
end

section
variable (m : Mach) (ld : Nat) (f : LdRec → LdRec)
@[simp] theorem Mach.updLd_out : (m.updLd ld f).out = m.out := rfl
@[simp] theorem Mach.updLd_freeCtr : (m.updLd ld f).freeCtr = m.freeCtr := rfl
@[simp] theorem Mach.updLd_supply : (m.updLd ld f).supply = m.supply := rfl
@[simp] theorem Mach.updLd_pw : (m.updLd ld f).pw = m.pw := rfl
@[simp] theorem Mach.updLd_pres : (m.updLd ld f).pres = m.pres := rfl
@[simp] theorem Mach.updLd_nor : (m.updLd ld f).nor = m.nor := rfl
@[simp] theorem Mach.updLd_cfg : (m.updLd ld f).cfg = m.cfg := rfl
@[simp] theorem Mach.updLd_fw : (m.updLd ld f).fw = m.fw := rfl
@[simp] theorem Mach.updLd_fab : (m.updLd ld f).fab = m.fab := rfl
@[simp] theorem Mach.updLd_lse : (m.updLd ld f).lse = m.lse := rfl
@[simp] theorem Mach.updLd_pool : (m.updLd ld f).pool = m.pool := rfl
@[simp] theorem Mach.updLd_dies : (m.updLd ld f).dies = m.dies := rfl
end

/-! ## Traffic -/

section
variable (m : Mach) (o : Out)
@[simp] theorem Mach.send_out : (m.send o).out = m.out ++ [o] := rfl
@[simp] theorem Mach.send_dies : (m.send o).dies = m.dies := rfl
@[simp] theorem Mach.send_die (d : Nat) : (m.send o).die d = m.die d := rfl
@[simp] theorem Mach.send_rd (d : Nat) (f : Fld) : (m.send o).rd d f = m.rd d f := rfl
@[simp] theorem Mach.send_pw : (m.send o).pw = m.pw := rfl
@[simp] theorem Mach.send_nor : (m.send o).nor = m.nor := rfl
@[simp] theorem Mach.send_fw : (m.send o).fw = m.fw := rfl
@[simp] theorem Mach.send_lds : (m.send o).lds = m.lds := rfl
@[simp] theorem Mach.send_lse : (m.send o).lse = m.lse := rfl
@[simp] theorem Mach.send_pool : (m.send o).pool = m.pool := rfl
end

/-! ## The queue -/

theorem step_cons (c : Instr) (rest : List Instr) (m : Mach) :
    step { pending := c :: rest, m := m } = exec c { pending := rest, m := m } := rfl

end Sys2Proof.Machine
end

