-- ==== Sys2Proof/Laws/Notes.lean ====
section
/-! SUPPORT. What writing a pennant, raising an event and sending a vector leave as it was. -/

namespace Sys2Proof.Machine

/-! ## The logs of one die -/

/-- Everything of a die but its registers and its logs. -/
def Die.restKept (x y : Die) : Prop :=
  y.latch = x.latch ∧ y.homes = x.homes ∧ y.clk = x.clk ∧ y.aux = x.aux ∧ y.dram = x.dram ∧ y.qos = x.qos ∧ y.coh = x.coh ∧ y.tier = x.tier
    ∧ y.xc = x.xc ∧ y.fl = x.fl ∧ y.jobs = x.jobs ∧ y.unreleased = x.unreleased ∧ y.stage = x.stage

theorem Die.restKept_refl (x : Die) : x.restKept x := ⟨rfl, rfl, rfl, rfl, rfl, rfl, rfl, rfl, rfl, rfl, rfl, rfl, rfl⟩

theorem Die.restKept_trans {x y z : Die} (h : x.restKept y) (k : y.restKept z) : x.restKept z := by
  obtain ⟨a1, a2, a3, a4, a5, a6, a7, a8, a9, a10, a11, a12, a13⟩ := h
  obtain ⟨b1, b2, b3, b4, b5, b6, b7, b8, b9, b10, b11, b12, b13⟩ := k
  exact ⟨b1.trans a1, b2.trans a2, b3.trans a3, b4.trans a4, b5.trans a5, b6.trans a6, b7.trans a7, b8.trans a8, b9.trans a9,
    b10.trans a10, b11.trans a11, b12.trans a12, b13.trans a13⟩

/-- A die changed in its logs and the registers of the log alone. -/
def Die.onlyLog (x y : Die) : Prop := x.restKept y ∧ ∀ f : Fld, f.off ∉ logRegs → y.rd f = x.rd f

theorem Die.onlyLog_refl (x : Die) : x.onlyLog x := ⟨x.restKept_refl, fun _ _ => rfl⟩

theorem Die.onlyLog_trans {x y z : Die} (h : x.onlyLog y) (k : y.onlyLog z) : x.onlyLog z :=
  ⟨Die.restKept_trans h.1 k.1, fun f hf => (k.2 f hf).trans (h.2 f hf)⟩

theorem Die.onlyLog_wr (x : Die) {f : Fld} (v : Nat) (h : f.off ∈ logRegs) : x.onlyLog (x.wr f v) :=
  ⟨x.restKept_refl, fun _ hg => Die.rd_wr_reg x v (fun e => hg (e ▸ h))⟩

theorem Die.onlyLog_foldl {α : Type} {g : Die → α → Die} (hg : ∀ (x : Die) a, x.onlyLog (g x a)) (l : List α) :
    ∀ x : Die, x.onlyLog (l.foldl g x) := by
  induction l with
  | nil => exact Die.onlyLog_refl
  | cons a l ih => exact fun x => Die.onlyLog_trans (hg x a) (ih _)

theorem Die.onlyLog_aon (x : Die) (r : BitVec 128) : x.onlyLog (x.aonAppend r) := ⟨x.restKept_refl, fun _ _ => rfl⟩

theorem Die.onlyLog_append (x : Die) (r : BitVec 128) : x.onlyLog (x.logAppend r) := by
  unfold Die.logAppend
  extract_lets size full ring nxt src x1 x2
  have h1 : x.onlyLog x1 := ⟨x.restKept_refl, fun _ _ => rfl⟩
  have h2 : x.onlyLog x2 := Die.onlyLog_trans (Die.onlyLog_trans h1 (Die.onlyLog_wr _ _ (by decide))) (Die.onlyLog_wr _ _ (by decide))
  split
  · exact Die.onlyLog_trans h2 (Die.onlyLog_wr _ _ (by decide))
  · exact h2

theorem Die.onlyLog_group (x : Die) (half : Bool) (rs : List (BitVec 128)) : x.onlyLog (x.logGroup half rs) := by
  unfold Die.logGroup
  extract_lets y
  have h1 : x.onlyLog y := Die.onlyLog_foldl Die.onlyLog_aon rs x
  split
  · split <;> exact Die.onlyLog_trans h1 ⟨y.restKept_refl, fun _ _ => rfl⟩
  · have h2 : ∀ v, x.onlyLog (y.wr Reg.ERR_SEQ.NEXT v) := fun v => Die.onlyLog_trans h1 (Die.onlyLog_wr _ _ (by decide))
    split
    · exact h2 _
    · exact Die.onlyLog_trans (h2 _) (Die.onlyLog_foldl Die.onlyLog_append rs _)

/-! ## The machine -/

/-- A machine changed in logs, log registers, last stamps, event records, vectors, traffic and free choices alone. -/
def Mach.onlyNotes (a b : Mach) : Prop :=
  b.pw = a.pw ∧ b.pres = a.pres ∧ b.nor = a.nor ∧ b.cfg = a.cfg ∧ b.fw = a.fw ∧ b.fab = a.fab ∧ b.lse = a.lse ∧ b.pool = a.pool
    ∧ b.dies.length = a.dies.length ∧ ∀ d, (∀ f : Fld, f.off ∉ logRegs → (b.die d).rd f = (a.die d).rd f)
    ∧ (b.die d).latch = (a.die d).latch ∧ (b.die d).homes = (a.die d).homes ∧ (∃ l, (b.die d).clk = { (a.die d).clk with last := l }) ∧ (b.die d).aux = (a.die d).aux
    ∧ (b.die d).dram = (a.die d).dram ∧ (b.die d).qos = (a.die d).qos ∧ (b.die d).coh = (a.die d).coh
    ∧ (b.die d).tier = (a.die d).tier ∧ (b.die d).xc = (a.die d).xc ∧ (b.die d).fl = (a.die d).fl ∧ (b.die d).jobs = (a.die d).jobs
    ∧ (b.die d).unreleased = (a.die d).unreleased ∧ (b.die d).stage = (a.die d).stage

theorem Mach.onlyNotes_dies {a b : Mach} (h : b.dies = a.dies) (h1 : b.pw = a.pw) (h2 : b.pres = a.pres) (h3 : b.nor = a.nor)
    (h4 : b.cfg = a.cfg) (h5 : b.fw = a.fw) (h6 : b.fab = a.fab) (h7 : b.lse = a.lse) (h8 : b.pool = a.pool) : a.onlyNotes b := by
  refine ⟨h1, h2, h3, h4, h5, h6, h7, h8, by rw [h], fun d => ?_⟩
  have e : b.die d = a.die d := by unfold Mach.die; rw [h]
  rw [e]
  exact ⟨fun _ _ => rfl, rfl, rfl, ⟨_, rfl⟩, rfl, rfl, rfl, rfl, rfl, rfl, rfl, rfl, rfl, rfl⟩

theorem Mach.onlyNotes_refl (m : Mach) : m.onlyNotes m := Mach.onlyNotes_dies rfl rfl rfl rfl rfl rfl rfl rfl rfl

theorem Mach.onlyNotes_trans {a b c : Mach} (h : a.onlyNotes b) (k : b.onlyNotes c) : a.onlyNotes c := by
  obtain ⟨a1, a2, a3, a4, a5, a6, a7, a8, a9, ad⟩ := h
  obtain ⟨b1, b2, b3, b4, b5, b6, b7, b8, b9, bd⟩ := k
  refine ⟨b1.trans a1, b2.trans a2, b3.trans a3, b4.trans a4, b5.trans a5, b6.trans a6, b7.trans a7, b8.trans a8, b9.trans a9,
    fun d => ?_⟩
  obtain ⟨p0, p1, pH, ⟨l, p2⟩, p3, p4, p5, p6, p7, p8, p9, p10, p11, p12⟩ := ad d
  obtain ⟨q0, q1, qH, ⟨k, q2⟩, q3, q4, q5, q6, q7, q8, q9, q10, q11, q12⟩ := bd d
  exact ⟨fun f hf => (q0 f hf).trans (p0 f hf), q1.trans p1, qH.trans pH, ⟨k, by rw [q2, p2]⟩, q3.trans p3, q4.trans p4, q5.trans p5, q6.trans p6,
    q7.trans p7, q8.trans p8, q9.trans p9, q10.trans p10, q11.trans p11, q12.trans p12⟩

theorem Mach.onlyNotes_chosen (m : Mach) : m.onlyNotes m.chosen := by
  unfold Mach.chosen
  split <;> exact Mach.onlyNotes_dies rfl rfl rfl rfl rfl rfl rfl rfl rfl

theorem Mach.onlyNotes_send (m : Mach) (o : Out) : m.onlyNotes (m.send o) :=
  Mach.onlyNotes_dies rfl rfl rfl rfl rfl rfl rfl rfl rfl

theorem Mach.onlyNotes_sendAll (m : Mach) (os : List Out) : m.onlyNotes (m.sendAll os) :=
  Mach.onlyNotes_dies rfl rfl rfl rfl rfl rfl rfl rfl rfl

theorem Mach.onlyNotes_updLd (m : Mach) (ld : Nat) (f : LdRec → LdRec) : m.onlyNotes (m.updLd ld f) :=
  Mach.onlyNotes_dies rfl rfl rfl rfl rfl rfl rfl rfl rfl

/-- One die changed by a function that changes logs and last stamp alone. -/
theorem Mach.onlyNotes_upd (m : Mach) (d : Nat) {f : Die → Die}
    (hf : ∀ x : Die, ∃ l, ({ x with clk := { x.clk with last := l } } : Die).onlyLog (f x)) : m.onlyNotes (m.upd d f) := by
  refine ⟨rfl, rfl, rfl, rfl, rfl, rfl, rfl, rfl, List.length_modify .., fun e => ?_⟩
  by_cases he : e = d
  · subst he
    by_cases hl : e < m.dies.length
    · rw [Mach.die_upd_same hl]
      obtain ⟨l, ⟨h1, hH, h2, h3, h4, h5, h6, h7, h8, h9, h10, h11, h12⟩, h⟩ := hf (m.die e)
      exact ⟨h, h1, hH, ⟨l, h2⟩, h3, h4, h5, h6, h7, h8, h9, h10, h11, h12⟩
    · have e1 : (m.upd e f).die e = m.die e := by
        unfold Mach.die Mach.upd
        simp [List.getD_eq_getElem?_getD, hl]
      rw [e1]
      exact ⟨fun _ _ => rfl, rfl, rfl, ⟨_, rfl⟩, rfl, rfl, rfl, rfl, rfl, rfl, rfl, rfl, rfl, rfl⟩
  · rw [Mach.die_upd_other he]
    exact ⟨fun _ _ => rfl, rfl, rfl, ⟨_, rfl⟩, rfl, rfl, rfl, rfl, rfl, rfl, rfl, rfl, rfl, rfl⟩

theorem Mach.onlyNotes_issue (m : Mach) (d t : Nat) : m.onlyNotes (m.issue d t) :=
  Mach.onlyNotes_upd m d (fun _ => ⟨_, Die.onlyLog_refl _⟩)

theorem Mach.onlyNotes_note (m : Mach) (d unit : Nat) (pc : PCode) (detail : Nat) (args : List Nat) (flags : Nat)
    (carried : Option Nat) : m.onlyNotes (m.note d unit pc detail args flags carried) := by
  unfold Mach.note
  extract_lets t raised m1 half
  exact Mach.onlyNotes_trans (Mach.onlyNotes_issue m d t) (Mach.onlyNotes_upd m1 d (fun x => ⟨x.clk.last, Die.onlyLog_group _ _ _⟩))

theorem Mach.onlyNotes_noteFree (m : Mach) (d unit cls detail : Nat) (args : List Nat) : m.onlyNotes (m.noteFree d unit cls detail args) :=
  Mach.onlyNotes_trans (Mach.onlyNotes_chosen m) (Mach.onlyNotes_note _ _ _ _ _ _ _ _)

theorem Mach.onlyNotes_raiseVec (m : Mach) (ld v : Nat) : m.onlyNotes (m.raiseVec ld v) := by
  unfold Mach.raiseVec
  dsimp only
  split
  · exact Mach.onlyNotes_send m _
  · exact Mach.onlyNotes_updLd m _ _

theorem Mach.onlyNotes_event (m : Mach) (ld : Nat) (log : EventLog) (kind : Nat) (args : List Nat) :
    m.onlyNotes (m.event ld log kind args) := by
  unfold Mach.event
  extract_lets e m1
  have h1 : m.onlyNotes m1 := Mach.onlyNotes_updLd m _ _
  split
  · exact Mach.onlyNotes_trans h1 (Mach.onlyNotes_raiseVec _ _ _)
  · exact h1

theorem Mach.onlyNotes_foldl {α : Type} {f : Mach → α → Mach} (hf : ∀ (m : Mach) a, m.onlyNotes (f m a)) (l : List α) :
    ∀ m : Mach, m.onlyNotes (l.foldl f m) := by
  induction l with
  | nil => exact Mach.onlyNotes_refl
  | cons a l ih => exact fun m => Mach.onlyNotes_trans (hf m a) (ih _)

/-- A non-maskable event beside the setting of its status bit. -/
theorem Mach.onlyNotes_nmi (m : Mach) (d : Nat) (b : Fld) (unit : Nat) (pc : PCode) (detail : Nat) (args : List Nat) :
    (m.wr d b 1).onlyNotes (m.nmi d b unit pc detail args) := by
  unfold Mach.nmi
  refine Mach.onlyNotes_trans (Mach.onlyNotes_note _ _ _ _ _ _ _ _) (Mach.onlyNotes_foldl (fun m ld => ?_) _ _)
  split
  · exact Mach.onlyNotes_event _ _ _ _ _
  · exact Mach.onlyNotes_updLd _ _ _

/-! ## What follows of it -/

theorem Mach.onlyNotes_rd {a b : Mach} (h : a.onlyNotes b) {d : Nat} {f : Fld} (hf : f.off ∉ logRegs) : b.rd d f = a.rd d f :=
  (h.2.2.2.2.2.2.2.2.2 d).1 f hf

theorem Mach.onlyNotes_regs {a b : Mach} (h : a.onlyNotes b) (d : Nat) : a.regsKept b d [] := fun _ _ _ hf => Mach.onlyNotes_rd h hf

theorem Mach.onlyNotes_data {a b : Mach} (h : a.onlyNotes b) : a.dataKept b := by
  obtain ⟨_, _, h3, _, _, _, h7, _, _, hd⟩ := h
  refine ⟨fun d x => ?_, fun d x => ?_, fun x => ?_, fun d => ?_, h7⟩
  · unfold Mach.dramByte; rw [(hd d).2.2.2.2.2.1]
  · unfold Mach.flashByte; rw [(hd d).2.2.2.2.2.2.2.2.2.2.1]
  · unfold Mach.norByte; rw [h3]
  · rw [(hd d).2.2.2.2.2.2.2.2.1]

end Sys2Proof.Machine
end

