-- ==== Sys2Proof/WellFormed.lean ====
section
/-! DEFINITION. Well-formed commands: every number in a command names something that the package has (R1, R7, R31, R258). -/

namespace Sys2Proof

/-- A die of the package (R7). -/
def dieOk (d : Nat) : Bool := decide (d < 8)

/-- A logical device: 16 to a port (R258). -/
def ldOk (ld : Nat) : Bool := decide (ld < 128)

/-- The work of a DRAM request names an LD of the package (R360). -/
def workOk (work : QosWork) : Bool :=
  match work with
  | .hostLine ld | .hostPromotion ld => ldOk ld
  | .jobFetch _ | .jobBuffer | .encode | .replicate | .migration | .relocation | .management => true

/-- A ring class (R154). -/
def classOk (cls : Nat) : Bool := decide (cls < 64)

/-- A path to registers: BARs are 0, 2 and 4 of an LD (R261). -/
def viaOk (via : Via) : Bool :=
  match via with
  | .service | .mgmt => true
  | .bar ld b => ldOk ld && [0, 2, 4].contains b

/-- A ring of the package (R153). -/
def ringOk (r : Nat) : Bool := decide (r < 16384)

/-- A Bytrathal link of a die (R18). -/
def linkOk (i : Nat) : Bool := decide (i < 3)

/-- A word of a die's control space (R8). -/
def offOk (off : Nat) : Bool := decide (off < 2 ^ 24) && decide (off % 4 = 0)

/-- A DRAM channel (R287). -/
def chanOk (c : Nat) : Bool := decide (c < 12)

/-- A GDDR7 device (R287). -/
def devOk (j : Nat) : Bool := decide (j < 3)

/-- A flash channel (R323). -/
def flashChOk (c : Nat) : Bool := decide (c < 8)

/-- An extent number (R45). -/
def extOk (e : Nat) : Bool := decide (e < 2 ^ 20)

/-- A frame of an extent, or 4,096 + p for its summary page p (R84, R199). -/
def frameOk (f : Nat) : Bool := decide (f < 4160)

/-- A region of an LD (R43). -/
def regionOk (r : Nat) : Bool := decide (r < 2)

/-- A leaky bucket (R406). -/
def bucketOk (i : Nat) : Bool := decide (i < 55)

/-- A half of a port (R255). -/
def halfOk (h : Nat) : Bool := decide (h < 2)

/-- A package of a pool (R475). -/
def pkgOk (p : Nat) : Bool := decide (p < 32)

/-- As many lanes as channels are trained (R312). -/
def laneCountOk (n : Nat) (ls : List Lane) : Bool := decide (ls.length = n)

/-- Discovery finds eight channels (R323). -/
def foundOk (fs : List FoundChannel) : Bool := decide (fs.length = 8)

/-- Eight thermal sensors (R523). -/
def readingsOk (rs : List Int) : Bool := decide (rs.length = 8)

/-- Sixteen sector counts of 1 to 64, or none for a LOST frame (R84, R486). -/
def sectorsOk (cs : List Nat) : Bool := cs.isEmpty || (decide (cs.length = 16) && cs.all (fun c => decide (1 ≤ c) && decide (c ≤ 64)))

/-- A nonce of 32 bytes (R502). -/
def nonceOk (n : List Byte) : Bool := decide (n.length = 32)

/-- A line of an extent (R64). -/
def lineOk (l : Nat) : Bool := decide (l < 2 ^ 22)

/-- An MSI-X vector (R267). -/
def vectorOk (v : Nat) : Bool := decide (v < 2048)

/-- A job record of a die (R164). -/
def recordOk (j : Nat) : Bool := decide (j < 12288)

/-- A QoS master (R361). -/
def masterOk (i : Nat) : Bool := decide (i < 194)

/-- A block of the flash (R323, R328). -/
def blockOk (b : BlockAddr) : Bool := flashChOk b.ch && decide (b.unit < 32)

/-- A 7-bit address of the service port (R488). -/
def addrOk (a : Nat) : Bool := decide (a < 128)

/-- A code table of an extent (R133). -/
def tidxOk (t : Nat) : Bool := decide (t < 256)

/-- A block of a frame (R118). -/
def blockIdxOk (b : Nat) : Bool := decide (b < 16)

/-- A store's bytes lie within one line (R74). -/
def storeOk (first : Nat) (data : List Byte) : Bool := decide (0 < data.length) && decide (first + data.length ≤ 64)

/-- Is a command well-formed? -/
def Instr.wf (i : Instr) : Bool :=
  match i with
  | .registerWrite via die off _ => viaOk via && dieOk die && offOk off
  | .porNAssert => true
  | .railUndervoltage _ => true
  | .porNDeassert ensignSel poolId => dieOk ensignSel && pkgOk poolId
  | .crystalStable die _ => dieOk die
  | .noXtal die => dieOk die
  | .pllLock die => dieOk die
  | .bytrathalTrainingDone failed => failed.all (fun p => dieOk p.1)
  | .imageLoad _ _ _ identityFail => identityFail.all dieOk
  | .dramStartUp die _ lanes => dieOk die && laneCountOk 12 lanes
  | .flashDiscovery die found _ _ => dieOk die && foundOk found
  | .firstDiscovery die factoryBad => dieOk die && factoryBad.all blockOk
  | .mapRecovery die _ _ _ => dieOk die
  | .dieSetReady => true
  | .ldReady ld => ldOk ld
  | .clockMonitorWindow die _ => dieOk die
  | .clockFailMessage die => dieOk die
  | .clkOutCtrl die _ => dieOk die
  | .halyardMeasure die _ => dieOk die
  | .timeMark die => dieOk die
  | .timeMarkDurable die => dieOk die
  | .ceilingReached die => dieOk die
  | .tbTimeSet die _ => dieOk die
  | .flitReceive die link _ => dieOk die && linkOk link
  | .heartbeatSend die => dieOk die
  | .heartbeatReceive die partner => dieOk die && dieOk partner
  | .heartbeatLost die partner => dieOk die && dieOk partner
  | .halfMastMessage die _ => dieOk die
  | .pwrHalt via die _ => viaOk via && dieOk die
  | .pwrReset via die _ => viaOk via && dieOk die
  | .unitIdleGate die _ => dieOk die
  | .unitWake die _ => dieOk die
  | .furlReq die _ => dieOk die
  | .furlCancel die _ => dieOk die
  | .furlIdleTimeout => true
  | .furlEntryStep => true
  | .furlL1Timeout die => dieOk die
  | .furledWake _ die failed => dieOk die && failed.all (fun p => dieOk p.1)
  | .thermalSample die readings => dieOk die && readingsOk readings
  | .presenceOpen => true
  | .presenceClose => true
  | .cfgDebug via die _ => viaOk via && dieOk die
  | .nvmRead die => dieOk die
  | .nvmProgram die => dieOk die
  | .nvmErase4K die => dieOk die
  | .nvmErase64K die => dieOk die
  | .nvmOperationComplete _ => true
  | .bbtNvmCopy die => dieOk die
  | .fmAddDynamicCapacity ld region _ _ => ldOk ld && regionOk region
  | .addDynamicCapacityResponse ld accepted rejected => ldOk ld && accepted.all (fun p => regionOk p.region) && rejected.all (fun p => regionOk p.region)
  | .offerTimeout ld region _ => ldOk ld && regionOk region
  | .releaseDynamicCapacity ld slots _ => ldOk ld && slots.all (fun p => regionOk p.region)
  | .initiateDynamicCapacityRelease ld region _ => ldOk ld && regionOk region
  | .revokeAcknowledged ld region _ => ldOk ld && regionOk region
  | .revokeStampReached ld region _ => ldOk ld && regionOk region
  | .linkdownRevokeExpiry ld => ldOk ld
  | .drainComplete ext => extOk ext
  | .clearingComplete ext => extOk ext
  | .hostLoad ld _ _ _ => ldOk ld
  | .hostStore ld _ first data _ _ => ldOk ld && storeOk first data
  | .biResponse ld ext line _ => ldOk ld && extOk ext && lineOk line
  | .biTimeout ld ext line => ldOk ld && extOk ext && lineOk line
  | .lsePlistPop die => dieOk die
  | .lseExtQuery die _ => dieOk die
  | .tierFrameQuery die _ => dieOk die
  | .heatDecayWalk die => dieOk die
  | .mapCheckpoint die => dieOk die
  | .fetchStart die ext idx => dieOk die && extOk ext && frameOk idx
  | .fetchInstall die ext idx => dieOk die && extOk ext && frameOk idx
  | .tierMissHoldExpiry die ext idx ld line => dieOk die && extOk ext && frameOk idx && ldOk ld && lineOk line
  | .evictionScan die => dieOk die
  | .evictionExecute die => dieOk die
  | .relocationSwitch die ext idx => dieOk die && extOk ext && frameOk idx
  | .oldLocationTrim die ext idx => dieOk die && extOk ext && frameOk idx
  | .settleFrame die ext idx => dieOk die && extOk ext && frameOk idx
  | .preloadEntry die => dieOk die
  | .tableLoad die _ ext tidx => dieOk die && extOk ext && tidxOk tidx
  | .blockDecode die _ ext idx block _ => dieOk die && extOk ext && frameOk idx && blockIdxOk block
  | .xcRecode die _ => dieOk die
  | .recodeSwitch die => dieOk die
  | .recodeTrim die => dieOk die
  | .ringEnable ring _ => ringOk ring
  | .ringDisable ring _ => ringOk ring
  | .ringDoorbell ring _ => ringOk ring
  | .ringCqHead ring _ => ringOk ring
  | .descriptorAccept ring => ringOk ring
  | .nop die job => dieOk die && recordOk job
  | .fence die job => dieOk die && recordOk job
  | .attend die job => dieOk die && recordOk job
  | .select die job => dieOk die && recordOk job
  | .linear die job => dieOk die && recordOk job
  | .groupedLinear die job => dieOk die && recordOk job
  | .gather die job => dieOk die && recordOk job
  | .ingest die job => dieOk die && recordOk job
  | .copy die job => dieOk die && recordOk job
  | .seal die job => dieOk die && recordOk job
  | .prefetch die job => dieOk die && recordOk job
  | .pin die job => dieOk die && recordOk job
  | .unpin die job => dieOk die && recordOk job
  | .replicatePush die job => dieOk die && recordOk job
  | .replicateRepair die job => dieOk die && recordOk job
  | .buntingClose die _ => dieOk die
  | .buntingRun die _ => dieOk die
  | .subJobFinish die job home => dieOk die && recordOk job && dieOk home
  | .jobFinish die job => dieOk die && recordOk job
  | .configurationRequest ld _ => ldOk ld
  | .msixTableWrite ld vector _ _ _ => ldOk ld && vectorOk vector
  | .upstreamReadCompletion die job _ _ _ _ => dieOk die && recordOk job
  | .portCplTimeout die job _ => dieOk die && recordOk job
  | .ptmDialog die => dieOk die
  | .ptmResponse die _ _ => dieOk die
  | .offtimeUnknownTimeout die => dieOk die
  | .functionLevelReset ld => ldOk ld
  | .flrComplete ld => ldOk ld
  | .perstNAssert die => dieOk die
  | .perstNDeassert die => dieOk die
  | .hotReset die half => dieOk die && halfOk half
  | .dataLinkDown die half => dieOk die && halfOk half
  | .linkUp die half _ _ _ => dieOk die && halfOk half
  | .doeDiscovery ld _ => ldOk ld
  | .cxlTableAccess ld => ldOk ld
  | .identifyMemoryDevice ld => ldOk ld
  | .getDynamicCapacityConfiguration ld => ldOk ld
  | .getDynamicCapacityExtentList ld => ldOk ld
  | .getEventRecords ld _ => ldOk ld
  | .clearEventRecords ld _ _ => ldOk ld
  | .getEventInterruptPolicy ld => ldOk ld
  | .setEventInterruptPolicy ld _ _ => ldOk ld
  | .getSupportedLogs ld => ldOk ld
  | .getLog ld => ldOk ld
  | .getTimestamp ld => ldOk ld
  | .setTimestamp ld _ => ldOk ld
  | .mailboxUnsupported ld _ => ldOk ld
  | .writeQueueDrain die ch => dieOk die && chanOk ch
  | .refresh die ch _ => dieOk die && chanOk ch
  | .selfRefreshEntry die ch => dieOk die && chanOk ch
  | .refreshWindow die ch => dieOk die && chanOk ch
  | .periodicRecentre die ch _ => dieOk die && chanOk ch
  | .channelFreeze die ch _ => dieOk die && chanOk ch
  | .freezeHoldExpiry die ch => dieOk die && chanOk ch
  | .channelRelease die ch _ => dieOk die && chanOk ch
  | .releaseRetrainDone die ch _ => dieOk die && chanOk ch
  | .pwrRampExpiry die dev => dieOk die && devOk dev
  | .deviceInitComplete die dev lanes => dieOk die && devOk dev && laneCountOk 4 lanes
  | .qosTick die => dieOk die
  | .qosWindowStart die m => dieOk die && masterOk m
  | .borrowStepUpdate die => dieOk die
  | .qosAdmit die work _ cls _ _ _ => dieOk die && workOk work && classOk cls
  | .qosRecompute die => dieOk die
  | .qosGuarWrite die m _ => dieOk die && m.all masterOk
  | .superblockOpen die _ eraseFails => dieOk die && eraseFails.all blockOk
  | .pageProgramComplete die _ _ => dieOk die
  | .tailWaitExpiry die _ => dieOk die
  | .pageReadComplete die ext idx _ _ => dieOk die && extOk ext && frameOk idx
  | .readRetryStep die ext idx _ => dieOk die && extOk ext && frameOk idx
  | .reclaimRound die => dieOk die
  | .staticLevelling die => dieOk die
  | .readDisturbCheck die b _ => dieOk die && blockOk b
  | .scrubPass die _ => dieOk die
  | .sweepSuperblock die _ => dieOk die
  | .flashCommandTimeout die ch => dieOk die && flashChOk ch
  | .bucketLeak die bucket => dieOk die && bucketOk bucket
  | .poolJoin pkg _ _ _ _ => pkgOk pkg
  | .joinRetry _ => true
  | .anchorSend pkg => pkgOk pkg
  | .anchorReceive _ _ _ => true
  | .anchorReply pkg _ _ _ => pkgOk pkg
  | .ensignLost => true
  | .poolRoleSet via die _ => viaOk via && dieOk die
  | .replicaReport _ => true
  | .replicaLookup asker originPkg _ => pkgOk asker && pkgOk originPkg
  | .lookupTimeout die ext idx => dieOk die && extOk ext && frameOk idx
  | .poolOpen src originPkg _ _ _ ld region _ => pkgOk src && pkgOk originPkg && ldOk ld && regionOk region
  | .frameDone ext _ idx sectors => extOk ext && sectorsOk sectors && frameOk idx
  | .poolClose ext => extOk ext
  | .pushTimeout ext => extOk ext
  | .setdasa static dynamic => addrOk static && addrOk dynamic
  | .entdaa dynamic => addrOk dynamic
  | .fwBegin _ _ => true
  | .backupCopyComplete _ => true
  | .fwData _ _ => true
  | .fwEnd _ => true
  | .fwActivate _ _ => true
  | .activation => true
  | .fwConfirmReq => true
  | .fwHealthConfirm _ _ _ => true
  | .confirmDeadline => true
  | .fwAbort => true
  | .fwStatus => true
  | .attest die nonce _ => dieOk die && nonceOk nonce
  | .getCert die _ => dieOk die
  | .poolSchedule _ _ _ => true
  | .scheduleConfirm pkg _ => pkgOk pkg
  | .retryFailure die link => dieOk die && linkOk link
  | .promotionEnd die ext idx _ => dieOk die && extOk ext && frameOk idx
  | .restoreCopyComplete _ => true
  | .pllRelock die => dieOk die
  | .flashChannelRetrain die ch _ => dieOk die && flashChOk ch
  | .lowWordRead w off => viaOk w.via && dieOk w.die && offOk off

end Sys2Proof
end

