-- ==== Sys2Proof/Tests/Slice0.lean ====
section
/-! SUPPORT. Tests: ill-formed commands refused, values from outside the model, one step each, and for every statement concrete states
and operands that meet its hypotheses. -/

set_option maxRecDepth 100000
set_option linter.unusedVariables false
set_option Elab.async false

open Sys2Proof Sys2Proof.Machine

namespace Sys2Proof.Tests

/-! ## States to test on -/

def errOf {α β : Type} (x : Except α β) : Option α := match x with | .error a => some a | .ok _ => none
def wrs (m : Mach) (d : Nat) (l : List (Fld × Nat)) : Mach := l.foldl (fun m p => m.wr d p.1 p.2) m
def both (m : Mach) (l : List (Fld × Nat)) : Mach := wrs (wrs m 0 l) 1 l
def at' (p : Phase) (m : Mach) : Mach := { m with pw := { m.pw with phase := p } }
def st (m : Mach) : State := { pending := [], m := m }
/-- Start-up at step `k` on both dies. -/
def starting (k : Nat) : Mach := at' .startup (both State.reset.m [(Reg.PWR_START_STEP.STEP, k)])
def trainedFab (m : Mach) : Mach := { m with fab := { m.fab with trained := true } }
/-- The dies' clocks at time `t`, established. -/
def timed (t : Nat) (m : Mach) : Mach :=
  { m with dies := m.dies.map (fun x => { x with clk := { (x.clk.setTime t) with fineRuns := true, provisional := false, gap := false, ito := false } }) }
/-- A package in service. -/
def up : Mach :=
  timed 1700000000 (trainedFab (at' .run (both State.reset.m
    [ (Reg.OPS_STATUS.READY, 1), (Reg.CFG_STATUS.DONE, 1), (Reg.TB_STATUS.ESTABLISHED, 1), (Reg.FLC_STATUS.READY, 1),
      (Reg.CLK_STATUS.SOURCE, 1), (Reg.CLK_STATUS.MON_ACTIVE, 1), (Reg.CLK_STATUS.PLL_LOCK, 1), (Reg.TB_MARK_PERIOD.MS, 1000),
      (Reg.TB_CEILING.CEILING, 5100000000), (Reg.PWR_START_STEP.STEP, 9), (Reg.PWR_CTRL.DIP_EN, 1) ])))
/-- A configuration image of one BOARD section. -/
def entryBytes (tag idx : Nat) (v : List Byte) : List Byte :=
  leBytes 2 tag ++ leBytes 2 idx ++ leBytes 4 v.length ++ v ++ List.replicate ((v.length + 3) / 4 * 4 - v.length) 0
def boardSec : List Byte := entryBytes 1 0 [2] ++ entryBytes 2 0 [0] ++ entryBytes 5 0 [1, 1, 8, 0, 2, 0, 64, 0]
def slot0 : List Byte := leBytes 4 0x47464347 ++ leBytes 2 1 ++ leBytes 2 1 ++ leBytes 4 (80 + boardSec.length) ++ leBytes 4 0 ++ List.replicate 48 0
  ++ leBytes 2 1 ++ leBytes 2 0 ++ leBytes 4 80 ++ leBytes 4 boardSec.length ++ leBytes 4 0 ++ boardSec
def slot1 : List Byte := slot0.take 12 ++ leBytes 4 (crcSkip12 slot0 slot0.length) ++ slot0.drop 16
def hdr0 : List Byte := leBytes 4 0x52445347 ++ leBytes 2 1 ++ leBytes 2 64 ++ [0, 0, 0, 0] ++ leBytes 4 0 ++ List.replicate 48 0
def hdr1 : List Byte := hdr0.take 12 ++ leBytes 4 (crcSkip12 hdr0 64) ++ hdr0.drop 16
def fwHdr : List Byte := leBytes 4 0x57465347 ++ leBytes 4 1 ++ leBytes 4 256 ++ leBytes 4 1 ++ leBytes 4 1 ++ leBytes 4 0 ++ leBytes 4 0 ++ [1, 1]
/-- The NOR holding `bs` from byte `a` on. -/
def norAt (a : Nat) (bs : List Byte) : SMap Byte := bs.zipIdx.filterMap (fun p => if p.1 = 0xFF then none else some (a + p.2, p.1))
def withNor (m : Mach) : Mach := { m with nor := { m.nor with array := norAt 0 hdr1 ++ norAt 0x1000000 slot1 ++ norAt 0x2000000 fwHdr } }
def present (m : Mach) : Mach := { m with pres := ⟨true, true, 5⟩ }
def fwAt (k : Nat) (m : Mach) : Mach := { m with fw := { m.fw with state := k } }
/-- The package in service with LDs 0 and 1 at die 0 and 16 at die 1: LD 0 READY, LD 1 not yet, both links up. -/
def host : Mach :=
  let m := both up [ (Reg.PORT_CTRL.ENABLE, 1), (Reg.PORT_STATUS.UP_A, 1), (Reg.DMC_CONFIG.DENSITY, 0), (Reg.DMC_CONFIG.RETAIN, 1),
    (Reg.LSE_OPEN_BUDGET.BUDGET, 4), (Reg.OPS_SCRATCH.SIZE_MIB, 32), (Reg.PORT_LD_STATUS.ASSIGNED 0, 1), (Reg.TIER_T2_CAP.MIB, 4096),
    (Reg.FLC_GEOMETRY.UNITS, 8), (Reg.FLC_GEOMETRY.PPB, 64), (Reg.DMC_DEV_STATUS.INIT_DONE, 7), (Reg.DMC_DEV_STATUS.POWERED, 7) ]
  let m := (List.range 12).foldl (fun m c => both m [(Reg.DMC_CH_STATUS.STATE c, 3)]) m
  let m := (List.range 6).foldl (fun m i => both m [(Reg.DMC_MAP_MASK.MASK i, maskDflt i)]) m
  let m := wrs m 0 [ (Reg.PORT_LD_STATUS.READY 0, 1), (Reg.PORT_LD_STATUS.BME 0, 1), (Reg.PORT_LD_STATUS.ASSIGNED 1, 1) ]
  { m with cfg := { m.cfg with dies := 2, flPop := 0x0040000200080101, mapEntries := 4096, lds := [(0, 2), (1, 1)], region0 := [(0, 4), (1, 4)],
                               region1 := [(0, 4), (1, 4)], classes := 1, assigns := [⟨0, 8, 0, 0⟩, ⟨8, 8, 1, 0⟩] } }
def withLd (ld : Nat) (f : LdRec → LdRec) (m : Mach) : Mach := m.updLd ld f
def ext' (n : Nat) (s : ExtState) : Extent := ⟨n, 1, s, false, 0, true, s = .offered || s = .opened, s, 0, 0, 0, 12, 0, [], 0, none⟩
def lease' (ld region slot e : Nat) (s : LeaseState) : Lease := ⟨ld, region, slot, e, s, 5, false, 0, 0, 5⟩
def withExts (xs : List Extent) (ls : List Lease) (m : Mach) : Mach :=
  { m with lse := { m.lse with exts := xs, leases := ls, gens := xs.map (fun x => (x.num, x.gen)) },
           dies := m.dies.map (fun x => { x with homes := xs.map (fun e => (e.num, e.home + 1)) }) }
def shared' (x : Extent) : Extent := { x with shared := true }
def fe (t1 t2 t3 : Bool) (s : FState) : FrameEntry := ⟨0, s, t1, t2, t3, false, 0, 5000, 700, 40⟩
def withMap (d : Nat) (es : List (Nat × FrameEntry)) (m : Mach) : Mach := m.upd d (fun x => { x with tier := { x.tier with map := es } })
def line64 (b : Nat) : List Byte := List.replicate 64 (BitVec.ofNat 8 b)
def queue (d c : Nat) (q : WqEntry) (m : Mach) : Mach := m.upd d (fun x => { x with dram := { x.dram with chans := x.dram.chans.modify c (fun k => { k with wq := [q] }) } })
def putAt (l : List Byte) (p : Nat × Nat × Nat) : List Byte := l.take p.1 ++ leBytes p.2.1 p.2.2 ++ l.drop (p.1 + p.2.1)
/-- A descriptor of VERSION 1: fields as offset, width, value. -/
def desc (op : Nat) (fs : List (Nat × Nat × Nat)) : List Byte :=
  (fs.foldl putAt (List.replicate 256 0) |> fun l => putAt (putAt l (0, 1, op)) (1, 1, 1))
def queueAll (d : Nat) (qs : List (Nat × List Byte)) (m : Mach) : Mach :=
  qs.foldl (fun m q => m.upd d (fun x => { x with dram := { x.dram with chans := x.dram.chans.modify (m.locate d q.1).ch (fun k =>
    { k with wq := k.wq ++ [⟨q.1 / 64, q.2, false, 0, 4⟩] }) } })) m
/-- Ring 0 of LD 0 in open extent 7 (slot 0, frames 0 to 2 in T1), and a sealed extent 9 of die 1 at slot 1. -/
def ringed : Mach :=
  let m := withExts [ext' 7 .opened, { ext' 9 .sealed with home := 1, format := 1 }] [lease' 0 0 0 7 .held, lease' 0 0 1 9 .held] host
  let m := withMap 0 [(4160 * 7, fe true false false .present), (4160 * 7 + 1, { fe true false false .present with t1Slot := 5001 }),
    (4160 * 7 + 2, { fe true false false .present with t1Slot := 5002 })] m
  let m := withMap 1 [(4160 * 9, fe false false true .present)] m
  wrs m 0 [(Reg.RING_CTRL.ENABLE 0, 1), (Reg.RING_CTRL.SQ_LOG2 0, 6), (Reg.RING_CTRL.CQ_LOG2 0, 6), (Reg.RING_STATUS.ENABLED 0, 1),
    (Reg.RING_STATUS.PHASE 0, 1), (Reg.RING_SQ_BASE.DPA 0, 0x1000), (Reg.RING_CQ_BASE.DPA 0, 0x10000)]
def withJob (d : Nat) (j : Job) (m : Mach) : Mach := m.upd d (fun x => { x with jobs := x.jobs ++ [j] })
def jobOf (m : Mach) (n : Nat) (ds : List Byte) : Job :=
  { newJob n 0 0 0 1600000000 ds with slots := m.resolve 0 (descBufs ds), exts := [7, 9] }
def jobSt (n : Nat) (ds : List Byte) (m : Mach := ringed) : Mach := withJob 0 (jobOf m n ds) m
def h7 : Nat := (ext' 7 .opened).handle
def h9 : Nat := (ext' 9 .sealed).handle
/-- A buffer reference. -/
def bufF (off addr len kind : Nat) : List (Nat × Nat × Nat) := [(off, 8, addr), (off + 8, 4, len), (off + 12, 1, kind)]
def attD (op : Nat) : List Byte := desc op ([(32, 1, 0x81), (34, 1, 1), (35, 1, 1), (36, 2, 1), (40, 1, 1), (42, 2, if op = 0x11 then 4 else 0), (44, 4, 0x3F800000)]
  ++ bufF 48 0x20000 128 0 ++ bufF 64 0x20100 256 0 ++ bufF 80 0x20200 8 0 ++ bufF 112 0x20400 16 0)
/-- The state of an ATTEND or SELECT over 64 tokens of extent 9. -/
def attSt (op : Nat) : Mach := jobSt 3 (attD op) (queueAll 0 [(65536 * 5002 + 0x400, leBytes 4 h9 ++ leBytes 4 0 ++ leBytes 4 64 ++ List.replicate 52 0)] ringed)
def linD (g : Bool) : List Byte := desc 0x20 ([(32, 1, 0x81), (33, 1, if g then 17 else 1), (34, 1, if g then 0 else 1), (36, 4, 1), (40, 4, 32), (44, 4, 4)]
  ++ bufF 48 0x20000 64 0 ++ bufF 64 0x20100 16 0 ++ (if g then bufF 80 0x30000 8 1 ++ bufF 96 0x20400 16 0 ++ [(112, 4, 1), (116, 4, 1)]
     else [(128, 4, h9), (132, 4, 0), (136, 4, 1)]))
def gatherD : List Byte := desc 0x30 ([(32, 4, h9)] ++ bufF 48 0x20000 64 0)
def ingestD : List Byte := desc 0x31 ([(36, 4, 0xFFFFFFFF)] ++ bufF 48 0x20000 64 0 ++ bufF 64 0x20100 16 0)
def copyD : List Byte := desc 0x32 (bufF 48 0x20000 64 0 ++ bufF 64 0x20100 64 0)
def sealD : List Byte := desc 0x40 [(32, 4, h7)]
def tierD (op : Nat) : List Byte := desc op [(32, 1, if op = 0x43 then 0 else 2), (33, 1, 1), (48, 4, h9), (52, 4, 0), (56, 4, 1)]
def replD (mode : Nat) : List Byte := desc 0x50 ([(32, 4, h9), (36, 1, mode), (37, 1, 3)] ++ bufF 64 0x20100 16 0)
/-- A fetch that waits, of a settled frame. -/
def fetch' (e i : Nat) (dst : FetchDst := .toT2) (rank : Nat := 0) : Fetch :=
  { ext := e, idx := i, dst := dst, rank := rank, begunAt := none, loc := 0, target := none, pages := [], ladder := none, done := false,
    retried := false, climb := none, data := none, lookup := false, missNoted := false, thenT1 := false, loads := [], jobs := [] }
/-- Flash of die 0 with superblocks 0 to 9, of which number 3 is `b`. -/
def sbm (b : Sb) (m : Mach) : Mach := m.updFl 0 (fun f => { f with s0 := 10, sbs := [(3, b)] })
def hm : Mach := { host with cfg := { host.cfg with mgmtLd := some 0 } }

/-- Soundness as one decidable fact. -/
theorem ok {m : Mach} (h : (m.dies.length = 2 ∨ m.dies.length = 4 ∨ m.dies.length = 8) ∧ (∀ x ∈ m.dies,
    SMap.wf regDflt x.regs = true ∧ SMap.wf zeroByte x.dram.data = true ∧ SMap.wf zeroByte x.dram.check = true
      ∧ SMap.wf zeroByte x.fl.data = true ∧ x.dram.chans.length = 12) ∧ SMap.wf erasedByte m.nor.array = true) : m.Ok := h

/-! ## Ill-formed commands: one for each check of WellFormed -/

theorem test_wf_refuses : ([
    .noXtal 8, .ldReady 128, .pwrHalt (.bar 0 1) 0 0, .descriptorAccept 16384, .flitReceive 0 3 true, .lowWordRead ⟨.service, 0⟩ 2,
    .selfRefreshEntry 0 12, .pwrRampExpiry 0 3, .flashCommandTimeout 0 8, .drainComplete 1048576, .fetchStart 0 0 4160, .offerTimeout 0 2 0,
    .bucketLeak 0 55, .hotReset 0 2, .anchorSend 32, .dramStartUp 0 0 [], .flashDiscovery 0 [] true true, .thermalSample 0 [20],
    .frameDone 0 0 0 [1], .attest 0 [] 0, .biTimeout 0 0 4194304, .msixTableWrite 0 2048 0 0 false, .nop 0 12288, .qosWindowStart 0 194,
    .qosAdmit 0 (.hostLine 128) 64 0 0 0 0, .qosAdmit 0 .encode 64 64 0 0 0, .readDisturbCheck 0 ⟨0, 32, 0⟩ [], .entdaa 128, .tableLoad 0 .load 0 256, .blockDecode 0 .load 0 0 16 .t2,
    .hostStore 0 0 60 [1, 2, 3, 4, 5] false 0] : List Instr).all (fun c => !c.wf) = true := by decide

/-! ## Values from the spec's worked examples, and from published check values of the two CRCs -/

def digits : List Byte := [49, 50, 51, 52, 53, 54, 55, 56, 57]

/-- The check values that the catalogue of CRC algorithms gives for "123456789". -/
theorem test_crcs : crc32c digits = 0xE3069283 ∧ crc16 digits = 0x29B1 := by decide +kernel

/-- The example of R292: 32 Gb, DDA 0x1_0123_4A40. -/
def gb32 : Mach := wrs State.reset.m 0 ((Reg.DMC_CONFIG.DENSITY, 1) :: (List.range 6).map (fun i => (Reg.DMC_MAP_MASK.MASK i, maskDflt i)))
theorem test_dda : gb32.devBytes 0 = 0xF0000000 ∧ gb32.locate 0 0x101234A40 = ⟨4, 11, 2339, 0x240⟩ ∧ checkRow 2339 = 2351
    ∧ checkByte 2339 0x240 = 420 := by decide +kernel

/-- The histogram of the example after R143. -/
def span2 : List Nat := List.replicate 0x78 0 ++ [41, 72, 123, 225, 328, 164, 51, 20] ++ List.replicate 0x80 0
theorem test_code_lengths : (buildLengths span2 12).drop 0x78 = [5, 3, 3, 2, 2, 3, 4, 5] ++ List.replicate 0x80 0 := by decide +kernel
theorem test_codewords : assignCodes (List.replicate 0x78 0 ++ [5, 3, 3, 2, 2, 3, 4, 5]) = [⟨0x7B, 2, 0⟩, ⟨0x7C, 2, 1⟩, ⟨0x79, 3, 4⟩, ⟨0x7A, 3, 5⟩,
    ⟨0x7D, 3, 6⟩, ⟨0x7E, 4, 14⟩, ⟨0x78, 5, 30⟩, ⟨0x7F, 5, 31⟩] := by decide +kernel
theorem test_length_list : ((lengthList (List.replicate 0x78 0 ++ [5, 3, 3, 2, 2, 3, 4, 5])).drop 0x3C) = [0x35, 0x23, 0x32, 0x54] := by decide +kernel

/-- The example of R200: the bound is 0.9375, which is 0x3F70_0000. -/
theorem test_bound : selectBound (fpVal 8 0x3E000000) ([0x3F80, 0xC000, 0x3F00, 0x4040].map (fpVal 1)) ([0xBF80, 0xBF80, 0, 0x3F00].map (fpVal 1))
    ([0x4000, 0x3F80, 0x3F80, 0x3F80].map (fpVal 1)) 0x3F700000 = some 0x3F700000 := by decide +kernel

/-- The example of R196: token 4,464 of KV head 5 lies in frame 277 at logical byte 18,182,144. -/
theorem test_token_place :
    let p : AttP := { attP (desc 0x10 []) with dim := 128, hl := 3 }
    let x : Extent := { ext' 9 .sealed with format := 1 }
    p.frameOf x 4464 5 = 277 ∧ p.keyAt x 4464 5 = 18182144 := by decide +kernel

/-- The example of R184: ring 6,200 of a D8 package. -/
theorem test_ring_place :
    let m : Mach := { State.reset.m with dies := List.replicate 8 Die.reset }
    m.ringDie 6200 = 3 ∧ m.ringLoc 6200 = 56 := by decide +kernel

/-- The example of R331: T3_LOC 0x1_2345_6789 with U = 16 and 2,048 pages per block. -/
theorem test_flash_place :
    let m : Mach := wrs State.reset.m 0 [(Reg.FLC_GEOMETRY.UNITS, 16), (Reg.FLC_GEOMETRY.PPB, 2048)]
    pageChan (0x123456789 / 64) = 6 ∧ m.pageUnit 0 (0x123456789 / 64) = 3 ∧ m.sbOf 0 0x123456789 = 291 := by decide +kernel

/-- The example of R499. -/
theorem test_schedule_order :
    let ms : List PoolMember := [⟨0, 0, 0x20100, 0x20000, 0x20300⟩, ⟨5, 0, 0x20100, 0x20000, 0x20300⟩, ⟨9, 0, 0x20100, 0x20000, 0x20300⟩]
    let b : List PoolMember := ms.map (fun k => { k with version := 0x20200, peerMin := 0x20100, peerMax := 0x20200 })
    stepsCompatible (ms.map (fun k => (k.pkg, 0x20200, 0x20100, 0x20200))) ms [5, 9, 0] = true
      ∧ stepsCompatible (b.map (fun k => (k.pkg, 0x30000, 0x30000, 0x30000))) b [5, 9, 0] = false := by decide +kernel

/-- The windows of the table beside R422: 16,141 counts are accepted, 15,564 are a failure. -/
def failed (o : Host.Outcome State Fault Refusal) : Option Bool :=
  match o with
  | .next s => some (s.m.on 0 Reg.CLK_STATUS.MON_FAIL)
  | _ => none
theorem test_monitor_accepts : failed (exec (.clockMonitorWindow 0 16141) (st host)) = some false := by decide +kernel
theorem test_monitor_fails : failed (exec (.clockMonitorWindow 0 15564) (st host)) = some true := by decide +kernel

/-- The bucket of the example beside R406: depth 8, the ninth event overflows to level 4. -/
def bucketed : Mach := wrs State.reset.m 0 [(Reg.ERR_BUCKET_DEPTH.DEPTH 3, 8), (Reg.ERR_BUCKET_LEVEL.LEVEL 3, 8)]
theorem test_bucket_overflow : (bucketed.correctable 0 3).rd 0 (Reg.ERR_BUCKET_LEVEL.LEVEL 3) = 4 := by decide +kernel

/-- The state after reset is sound (R188, R287: nothing stored, twelve channels). -/
theorem test_reset_sound : State.reset.m.Ok := by apply ok; decide +kernel
/-- The first `n` extent numbers in use, on a die that the package lacks. -/
def inUse (n : Nat) : List Extent := (List.range n).map (fun k => { ext' k .sealed with home := 5 })

theorem inUse_home {n : Nat} {x : Extent} (h : x ∈ inUse n) : x.home = 5 := by
  obtain ⟨k, -, rfl⟩ := List.mem_map.1 h
  rfl

theorem inUse_num {n k : Nat} (h : k < n) : (inUse n).any (fun x => decide (x.num = k)) = true :=
  List.any_eq_true.2 ⟨_, List.mem_map.2 ⟨k, List.mem_range.2 h, rfl⟩, decide_eq_true rfl⟩

def taken (n : Nat) (m : Mach) : Mach :=
  { m with
    cfg := { m.cfg with portLocal := true }, lse := { m.lse with exts := inUse n } }

theorem taken_freeNumber (n : Nat) (m : Mach) (h : 1048576 ≤ n) : (taken n m).freeNumber = none := by
  unfold Mach.freeNumber
  rw [List.find?_eq_none]
  intro k hk
  obtain ⟨i, -, rfl⟩ := List.mem_map.1 hk
  have h : (taken n m).lse.exts.any (fun x => decide (x.num = ((taken n m).choice + i) % 1048576)) = true :=
    inUse_num (Nat.lt_of_lt_of_le (Nat.mod_lt _ (by decide)) h)
  rw [h]
  decide

theorem taken_openCount (n : Nat) (m : Mach) (d : Nat) (h : d < 5) : (taken n m).openCount d = 0 := by
  have e : (taken n m).homed d = [] := List.filter_eq_nil_iff.2 (fun x hx c => by
    have := inUse_home hx
    have := of_decide_eq_true c
    omega)
  unfold Mach.openCount
  rw [e]
  rfl

theorem taken_checks (n : Nat) (m : Mach) (room : 0 < m.rd 0 Reg.LSE_OPEN_BUDGET.BUDGET) (slot : m.slotFor 0 0 none = some 0)
    (quota : m.quotaOk 0 = true) (near : 0 < m.n) : (taken n m).leaseChecks 0 0 none none = .ok (0, some 0) := by
  have room : (taken n m).openRoom 0 = true := by
    unfold Mach.openRoom
    rw [taken_openCount _ _ _ (by decide)]
    exact decide_eq_true room
  have slot : (taken n m).slotFor 0 0 none = some 0 := slot
  have quota : (taken n m).quotaOk 0 = true := quota
  have near : decide (0 < (taken n m).n) = true := decide_eq_true near
  have here : (taken n m).cfg.portLocal = true := rfl
  unfold Mach.leaseChecks Mach.placement
  rw [slot, show ldPort 0 = 0 from rfl, room, near, quota, here]
  rfl

/-- An offer that finds no free extent number (LeaseOffers). -/
theorem witness_no_free_number : ∃ s : State, (s.Ok ∧ s.m.ens < s.m.n ∧ s.m.serving = true ∧ s.m.assigned 0 = true)
    ∧ s.m.leaseChecks 0 0 none none = .ok (0, some 0) ∧ s.m.freeNumber = none :=
  have sound (m : Mach) (h : m.Ok ∧ m.ens < m.n ∧ m.serving = true ∧ m.assigned 0 = true) :
      (st (taken 1048576 m)).Ok ∧ (taken 1048576 m).ens < (taken 1048576 m).n ∧ (taken 1048576 m).serving = true
        ∧ (taken 1048576 m).assigned 0 = true := h
  ⟨st (taken 1048576 host), sound host ⟨by apply ok; decide +kernel, by decide +kernel⟩,
    taken_checks _ host (by decide +kernel) (by decide +kernel) (by decide +kernel) (by decide +kernel), taken_freeNumber _ _ (Nat.le_refl _)⟩

/-! ## The hypotheses of the statements -/

namespace W1

/-- What the hypotheses of StartUpClocks ask, at concrete states. -/
theorem witness_StartUpClocks : (st (starting 1)).Ok ∧ 0 < (st (starting 1)).m.n ∧ (st (starting 1)).m.pw.phase = Phase.startup ∧ (st (starting
    1)).m.rd 0 Reg.PWR_START_STEP.STEP = 1 ∧ 0 < 250000 ∧ (st (starting 2)).Ok ∧ 0 < (st (starting 2)).m.n ∧ (st (starting 2)).m.pw.phase =
    Phase.startup ∧ (st (starting 2)).m.rd 0 Reg.PWR_START_STEP.STEP = 2 := by
  repeat' with_reducible apply And.intro
  all_goals first | decide +kernel | (apply ok; decide +kernel)

/-- What the hypotheses of ClockMonitorWindows ask, at concrete states. -/
theorem witness_ClockMonitorWindows : (st (starting 1)).Ok ∧ 0 < (st (starting 1)).m.n ∧ (st (starting 1)).m.powered = true ∧ (st (starting
    1)).m.pw.phase = Phase.startup ∧ (st (starting 1)).m.rd 0 Reg.PWR_START_STEP.STEP = 1 ∧ 0 < 250000 ∧ (st (starting 1)).m.rd 0
    Reg.CLK_STATUS.MON_ACTIVE = 0 ∧ (st up).Ok ∧ 0 < (st up).m.n ∧ (st up).m.powered = true ∧ (st up).m.rd 0 Reg.CLK_STATUS.MON_ACTIVE = 1 ∧ (0 <
    15893 ∨ 16875 < 0) ∧ (15893 ≤ 15893 ∧ 15893 ≤ 16875) := by
  repeat' with_reducible apply And.intro
  all_goals first | decide +kernel | (apply ok; decide +kernel)

def clockFailAndClkOutState4 : State := st (both up [(Reg.CLK_STATUS.MON_FAIL,1),(Reg.CLK_STATUS.PLL_LOCK,0)])
/-- What the hypotheses of ClockFailAndClkOut ask, at concrete states. -/
theorem witness_ClockFailAndClkOut : (st (starting 1)).Ok ∧ 0 < (st (starting 1)).m.n ∧ (st (starting 1)).m.powered = true ∧ (st (starting 1)).m.rd 0
    Reg.CLK_STATUS.MON_FAIL = 0 ∧ clockFailAndClkOutState4.Ok ∧ 0 < clockFailAndClkOutState4.m.n ∧ clockFailAndClkOutState4.m.powered = true ∧
    clockFailAndClkOutState4.m.rd 0 Reg.CLK_STATUS.MON_FAIL = 1 ∧ clockFailAndClkOutState4.m.rd 0 Reg.CLK_STATUS.PLL_LOCK = 0 ∧
    clockFailAndClkOutState4.m.alive = true ∧ clockFailAndClkOutState4.m.pw.phase ≠ Phase.furled := by
  repeat' with_reducible apply And.intro
  all_goals first | decide +kernel | (apply ok; decide +kernel)

/-- What the hypotheses of StampsNeverDecrease ask, at concrete states. -/
theorem witness_StampsNeverDecrease : 0 < up.n ∧ some 5 = some 5 ∧ up.powered = true := by
  repeat' with_reducible apply And.intro
  all_goals first | decide +kernel | (apply ok; decide +kernel)

/-- What the hypotheses of SlewsAndCeilings ask, at concrete states. -/
theorem witness_SlewsAndCeilings : (st up).Ok ∧ 1 < (st up).m.n ∧ 1 ≠ (st up).m.ens ∧ (st up).m.alive = true ∧ (st up).m.fab.trained = true ∧ (st
    up).m.pw.phase ≠ Phase.furled ∧ Clock.reset.phase < 1088 ∧ Clock.reset.slew = 0 ∧ 0 < (st up).m.n ∧ (st up).m.established 0 = true ∧ ((st
    up).m.die 0).clk.mark = none ∧ (st (up.journalMark 1 5)).Ok ∧ 1 < (st (up.journalMark 1 5)).m.n ∧ (st (up.journalMark 1 5)).m.alive = true ∧
    ((up.journalMark 1 5).die 1).clk.mark.getD 0 < 2 ^ 64 ∧ ((st (up.journalMark 1 5)).m.die 1).clk.mark = some (((up.journalMark 1 5).die
    1).clk.mark.getD 0) ∧ (st (starting 1)).Ok ∧ 0 < (st (starting 1)).m.n ∧ (st (starting 1)).m.alive = true ∧ (st (at' Phase.halfMast up)).Ok ∧ 0 <
    (st (at' Phase.halfMast up)).m.n ∧ (st (at' Phase.halfMast up)).m.halted = true := by
  repeat' with_reducible apply And.intro
  all_goals first | decide +kernel | (apply ok; decide +kernel)

end W1

namespace W2

def fabricLinksState2 : State := st { up with fab := { up.fab with failed := [(0,3)], replaying := [0] } }
def fabricLinksState4 : State := st { up with fab := { up.fab with failed := [(0,15),(3,14)], replaying := [0] } }
/-- What the hypotheses of FabricLinks ask, at concrete states. -/
theorem witness_FabricLinks : (st (starting 3)).Ok ∧ (st (starting 3)).m.pw.phase = Phase.startup ∧ (st (starting 3)).m.fab.trained = false ∧ (∀ (d :
    Nat), d < (st (starting 3)).m.n → (st (starting 3)).m.rd d Reg.PWR_START_STEP.STEP = 3) ∧ (st up).Ok ∧ 0 < (st up).m.n ∧ (st up).m.alive = true ∧
    (st up).m.linkUp 0 0 = true ∧ (st up).m.flipOnLink (linkPeer 0 0) 0 = false ∧ ¬linkKey 0 0 ∈ (st up).m.fab.replaying ∧ fabricLinksState2.Ok ∧ 0 <
    fabricLinksState2.m.n ∧ fabricLinksState2.m.alive = true ∧ fabricLinksState2.m.linkUp 0 0 = true ∧ fabricLinksState2.m.flipOnLink (linkPeer 0 0) 0
    = false ∧ linkKey 0 0 ∈ fabricLinksState2.m.fab.replaying ∧ (SMap.get (fun (x : Nat) => 0) fabricLinksState2.m.fab.failed (linkKey 0 0) + 1 < 16)
    ∧ fabricLinksState4.Ok ∧ fabricLinksState4.m.n = 2 ∧ 0 < 2 ∧ fabricLinksState4.m.ens < 2 ∧ fabricLinksState4.m.alive = true ∧
    fabricLinksState4.m.linkUp 0 0 = true ∧ (SMap.get (fun (x : Nat) => 0) fabricLinksState4.m.fab.failed (linkKey 0 0) = 15) := by
  repeat' with_reducible apply And.intro
  all_goals first | decide +kernel | (apply ok; decide +kernel)

/-- What the hypotheses of HeartbeatsAndHalfMast ask, at concrete states. -/
theorem witness_HeartbeatsAndHalfMast : (st up).Ok ∧ 0 < (st up).m.n ∧ (st up).m.beating = true ∧ (st up).m.isPartner 0 1 = true ∧ (st (starting
    3)).Ok ∧ 0 < (st (starting 3)).m.n ∧ (st (starting 3)).m.alive = true ∧ (Via.service ≠ Via.service ∨ 0 ≠ 1212238932) := by
  repeat' with_reducible apply And.intro
  all_goals first | decide +kernel | (apply ok; decide +kernel)

/-- What the hypotheses of BucketsAndThermal ask, at concrete states. -/
theorem witness_BucketsAndThermal : (st up).Ok ∧ 0 < (st up).m.n ∧ 0 < 55 ∧ (st up).m.alive = true ∧ (st up).m.on 0 Reg.OPS_STATUS.READY = true ∧ (st
    (starting 3)).Ok ∧ 0 < (st (starting 3)).m.n ∧ (st (starting 3)).m.powered = true ∧ [300, -5, 94, 95, 97, 99, 101, 105].length = 8 := by
  repeat' with_reducible apply And.intro
  all_goals first | decide +kernel | (apply ok; decide +kernel)

/-- What the hypotheses of PowerOffAndStraps ask, at concrete states. -/
theorem witness_PowerOffAndStraps : State.reset.Ok ∧ Instr.porNAssert ∈ [Instr.porNAssert, Instr.railUndervoltage Rail.core] ∧ State.reset.m.powered =
    false ∧ (st up).Ok ∧ (st up).m.powered = true ∧ State.reset.m.pw.phase = Phase.off ∧ 0 % 8 < State.reset.m.n ∧ State.reset.m.n ≤ 2 % 8 := by
  repeat' with_reducible apply And.intro
  all_goals first | decide +kernel | (apply ok; decide +kernel)

/-- What the hypotheses of RestartByKey ask, at concrete states. -/
theorem witness_RestartByKey : (st up).Ok ∧ 0 < (st up).m.n ∧ (st up).m.powered = true ∧ 0 ≠ 1463898701 ∧ Via.mgmt ≠ Via.service := by
  repeat' with_reducible apply And.intro
  all_goals first | decide +kernel | (apply ok; decide +kernel)

def rdy0 : Mach := withNor (trainedFab (both (starting 8) [(Reg.DMC_DEV_STATUS.INIT_DONE, 7)]))
def rdy : Mach := { rdy0 with dies := rdy0.dies.map (fun x => {x with fl := {x.fl with phase := .ready, ceiling := some 77}}) }
/-- What the hypotheses of ImageAndReadiness ask, at concrete states. -/
theorem witness_ImageAndReadiness : (st (withNor (starting 4))).Ok ∧ (st (withNor (starting 4))).m.pw.phase = Phase.startup ∧ (st (withNor (starting
    4))).m.ens < (st (withNor (starting 4))).m.n ∧ (∀ (d : Nat), d < (st (withNor (starting 4))).m.n → (st (withNor (starting 4))).m.rd d
    Reg.PWR_START_STEP.STEP = 4) ∧ norMode (NorReport.quad 64) = some (1, 64) ∧ hdrCrcOk ((st (withNor (starting 4))).m.nor.bytes 0 4096) = true ∧
    slotLengthOk ((st (withNor (starting 4))).m.nor.bytes (norCfgSlot (hdrActive ((st (withNor (starting 4))).m.nor.bytes 0 4096))) 64) = true ∧
    slotCrcOk ((st (withNor (starting 4))).m.nor.bytes (norCfgSlot (hdrActive ((st (withNor (starting 4))).m.nor.bytes 0 4096))) (field ((st (withNor
    (starting 4))).m.nor.bytes (norCfgSlot (hdrActive ((st (withNor (starting 4))).m.nor.bytes 0 4096))) 64) 8 4)) = true ∧ (st (withNor (starting
    4))).m.nor.fwValid (st (withNor (starting 4))).m.fw.startsFrom (if (st (withNor (starting 4))).m.fw.startsFrom = 0 then { keyHash := true, signature := true : FwVerdict }
    else { keyHash := true, signature := true : FwVerdict }) = true ∧ formatOk ((st (withNor (starting 4))).m.nor.bytes 0 4096) ((st (withNor
    (starting 4))).m.nor.bytes (norCfgSlot (hdrActive ((st (withNor (starting 4))).m.nor.bytes 0 4096))) (field ((st (withNor (starting
    4))).m.nor.bytes (norCfgSlot (hdrActive ((st (withNor (starting 4))).m.nor.bytes 0 4096))) 64) 8 4)) ((st (withNor (starting 4))).m.nor.fwHeader
    (st (withNor (starting 4))).m.fw.startsFrom) = true ∧ boardOk (st (withNor (starting 4))).m.n (readSlot (st (withNor (starting 4))).m.n ((st
    (withNor (starting 4))).m.nor.bytes (norCfgSlot (hdrActive ((st (withNor (starting 4))).m.nor.bytes 0 4096))) (field ((st (withNor (starting
    4))).m.nor.bytes (norCfgSlot (hdrActive ((st (withNor (starting 4))).m.nor.bytes 0 4096))) 64) 8 4))) = true ∧ (st rdy).Ok ∧ (st rdy).m.ens < (st
    rdy).m.n ∧ (st rdy).m.mayServe = true := by
  repeat' with_reducible apply And.intro
  all_goals first | decide +kernel | (apply ok; decide +kernel)

end W2

namespace W3

def dippedAndWakesState2 : State := st (both up [(Reg.PWR_STATE.STATE,1), (Reg.PWR_GATED.ENGINE,1)])
/-- What the hypotheses of DippedAndWakes ask, at concrete states. -/
theorem witness_DippedAndWakes : (st up).Ok ∧ 0 < (st up).m.n ∧ (st up).m.pw.phase = Phase.run ∧ gateBit GateUnit.engine = some (Reg.PWR_GATED.ENGINE,
    0) ∧ (st up).m.on 0 Reg.PWR_CTRL.DIP_EN = true ∧ bit ((st up).m.rd 0 Reg.PWR_GATED.ENGINE) 0 = false ∧ (st up).m.unitBusy 0 GateUnit.engine =
    false ∧ gateBit (GateUnit.dmc 12) = none ∧ dippedAndWakesState2.Ok ∧ 0 < dippedAndWakesState2.m.n ∧ dippedAndWakesState2.m.pw.phase = Phase.run ∧
    bit (dippedAndWakesState2.m.rd 0 Reg.PWR_GATED.ENGINE) 0 = true ∧ (st (at' Phase.furled up)).Ok ∧ 0 < (st (at' Phase.furled up)).m.n ∧ (st (at'
    Phase.furled up)).m.pw.phase = Phase.furled := by
  repeat' with_reducible apply And.intro
  all_goals first | decide +kernel | (apply ok; decide +kernel)
theorem witness_DippedAndWakes_12 : ∀ (c : Nat), GateUnit.engine = GateUnit.dmc c → dippedAndWakesState2.m.chState 0 c = 4 := by
  simp

def sealedX : Extent := ⟨3, 1, .sealed, false, 0, true, false, .sealed, 0, 0, 0, 12, 0, [], 0, none⟩
def h : Mach := both up [(Reg.PORT_STATUS.UP_A,1)]
def furledEntryState1 : State := st (both up [(Reg.OPS_STATUS.READY,0)])
def furledEntryState2 : State := st (at' (.furling 3) (sbm { Sb.fresh with st := .settling, started := 2, done := 1 } h))
def furledEntryState3 : State := st (both up [(Reg.PWR_FURL_IDLE.MS,5)])
def furledEntryState10 : State := { pending := [], m := { (at' (.furling 1) h) with pw := { (at' (.furling 1) h).pw with furlStop := some 3 } } }
def furledEntryState11 : State := st (at' (.furling 1) {h with lse := {h.lse with exts := [{sealedX with settled := false}]}})
/-- What the hypotheses of FurledEntry ask, at concrete states. -/
theorem witness_FurledEntry : (st up).Ok ∧ 0 < (st up).m.n ∧ (st up).m.ens < (st up).m.n ∧ bit (BitVec.toNat (2 : Word)) 1 = true ∧ bit (BitVec.toNat
    (2 : Word)) 2 = false ∧ (st up).m.pw.phase = Phase.run ∧ (st up).m.furlBlocks = [] ∧ furledEntryState1.Ok ∧ 0 < furledEntryState1.m.n ∧
    furledEntryState1.m.ens < furledEntryState1.m.n ∧ furledEntryState1.m.pw.phase = Phase.run ∧ furledEntryState1.m.furlBlocks ≠ [] ∧
    furledEntryState2.Ok ∧ 0 < furledEntryState2.m.n ∧ furledEntryState2.m.ens < furledEntryState2.m.n ∧ bit (BitVec.toNat (4 : Word)) 2 = true ∧
    furledEntryState2.m.pw.phase = Phase.furling 3 ∧ furledEntryState2.m.pw.furlStop = none ∧ furledEntryState3.Ok ∧ 0 < furledEntryState3.m.n ∧
    furledEntryState3.m.ens < furledEntryState3.m.n ∧ furledEntryState3.m.pw.phase = Phase.run ∧ furledEntryState3.m.furlBlocks = [] ∧
    furledEntryState3.m.on furledEntryState3.m.ens Reg.PWR_FURL_IDLE.MS = true ∧ furledEntryState2.m.programsDone 0 = false ∧
    (furledEntryState2.m.halfUp 0 0 || furledEntryState2.m.halfUp 0 1) = true ∧ (st (at' (Phase.furling 1) h)).Ok ∧ (st (at' (Phase.furling 1)
    h)).m.ens < (st (at' (Phase.furling 1) h)).m.n ∧ (st (at' (Phase.furling 1) h)).m.pw.furlStop = none ∧ (st (at' (Phase.furling 1) h)).m.pw.phase =
    Phase.furling 1 ∧ (st (at' (Phase.furling 1) h)).m.extentsSettled = true ∧ (st (at' (Phase.furling 3) h)).Ok ∧ (st (at' (Phase.furling 3)
    h)).m.ens < (st (at' (Phase.furling 3) h)).m.n ∧ (st (at' (Phase.furling 3) h)).m.pw.furlStop = none ∧ (st (at' (Phase.furling 3) h)).m.pw.phase =
    Phase.furling 3 ∧ (∀ (d : Nat), d < (st (at' (Phase.furling 3) h)).m.n → (st (at' (Phase.furling 3) h)).m.programsDone d = true) ∧ (st (at'
    (Phase.furling 5) h)).Ok ∧ (st (at' (Phase.furling 5) h)).m.ens < (st (at' (Phase.furling 5) h)).m.n ∧ (st (at' (Phase.furling 5)
    h)).m.pw.furlStop = none ∧ (st (at' (Phase.furling 5) h)).m.pw.phase = Phase.furling 5 ∧ (st (at' (Phase.furling 2) h)).Ok ∧ (st (at'
    (Phase.furling 2) h)).m.ens < (st (at' (Phase.furling 2) h)).m.n ∧ (st (at' (Phase.furling 2) h)).m.pw.furlStop = none ∧ (st (at' (Phase.furling
    2) h)).m.pw.phase = Phase.furling 2 ∧ (st (at' (Phase.furling 4) h)).Ok ∧ (st (at' (Phase.furling 4) h)).m.ens < (st (at' (Phase.furling 4)
    h)).m.n ∧ (st (at' (Phase.furling 4) h)).m.pw.furlStop = none ∧ (st (at' (Phase.furling 4) h)).m.pw.phase = Phase.furling 4 ∧
    furledEntryState10.Ok ∧ furledEntryState10.m.ens < furledEntryState10.m.n ∧ furledEntryState10.m.pw.phase = Phase.furling 1 ∧
    furledEntryState10.m.pw.furlStop.isSome = true ∧ furledEntryState11.Ok ∧ furledEntryState11.m.ens < furledEntryState11.m.n ∧
    furledEntryState11.m.pw.furlStop = none ∧ furledEntryState11.m.pw.phase = Phase.furling 1 ∧ furledEntryState11.m.extentsSettled = false := by
  repeat' with_reducible apply And.intro
  all_goals first | decide +kernel | (apply ok; decide +kernel)

def row4 : RegDef := (regAt Reg.TB_MARK_PERIOD.MS.off).getD ⟨0,0,0,0,0,false,[]⟩
def registerWritesX5 : State := st { ringed with cfg := hm.cfg }
/-- What the hypotheses of RegisterWrites ask, at concrete states. -/
theorem witness_RegisterWrites : (st hm).Ok ∧ 393216 % 4 = 0 ∧ 393216 < viaSpan Via.service ∧ (st hm).m.target Via.service 0 393216 = some (0, 393216)
    ∧ 0 < (st hm).m.n ∧ (st hm).m.baseInUse 0 393216 (BitVec.toNat (2779096485 : Word)) = false ∧ 393216 < 15728640 ∧ ownCommand 393216 = false ∧
    393216 ≠ Reg.OPS_FETCH_THREADS.CLEAR_PEAK.off ∧ wordOf 393216 = none ∧ Reg.TB_MARK_PERIOD.MS.off % 4 = 0 ∧ Reg.TB_MARK_PERIOD.MS.off < viaSpan
    Via.service ∧ (st hm).m.target Via.service 0 Reg.TB_MARK_PERIOD.MS.off = some (0, Reg.TB_MARK_PERIOD.MS.off) ∧ (st hm).m.baseInUse 0
    Reg.TB_MARK_PERIOD.MS.off (BitVec.toNat (2779096485 : Word)) = false ∧ Reg.TB_MARK_PERIOD.MS.off < 15728640 ∧ ownCommand Reg.TB_MARK_PERIOD.MS.off
    = false ∧ Reg.TB_MARK_PERIOD.MS.off ≠ Reg.OPS_FETCH_THREADS.CLEAR_PEAK.off ∧ wordOf Reg.TB_MARK_PERIOD.MS.off = some (row4,
    Reg.TB_MARK_PERIOD.MS.off, 0) ∧ 15728656 % 4 = 0 ∧ 15728656 < viaSpan Via.service ∧ (st hm).m.target Via.service 0 15728656 = some (0, 15728656) ∧
    15728640 ≤ 15728656 ∧ (3 % 4 ≠ 0 ∨ viaSpan Via.service ≤ 3) ∧ (st up).Ok ∧ 0 % 4 = 0 ∧ 0 < viaSpan Via.mgmt ∧ (st up).m.target Via.mgmt 0 0 = none
    ∧ 0 < (st up).m.n ∧ (match Via.mgmt with | Via.bar ld 0 => false | x => true) = true ∧ registerWritesX5.Ok ∧ 4259848 % 4 = 0 ∧ 4259848 < viaSpan
    Via.service ∧ registerWritesX5.m.target Via.service 0 4259848 = some (0, 4259848) ∧ 0 < registerWritesX5.m.n ∧ registerWritesX5.m.baseInUse 0
    4259848 (BitVec.toNat (2779096485 : Word)) = true := by
  repeat' with_reducible apply And.intro
  all_goals first | decide +kernel | (apply ok; decide +kernel)

def rowWide : RegDef := (regTable.find? (fun r => r.wide)).getD ⟨0,0,0,0,0,false,[]⟩
/-- What the hypotheses of LatchedPairs ask, at concrete states. -/
theorem witness_LatchedPairs : (st hm).Ok ∧ 0 < (st hm).m.n ∧ (1 % 4 ≠ 0 ∨ viaSpan Via.service ≤ 1) ∧ 393216 % 4 = 0 ∧ 393216 < viaSpan Via.service ∧
    Via.service ≠ Via.mgmt ∧ (st hm).m.reaches Via.service 0 393216 = true ∧ 393216 ≠ 8421424 ∧ (st hm).m.windowWord 0 393216 = none ∧ wordOf 393216 =
    none ∧ rowWide.base % 4 = 0 ∧ rowWide.base < viaSpan Via.service ∧ (st hm).m.reaches Via.service 0 rowWide.base = true ∧ rowWide.base ≠ 8421424 ∧
    (st hm).m.windowWord 0 rowWide.base = none ∧ wordOf rowWide.base = some (rowWide, rowWide.base, 0) ∧ 266240 % 4 = 0 ∧ 266240 < viaSpan Via.service
    ∧ (st hm).m.reaches Via.service 0 266240 = true ∧ 266240 ≠ 8421424 ∧ (st hm).m.windowWord 0 266240 = some 0 ∧ 0 % 4 = 0 ∧ 0 < viaSpan Via.mgmt ∧
    Via.mgmt = Via.mgmt ∧ (st hm).m.cfg.mgmtLd = some 0 ∧ (st up).Ok ∧ 0 < (st up).m.n ∧ (st up).m.cfg.mgmtLd = none ∧ 0 < viaSpan (Via.bar 0 0) ∧
    Via.bar 0 0 = Via.bar 0 0 ∧ (st up).m.ldAnswers 0 = false ∧ (st (at' Phase.off hm)).Ok ∧ 0 < (st (at' Phase.off hm)).m.n ∧ 0 < viaSpan Via.service
    ∧ Via.service = Via.service ∧ (st (at' Phase.off hm)).m.powered = false ∧ (st (at' Phase.furled up)).Ok ∧ 0 < (st (at' Phase.furled up)).m.n ∧
    3145764 % 4 = 0 ∧ 3145764 < viaSpan Via.service ∧ (st (at' Phase.furled up)).m.powered = true ∧ (st (at' Phase.furled up)).m.reaches Via.service 0
    3145764 = false := by
  repeat' with_reducible apply And.intro
  all_goals first | decide +kernel | (apply ok; decide +kernel)

/-- What the hypotheses of PresenceAndDebug ask, at concrete states. -/
theorem witness_PresenceAndDebug : (st up).Ok ∧ (st up).m.ens < (st up).m.n ∧ (st up).m.powered = true ∧ (st (present up)).Ok ∧ (st (present
    up)).m.ens < (st (present up)).m.n ∧ (st (present up)).m.powered = true ∧ (st (present up)).m.pres.active = true ∧ 0 < (st up).m.n ∧ (st
    up).m.alive = true := by
  repeat' with_reducible apply And.intro
  all_goals first | decide +kernel | (apply ok; decide +kernel)

def nv (k : Nat) : Mach := wrs (present (withNor up)) 0 [(Reg.CFG_NVM_ADDR.ADDR, k), (Reg.CFG_NVM_DATA.DATA 3, 0x12345678)]
def nvmCommandsState5 : State := st {(nv 0x800000) with nor := {(nv 0x800000).nor with data := (List.range 256).map (BitVec.ofNat 8), running := some (2, 0x1000000)}}
/-- What the hypotheses of NvmCommands ask, at concrete states. -/
theorem witness_NvmCommands : (st up).Ok ∧ 0 < (st up).m.n ∧ 0 = (st up).m.ens ∧ (st up).m.powered = true ∧ (st up).m.rd 0 Reg.CFG_NVM_STATUS.BUSY = 0
    ∧ (st (nv 16777216)).Ok ∧ 0 < (st (nv 16777216)).m.n ∧ 0 = (st (nv 16777216)).m.ens ∧ (st (nv 16777216)).m.powered = true ∧ (st (nv
    16777216)).m.rd 0 Reg.CFG_NVM_STATUS.BUSY = 0 ∧ (Instr.nvmProgram 0, 2) ∈ [(Instr.nvmProgram 0, 2), (Instr.nvmErase4K 0, 3), (Instr.nvmErase64K 0,
    4)] ∧ (st (nv 16777216)).m.writeAuth = true ∧ nvmForbidden ((st (nv 16777216)).m.nvmAddr 0 (Instr.nvmProgram 0, 2).snd) (nvmSize (Instr.nvmProgram
    0, 2).snd) = false ∧ nvmCommandsState5.Ok ∧ nvmCommandsState5.m.ens < nvmCommandsState5.m.n ∧ nvmCommandsState5.m.nor.running = some (2, 16777216)
    ∧ 2 ∈ [2, 3, 4] := by
  repeat' with_reducible apply And.intro
  all_goals first | decide +kernel | (apply ok; decide +kernel)

def nvmRefusalsState4 : State := st (both (nv 0x800000) [(Reg.CFG_NVM_STATUS.BUSY, 1)])
def nvmRefusalsState5 : State := st {(nv 0x800000) with nor := {(nv 0x800000).nor with data := (List.range 256).map (BitVec.ofNat 8), running := some (2, 0x1000000)}}
/-- What the hypotheses of NvmRefusals ask, at concrete states. -/
theorem witness_NvmRefusals : (st up).Ok ∧ 0 < (st up).m.n ∧ (st up).m.powered = true ∧ (st up).m.halted = false ∧ (Instr.nvmProgram 0, 2) ∈
    [(Instr.nvmRead 0, 1), (Instr.nvmProgram 0, 2), (Instr.nvmErase4K 0, 3), (Instr.nvmErase64K 0, 4)] ∧ (st up).m.nvmReason 0 (Instr.nvmProgram 0,
    2).snd ≠ 0 ∧ 0 ≠ 1 ∧ (st up).m.writeAuth = false ∧ 1 < (st up).m.n ∧ 1 ≠ (st up).m.ens ∧ nvmRefusalsState4.Ok ∧ 0 < nvmRefusalsState4.m.n ∧
    nvmRefusalsState4.m.powered = true ∧ nvmRefusalsState4.m.halted = false ∧ 0 = nvmRefusalsState4.m.ens ∧ nvmRefusalsState4.m.rd 0
    Reg.CFG_NVM_STATUS.BUSY = 1 ∧ nvmRefusalsState5.Ok ∧ 0 < nvmRefusalsState5.m.n ∧ nvmRefusalsState5.m.powered = true ∧ nvmRefusalsState5.m.halted =
    false ∧ nvmRefusalsState5.m.ens < nvmRefusalsState5.m.n ∧ nvmRefusalsState5.m.nor.running = some (2, 16777216) := by
  repeat' with_reducible apply And.intro
  all_goals first | decide +kernel | (apply ok; decide +kernel)

end W3

namespace W4

/-- What the hypotheses of ConfigurationSpace ask, at concrete states. -/
theorem witness_ConfigurationSpace : (st host).Ok ∧ (st host).m.assigned 0 = true ∧ (st host).m.ldAnswers 0 = true ∧ (st host).m.assigned 1 = true ∧
    (st host).m.serving = true ∧ (st host).m.ldUp 1 = true ∧ (st host).m.ldAnswers 1 = false ∧ (st host).m.bme 0 = true ∧ (st (wrs host 0
    [(Reg.PORT_LD_STATUS.BME 0, 0)])).Ok ∧ (st (wrs host 0 [(Reg.PORT_LD_STATUS.BME 0, 0)])).m.ldAnswers 0 = true ∧ (st (wrs host 0
    [(Reg.PORT_LD_STATUS.BME 0, 0)])).m.bme 0 = false := by
  repeat' with_reducible apply And.intro
  all_goals first | decide +kernel | (apply ok; decide +kernel)

/-- What the hypotheses of MsixTable ask, at concrete states. -/
theorem witness_MsixTable : (st up).Ok ∧ 2048 ≤ 2048 ∧ (st host).Ok ∧ 0 < 2048 ∧ (st host).m.ldAnswers 0 = true := by
  repeat' with_reducible apply And.intro
  all_goals first | decide +kernel | (apply ok; decide +kernel)

def dn : Mach := both (withLd 0 (fun r => {r with romBuilt := true}) (withLd 1 (fun r => {r with romBuilt := true}) host)) [(Reg.PORT_STATUS.UP_A, 0),(Reg.PORT_CTRL.BIFURCATE,1),(Reg.PWR_START_STEP.STEP,10)]
def bare : Mach := both host [(Reg.PORT_LD_STATUS.ASSIGNED 0, 0),(Reg.PORT_LD_STATUS.ASSIGNED 1, 0)]
def linksAndLdsState4 : State := st (withLd 0 (fun r => {r with romBuilt := true}) (withLd 1 (fun r => {r with romBuilt := true}) host))
def linksAndLdsState6 : State := st {bare with pw := {bare.pw with perst := [true,true]}}
/-- What the hypotheses of LinksAndLds ask, at concrete states. -/
theorem witness_LinksAndLds : (st up).Ok ∧ 0 < (st up).m.n ∧ 0 < 2 ∧ 0 < (st up).m.pw.perst.length ∧ (st up).m.pw.perst.getD 0 false = false ∧ (st
    host).Ok ∧ 0 < (st host).m.n ∧ (st host).m.alive = true ∧ (st host).m.halfUsed 0 0 = true ∧ (st host).m.halfUp 0 0 = true ∧ Instr.hotReset 0 0 ∈
    [Instr.hotReset 0 0, Instr.dataLinkDown 0 0] ∧ (st dn).Ok ∧ 0 < (st dn).m.n ∧ (st dn).m.serving = true ∧ (st dn).m.halfUsed 0 0 = true ∧ (st
    dn).m.halfUp 0 0 = false ∧ (st dn).m.pw.perst.getD 0 false = false ∧ ((((st dn).m.linkLds 0 0).all fun (ld : Nat) => ((st dn).m.ld ld).romBuilt) =
    true) ∧ linksAndLdsState6.Ok ∧ 0 < linksAndLdsState6.m.n ∧ 0 < linksAndLdsState6.m.pw.perst.length ∧ linksAndLdsState6.m.pw.perst.getD 0 false =
    true ∧ linksAndLdsState4.Ok ∧ linksAndLdsState4.m.serving = true ∧ linksAndLdsState4.m.assigned 0 = true ∧ linksAndLdsState4.m.ldUp 0 = true ∧
    linksAndLdsState4.m.on (ldPort 0) Reg.OPS_STATUS.READY = true ∧ (linksAndLdsState4.m.ld 0).romBuilt = true := by
  repeat' with_reducible apply And.intro
  all_goals first | decide +kernel | (apply ok; decide +kernel)

/-- What the hypotheses of FunctionLevelReset ask, at concrete states. -/
theorem witness_FunctionLevelReset : (st host).Ok ∧ (st host).m.assigned 0 = true ∧ (st host).m.ldAnswers 0 = true ∧ (st host).m.alive = true ∧ (st
    host).m.assigned 1 = true ∧ (st host).m.serving = true ∧ (st host).m.ldUp 1 = true ∧ (st host).m.ldAnswers 1 = false := by
  repeat' with_reducible apply And.intro
  all_goals first | decide +kernel | (apply ok; decide +kernel)

def ptmDoeAndCdatState2 : State := st (both host [(Reg.PORT_LD_STATUS.PTM_EN 0,1),(Reg.PORT_PTM_SEQ.SEQ, 2^32-2)])
/-- What the hypotheses of PtmDoeAndCdat ask, at concrete states. -/
theorem witness_PtmDoeAndCdat : ptmDoeAndCdatState2.Ok ∧ 0 < ptmDoeAndCdatState2.m.n ∧ ptmDoeAndCdatState2.m.serving = true ∧
    ptmDoeAndCdatState2.m.ptmOn 0 = true ∧ (st host).Ok ∧ (st host).m.ldAnswers 0 = true := by
  repeat' with_reducible apply And.intro
  all_goals first | decide +kernel | (apply ok; decide +kernel)

def mailboxCommandsState2 : State := st (withExts [ext' 7 .opened] [lease' 0 0 2 7 .held] host)
def mailboxCommandsState3 : State := st (withExts [ext' 7 .opened] [lease' 0 0 2 7 .held, lease' 0 0 3 7 .held] host)
/-- What the hypotheses of MailboxCommands ask, at concrete states. -/
theorem witness_MailboxCommands : (st host).Ok ∧ (st host).m.ldAnswers 0 = true ∧ List.filter Lease.counts ((st host).m.ldLeases 0) = [] ∧
    mailboxCommandsState2.Ok ∧ mailboxCommandsState2.m.ldAnswers 0 = true ∧ List.filter Lease.counts (mailboxCommandsState2.m.ldLeases 0) = [lease' 0
    0 2 7 LeaseState.held] ∧ mailboxCommandsState2.m.ext? (lease' 0 0 2 7 LeaseState.held).ext = some (ext' 7 ExtState.opened) ∧
    mailboxCommandsState3.Ok ∧ mailboxCommandsState3.m.ldAnswers 0 = true ∧ List.filter Lease.counts (mailboxCommandsState3.m.ldLeases 0) = [lease' 0
    0 2 7 LeaseState.held, lease' 0 0 3 7 LeaseState.held] ∧ mailboxCommandsState3.m.ext? (lease' 0 0 2 7 LeaseState.held).ext = some (ext' 7
    ExtState.opened) ∧ (lease' 0 0 3 7 LeaseState.held).ext = (lease' 0 0 2 7 LeaseState.held).ext ∧ (lease' 0 0 3 7 LeaseState.held).region = (lease'
    0 0 2 7 LeaseState.held).region ∧ (lease' 0 0 3 7 LeaseState.held).slot = (lease' 0 0 2 7 LeaseState.held).slot + 1 ∧ (lease' 0 0 2 7
    LeaseState.held).slot + 1 < 2 ^ 32 ∧ (∀ (k : Nat), none = some k → k < 2048) ∧ some 2048 = some 2048 ∧ 2048 ≤ 2048 := by
  repeat' with_reducible apply And.intro
  all_goals first | decide +kernel | (apply ok; decide +kernel)

end W4

namespace W5

def sh : Mach := withExts [shared' (ext' 7 .opened), ext' 8 .opened] [lease' 1 1 0 7 .held, lease' 1 0 0 8 .held] host
def qu : Mach := {sh with cfg := {sh.cfg with quota := [(1,1),(0,1)]}}
def full : Mach := both (withExts [ext' 7 .opened] [lease' 0 0 0 7 .held, lease' 0 0 1 7 .held,lease' 0 0 2 7 .held,lease' 0 0 3 7 .held] host) [(Reg.LSE_OPEN_BUDGET.BUDGET,0)]
def fix (m : Mach) : Mach := {m with supply := [41, 42, 43]}
/-- What the hypotheses of LeaseOffers ask, at concrete states. -/
theorem witness_LeaseOffers : (st (fix host)).Ok ∧ (st (fix host)).m.ens < (st (fix host)).m.n ∧ (st (fix host)).m.serving = true ∧ (st (fix
    host)).m.assigned 0 = true ∧ ((st (fix host)).m.leaseChecks 0 0 none (Option.map (st (fix host)).m.byHandle none)).toOption = some (0, some 0) ∧
    (st (fix host)).m.freeNumber = some 41 ∧ errOf ((st (fix host)).m.leaseChecks 0 0 (some (shared' (ext' 7 ExtState.opened)).handle) (Option.map (st
    (fix host)).m.byHandle none)) = some 1 ∧ (st (fix sh)).Ok ∧ (st (fix sh)).m.ens < (st (fix sh)).m.n ∧ (st (fix sh)).m.serving = true ∧ (st (fix
    sh)).m.assigned 0 = true ∧ some (shared' (ext' 7 ExtState.opened)).handle = some (shared' (ext' 7 ExtState.opened)).handle ∧ (st (fix
    sh)).m.byHandle (shared' (ext' 7 ExtState.opened)).handle = some (shared' (ext' 7 ExtState.opened)) ∧ ((st (fix sh)).m.leaseChecks 0 1 none
    (Option.map (st (fix sh)).m.byHandle (some (shared' (ext' 7 ExtState.opened)).handle))).toOption = some (0, none) ∧ some 0 = some 0 ∧ 0 <
    host.regionSlots 0 0 ∧ host.slotTaken 0 0 0 = false ∧ host.quotaOk 0 = true ∧ some (some (ext' 8 ExtState.opened)) = some (some (ext' 8
    ExtState.opened)) ∧ ((ext' 8 ExtState.opened).shared = false ∨ 0 ≠ 1) ∧ (host.regionSlots 0 0 ≤ (shared' (ext' 7 ExtState.opened)).handle ∨
    host.slotTaken 0 0 (shared' (ext' 7 ExtState.opened)).handle = true) ∧ (∀ (k : Nat), k < host.regionSlots 0 (shared' (ext' 7
    ExtState.opened)).handle → host.slotTaken 0 (shared' (ext' 7 ExtState.opened)).handle k = true) ∧ some 3 = some 3 ∧ 3 < qu.regionSlots 1 0 ∧
    qu.slotTaken 1 0 3 = false ∧ qu.quotaOk 1 = false ∧ 0 < full.regionSlots 0 1 ∧ full.slotTaken 0 1 0 = false ∧ full.quotaOk 0 = true ∧ (∀ (d :
    Nat), d < full.n → full.rd d Reg.LSE_OPEN_BUDGET.BUDGET ≤ full.openCount d) := by
  repeat' with_reducible apply And.intro
  all_goals first | decide +kernel | (apply ok; decide +kernel)

def L1 : Lease := lease' 0 0 1 7 .offered
def L2 : Lease := lease' 0 0 1 7 .held
def L4 : Lease := lease' 1 1 0 7 .held
def L3 : Lease := lease' 0 0 1 7 .noticed
def ld' (m : Mach) : Mach := {(withLd 0 (fun r => {r with linkDownAt := some 5}) m) with cfg := {m.cfg with linkdownS := 3}}
def leaseLivesState1 : State := st (withExts [ext' 7 .offered] [L1] host)
def leaseLivesState2 : State := st (withExts [shared' (ext' 7 .opened)] [L1, L4] host)
def leaseLivesState3 : State := st (withExts [shared' (ext' 7 .opened)] [L2, L4] host)
def leaseLivesState6 : State := st (withExts [ext' 7 .opened] [{L2 with revoking := true}] host)
def leaseLivesState7 : State := st (ld' (withExts [ext' 7 .sealed] [L2] host))
def leaseLivesState8 : State := st (withExts [shared' (ext' 7 .opened)] [{L3 with revoking := true}, L4] host)
def leaseLivesLease0 : Lease := {L3 with revoking := true}
def leaseLivesLease6 : Lease := {L2 with revoking := true}
/-- What the hypotheses of LeaseLives ask, at concrete states. -/
theorem witness_LeaseLives : (st host).Ok ∧ (st host).m.ens < (st host).m.n ∧ (st host).m.ldAnswers 0 = true ∧ leaseLivesState1.Ok ∧
    leaseLivesState1.m.ens < leaseLivesState1.m.n ∧ leaseLivesState1.m.ldAnswers 0 = true ∧ leaseLivesState1.m.offeredAt 0 { region := 0, slot := 1 : SlotRef }
    = some L1 ∧ leaseLivesState1.m.ext? L1.ext = some (ext' 7 ExtState.offered) ∧ (ext' 7 ExtState.offered).home < leaseLivesState1.m.n ∧
    Instr.offerTimeout 0 0 1 ∈ [Instr.addDynamicCapacityResponse 0 [] [{ region := 0, slot := 1 : SlotRef }], Instr.offerTimeout 0 { region := 0, slot := 1 : SlotRef }.region
    { region := 0, slot := 1 : SlotRef }.slot] ∧ leaseLivesState1.m.serving = true ∧ leaseLivesState2.Ok ∧ leaseLivesState2.m.ens <
    leaseLivesState2.m.n ∧ leaseLivesState2.m.alive = true ∧ leaseLivesState2.m.heldAt 1 { region := 1, slot := 0 : SlotRef } = some (lease' 1 1 0 7
    LeaseState.held) ∧ leaseLivesState2.m.serving = true ∧ leaseLivesState2.m.offeredAt 1 { region := 1, slot := 0 : SlotRef } = none ∧ (lease' 1 1 0
    7 LeaseState.held).revoking = false ∧ leaseLivesState6.Ok ∧ leaseLivesState6.m.ens < leaseLivesState6.m.n ∧ leaseLivesState6.m.alive = true ∧
    leaseLivesState6.m.heldAt 0 { region := 0, slot := 1 : SlotRef } = some leaseLivesLease6 ∧ leaseLivesLease6.revoking = true ∧ leaseLivesState7.Ok
    ∧ leaseLivesState7.m.ens < leaseLivesState7.m.n ∧ leaseLivesState7.m.alive = true ∧ leaseLivesState7.m.cfg.linkdownS ≠ 0 ∧ (leaseLivesState7.m.ld
    0).linkDownAt = some 5 ∧ (∃ (q : SlotRef), q ∈ [{ region := 0, slot := 1 : SlotRef }] ∧ (st host).m.heldAt 0 q = none) ∧ (∀ (q : SlotRef), q ∈ []
    → (st host).m.heldAt 0 q ≠ none) ∧ leaseLivesState3.Ok ∧ leaseLivesState3.m.ens < leaseLivesState3.m.n ∧ leaseLivesState3.m.heldAt 0 { region := 0, slot := 1 : SlotRef }
    = some (lease' 0 0 1 7 LeaseState.held) ∧ leaseLivesState3.m.ext? (lease' 0 0 1 7 LeaseState.held).ext = some (shared' (ext' 7 ExtState.opened)) ∧
    (shared' (ext' 7 ExtState.opened)).home < leaseLivesState3.m.n ∧ leaseLivesState3.m.ldAnswers 0 = true ∧ leaseLivesState8.Ok ∧
    leaseLivesState8.m.ens < leaseLivesState8.m.n ∧ leaseLivesState8.m.heldAt 0 { region := 0, slot := 1 : SlotRef } = some leaseLivesLease0 ∧
    leaseLivesState8.m.ext? leaseLivesLease0.ext = some (shared' (ext' 7 ExtState.opened)) ∧ (shared' (ext' 7 ExtState.opened)).home <
    leaseLivesState8.m.n ∧ leaseLivesState8.m.alive = true ∧ leaseLivesLease0.state = LeaseState.noticed := by
  repeat' with_reducible apply And.intro
  all_goals first | decide +kernel | (apply ok; decide +kernel)

def clr : Mach := withMap 0 [(4160*7, fe true false false .present),(4160*7+4159, fe true false false .present),(4160*8, fe true false false .present)] (withExts [ext' 7 .clearing, ext' 8 .opened] [{lease' 0 0 1 7 .ended with tr := 3}, lease' 0 0 2 8 .held] host)
def extentClearedState2 : State := st (clr.updTier 0 (fun t => {t with fetches := [{fetch' 7 0 with begunAt := some 3}]}))
def extentClearedState4 : State := st (withMap 0 [(4160*7, fe true true true .present)] (withExts [ext' 7 .releasing] [{lease' 0 0 1 7 .ended with tr := 3}] host))
/-- What the hypotheses of ExtentCleared ask, at concrete states. -/
theorem witness_ExtentCleared : (st clr).Ok ∧ (st clr).m.ens < (st clr).m.n ∧ (st clr).m.alive = true ∧ (st clr).m.ext? 7 = some (ext' 7
    ExtState.clearing) ∧ (ext' 7 ExtState.clearing).home < (st clr).m.n ∧ (ext' 7 ExtState.clearing).num < 2 ^ 20 ∧ ((ext' 7 ExtState.clearing).state
    ≠ ExtState.releasing ∨ (st clr).m.referenced 7 = true) ∧ (ext' 7 ExtState.clearing).state = ExtState.clearing ∧ (∀ (p : Promo), p ∈ ((st
    clr).m.die (ext' 7 ExtState.clearing).home).tier.promos → p.ext = 7 → p.endedAt.isSome = true) ∧ (∀ (f : Fetch), f ∈ ((st clr).m.die (ext' 7
    ExtState.clearing).home).tier.fetches → f.ext % 2 ^ 20 = 7 → f.begunAt = none ∧ f.loads = [] ∧ f.jobs = []) ∧ extentClearedState2.Ok ∧
    extentClearedState2.m.ens < extentClearedState2.m.n ∧ extentClearedState2.m.alive = true ∧ extentClearedState2.m.ext? 7 = some (ext' 7
    ExtState.clearing) ∧ (ext' 7 ExtState.clearing).home < extentClearedState2.m.n ∧ ((∃ (p : Promo), p ∈ (extentClearedState2.m.die (ext' 7
    ExtState.clearing).home).tier.promos ∧ p.ext = 7 ∧ p.endedAt = none) ∨ ∃ (f : Fetch), f ∈ (extentClearedState2.m.die (ext' 7
    ExtState.clearing).home).tier.fetches ∧ f.ext = 7 ∧ (f.begunAt.isSome = true ∨ f.loads ≠ [] ∨ f.jobs ≠ [])) ∧ extentClearedState4.Ok ∧
    extentClearedState4.m.ens < extentClearedState4.m.n ∧ extentClearedState4.m.alive = true ∧ extentClearedState4.m.ext? 7 = some (ext' 7
    ExtState.releasing) ∧ (ext' 7 ExtState.releasing).home < extentClearedState4.m.n ∧ (ext' 7 ExtState.releasing).num < 2 ^ 20 ∧ (ext' 7
    ExtState.releasing).state = ExtState.releasing ∧ extentClearedState4.m.referenced 7 = false := by
  repeat' with_reducible apply And.intro
  all_goals first | decide +kernel | (apply ok; decide +kernel)

def H1 : Mach := withMap 0 [(4160*7, fe true false false .present)] (withExts [ext' 7 .opened] [lease' 0 0 0 7 .held, {lease' 0 0 1 7 .ended with tr := 3}] host)
def qch : Nat := (H1.locate 0 (65536*5000)).ch
def H2 : Mach := queue 0 qch ⟨65536*5000/64, line64 9, true, 0, 4⟩ H1
def H0 : Mach := { (withMap 0 [] H1) with supply := [0] }
/-- What the hypotheses of HostAccess ask, at concrete states. -/
theorem witness_HostAccess : (st host).Ok ∧ (st host).m.portServes 0 = true ∧ ((st host).m.leaseAt 0 ((st host).m.slotOfDpa 0 (0 / 64 * 64)).fst ((st
    host).m.slotOfDpa 0 (0 / 64 * 64)).snd = none ∨ ∃ (k : Lease), (st host).m.leaseAt 0 ((st host).m.slotOfDpa 0 (0 / 64 * 64)).fst ((st
    host).m.slotOfDpa 0 (0 / 64 * 64)).snd = some k ∧ (k.before 0 = false ∨ (st host).m.homeAt (ldPort 0) k.ext = none)) ∧ 0 + (line64 3).length ≤ 64
    ∧ (st H1).Ok ∧ (st H1).m.portServes 0 = true ∧ 0 % 64 = 0 ∧ (st H1).m.leaseAt 0 ((st H1).m.slotOfDpa 0 0).fst ((st H1).m.slotOfDpa 0 0).snd = some
    (lease' 0 0 0 7 LeaseState.held) ∧ (lease' 0 0 0 7 LeaseState.held).before 1700000007 = true ∧ (st H1).m.homeAt (ldPort 0) (lease' 0 0 0 7
    LeaseState.held).ext = some (ext' 7 ExtState.opened).home ∧ (st H1).m.behind (ext' 7 ExtState.opened).home (Waiting.load 0 0 (lease' 0 0 0 7
    LeaseState.held).ext (lineOf 0) true) = false ∧ (st H1).m.ext? (lease' 0 0 0 7 LeaseState.held).ext = some (ext' 7 ExtState.opened) ∧ (ext' 7
    ExtState.opened).shared = false ∧ (ext' 7 ExtState.opened).coded = false ∧ ((ext' 7 ExtState.opened).state = ExtState.sealing → 1700000007 < (ext'
    7 ExtState.opened).sealedAt) ∧ (ext' 7 ExtState.opened).home < (st H1).m.n ∧ ((st H1).m.entry (ext' 7 ExtState.opened).home (ext' 7
    ExtState.opened).num (lineOf 0 / 1024)).state = FState.present ∧ (st H1).m.chanOpen (ext' 7 ExtState.opened).home ((st H1).m.locate (ext' 7
    ExtState.opened).home ((st H1).m.t1Addr (ext' 7 ExtState.opened).home (ext' 7 ExtState.opened).num (lineOf 0))).ch = true ∧ ((st H1).m.locate
    (ext' 7 ExtState.opened).home ((st H1).m.t1Addr (ext' 7 ExtState.opened).home (ext' 7 ExtState.opened).num (lineOf 0))).ch < 12 ∧ (line64
    3).length = 64 ∧ ((st H1).m.chan (ext' 7 ExtState.opened).home ((st H1).m.locate (ext' 7 ExtState.opened).home ((st H1).m.t1Addr (ext' 7
    ExtState.opened).home (ext' 7 ExtState.opened).num (lineOf 0))).ch).wq.length < 47 ∧ (st H2).Ok ∧ (st H2).m.portServes 0 = true ∧ (st
    H2).m.leaseAt 0 ((st H2).m.slotOfDpa 0 0).fst ((st H2).m.slotOfDpa 0 0).snd = some (lease' 0 0 0 7 LeaseState.held) ∧ (st H2).m.homeAt (ldPort 0)
    (lease' 0 0 0 7 LeaseState.held).ext = some (ext' 7 ExtState.opened).home ∧ (st H2).m.behind (ext' 7 ExtState.opened).home (Waiting.load 0 0
    (lease' 0 0 0 7 LeaseState.held).ext (lineOf 0) true) = false ∧ (st H2).m.ext? (lease' 0 0 0 7 LeaseState.held).ext = some (ext' 7
    ExtState.opened) ∧ (ext' 7 ExtState.opened).home < (st H2).m.n ∧ ((st H2).m.entry (ext' 7 ExtState.opened).home (ext' 7 ExtState.opened).num
    (lineOf 0 / 1024)).state = FState.present ∧ (st H2).m.chanOpen (ext' 7 ExtState.opened).home ((st H2).m.locate (ext' 7 ExtState.opened).home ((st
    H2).m.t1Addr (ext' 7 ExtState.opened).home (ext' 7 ExtState.opened).num (lineOf 0))).ch = true ∧ ((st H2).m.locate (ext' 7 ExtState.opened).home
    ((st H2).m.t1Addr (ext' 7 ExtState.opened).home (ext' 7 ExtState.opened).num (lineOf 0))).ch < 12 ∧ (st H2).m.queued (ext' 7 ExtState.opened).home
    ((st H2).m.locate (ext' 7 ExtState.opened).home ((st H2).m.t1Addr (ext' 7 ExtState.opened).home (ext' 7 ExtState.opened).num (lineOf 0))).ch ((st
    H2).m.t1Addr (ext' 7 ExtState.opened).home (ext' 7 ExtState.opened).num (lineOf 0)) = some { line := 65536 * 5000 / 64, data := line64 9, poison := true, port := 0, since := 4 : WqEntry }
    ∧ { line := 65536 * 5000 / 64, data := line64 9, poison := true, port := 0, since := 4 : WqEntry }.data.length = 64 ∧ ((st H2).m.chan (ext' 7
    ExtState.opened).home ((st H2).m.locate (ext' 7 ExtState.opened).home ((st H2).m.t1Addr (ext' 7 ExtState.opened).home (ext' 7 ExtState.opened).num
    (lineOf 0))).ch).wq.length < 48 ∧ (st H0).Ok ∧ (st H0).m.portServes 0 = true ∧ (st H0).m.leaseAt 0 ((st H0).m.slotOfDpa 0 0).fst ((st
    H0).m.slotOfDpa 0 0).snd = some (lease' 0 0 0 7 LeaseState.held) ∧ (st H0).m.homeAt (ldPort 0) (lease' 0 0 0 7 LeaseState.held).ext = some (ext' 7
    ExtState.opened).home ∧ (st H0).m.behind (ext' 7 ExtState.opened).home (Waiting.load 0 0 (lease' 0 0 0 7 LeaseState.held).ext (lineOf 0) true) =
    false ∧ (st H0).m.ext? (lease' 0 0 0 7 LeaseState.held).ext = some (ext' 7 ExtState.opened) ∧ (ext' 7 ExtState.opened).home < (st H0).m.n ∧ ((st
    H0).m.entry (ext' 7 ExtState.opened).home (ext' 7 ExtState.opened).num (lineOf 0 / 1024)).state = FState.zero ∧ (st H0).m.openSlotFor (ext' 7
    ExtState.opened).home = some ((H0.openSlotFor 0).getD 0) ∧ (st H0).m.runOpen (ext' 7 ExtState.opened).home (65536 * (H0.openSlotFor 0).getD 0)
    65536 = true ∧ ((st H0).m.die (ext' 7 ExtState.opened).home).coh.unborn = [] ∧ (st H0).m.rd (ext' 7 ExtState.opened).home Reg.ERR_FLIP_CTRL.ARMED
    = 0 ∧ (st H0).m.rd (ext' 7 ExtState.opened).home Reg.ERR_SPLIT_CTRL.ARMED = 0 := by
  repeat' with_reducible apply And.intro
  all_goals first | decide +kernel | (apply ok; decide +kernel)

def HS : Mach := queue 0 qch ⟨65536*5000/64, line64 9, false, 0, 4⟩ (withMap 0 [(4160*7, fe true false true .present), (4160*7+1, fe false false false .lost),(4160*7+2, fe false false true .present)] (withExts [ext' 7 .sealed] [lease' 0 0 0 7 .held, {lease' 0 0 1 7 .ended with tr := 3}] host))
/-- What the hypotheses of SealedExtentAccess ask, at concrete states. -/
theorem witness_SealedExtentAccess : (st HS).Ok ∧ (st HS).m.portServes 0 = true ∧ 0 % 64 = 0 ∧ (st HS).m.leaseAt 0 ((st HS).m.slotOfDpa 0 0).fst ((st
    HS).m.slotOfDpa 0 0).snd = some (lease' 0 0 0 7 LeaseState.held) ∧ (lease' 0 0 0 7 LeaseState.held).before 7 = true ∧ (st HS).m.homeAt (ldPort 0)
    (lease' 0 0 0 7 LeaseState.held).ext = some (ext' 7 ExtState.sealed).home ∧ (st HS).m.ext? (lease' 0 0 0 7 LeaseState.held).ext = some (ext' 7
    ExtState.sealed) ∧ (ext' 7 ExtState.sealed).shared = false ∧ (ext' 7 ExtState.sealed).coded = true ∧ (st HS).m.versionAt (ext' 7 ExtState.sealed)
    7 = ext' 7 ExtState.sealed ∧ (ext' 7 ExtState.sealed).home < (st HS).m.n ∧ (ext' 7 ExtState.sealed).num < 2 ^ 20 ∧ ((st HS).m.entry (ext' 7
    ExtState.sealed).home (ext' 7 ExtState.sealed).num (lineOf 0 / 1024)).state = FState.present ∧ ((st HS).m.entry (ext' 7 ExtState.sealed).home
    (ext' 7 ExtState.sealed).num (lineOf 0 / 1024)).inT1 = true ∧ (st HS).m.avail (ext' 7 ExtState.sealed).home (ext' 7 ExtState.sealed).num (lineOf 0
    / 1024) 1 = true ∧ (st HS).m.chanOpen (ext' 7 ExtState.sealed).home ((st HS).m.locate (ext' 7 ExtState.sealed).home ((st HS).m.t1Addr (ext' 7
    ExtState.sealed).home (ext' 7 ExtState.sealed).num (lineOf 0))).ch = true ∧ (st HS).m.queued (ext' 7 ExtState.sealed).home ((st HS).m.locate (ext'
    7 ExtState.sealed).home ((st HS).m.t1Addr (ext' 7 ExtState.sealed).home (ext' 7 ExtState.sealed).num (lineOf 0))).ch ((st HS).m.t1Addr (ext' 7
    ExtState.sealed).home (ext' 7 ExtState.sealed).num (lineOf 0)) = some { line := 65536 * 5000 / 64, data := line64 9, poison := false, port := 0, since := 4 : WqEntry }
    ∧ { line := 65536 * 5000 / 64, data := line64 9, poison := false, port := 0, since := 4 : WqEntry }.poison = false ∧ 0 + [3#8].length ≤ 64 ∧ 65536
    % 64 = 0 ∧ (st HS).m.leaseAt 0 ((st HS).m.slotOfDpa 0 65536).fst ((st HS).m.slotOfDpa 0 65536).snd = some (lease' 0 0 0 7 LeaseState.held) ∧ ((st
    HS).m.entry (ext' 7 ExtState.sealed).home (ext' 7 ExtState.sealed).num (lineOf 65536 / 1024)).state = FState.lost ∧ 196608 % 64 = 0 ∧ (st
    HS).m.leaseAt 0 ((st HS).m.slotOfDpa 0 196608).fst ((st HS).m.slotOfDpa 0 196608).snd = some (lease' 0 0 0 7 LeaseState.held) ∧ ((st HS).m.entry
    (ext' 7 ExtState.sealed).home (ext' 7 ExtState.sealed).num (lineOf 196608 / 1024)).state = FState.zero := by
  repeat' with_reducible apply And.intro
  all_goals first | decide +kernel | (apply ok; decide +kernel)

end W5

namespace W6

def B0 : Mach := {(withExts [shared' (ext' 7 .opened)] [lease' 0 1 0 7 .held, lease' 1 1 0 7 .held] host) with cfg := {host.cfg with region0 := []}}
def B1 : Mach := B0.setSf 0 7 1 [1] true
def BW : BiWait := ⟨7, 1, 1, 1700000000, true, .request⟩
def B3 (m : Mach) : Mach := m.updCoh 0 (fun c => {c with bis := [BW]})
/-- What the hypotheses of BackInvalidates ask, at concrete states. -/
theorem witness_BackInvalidates : (st B1).Ok ∧ (st B1).m.portServes 0 = true ∧ 0 % 64 = 0 ∧ (st B1).m.leaseAt 0 ((st B1).m.slotOfDpa 0 0).fst ((st
    B1).m.slotOfDpa 0 0).snd = some (lease' 0 1 0 7 LeaseState.held) ∧ (lease' 0 1 0 7 LeaseState.held).before 7 = true ∧ (st B1).m.homeAt (ldPort 0)
    (lease' 0 1 0 7 LeaseState.held).ext = some (shared' (ext' 7 ExtState.opened)).home ∧ (st B1).m.behind (shared' (ext' 7 ExtState.opened)).home
    (Waiting.load 0 0 (lease' 0 1 0 7 LeaseState.held).ext (lineOf 0) true) = false ∧ (st B1).m.ext? (lease' 0 1 0 7 LeaseState.held).ext = some
    (shared' (ext' 7 ExtState.opened)) ∧ (shared' (ext' 7 ExtState.opened)).shared = true ∧ (shared' (ext' 7 ExtState.opened)).state = ExtState.opened
    ∧ (shared' (ext' 7 ExtState.opened)).home < (st B1).m.n ∧ (st B1).m.sf? (shared' (ext' 7 ExtState.opened)).home (lease' 0 1 0 7
    LeaseState.held).ext (lineOf 0) = none ∧ ((st B1).m.die (shared' (ext' 7 ExtState.opened)).home).coh.filter.length < 16777216 ∧ 64 % 64 = 0 ∧ (st
    B1).m.leaseAt 0 ((st B1).m.slotOfDpa 0 64).fst ((st B1).m.slotOfDpa 0 64).snd = some (lease' 0 1 0 7 LeaseState.held) ∧ (st B1).m.behind (shared'
    (ext' 7 ExtState.opened)).home (Waiting.load 0 64 (lease' 0 1 0 7 LeaseState.held).ext (lineOf 64) true) = false ∧ true = true ∧ 1 ≠ 0 ∧ (st
    B1).m.sf? (shared' (ext' 7 ExtState.opened)).home (lease' 0 1 0 7 LeaseState.held).ext (lineOf 64) = some { ext := (lease' 0 1 0 7 LeaseState.held).ext, line := lineOf 64, holders := [1], excl := true : SfEntry }
    ∧ ((st B1).m.die (shared' (ext' 7 ExtState.opened)).home).coh.bis = [] ∧ (st (B3 B1)).Ok ∧ (st (B3 B1)).m.alive = true ∧ (st (B3 B1)).m.bi? 1 7 1
    = some (0, BW) ∧ ((st (B3 B1)).m.die 0).coh.waits = [] ∧ ((st (B3 B1)).m.die 0).coh.held = [] ∧ 1 < 128 ∧ 0 < (st B1).m.n ∧ (st B1).m.alive = true
    ∧ (st B1).m.ext? (bits (BitVec.toNat (7 : Word)) 0 20) = some (shared' (ext' 7 ExtState.opened)) ∧ (0 = (st B1).m.ens ∨ (shared' (ext' 7
    ExtState.opened)).home = 0) ∧ (st B1).m.ext? (bits (BitVec.toNat (9 : Word)) 0 20) = none ∧ 0 = (st B1).m.ens ∧ 1 < (st B1).m.n ∧ 1 ≠ (st
    B1).m.ens ∧ (∀ (x : Extent), (st B1).m.ext? (bits (BitVec.toNat (7 : Word)) 0 20) = some x → x.home ≠ 1) := by
  repeat' with_reducible apply And.intro
  all_goals first | decide +kernel | (apply ok; decide +kernel)

def good : Lane := ⟨40,40,30,30⟩
def dst : Mach := both (trainedFab (starting 5)) ([(Reg.DMC_CONFIG.RETAIN, 1)] ++ (List.range 6).map (fun i => (Reg.DMC_MAP_MASK.MASK i, maskDflt i)))
def rmp : Mach := both host [(Reg.DMC_DEV_STATUS.INIT_DONE, 5),(Reg.DMC_CH_STATUS.STATE 4,0), (Reg.DMC_CH_STATUS.STATE 5,0), (Reg.DMC_CH_STATUS.STATE 6,0), (Reg.DMC_CH_STATUS.STATE 7,0)]
def ini : Mach := both host [(Reg.DMC_DEV_STATUS.INIT_DONE, 5),(Reg.DMC_CH_STATUS.STATE 4,1), (Reg.DMC_CH_STATUS.STATE 5,1), (Reg.DMC_CH_STATUS.STATE 6,1), (Reg.DMC_CH_STATUS.STATE 7,1)]
def dramStartUpState4 : State := st (both dst [(Reg.DMC_MAP_MASK.MASK 0, 0)])
/-- What the hypotheses of DramStartUp ask, at concrete states. -/
theorem witness_DramStartUp : (st dst).Ok ∧ 0 < (st dst).m.n ∧ (st dst).m.dramDue 0 = true ∧ (st dst).m.mapOneToOne 0 = true ∧ (st dst).m.boardDramOk
    0 0 = true ∧ (List.replicate 12 good).length = 12 ∧ (List.replicate 12 good).all laneOk = true ∧ (List.replicate 12 { rd := 1, wr := 1, rdEye := 0, wrEye := 0 : Lane }).length
    = 12 ∧ (List.replicate 12 { rd := 1, wr := 1, rdEye := 0, wrEye := 0 : Lane }).all laneOk = false ∧ (st dst).m.boardDramOk 0 1 = false ∧
    dramStartUpState4.Ok ∧ 0 < dramStartUpState4.m.n ∧ dramStartUpState4.m.dramDue 0 = true ∧ dramStartUpState4.m.mapOneToOne 0 = false ∧ (st rmp).Ok
    ∧ 0 < (st rmp).m.n ∧ 1 < 3 ∧ (st rmp).m.serving = true ∧ bit ((st rmp).m.rd 0 Reg.DMC_DEV_STATUS.POWERED) 1 = true ∧ bit ((st rmp).m.rd 0
    Reg.DMC_DEV_STATUS.INIT_DONE) 1 = false ∧ (st rmp).m.chState 0 (4 * 1) = 0 ∧ (st ini).Ok ∧ 0 < (st ini).m.n ∧ (st ini).m.serving = true ∧ (st
    ini).m.chState 0 (4 * 1) = 1 ∧ (List.replicate 4 { rd := 1, wr := 1, rdEye := 0, wrEye := 0 : Lane }).length = 4 := by
  repeat' with_reducible apply And.intro
  all_goals first | decide +kernel | (apply ok; decide +kernel)

def C1 : Mach := queue 0 1 ⟨10, line64 9, false, 0, 4⟩ host
def channelCommandsState5 : State := st (both host [(Reg.DMC_CONFIG.REFRESH,1)])
/-- What the hypotheses of ChannelCommands ask, at concrete states. -/
theorem witness_ChannelCommands : (st host).Ok ∧ 0 < (st host).m.n ∧ 0 < 12 ∧ 0 < 16 ∧ 2 ≤ (st host).m.chState 0 0 ∧ (st host).m.chState 0 0 ≠ 4 ∧ (st
    host).m.chanOpen 0 0 = true ∧ ((st host).m.chan 0 0).wq = [] ∧ (st C1).Ok ∧ 0 < (st C1).m.n ∧ 1 < 12 ∧ (st C1).m.chanOpen 0 1 = true ∧ ((st
    C1).m.chan 0 1).wq = [{ line := 10, data := line64 9, poison := false, port := 0, since := 4 : WqEntry }] ∧ { line := 10, data := line64 9, poison := false, port := 0, since := 4 : WqEntry }.data.length
    = 64 ∧ { line := 10, data := line64 9, poison := false, port := 0, since := 4 : WqEntry }.poison = false ∧ (st C1).m.rd 0
    Reg.ERR_FLIP_CTRL.ALLOWED = 0 ∧ channelCommandsState5.Ok ∧ 0 < channelCommandsState5.m.n ∧ channelCommandsState5.m.chState 0 0 = 3 ∧
    channelCommandsState5.m.rd 0 Reg.DMC_CONFIG.REFRESH = 1 ∧ channelCommandsState5.m.serving = true ∧ (st host).m.chState 0 0 = 3 := by
  repeat' with_reducible apply And.intro
  all_goals first | decide +kernel | (apply ok; decide +kernel)

end W6

namespace W7

def Fz (m : Mach) : Mach := both m [(Reg.DMC_CH_STATUS.STATE 2, 5)]
def F1 : Mach := (Fz host).updChan 0 2 (fun c => {c with waiting := [⟨.load 0 64 7 1 false, 5, 5⟩]})
def ch0 : Nat := (host.locate 0 0).ch
def F2 : Mach := (both host [(Reg.DMC_CH_STATUS.STATE ch0, 5)]).updChan 0 ch0 (fun c => {c with releasing := true, failing := [0]})
/-- What the hypotheses of ChannelFreezes ask, at concrete states. -/
theorem witness_ChannelFreezes : (st F1).Ok ∧ 0 < (st F1).m.n ∧ 0 < 12 ∧ (st F1).m.alive = true ∧ (st F1).m.chanOpen 0 0 = true ∧ ((st F1).m.locate 0
    0).ch = 0 ∧ ((st F1).m.chState 0 0 ≠ 5 ∨ BitVec.toNat (0 : Word) % 2 = 0) ∧ 2 < 12 ∧ (st F1).m.chState 0 2 = 5 ∧ BitVec.toNat (1 : Word) % 2 = 1 ∧
    (st F2).Ok ∧ 0 < (st F2).m.n ∧ (st F2).m.alive = true ∧ (st F2).m.chState 0 0 = 5 ∧ FreezeCause.data 0 ∈ [FreezeCause.data 0,
    FreezeCause.checkSegment 0] ∧ ((st F2).m.locate 0 0).ch = 0 ∧ ((st F1).m.chan 0 2).waiting = [{ req := Waiting.load 0 64 7 1 false, since := 5, ingress := 5 : WaitEntry }]
    ∧ ((st F1).m.die 0).coh.held = [] ∧ 1 < (st F1).m.n ∧ (st F1).m.chState 1 2 = 5 ∧ ((st F1).m.chan 1 2).waiting = [] ∧ ((st F2).m.chan 0
    0).releasing = true ∧ laneOk { rd := 1, wr := 1, rdEye := 0, wrEye := 0 : Lane } = false ∧ laneOk { rd := 40, wr := 40, rdEye := 30, wrEye := 30 : Lane }
    = true := by
  repeat' with_reducible apply And.intro
  all_goals first | decide +kernel | (apply ok; decide +kernel)

def R0 : Mach := wrs ringed 0 [(Reg.RING_STATUS.ENABLED 0, 0),(Reg.RING_STATUS.ENABLE_FAILED 0, 1),(Reg.RING_SQ_HEAD.HEAD 0, 9)]
/-- What the hypotheses of RingControl ask, at concrete states. -/
theorem witness_RingControl : (st ringed).Ok ∧ 0 < 16384 ∧ (st ringed).m.ringDie 0 < (st ringed).m.n ∧ (st ringed).m.ringReady 0 = true ∧ BitVec.toNat
    (0 : Word) % 2 = 0 ∧ (st ringed).m.ringOn 0 = true ∧ bits (BitVec.toNat (0 : Word)) 0 16 < (st ringed).m.sqSize 0 ∧ bits (BitVec.toNat (0 : Word))
    0 16 < (st ringed).m.cqSize 0 ∧ BitVec.toNat (1 : Word) % 2 = 1 ∧ ((st ringed).m.ringOn 0 = false ∨ (st ringed).m.sqSize 0 ≤ bits (BitVec.toNat
    (24673 : Word)) 0 16) ∧ (st ringed).m.cqSize 0 ≤ bits (BitVec.toNat (24673 : Word)) 0 16 ∧ 16384 ≤ 16384 ∧ Instr.ringEnable 16384 0 ∈
    [Instr.ringEnable 16384 0, Instr.ringDisable 16384 0, Instr.ringDoorbell 16384 0, Instr.ringCqHead 16384 0, Instr.descriptorAccept 16384] ∧ (st
    R0).Ok ∧ (st R0).m.ringDie 0 < (st R0).m.n ∧ (st R0).m.ringReady 0 = true ∧ (st R0).m.ringOn 0 = false := by
  repeat' with_reducible apply And.intro
  all_goals first | decide +kernel | (apply ok; decide +kernel)

def dsc (ds : List Byte) : Mach := queueAll 0 [(65536*5000+0x1000, ds.take 64),(65536*5000+0x1040, sub ds 64 64),(65536*5000+0x1080, sub ds 128 64),(65536*5000+0x10C0, sub ds 192 64)] (wrs ringed 0 [(Reg.RING_DOORBELL.TAIL 0, 1)])
def descriptorsAcceptedListLineVal0 : List LineVal := [.ok (sub (desc 0 []) 0 64), .ok (sub (desc 0 []) 64 64), .ok (sub (desc 0 []) 128 64), .ok (sub (desc 0 []) 192 64)]
def descriptorsAcceptedListLineVal1 : List LineVal := [.poison (sub (desc 0 []) 0 64) none]
/-- What the hypotheses of DescriptorsAccepted ask, at concrete states. -/
theorem witness_DescriptorsAccepted : (st (dsc (desc 0 []))).Ok ∧ 0 < 16384 ∧ (st (dsc (desc 0 []))).m.ringDie 0 < (st (dsc (desc 0 []))).m.n ∧ (st
    (dsc (desc 0 []))).m.ringReady 0 = true ∧ (st (dsc (desc 0 []))).m.ringOn 0 = true ∧ (st (dsc (desc 0 []))).m.pw.phase = Phase.run ∧ (st (dsc
    (desc 0 []))).m.rr 0 Reg.RING_SQ_HEAD.HEAD ≠ (st (dsc (desc 0 []))).m.rr 0 Reg.RING_DOORBELL.TAIL ∧ (st (dsc (desc 0 []))).m.ringLd 0 = some 0 ∧
    (st (dsc (desc 0 []))).m.freeRec ((st (dsc (desc 0 []))).m.ringDie 0) = some 0 ∧ (st (dsc (desc 0 []))).m.cqRoom 0 = true ∧ (∀ (j : Job), j ∈ (st
    (dsc (desc 0 []))).m.jobs ((st (dsc (desc 0 []))).m.ringDie 0) → j.ring = 0 → j.pre = false) ∧ (st (dsc (desc 0 []))).m.openRun 0 ((st (dsc (desc
    0 []))).m.headDpa 0) 256 = some (ext' 7 ExtState.opened) ∧ (ext' 7 ExtState.opened).shared = false ∧ (((st (dsc (desc 0 []))).fresh.showStall
    0).cqReady 0).fst = true ∧ (if ((((st (dsc (desc 0 []))).fresh.showStall 0).cqReady 0).snd.entry (ext' 7 ExtState.opened).home (ext' 7
    ExtState.opened).num (lineOf ((st (dsc (desc 0 []))).m.headDpa 0) / 1024)).state = FState.zero then (some ([], false), (((st (dsc (desc 0
    []))).fresh.showStall 0).cqReady 0).snd) else (((st (dsc (desc 0 []))).fresh.showStall 0).cqReady 0).snd.getBytes (ext' 7 ExtState.opened).home 4
    ((((st (dsc (desc 0 []))).fresh.showStall 0).cqReady 0).snd.t1Addr (ext' 7 ExtState.opened).home (ext' 7 ExtState.opened).num (lineOf ((st (dsc
    (desc 0 []))).m.headDpa 0))) 256).fst.isSome = true ∧ (((if ((((st (dsc (desc 0 []))).fresh.showStall 0).cqReady 0).snd.entry (ext' 7
    ExtState.opened).home (ext' 7 ExtState.opened).num (lineOf ((st (dsc (desc 0 []))).m.headDpa 0) / 1024)).state = FState.zero then (some ([],
    false), (((st (dsc (desc 0 []))).fresh.showStall 0).cqReady 0).snd) else (((st (dsc (desc 0 []))).fresh.showStall 0).cqReady 0).snd.getBytes (ext'
    7 ExtState.opened).home 4 ((((st (dsc (desc 0 []))).fresh.showStall 0).cqReady 0).snd.t1Addr (ext' 7 ExtState.opened).home (ext' 7
    ExtState.opened).num (lineOf ((st (dsc (desc 0 []))).m.headDpa 0))) 256).snd.listReady 0 (List.flatMap LineVal.bytes (List.map (fun (i : Nat) =>
    (if ((((st (dsc (desc 0 []))).fresh.showStall 0).cqReady 0).snd.entry (ext' 7 ExtState.opened).home (ext' 7 ExtState.opened).num (lineOf ((st (dsc
    (desc 0 []))).m.headDpa 0) / 1024)).state = FState.zero then (some ([], false), (((st (dsc (desc 0 []))).fresh.showStall 0).cqReady 0).snd) else
    (((st (dsc (desc 0 []))).fresh.showStall 0).cqReady 0).snd.getBytes (ext' 7 ExtState.opened).home 4 ((((st (dsc (desc 0 []))).fresh.showStall
    0).cqReady 0).snd.t1Addr (ext' 7 ExtState.opened).home (ext' 7 ExtState.opened).num (lineOf ((st (dsc (desc 0 []))).m.headDpa 0)))
    256).snd.lineVal (ext' 7 ExtState.opened).home (ext' 7 ExtState.opened) (lineOf ((st (dsc (desc 0 []))).m.headDpa 0) + i)) (List.range 4)))).fst =
    true) ∧ ringed.Ok ∧ ringed.ringDie 0 < ringed.n ∧ ringed.ringOn 0 = true ∧ ringed.job? (ringed.ringDie 0) 0 = none ∧
    ((descriptorsAcceptedListLineVal0.any fun (v : LineVal) => match v with | LineVal.poison bs origin => true | LineVal.ok bs => false) = false) ∧
    field (List.flatMap LineVal.bytes descriptorsAcceptedListLineVal0) 1 1 = 1 ∧ (descOp (List.flatMap LineVal.bytes descriptorsAcceptedListLineVal0)
    = 0 ∨ descOp (List.flatMap LineVal.bytes descriptorsAcceptedListLineVal0) = 1) ∧ ((descriptorsAcceptedListLineVal1.any fun (v : LineVal) => match
    v with | LineVal.poison bs origin => true | LineVal.ok bs => false) = true ∨ field (List.flatMap LineVal.bytes descriptorsAcceptedListLineVal1) 1
    1 ≠ 1 ∨ opcodes.contains (descOp (List.flatMap LineVal.bytes descriptorsAcceptedListLineVal1)) = false) := by
  repeat' with_reducible apply And.intro
  all_goals first | decide +kernel | (apply ok; decide +kernel)

def jobIn (m : Mach) : Job := ((m.jobs 0).head?).getD (newJob 0 0 0 0 0 [])
def linRouted : Mach := withJob 0 {jobOf ringed 3 (linD true) with host := [⟨0x30000, List.replicate 8 0, false, none⟩]} ringed
def badGather : Mach := jobSt 3 (desc 0x30 ([(32, 4, h9)] ++ bufF 48 0x20000 5 0))
def computeJobsStartExtent0 : Extent := { ext' 9 .sealed with home := 1, format := 1 }
/-- What the hypotheses of ComputeJobsStart ask, at concrete states. -/
theorem witness_ComputeJobsStart : (st (attSt 16)).Ok ∧ 0 < (st (attSt 16)).m.n ∧ (st (attSt 16)).m.serving = true ∧ (st (attSt 16)).m.job? 0 3 = some
    (jobIn (attSt 16)) ∧ (st (attSt 16)).m.mayStart 0 (jobIn (attSt 16)) = true ∧ (Instr.attend 0 3, 16) ∈ [(Instr.attend 0 3, 16), (Instr.select 0 3,
    17)] ∧ (jobIn (attSt 16)).op = (Instr.attend 0 3, 16).snd ∧ (st (attSt 16)).m.attOk (jobIn (attSt 16)) = true ∧ (st (attSt 16)).m.roomFor 0 ((st
    (attSt 16)).m.attHomes 0 (jobIn (attSt 16))) = true ∧ ((fun (bs : List (Buf × Nat)) => (readyAll (st (attSt 16)).fresh (fun (m : Mach) (b : Buf ×
    Nat) => m.useBuf (jobIn (attSt 16)) (0, (jobIn (attSt 16)).num) b.fst b.snd) (List.filter (fun (b : Buf × Nat) => decide (b.fst.kind = 0))
    bs)).fst = Ready.yes) [((attP (jobIn (attSt 16)).desc).spans, 16 * (attP (jobIn (attSt 16)).desc).nspan)]) ∧ (((st (attSt 16)).m.scratchShort
    (jobIn (attSt 16)) ((st (attSt 16)).m.attHomes 0 (jobIn (attSt 16))) fun (x : Nat) => (attP (jobIn (attSt 16)).desc).scratch) = []) ∧ (st (attSt
    17)).Ok ∧ 0 < (st (attSt 17)).m.n ∧ (st (attSt 17)).m.serving = true ∧ (st (attSt 17)).m.job? 0 3 = some (jobIn (attSt 17)) ∧ (st (attSt
    17)).m.mayStart 0 (jobIn (attSt 17)) = true ∧ (Instr.select 0 3, 17) ∈ [(Instr.attend 0 3, 16), (Instr.select 0 3, 17)] ∧ (jobIn (attSt 17)).op =
    (Instr.select 0 3, 17).snd ∧ (st (attSt 17)).m.attOk (jobIn (attSt 17)) = false ∧ (st (jobSt 3 (linD false))).Ok ∧ 0 < (st (jobSt 3 (linD
    false))).m.n ∧ (st (jobSt 3 (linD false))).m.serving = true ∧ (st (jobSt 3 (linD false))).m.job? 0 3 = some (jobIn (jobSt 3 (linD false))) ∧ (st
    (jobSt 3 (linD false))).m.mayStart 0 (jobIn (jobSt 3 (linD false))) = true ∧ (jobIn (jobSt 3 (linD false))).op = 32 ∧ (st (jobSt 3 (linD
    false))).m.linOk (jobIn (jobSt 3 (linD false))) = true ∧ (st (jobSt 3 (linD false))).m.roomFor 0 ((st (jobSt 3 (linD false))).m.linHomes 0 (jobIn
    (jobSt 3 (linD false)))) = true ∧ linGrouped (jobIn (jobSt 3 (linD false))).desc = false ∧ (st (jobSt 3 (linD true))).Ok ∧ 0 < (st (jobSt 3 (linD
    true))).m.n ∧ (st (jobSt 3 (linD true))).m.serving = true ∧ (st (jobSt 3 (linD true))).m.job? 0 3 = some (jobIn (jobSt 3 (linD true))) ∧ (st
    (jobSt 3 (linD true))).m.mayStart 0 (jobIn (jobSt 3 (linD true))) = true ∧ (jobIn (jobSt 3 (linD true))).op = 32 ∧ (st (jobSt 3 (linD
    true))).m.linOk (jobIn (jobSt 3 (linD true))) = true ∧ (st (jobSt 3 (linD true))).m.roomFor 0 ((st (jobSt 3 (linD true))).m.linHomes 0 (jobIn
    (jobSt 3 (linD true)))) = true ∧ linGrouped (jobIn (jobSt 3 (linD true))).desc = true ∧ (jobIn (jobSt 3 (linD true))).reads = [] ∧ (jobIn (jobSt 3
    (linD true))).routeHere = false ∧ (st (jobSt 3 (linD true))).m.bme (jobIn (jobSt 3 (linD true))).ld = true ∧ (st linRouted).Ok ∧ 0 < (st
    linRouted).m.n ∧ (st linRouted).m.serving = true ∧ (st linRouted).m.job? 0 3 = some (jobIn linRouted) ∧ (st linRouted).m.mayStart 0 (jobIn
    linRouted) = true ∧ (jobIn linRouted).op = 32 ∧ (st linRouted).m.linOk (jobIn linRouted) = true ∧ (st linRouted).m.roomFor 0 ((st
    linRouted).m.linHomes 0 (jobIn linRouted)) = true ∧ linGrouped (jobIn linRouted).desc = true ∧ (jobIn linRouted).reads = [] ∧ (jobIn
    linRouted).routeHere = true ∧ (st (jobSt 3 gatherD)).Ok ∧ 0 < (st (jobSt 3 gatherD)).m.n ∧ (st (jobSt 3 gatherD)).m.serving = true ∧ (st (jobSt 3
    gatherD)).m.job? 0 3 = some (jobIn (jobSt 3 gatherD)) ∧ (st (jobSt 3 gatherD)).m.mayStart 0 (jobIn (jobSt 3 gatherD)) = true ∧ (jobIn (jobSt 3
    gatherD)).op = 48 ∧ gatherOk (st (jobSt 3 gatherD)).m (jobIn (jobSt 3 gatherD)) = true ∧ (st (jobSt 3 gatherD)).m.byHandle (field (jobIn (jobSt 3
    gatherD)).desc 32 4) = some computeJobsStartExtent0 ∧ (st (jobSt 3 ingestD)).Ok ∧ 0 < (st (jobSt 3 ingestD)).m.n ∧ (st (jobSt 3
    ingestD)).m.serving = true ∧ (st (jobSt 3 ingestD)).m.job? 0 3 = some (jobIn (jobSt 3 ingestD)) ∧ (st (jobSt 3 ingestD)).m.mayStart 0 (jobIn
    (jobSt 3 ingestD)) = true ∧ (jobIn (jobSt 3 ingestD)).op = 49 ∧ ingestOk (st (jobSt 3 ingestD)).m (jobIn (jobSt 3 ingestD)) = true ∧ (st (jobSt 3
    copyD)).Ok ∧ 0 < (st (jobSt 3 copyD)).m.n ∧ (st (jobSt 3 copyD)).m.serving = true ∧ (st (jobSt 3 copyD)).m.job? 0 3 = some (jobIn (jobSt 3 copyD))
    ∧ (st (jobSt 3 copyD)).m.mayStart 0 (jobIn (jobSt 3 copyD)) = true ∧ (jobIn (jobSt 3 copyD)).op = 50 ∧ copyOk (st (jobSt 3 copyD)).m (jobIn (jobSt
    3 copyD)) = true ∧ (st badGather).Ok ∧ 0 < (st badGather).m.n ∧ (st badGather).m.serving = true ∧ (st badGather).m.job? 0 3 = some (jobIn
    badGather) ∧ (st badGather).m.mayStart 0 (jobIn badGather) = true ∧ (Instr.gather 0 3, 48, gatherOk (st badGather).m (jobIn badGather)) ∈
    [(Instr.gather 0 3, 48, gatherOk (st badGather).m (jobIn badGather)), (Instr.ingest 0 3, 49, ingestOk (st badGather).m (jobIn badGather)),
    (Instr.copy 0 3, 50, copyOk (st badGather).m (jobIn badGather))] ∧ (jobIn badGather).op = (Instr.gather 0 3, 48, gatherOk (st badGather).m (jobIn
    badGather)).snd.fst ∧ (Instr.gather 0 3, 48, gatherOk (st badGather).m (jobIn badGather)).snd.snd = false := by
  repeat' with_reducible apply And.intro
  all_goals first | decide +kernel | (apply ok; decide +kernel)

def unpinned : Mach := jobSt 3 (tierD 0x43) (ringed.updTier 1 (fun t => {t with pins := [⟨some 0, 9, 0, 2⟩, ⟨some 1, 9, 0, 2⟩]}))
def badSeal : Mach := jobSt 3 (desc 0x40 [(32, 4, h7), (36, 1, 9)])
def extentJobsStartExtent0 : Extent := { ext' 9 .sealed with home := 1, format := 1 }
/-- What the hypotheses of ExtentJobsStart ask, at concrete states. -/
theorem witness_ExtentJobsStart : (st (jobSt 3 sealD)).Ok ∧ 0 < (st (jobSt 3 sealD)).m.n ∧ (st (jobSt 3 sealD)).m.ens < (st (jobSt 3 sealD)).m.n ∧ (st
    (jobSt 3 sealD)).m.serving = true ∧ (st (jobSt 3 sealD)).m.job? 0 3 = some (jobIn (jobSt 3 sealD)) ∧ (st (jobSt 3 sealD)).m.mayStart 0 (jobIn
    (jobSt 3 sealD)) = true ∧ (jobIn (jobSt 3 sealD)).op = 64 ∧ sealOk (st (jobSt 3 sealD)).m (jobIn (jobSt 3 sealD)) = true ∧ (st (jobSt 3
    sealD)).m.byHandle (field (jobIn (jobSt 3 sealD)).desc 32 4) = some (ext' 7 ExtState.opened) ∧ (st (jobSt 3 (tierD 65))).Ok ∧ 0 < (st (jobSt 3
    (tierD 65))).m.n ∧ (st (jobSt 3 (tierD 65))).m.ens < (st (jobSt 3 (tierD 65))).m.n ∧ (st (jobSt 3 (tierD 65))).m.serving = true ∧ (st (jobSt 3
    (tierD 65))).m.job? 0 3 = some (jobIn (jobSt 3 (tierD 65))) ∧ (st (jobSt 3 (tierD 65))).m.mayStart 0 (jobIn (jobSt 3 (tierD 65))) = true ∧
    (Instr.prefetch 0 3, 65) ∈ [(Instr.prefetch 0 3, 65), (Instr.pin 0 3, 66)] ∧ (jobIn (jobSt 3 (tierD 65))).op = (Instr.prefetch 0 3, 65).snd ∧
    tierOk (st (jobSt 3 (tierD 65))).m (jobIn (jobSt 3 (tierD 65))) = true ∧ (st unpinned).Ok ∧ 0 < (st unpinned).m.n ∧ (st unpinned).m.ens < (st
    unpinned).m.n ∧ (st unpinned).m.serving = true ∧ (st unpinned).m.job? 0 3 = some (jobIn unpinned) ∧ (st unpinned).m.mayStart 0 (jobIn unpinned) =
    true ∧ (jobIn unpinned).op = 67 ∧ tierOk (st unpinned).m (jobIn unpinned) = true ∧ (st (jobSt 3 (replD 0))).Ok ∧ 0 < (st (jobSt 3 (replD 0))).m.n
    ∧ (st (jobSt 3 (replD 0))).m.ens < (st (jobSt 3 (replD 0))).m.n ∧ (st (jobSt 3 (replD 0))).m.serving = true ∧ (st (jobSt 3 (replD 0))).m.job? 0 3
    = some (jobIn (jobSt 3 (replD 0))) ∧ (st (jobSt 3 (replD 0))).m.mayStart 0 (jobIn (jobSt 3 (replD 0))) = true ∧ (jobIn (jobSt 3 (replD 0))).op =
    80 ∧ replOk (st (jobSt 3 (replD 0))).m (jobIn (jobSt 3 (replD 0))) = true ∧ (st (jobSt 3 (replD 0))).m.byHandle (field (jobIn (jobSt 3 (replD
    0))).desc 32 4) = some extentJobsStartExtent0 ∧ (st (jobSt 3 (replD 0))).m.replTurn extentJobsStartExtent0.home (jobIn (jobSt 3 (replD 0))) = true
    ∧ (Instr.replicatePush 0 3, 0) ∈ [(Instr.replicatePush 0 3, 0), (Instr.replicateRepair 0 3, 1)] ∧ replMode (jobIn (jobSt 3 (replD 0))) =
    (Instr.replicatePush 0 3, 0).snd ∧ (st (jobSt 3 (replD 0))).m.bme (jobIn (jobSt 3 (replD 0))).ld = true ∧ (st ((jobSt 3 (replD 0)).wr 0
    (Reg.PORT_LD_STATUS.BME 0) 0)).Ok ∧ 0 < (st ((jobSt 3 (replD 0)).wr 0 (Reg.PORT_LD_STATUS.BME 0) 0)).m.n ∧ (st ((jobSt 3 (replD 0)).wr 0
    (Reg.PORT_LD_STATUS.BME 0) 0)).m.ens < (st ((jobSt 3 (replD 0)).wr 0 (Reg.PORT_LD_STATUS.BME 0) 0)).m.n ∧ (st ((jobSt 3 (replD 0)).wr 0
    (Reg.PORT_LD_STATUS.BME 0) 0)).m.serving = true ∧ (st ((jobSt 3 (replD 0)).wr 0 (Reg.PORT_LD_STATUS.BME 0) 0)).m.job? 0 3 = some (jobIn (jobSt 3
    (replD 0))) ∧ (st ((jobSt 3 (replD 0)).wr 0 (Reg.PORT_LD_STATUS.BME 0) 0)).m.mayStart 0 (jobIn (jobSt 3 (replD 0))) = true ∧ replOk (st ((jobSt 3
    (replD 0)).wr 0 (Reg.PORT_LD_STATUS.BME 0) 0)).m (jobIn (jobSt 3 (replD 0))) = true ∧ (st ((jobSt 3 (replD 0)).wr 0 (Reg.PORT_LD_STATUS.BME 0)
    0)).m.byHandle (field (jobIn (jobSt 3 (replD 0))).desc 32 4) = some extentJobsStartExtent0 ∧ (st ((jobSt 3 (replD 0)).wr 0 (Reg.PORT_LD_STATUS.BME
    0) 0)).m.replTurn extentJobsStartExtent0.home (jobIn (jobSt 3 (replD 0))) = true ∧ (st ((jobSt 3 (replD 0)).wr 0 (Reg.PORT_LD_STATUS.BME 0)
    0)).m.bme (jobIn (jobSt 3 (replD 0))).ld = false ∧ (st badSeal).Ok ∧ 0 < (st badSeal).m.n ∧ (st badSeal).m.ens < (st badSeal).m.n ∧ (st
    badSeal).m.serving = true ∧ (st badSeal).m.job? 0 3 = some (jobIn badSeal) ∧ (st badSeal).m.mayStart 0 (jobIn badSeal) = true ∧ (Instr.seal 0 3,
    64, sealOk (st badSeal).m (jobIn badSeal)) ∈ [(Instr.seal 0 3, 64, sealOk (st badSeal).m (jobIn badSeal)), (Instr.prefetch 0 3, 65, tierOk (st
    badSeal).m (jobIn badSeal)), (Instr.pin 0 3, 66, tierOk (st badSeal).m (jobIn badSeal)), (Instr.unpin 0 3, 67, tierOk (st badSeal).m (jobIn
    badSeal)), (Instr.replicatePush 0 3, 80, decide (replMode (jobIn badSeal) ≠ 0) || replOk (st badSeal).m (jobIn badSeal)), (Instr.replicateRepair 0
    3, 80, decide (replMode (jobIn badSeal) ≠ 1) || replOk (st badSeal).m (jobIn badSeal))] ∧ (jobIn badSeal).op = (Instr.seal 0 3, 64, sealOk (st
    badSeal).m (jobIn badSeal)).snd.fst ∧ (Instr.seal 0 3, 64, sealOk (st badSeal).m (jobIn badSeal)).snd.snd = false := by
  repeat' with_reducible apply And.intro
  all_goals first | decide +kernel | (apply ok; decide +kernel)

def sub' (h : Nat) (r : Option Nat) : SubJob := ⟨h, some 1650000000, r, none, 0, false, none, [], false, []⟩
def run' (j : Job) : Job := {j with start := some 1650000000, phase := 2, subs := [sub' 0 none]}
def un : Job := jobOf ringed 3 (tierD 0x43)
def lin1 : Job := run' {jobOf ringed 3 (linD false) with reads := [⟨0x5000, 4, 1, 5, 1⟩]}
def js3 : List Mach := [jobSt 3 (desc 0 []), jobSt 3 (desc 1 []), withJob 0 {jobOf ringed 3 (desc 1 []) with accept := 1600000005} (jobSt 4 (desc 0 [])), withJob 0 (run' un) ringed, withJob 0 {run' un with abort := some 3} ringed,
  withJob 0 {run' un with subs := [sub' 0 none, sub' 1 none]} ringed, withJob 0 lin1 ringed, withJob 0 (run' {jobOf ringed 3 ingestD with reads := [⟨0x5000, 4, 1, 5, 1⟩]}) ringed, withJob 0 {run' un with abort := some 4} ringed, withJob 0 {lin1 with reads := []} (withExts [ext' 7 .sealing, { ext' 9 .sealed with home := 1, format := 1 }] [lease' 0 0 0 7 .held, lease' 0 0 1 9 .held] ringed)]
/-- What the hypotheses of JobsEnd ask, at concrete states. -/
theorem witness_JobsEnd : (st (js3.getD 0 up)).Ok ∧ 0 < (st (js3.getD 0 up)).m.n ∧ (st (js3.getD 0 up)).m.serving = true ∧ (st (js3.getD 0 up)).m.job?
    0 3 = some (jobIn (js3.getD 0 up)) ∧ (st (js3.getD 0 up)).m.mayStart 0 (jobIn (js3.getD 0 up)) = true ∧ (st (js3.getD 0 up)).m.ringDie (jobIn
    (js3.getD 0 up)).ring = 0 ∧ (jobIn (js3.getD 0 up)).noRing = false ∧ ((st (js3.getD 0 up)).fresh.ringOpen (jobIn (js3.getD 0 up))).fst = true ∧
    (jobIn (js3.getD 0 up)).op = 0 ∧ (st (js3.getD 1 up)).Ok ∧ 0 < (st (js3.getD 1 up)).m.n ∧ (st (js3.getD 1 up)).m.serving = true ∧ (st (js3.getD 1
    up)).m.job? 0 3 = some (jobIn (js3.getD 1 up)) ∧ (st (js3.getD 1 up)).m.mayStart 0 (jobIn (js3.getD 1 up)) = true ∧ (st (js3.getD 1 up)).m.ringDie
    (jobIn (js3.getD 1 up)).ring = 0 ∧ (jobIn (js3.getD 1 up)).noRing = false ∧ ((st (js3.getD 1 up)).fresh.ringOpen (jobIn (js3.getD 1 up))).fst =
    true ∧ (jobIn (js3.getD 1 up)).op = 1 ∧ (∀ (k : Job), k ∈ (st (js3.getD 1 up)).m.ringJobs (jobIn (js3.getD 1 up)).ring → (jobIn (js3.getD 1
    up)).accept ≤ k.accept) ∧ (st (js3.getD 2 up)).Ok ∧ 0 < (st (js3.getD 2 up)).m.n ∧ (st (js3.getD 2 up)).m.serving = true ∧ (st (js3.getD 2
    up)).m.job? 0 3 = some (((js3.getD 2 up).jobs 0)[1]?.getD (newJob 0 0 0 0 0 [])) ∧ (st (js3.getD 2 up)).m.mayStart 0 (((js3.getD 2 up).jobs
    0)[1]?.getD (newJob 0 0 0 0 0 [])) = true ∧ (st (js3.getD 2 up)).m.ringDie (((js3.getD 2 up).jobs 0)[1]?.getD (newJob 0 0 0 0 0 [])).ring = 0 ∧
    (((js3.getD 2 up).jobs 0)[1]?.getD (newJob 0 0 0 0 0 [])).noRing = false ∧ ((st (js3.getD 2 up)).fresh.ringOpen (((js3.getD 2 up).jobs 0)[1]?.getD
    (newJob 0 0 0 0 0 []))).fst = true ∧ jobIn (js3.getD 2 up) ∈ (st (js3.getD 2 up)).m.ringJobs (((js3.getD 2 up).jobs 0)[1]?.getD (newJob 0 0 0 0 0
    [])).ring ∧ (jobIn (js3.getD 2 up)).accept < (((js3.getD 2 up).jobs 0)[1]?.getD (newJob 0 0 0 0 0 [])).accept ∧ (((js3.getD 2 up).jobs 0)[1]?.getD
    (newJob 0 0 0 0 0 [])).op = 1 ∧ (st (js3.getD 3 up)).Ok ∧ 0 < (st (js3.getD 3 up)).m.n ∧ (st (js3.getD 3 up)).m.serving = true ∧ (st (js3.getD 3
    up)).m.job? 0 3 = some (jobIn (js3.getD 3 up)) ∧ (jobIn (js3.getD 3 up)).pre = false ∧ (jobIn (js3.getD 3 up)).orphan = false ∧ (st (js3.getD 3
    up)).m.ringDie (jobIn (js3.getD 3 up)).ring = 0 ∧ (jobIn (js3.getD 3 up)).noRing = false ∧ ((st (js3.getD 3 up)).fresh.ringOpen (jobIn (js3.getD 3
    up))).fst = true ∧ (jobIn (js3.getD 3 up)).op = 67 ∧ (jobIn (js3.getD 3 up)).start.isSome = true ∧ (jobIn (js3.getD 3 up)).abort = none ∧ (jobIn
    (js3.getD 3 up)).reads = [] ∧ (jobIn (js3.getD 3 up)).blocked = none ∧ (jobIn (js3.getD 3 up)).split = false ∧ (st (js3.getD 4 up)).Ok ∧ 0 < (st
    (js3.getD 4 up)).m.n ∧ (st (js3.getD 4 up)).m.serving = true ∧ (st (js3.getD 4 up)).m.job? 0 3 = some (jobIn (js3.getD 4 up)) ∧ (jobIn (js3.getD 4
    up)).pre = false ∧ (jobIn (js3.getD 4 up)).orphan = false ∧ (st (js3.getD 4 up)).m.ringDie (jobIn (js3.getD 4 up)).ring = 0 ∧ (jobIn (js3.getD 4
    up)).noRing = false ∧ ((st (js3.getD 4 up)).fresh.ringOpen (jobIn (js3.getD 4 up))).fst = true ∧ (jobIn (js3.getD 4 up)).abort = some 3 ∧ (jobIn
    (js3.getD 4 up)).op ≠ 49 ∧ ldPort (jobIn (js3.getD 4 up)).ld < (st (js3.getD 4 up)).m.n ∧ (st (js3.getD 5 up)).Ok ∧ 0 < (st (js3.getD 5 up)).m.n ∧
    (st (js3.getD 5 up)).m.serving = true ∧ (st (js3.getD 5 up)).m.job? 0 3 = some (jobIn (js3.getD 5 up)) ∧ (jobIn (js3.getD 5 up)).pre = false ∧
    (jobIn (js3.getD 5 up)).orphan = false ∧ (jobIn (js3.getD 5 up)).op = 67 ∧ (jobIn (js3.getD 5 up)).split = true ∧ (jobIn (js3.getD 5 up)).abort =
    none ∧ (jobIn (js3.getD 5 up)).reads = [] ∧ (jobIn (js3.getD 5 up)).late ((st (js3.getD 5 up)).m.stamp 0 (if 0 = 0 then none else some (jobIn
    (js3.getD 5 up)).accept)) = false ∧ (∃ (p : SubJob), p ∈ (jobIn (js3.getD 5 up)).subs ∧ p.home = 0 ∧ p.start.isSome = true ∧ p.returned = none) ∧
    (∀ (p : SubJob), p ∈ (jobIn (js3.getD 5 up)).subs → p.home = 0 → p.missed = false) ∧ (st (js3.getD 8 up)).Ok ∧ 0 < (st (js3.getD 8 up)).m.n ∧ (st
    (js3.getD 8 up)).m.serving = true ∧ (st (js3.getD 8 up)).m.job? 0 3 = some (jobIn (js3.getD 8 up)) ∧ (jobIn (js3.getD 8 up)).pre = false ∧ (jobIn
    (js3.getD 8 up)).orphan = false ∧ (st (js3.getD 8 up)).m.ringDie (jobIn (js3.getD 8 up)).ring = 0 ∧ (jobIn (js3.getD 8 up)).noRing = false ∧ ((st
    (js3.getD 8 up)).fresh.ringOpen (jobIn (js3.getD 8 up))).fst = true ∧ (jobIn (js3.getD 8 up)).abort = some 4 ∧ 4 ≠ 3 ∧ (jobIn (js3.getD 8 up)).op
    ≠ 49 ∧ (st (js3.getD 9 up)).Ok ∧ 0 < (st (js3.getD 9 up)).m.n ∧ (st (js3.getD 9 up)).m.serving = true ∧ (st (js3.getD 9 up)).m.job? 0 3 = some
    (jobIn (js3.getD 9 up)) ∧ (jobIn (js3.getD 9 up)).pre = false ∧ (jobIn (js3.getD 9 up)).orphan = false ∧ (st (js3.getD 9 up)).m.outSealed (jobIn
    (js3.getD 9 up)) = true ∧ (st (js3.getD 6 up)).Ok ∧ 0 < (st (js3.getD 6 up)).m.n ∧ (st (js3.getD 6 up)).m.alive = true ∧ (st (js3.getD 6
    up)).m.job? 0 3 = some (jobIn (js3.getD 6 up)) ∧ (jobIn (js3.getD 6 up)).reads = [{ addr := 20480, len := 4, pass := 1, since := 5, got := 1 : HostRead }]
    ∧ { addr := 20480, len := 4, pass := 1, since := 5, got := 1 : HostRead }.got < { addr := 20480, len := 4, pass := 1, since := 5, got := 1 : HostRead }.len
    ∧ ldPort (jobIn (js3.getD 6 up)).ld < (st (js3.getD 6 up)).m.n := by
  repeat' with_reducible apply And.intro
  all_goals first | decide +kernel | (apply ok; decide +kernel)

def bt (c : Bool) (e i : Nat) : Bunting := ⟨5, 0, 1, e, i, 1700000000, 1700000500, false, c, [⟨0, 3, 0, 1, 0⟩]⟩
def bm (b : Bunting) : Mach := ((withExts [ext' 7 .opened, { ext' 9 .sealed with format := 1 }] [lease' 0 0 0 7 .held, lease' 0 0 1 9 .held] (jobSt 3 (linD false))).updStage 0 (fun s => {s with nextId := 9, buntings := [b, {b with id := 6, closed := false}]}))
def att (b : Bunting) : Mach := (attSt 0x10).updStage 0 (fun s => {s with nextId := 9, buntings := [b, {b with id := 6, closed := false}]})
def buntingsExtent0 : Extent := { ext' 9 .sealed with home := 1, format := 1 }
/-- What the hypotheses of Buntings ask, at concrete states. -/
theorem witness_Buntings : (st (bm (bt false 9 3))).Ok ∧ 0 < (st (bm (bt false 9 3))).m.n ∧ (st (bm (bt false 9 3))).m.serving = true ∧ (st (bm (bt
    false 9 3))).m.halted = false ∧ (List.filter (fun (k : Bunting) => decide (k.id = 5)) ((st (bm (bt false 9 3))).m.die 0).stage.buntings = [bt
    false 9 3]) ∧ (bt false 9 3).closed = false ∧ (st (att (bt true 9 3))).Ok ∧ 0 < (st (att (bt true 9 3))).m.n ∧ (st (att (bt true 9 3))).m.serving
    = true ∧ (st (att (bt true 9 3))).m.halted = false ∧ (List.filter (fun (k : Bunting) => decide (k.id = 5)) ((st (att (bt true 9 3))).m.die
    0).stage.buntings = [bt true 9 3]) ∧ (bt true 9 3).closed = true ∧ (st (att (bt true 9 3))).m.staged 0 (bt true 9 3) = true ∧ (st (att (bt true 9
    3))).m.buntStuck 0 (bt true 9 3) = false ∧ (st (att (bt true 9 3))).m.ext? (bt true 9 3).ext = some buntingsExtent0 ∧ buntingsExtent0.num = (bt
    true 9 3).ext ∧ (bt true 9 3).id < ((st (att (bt true 9 3))).m.die 0).stage.nextId ∧ (∀ (c : Bunting), c ∈ ((st (att (bt true 9 3))).m.die
    0).stage.buntings → c.closed = true → c.before (bt true 9 3) = true → (st (att (bt true 9 3))).m.staged 0 c = false) ∧ ((st (att (bt true 9
    3))).fresh.rowsReady (bt true 9 3)).fst = Ready.yes ∧ ((((st (att (bt true 9 3))).fresh.rowsReady (bt true 9 3)).snd.entry 0 (bt true 9 3).ext (bt
    true 9 3).idx).state = FState.zero ∨ (((st (att (bt true 9 3))).fresh.rowsReady (bt true 9 3)).snd.entry 0 (bt true 9 3).ext (bt true 9
    3).idx).state = FState.lost ∨ buntingsExtent0.coded = true ∧ (((st (att (bt true 9 3))).fresh.rowsReady (bt true 9 3)).snd.t0? 0 (bt true 9 3).cls
    (bt true 9 3).ext (bt true 9 3).idx).isSome = true ∧ (((st (att (bt true 9 3))).fresh.rowsReady (bt true 9 3)).snd.t0? 0 (bt true 9 3).cls (bt
    true 9 3).ext (bt true 9 3).idx).bind (((st (att (bt true 9 3))).fresh.rowsReady (bt true 9 3)).snd.copyCheck 0 buntingsExtent0) = none ∨
    buntingsExtent0.coded = false ∧ (((st (att (bt true 9 3))).fresh.rowsReady (bt true 9 3)).snd.useLines buntingsExtent0 (1024 * (bt true 9 3).idx)
    (1024 * (bt true 9 3).idx + 1024)).fst = Ready.yes) := by
  repeat' with_reducible apply And.intro
  all_goals first | decide +kernel | (apply ok; decide +kernel)

/-- What the hypotheses of FrameQueryAndHeat ask, at concrete states. -/
theorem witness_FrameQueryAndHeat : (st ringed).Ok ∧ 0 < (st ringed).m.n ∧ (st ringed).m.alive = true ∧ (st ringed).m.ext? (bits (BitVec.toNat (7 :
    Word)) 0 20) = some (ext' 7 ExtState.opened) ∧ (ext' 7 ExtState.opened).home = 0 ∧ (st ringed).m.heat 0 (bits (BitVec.toNat (7 : Word)) 0 20)
    (bits (BitVec.toNat (7 : Word)) 20 12) < 256 ∧ (∀ (x : Extent), (st ringed).m.ext? (bits (BitVec.toNat (9 : Word)) 0 20) = some x → x.home ≠ 0) ∧
    ((st ringed).m.on 0 Reg.OPS_STATUS.READY = true ∨ (st ringed).m.pw.phase = Phase.furled) := by
  repeat' with_reducible apply And.intro
  all_goals first | decide +kernel | (apply ok; decide +kernel)

end W7

namespace W8

def x9 : Extent := { ext' 9 .sealed with format := 0 }
def hdr9 : List Byte := buildHeader x9.handle 0 12 0 []
def raw (e : FrameEntry) : FrameEntry := { e with sectors := 2^96-1 }
def T0 : Mach := (withMap 0 [(4160*9, raw (fe false false true .promoting)), (4160*9+1, raw (fe false true true .present))] (queueAll 0 [(65536*5000, hdr9)]
  (wrs (withExts [x9] [lease' 0 0 1 9 .held] host) 0 [(Reg.FLC_STATUS.READY,1),(Reg.FLC_CONFIG.RETRY_LEN, 32),(Reg.TIER_T2_MARKS.HIGH, 90),(Reg.TIER_T2_MARKS.LOW, 80),(Reg.TIER_T1_CACHE_MAX.PCT,25)]))).updTier 0 (fun t => {t with headers := [⟨9, 65536*5000, 64⟩]})
def ft : Fetch := { fetch' 9 0 .toHost with loads := [⟨0, 0x10000040, 1, 5⟩], jobs := [(0,3)] }
def fb : Fetch := {ft with begunAt := some 5, loc := 40, pages := [0,1,8,3]}
def Tf (f : Fetch) : Mach := T0.updTier 0 (fun t => {t with fetches := [f]})
def dn : Fetch := {fb with done := true, pages := []}
def Tg (f : Fetch) : Mach := (withMap 0 [(4160*9+3, raw (fe false false true .present))] T0).updTier 0 (fun t => {t with fetches := [f]})
def pr (i d : Nat) : Promo := ⟨9,i,d,5003,7,none,[],false⟩
def Fc : Mach := queueAll 0 ((List.range 16).map (fun i => (65536*6000 + 64*i, constantBlock 1 7))) (withExts [{ x9 with format := 1 }] [lease' 0 0 1 9 .held] (withMap 0 [(4160*9+3, {fe false true true .present with t2Loc := 6000*256})] T0))
def fcBytes : List Byte := (List.range 16).flatMap (fun _ => constantBlock 1 7)
def Fu : Mach := withMap 0 [(4160*9+3, {fe false true true .present with t2Loc := 6000*256})] T0
def Ff : Mach := withMap 0 [(4160*9+3, {fe false true true .present with t2Loc := 256*6000})] (both T0 [(Reg.DMC_CH_STATUS.STATE (host.locate 0 (65536*6000)).ch, 5)])
def fetchesExtent1 : Extent := { x9 with format := 1 }
def fetchesFetch3 : Fetch := {fb with ladder := some 32, pages := [3]}
def fetchesFetch4 : Fetch := {fb with ladder := some 31, pages := [3]}
def fetchesFetch5 : Fetch := {fb with lookup := true}
def fetchesFetch7 : Fetch := {dn with jobs := []}
def fetchesState4 : State := st (Tf {fb with ladder := some 31, pages := [3]})
def fetchesState5 : State := st (Tf {fb with ladder := some 32, pages := [3]})
def fetchesState6 : State := st (Tf {fb with lookup := true})
def fetchesState7 : State := st (Tf {dn with jobs := []})
def fetchesState8 : State := st (Tg {ft with idx := 3, dst := .toT2})
def fetchesState9 : State := st (T0.updTier 0 (fun t => {t with promos := [pr 0 0, {pr 0 0 with endedAt := some 9}]}))
def fetchesState10 : State := st (Fu.updTier 0 (fun t => {t with promos := [pr 3 0, pr 3 1]}))
def fetchesState11 : State := st (Ff.updTier 0 (fun t => {t with promos := [pr 3 0, pr 3 1]}))
def fetchesX0 : State := st (Fc.updTier 0 (fun t => {t with promos := [pr 3 1]}))
def fetchesX2 : Fetch := {ft with idx := 3, dst := .toT2}
/-- What the hypotheses of Fetches ask, at concrete states. -/
theorem witness_Fetches : (st (Tf ft)).Ok ∧ 0 < (st (Tf ft)).m.n ∧ (st (Tf ft)).m.alive = true ∧ (st (Tf ft)).m.ext? 9 = some x9 ∧ x9.num = 9 ∧ (st
    (Tf ft)).m.fetch? 0 9 0 = some ft ∧ (st (Tf ft)).m.mayBegin 0 9 0 = false ∧ fetchesState7.Ok ∧ 0 < fetchesState7.m.n ∧ fetchesState7.m.alive =
    true ∧ fetchesState7.m.ext? 9 = some x9 ∧ fetchesState7.m.fetch? 0 9 0 = some fetchesFetch7 ∧ fetchesFetch7.ext = 9 ∧ fetchesFetch7.idx = 0 ∧
    fetchesFetch7.done = true ∧ fetchesFetch7.thenT1 = false ∧ fetchesFetch7.jobs = [] ∧ fetchesState7.m.dramHeader 0 9 = some hdr9 ∧ headerOk
    x9.handle hdr9 = true ∧ (fetchesState7.m.decodeCopy 0 x9 (fetchesState7.m.entry 0 9 0) (fetchesFetch7.data.getD (fetchesState7.m.flashBytes 0
    fetchesFetch7.loc (256 * (fetchesState7.m.entry 0 9 0).granules)))).toOption.isSome = true ∧ fetchesState8.Ok ∧ 0 < fetchesState8.m.n ∧
    fetchesState8.m.alive = true ∧ fetchesState8.m.ext? 9 = some x9 ∧ fetchesState8.m.fetch? 0 9 3 = some fetchesX2 ∧ fetchesState8.m.mayBegin 0 9 3 =
    true ∧ fetchesState9.Ok ∧ 0 < fetchesState9.m.n ∧ fetchesState9.m.alive = true ∧ fetchesState9.m.ext? 9 = some x9 ∧ 0 < 2 ∧ (List.find? (fun (p :
    Promo) => decide (p.ext = 9) && decide (p.idx = 0) && decide (p.dst = 0) && p.endedAt.isNone) (fetchesState9.m.die 0).tier.promos = some (pr 0 0))
    ∧ ((fetchesState9.m.entry 0 9 0).state = FState.lost ∨ (fetchesState9.m.entry 0 9 0).inT2 = false) ∧ fetchesState10.Ok ∧ 0 < fetchesState10.m.n ∧
    fetchesState10.m.alive = true ∧ fetchesState10.m.ext? 9 = some x9 ∧ (List.find? (fun (p : Promo) => decide (p.ext = 9) && decide (p.idx = 3) &&
    decide (p.dst = 0) && p.endedAt.isNone) (fetchesState10.m.die 0).tier.promos = some (pr 3 0)) ∧ (fetchesState10.m.entry 0 9 3).state ≠ FState.lost
    ∧ (fetchesState10.m.entry 0 9 3).inT2 = true ∧ (Option.map (fun (x : List Byte × Bool) => x.snd) (fetchesState10.fresh.getBytes 0 (if 0 = 1 then 2
    else 1) (256 * (fetchesState10.m.entry 0 9 3).t2Loc) (256 * (fetchesState10.m.entry 0 9 3).granules)).fst = some false) ∧ 0 = 0 ∧
    fetchesState10.m.rd 0 Reg.ERR_FLIP_CTRL.ARMED = 0 ∧ (pr 3 0).jobs = [] ∧ fetchesState11.Ok ∧ 0 < fetchesState11.m.n ∧ fetchesState11.m.alive =
    true ∧ fetchesState11.m.ext? 9 = some x9 ∧ (List.find? (fun (p : Promo) => decide (p.ext = 9) && decide (p.idx = 3) && decide (p.dst = 0) &&
    p.endedAt.isNone) (fetchesState11.m.die 0).tier.promos = some (pr 3 0)) ∧ (fetchesState11.m.entry 0 9 3).state ≠ FState.lost ∧
    (fetchesState11.m.entry 0 9 3).inT2 = true ∧ (fetchesState11.fresh.getBytes 0 (if 0 = 1 then 2 else 1) (256 * (fetchesState11.m.entry 0 9
    3).t2Loc) (256 * (fetchesState11.m.entry 0 9 3).granules)).fst = none ∧ fetchesX0.Ok ∧ 0 < fetchesX0.m.n ∧ fetchesX0.m.alive = true ∧
    fetchesX0.m.ext? 9 = some fetchesExtent1 ∧ fetchesExtent1.num = 9 ∧ 1 < 2 ∧ (List.find? (fun (p : Promo) => decide (p.ext = 9) && decide (p.idx =
    3) && decide (p.dst = 1) && p.endedAt.isNone) (fetchesX0.m.die 0).tier.promos = some (pr 3 1)) ∧ (fetchesX0.m.entry 0 9 3).state ≠ FState.lost ∧
    (fetchesX0.m.entry 0 9 3).inT2 = true ∧ (Option.map (fun (x : List Byte × Bool) => x.snd) (fetchesX0.fresh.getBytes 0 (if 1 = 1 then 2 else 1)
    (256 * (fetchesX0.m.entry 0 9 3).t2Loc) (256 * (fetchesX0.m.entry 0 9 3).granules)).fst = some false) ∧ 1 = 1 ∧ (fetchesX0.m.decodeCopy 0
    fetchesExtent1 (fetchesX0.m.entry 0 9 3) fcBytes).toOption.isSome = true ∧ ft.ext = 9 ∧ ft.idx = 0 ∧ (List.find? (fun (l : LoadWait) => decide
    (l.ld = 0) && decide (l.line = 1)) ft.loads = some { ld := 0, dpa := 268435520, line := 1, ingress := 5 : LoadWait }) ∧ (st (Tf fb)).Ok ∧ 0 < (st
    (Tf fb)).m.n ∧ (st (Tf fb)).m.alive = true ∧ (st (Tf fb)).m.fetch? 0 9 0 = some fb ∧ fb.ext = 9 ∧ fb.idx = 0 ∧ fb.begunAt.isSome = true ∧
    fb.ladder = none ∧ fb.lookup = false ∧ 0 ∈ fb.pages ∧ (st (Tf fb)).m.rd 0 (Reg.FLC_CH_STATUS.STATE (pageChan 0)) ≠ 5 ∧ fetchesState4.Ok ∧ 0 <
    fetchesState4.m.n ∧ fetchesState4.m.alive = true ∧ fetchesState4.m.fetch? 0 9 0 = some fetchesFetch4 ∧ fetchesFetch4.ext = 9 ∧ fetchesFetch4.idx =
    0 ∧ fetchesFetch4.lookup = false ∧ fetchesFetch4.ladder = some 31 ∧ fetchesFetch4.pages = [3] ∧ 31 + 1 ≤ min 32 (fetchesState4.m.rd 0
    Reg.FLC_CONFIG.RETRY_LEN) ∧ fetchesState5.Ok ∧ 0 < fetchesState5.m.n ∧ fetchesState5.m.alive = true ∧ fetchesState5.m.fetch? 0 9 0 = some
    fetchesFetch3 ∧ fetchesFetch3.ext = 9 ∧ fetchesFetch3.idx = 0 ∧ fetchesFetch3.lookup = false ∧ fetchesFetch3.ladder = some 32 ∧
    fetchesFetch3.pages = [3] ∧ min 32 (fetchesState5.m.rd 0 Reg.FLC_CONFIG.RETRY_LEN) < 32 + 1 ∧ fetchesState5.m.rd 0 (Reg.FLC_CH_STATUS.STATE
    (pageChan 3)) ≠ 5 ∧ fetchesState6.Ok ∧ 0 < fetchesState6.m.n ∧ fetchesState6.m.alive = true ∧ fetchesState6.m.fetch? 0 9 0 = some fetchesFetch5 ∧
    fetchesFetch5.ext = 9 ∧ fetchesFetch5.idx = 0 ∧ fetchesFetch5.lookup = true ∧ (fetchesState6.m.entry 0 9 0).state ≠ FState.lost ∧
    Instr.lookupTimeout 0 9 0 ∈ [Instr.lookupTimeout 0 9 0, Instr.readRetryStep 0 9 0 false] := by
  repeat' with_reducible apply And.intro
  all_goals first | decide +kernel | (apply ok; decide +kernel)

def v9 : Evict := ⟨9, 1, 2, 5⟩
def Rd : Mach := wrs T0 0 [(Reg.OPS_STATUS.READY,1)]
def Ev (m : Mach) (v : List Evict) : Mach := m.updTier 0 (fun t => {t with evicts := v})
def Full : Mach := wrs Rd 0 [(Reg.TIER_T2_CAP.MIB, 0)]
def T1m : Mach := withMap 0 [(4160*9+1, raw (fe true true true .present)), (4160*9+2, raw (fe true true false .present))] Full
/-- What the hypotheses of EvictionsRun ask, at concrete states. -/
theorem witness_EvictionsRun : (st Rd).Ok ∧ 0 < (st Rd).m.n ∧ (st Rd).m.ready 0 = true ∧ 100 * (st Rd).m.t2Used 0 ≤ (st Rd).m.t2Cap 0 * (st
    Rd).m.markHigh 0 ∧ 100 * (st Rd).m.t1Used 0 ≤ (st Rd).m.t1Max 0 * (st Rd).m.markHigh 0 ∧ (∀ (v : Evict), v ∈ ((st Rd).m.die 0).tier.evicts.head? →
    (st Rd).m.avail 0 v.ext v.idx v.tier = false) ∧ (st (Ev T1m [v9])).Ok ∧ 0 < (st (Ev T1m [v9])).m.n ∧ (st (Ev T1m [v9])).m.ready 0 = true ∧ ((st
    (Ev T1m [v9])).m.die 0).tier.evicts = [v9] ∧ (st (Ev T1m [v9])).m.avail 0 v9.ext v9.idx v9.tier = true ∧ (if v9.tier = 1 then ((st (Ev T1m
    [v9])).m.entry 0 v9.ext v9.idx).inT1 else ((st (Ev T1m [v9])).m.entry 0 v9.ext v9.idx).inT2) = true ∧ (st (Ev T1m [v9])).m.evictPasses 0 v9 = true
    ∧ (st (Ev T1m [v9])).m.pinnedIn 0 v9.ext v9.idx v9.tier = false ∧ ((st (Ev T1m [v9])).m.entry 0 v9.ext v9.idx).inT3 = true ∧ (st (Ev T1m [{ ext := 9, idx := 5, tier := 2, decided := 5 : Evict }])).Ok
    ∧ 0 < (st (Ev T1m [{ ext := 9, idx := 5, tier := 2, decided := 5 : Evict }])).m.n ∧ (st (Ev T1m [{ ext := 9, idx := 5, tier := 2, decided := 5 : Evict }])).m.ready
    0 = true ∧ ((st (Ev T1m [{ ext := 9, idx := 5, tier := 2, decided := 5 : Evict }])).m.die 0).tier.evicts = [{ ext := 9, idx := 5, tier := 2, decided := 5 : Evict }]
    ∧ (st (Ev T1m [{ ext := 9, idx := 5, tier := 2, decided := 5 : Evict }])).m.avail 0 { ext := 9, idx := 5, tier := 2, decided := 5 : Evict }.ext { ext := 9, idx := 5, tier := 2, decided := 5 : Evict }.idx
    { ext := 9, idx := 5, tier := 2, decided := 5 : Evict }.tier = true ∧ (if { ext := 9, idx := 5, tier := 2, decided := 5 : Evict }.tier = 1 then
    ((st (Ev T1m [{ ext := 9, idx := 5, tier := 2, decided := 5 : Evict }])).m.entry 0 { ext := 9, idx := 5, tier := 2, decided := 5 : Evict }.ext { ext := 9, idx := 5, tier := 2, decided := 5 : Evict }.idx).inT1
    else ((st (Ev T1m [{ ext := 9, idx := 5, tier := 2, decided := 5 : Evict }])).m.entry 0 { ext := 9, idx := 5, tier := 2, decided := 5 : Evict }.ext
    { ext := 9, idx := 5, tier := 2, decided := 5 : Evict }.idx).inT2) = false ∧ (st (Ev T1m [{ ext := 9, idx := 2, tier := 1, decided := 5 : Evict }])).Ok
    ∧ 0 < (st (Ev T1m [{ ext := 9, idx := 2, tier := 1, decided := 5 : Evict }])).m.n ∧ (st (Ev T1m [{ ext := 9, idx := 2, tier := 1, decided := 5 : Evict }])).m.ready
    0 = true ∧ ((st (Ev T1m [{ ext := 9, idx := 2, tier := 1, decided := 5 : Evict }])).m.die 0).tier.evicts = [{ ext := 9, idx := 2, tier := 1, decided := 5 : Evict }]
    ∧ (st (Ev T1m [{ ext := 9, idx := 2, tier := 1, decided := 5 : Evict }])).m.avail 0 { ext := 9, idx := 2, tier := 1, decided := 5 : Evict }.ext { ext := 9, idx := 2, tier := 1, decided := 5 : Evict }.idx
    { ext := 9, idx := 2, tier := 1, decided := 5 : Evict }.tier = true ∧ (if { ext := 9, idx := 2, tier := 1, decided := 5 : Evict }.tier = 1 then
    ((st (Ev T1m [{ ext := 9, idx := 2, tier := 1, decided := 5 : Evict }])).m.entry 0 { ext := 9, idx := 2, tier := 1, decided := 5 : Evict }.ext { ext := 9, idx := 2, tier := 1, decided := 5 : Evict }.idx).inT1
    else ((st (Ev T1m [{ ext := 9, idx := 2, tier := 1, decided := 5 : Evict }])).m.entry 0 { ext := 9, idx := 2, tier := 1, decided := 5 : Evict }.ext
    { ext := 9, idx := 2, tier := 1, decided := 5 : Evict }.idx).inT2) = true ∧ ((st (Ev T1m [{ ext := 9, idx := 2, tier := 1, decided := 5 : Evict }])).m.evictPasses
    0 { ext := 9, idx := 2, tier := 1, decided := 5 : Evict } = false ∨ (st (Ev T1m [{ ext := 9, idx := 2, tier := 1, decided := 5 : Evict }])).m.pinnedIn
    0 { ext := 9, idx := 2, tier := 1, decided := 5 : Evict }.ext { ext := 9, idx := 2, tier := 1, decided := 5 : Evict }.idx { ext := 9, idx := 2, tier := 1, decided := 5 : Evict }.tier
    = true ∨ ((st (Ev T1m [{ ext := 9, idx := 2, tier := 1, decided := 5 : Evict }])).m.entry 0 { ext := 9, idx := 2, tier := 1, decided := 5 : Evict }.ext
    { ext := 9, idx := 2, tier := 1, decided := 5 : Evict }.idx).inT3 = false) := by
  repeat' with_reducible apply And.intro
  all_goals first | decide +kernel | (apply ok; decide +kernel)

def Rl (m : Mach) (r : List Reloc) : Mach := m.updTier 0 (fun t => {t with relocs := r})
def xs : Extent := {x9 with hdrLocs := [1,65], settled := false}
def r1 : Reloc := { ext := 9, idx := 0, old := 40, decided := 7, switchedAt := none, written := some 4444 }
def r2 : Reloc := { r1 with switchedAt := some 8 }
def Tzs : Mach := sbm { Sb.fresh with st := .settling } (withMap 0 [(4160*9+1, { fe false true false .present with t2Loc := 256*6000 })] (withExts [xs] [lease' 0 0 1 9 .held] T0))
/-- What the hypotheses of RelocationsAndSettling ask, at concrete states. -/
theorem witness_RelocationsAndSettling : (st (Rl T0 [r1])).Ok ∧ 0 < (st (Rl T0 [r1])).m.n ∧ (st (Rl T0 [r1])).m.flashOk 0 = true ∧ (List.find? (fun (r
    : Reloc) => decide (r.ext = 9) && decide (r.idx = 0) && r.switchedAt.isNone) ((st (Rl T0 [r1])).m.die 0).tier.relocs = some r1) ∧ r1.written =
    some 4444 ∧ ((st (Rl T0 [r1])).m.entry 0 9 0).inT3 = true ∧ (st (Rl T0 [r2])).Ok ∧ 0 < (st (Rl T0 [r2])).m.n ∧ (st (Rl T0 [r2])).m.flashOk 0 =
    true ∧ (List.find? (fun (r : Reloc) => decide (r.ext = 9) && decide (r.idx = 0) && r.switchedAt.isSome) ((st (Rl T0 [r2])).m.die 0).tier.relocs =
    some r2) ∧ (∀ (f : Fetch), (st (Rl T0 [r2])).m.fetch? 0 9 0 = some f → f.begunAt = none ∨ f.loc ≠ r2.old) ∧ (st (Rl (Tf fb) [r2, r1])).Ok ∧ 0 <
    (st (Rl (Tf fb) [r2, r1])).m.n ∧ (st (Rl (Tf fb) [r2, r1])).m.flashOk 0 = true ∧ (List.find? (fun (r : Reloc) => decide (r.ext = 9) && decide
    (r.idx = 0) && r.switchedAt.isSome) ((st (Rl (Tf fb) [r2, r1])).m.die 0).tier.relocs = some r2) ∧ (st (Rl (Tf fb) [r2, r1])).m.fetch? 0 9 0 = some
    fb ∧ fb.begunAt.isSome = true ∧ fb.loc = r2.old ∧ (st Tzs).Ok ∧ 0 < (st Tzs).m.n ∧ (st Tzs).m.flashOk 0 = true ∧ (st Tzs).m.ext? 9 = some xs ∧
    xs.home = 0 ∧ xs.coded = true ∧ xs.state ≠ ExtState.clearing ∧ xs.hdrLocs ≠ [] ∧ ((st Tzs).m.entry 0 9 1).inT3 = false ∧ ((st Tzs).m.entry 0 9
    1).inT2 = true ∧ ((st Tzs).m.entry 0 9 1).state = FState.present ∧ (st Tzs).m.avail 0 9 1 2 = true ∧ (st Tzs).m.runOpen 0 (256 * ((st Tzs).m.entry
    0 9 1).t2Loc) (256 * ((st Tzs).m.entry 0 9 1).granules) = true ∧ ((((st Tzs).m.fl 0).copies.any fun (c : FCopy) => decide (c.kind =
    CopyKind.settle 9 1)) = false) ∧ ((st Tzs).m.openSb 0 OpenSb.settling).isSome = true ∧ ((st Tzs).fresh.getBytes 0 2 (256 * ((st Tzs).m.entry 0 9
    1).t2Loc) (256 * ((st Tzs).m.entry 0 9 1).granules)).fst.isSome = true ∧ (st Tzs).m.serving = true := by
  repeat' with_reducible apply And.intro
  all_goals first | decide +kernel | (apply ok; decide +kernel)

def pe1 : PreloadEntry := ⟨0, 0, 0, 2, false, 1, 1, 1⟩
def pe2 : PreloadEntry := ⟨0, 0, 0, 2, false, 6, 1, 1⟩
def pe3 : PreloadEntry := ⟨0, 0, 0, 2, false, 1, 3, 1⟩
def Pr (k : Nat) (l : List PreloadEntry) (m : Mach) : Mach := let m := {m.upd 0 (fun x => {x with tier := {x.tier with preload := some k}}) with cfg := {m.cfg with preload := l}}; m.preloadJudge 0
def Rd3 (m : Mach) : Mach := withMap 0 [(4160*9+1, raw (fe false true true .present)), (4160*9+3, raw (fe false false true .present))] m
def away (m : Mach) : Mach := withExts [{x9 with home := 1}] [lease' 0 0 1 9 .held] m
def preloadAndCheckpointX5 : Extent := {x9 with home := 1}
/-- What the hypotheses of PreloadAndCheckpoint ask, at concrete states. -/
theorem witness_PreloadAndCheckpoint : (st (Pr 0 [pe1] Rd)).Ok ∧ 0 < (st (Pr 0 [pe1] Rd)).m.n ∧ (st (Pr 0 [pe1] Rd)).m.ready 0 = true ∧ ((st (Pr 0
    [pe1] Rd)).m.die 0).tier.preload = some 0 ∧ (st (Pr 0 [pe1] Rd)).m.cfg.preload[0]? = some pe1 ∧ (st (Pr 0 [pe1] Rd)).m.cfg.preload.length ≤ 65536
    ∧ (st (Pr 0 [pe1] Rd)).m.preloadExt 0 0 = some x9 ∧ x9.home = 0 ∧ pe1.pin = false ∧ (∀ (i : Nat), i ∈ pe1.frames → (st (Pr 0 [pe1] Rd)).m.inTier
    x9 i pe1.tier = true ∧ (st (Pr 0 [pe1] Rd)).m.inTier x9 i 2 = true) ∧ (st (Pr 0 [pe1] Rd)).m.flashOk 0 = true ∧ (st (Pr 0 [pe1] Rd)).m.serving =
    true ∧ (st (Pr 1 [pe1, pe2] Rd)).Ok ∧ 0 < (st (Pr 1 [pe1, pe2] Rd)).m.n ∧ (st (Pr 1 [pe1, pe2] Rd)).m.ready 0 = true ∧ ((st (Pr 1 [pe1, pe2]
    Rd)).m.die 0).tier.preload = some 1 ∧ (st (Pr 1 [pe1, pe2] Rd)).m.cfg.preload[1]? = some pe2 ∧ (st (Pr 1 [pe1, pe2] Rd)).m.cfg.preload.length ≤
    65536 ∧ (st (Pr 1 [pe1, pe2] Rd)).m.preloadExt 0 1 = none ∧ (st (Pr 0 [pe3] (Rd3 Full))).Ok ∧ 0 < (st (Pr 0 [pe3] (Rd3 Full))).m.n ∧ (st (Pr 0
    [pe3] (Rd3 Full))).m.ready 0 = true ∧ ((st (Pr 0 [pe3] (Rd3 Full))).m.die 0).tier.preload = some 0 ∧ (st (Pr 0 [pe3] (Rd3
    Full))).m.cfg.preload[0]? = some pe3 ∧ (st (Pr 0 [pe3] (Rd3 Full))).m.cfg.preload.length ≤ 65536 ∧ (st (Pr 0 [pe3] (Rd3 Full))).m.preloadExt 0 0 =
    some x9 ∧ pe3.pin = false ∧ pe3.frames = [3] ∧ (st (Pr 0 [pe3] (Rd3 Full))).m.inTier x9 3 2 = false ∧ (st (Pr 0 [pe3] (Rd3 Full))).m.fetch? 0
    x9.num 3 = none ∧ (st (Pr 0 [pe3] (Rd3 Full))).m.preloadFull 0 = true ∧ (st (Pr 0 [pe3] (Rd3 Rd))).Ok ∧ 0 < (st (Pr 0 [pe3] (Rd3 Rd))).m.n ∧ (st
    (Pr 0 [pe3] (Rd3 Rd))).m.ready 0 = true ∧ ((st (Pr 0 [pe3] (Rd3 Rd))).m.die 0).tier.preload = some 0 ∧ (st (Pr 0 [pe3] (Rd3
    Rd))).m.cfg.preload[0]? = some pe3 ∧ (st (Pr 0 [pe3] (Rd3 Rd))).m.cfg.preload.length ≤ 65536 ∧ (st (Pr 0 [pe3] (Rd3 Rd))).m.preloadExt 0 0 = some
    x9 ∧ (st (Pr 0 [pe3] (Rd3 Rd))).m.inTier x9 3 2 = false ∧ (st (Pr 0 [pe3] (Rd3 Rd))).m.inTier x9 3 pe3.tier = false ∧ (st (Pr 0 [pe3] (Rd3
    Rd))).m.fetch? 0 x9.num 3 = none ∧ (st (Pr 0 [pe3] (Rd3 Rd))).m.preloadFull 0 = false ∧ ((st (Pr 0 [pe3] (Rd3 Rd))).m.entry 0 x9.num 3).inT3 =
    true ∧ (st (Pr 0 [pe1] (away Rd))).Ok ∧ 0 < (st (Pr 0 [pe1] (away Rd))).m.n ∧ (st (Pr 0 [pe1] (away Rd))).m.ready 0 = true ∧ ((st (Pr 0 [pe1]
    (away Rd))).m.die 0).tier.preload = some 0 ∧ (st (Pr 0 [pe1] (away Rd))).m.cfg.preload[0]? = some pe1 ∧ (st (Pr 0 [pe1] (away
    Rd))).m.cfg.preload.length ≤ 65536 ∧ (st (Pr 0 [pe1] (away Rd))).m.preloadExt 0 0 = some preloadAndCheckpointX5 ∧ preloadAndCheckpointX5.home ≠ 0 := by
  repeat' with_reducible apply And.intro
  all_goals first | decide +kernel | (apply ok; decide +kernel)

end W8

namespace W9

def x9 : Extent := { ext' 9 .sealed with format := 1, tgen := 7 }
def lens9 : List Nat := List.replicate 256 8
def hdr9 : List Byte := buildHeader x9.handle 1 12 7 [lens9]
def raw (e : FrameEntry) : FrameEntry := { e with sectors := 2^96-1 }
def T0 : Mach := (withMap 0 [(4160*9, raw (fe false false true .promoting)), (4160*9+1, fe false true true .present)] (queueAll 0 [(65536*5000, hdr9.take 64),(65536*5000+64, sub hdr9 64 64),(65536*5000+128, sub hdr9 128 64)]
  (wrs (withExts [x9] [lease' 0 0 1 9 .held] host) 0 [(Reg.OPS_STATUS.READY,1),(Reg.FLC_STATUS.READY,1),(Reg.FLC_CONFIG.RETRY_LEN, 32),(Reg.TIER_T2_MARKS.HIGH, 90),(Reg.TIER_T2_MARKS.LOW, 80),(Reg.TIER_T1_CACHE_MAX.PCT,25)]))).updTier 0 (fun t => {t with headers := [⟨9, 65536*5000, 192⟩]})
def rcd : Recode := ⟨9, 8, 8, [(0, raw (fe false false true .present))], hdr9, [5000, 6000], []⟩
def Rc (r : Recode) (m : Mach) : Mach := m.upd 0 (fun y => {y with xc := {y.xc with recode := some r}})
def Ol (o : List OldVersion) (m : Mach) : Mach := m.upd 0 (fun y => {y with xc := {y.xc with old := o}})
def tablesBlocksRecodingBound0 : Bound := (headerTable 1 hdr9 0).getD ⟨0,0,[]⟩
def tablesBlocksRecodingState1 : State := st { Rc rcd T0 with supply := [0,0,0,0] }
def tablesBlocksRecodingState2 : State := st (wrs T0 0 [(Reg.XC_RECODE_STATUS.BUSY,1)])
def tablesBlocksRecodingState4 : State := st (Ol [⟨9, 1700000099, 12, 3, [1,2]⟩] (withJob 0 {jobOf ringed 3 [] with pre := false} T0))
def tablesBlocksRecodingState5 : State := st { Rc {rcd with hdrLocs := [5000]} T0 with supply := [0,0,0,0] }
def tablesBlocksRecodingX2 : Recode := {rcd with hdrLocs := [5000]}
/-- What the hypotheses of TablesBlocksRecoding ask, at concrete states. -/
theorem witness_TablesBlocksRecoding : (st T0).Ok ∧ 0 < (st T0).m.n ∧ (st T0).m.ready 0 = true ∧ (st T0).m.ext? 9 = some x9 ∧ x9.num = 9 ∧ x9.coded =
    true ∧ x9.home = 0 ∧ 0 < headerTables x9.format x9.spanLog2 ∧ (st T0).m.slotOf 0 Expander.operand x9.handle 0 x9.tgen = none ∧ (st
    T0).m.dramHeader 0 9 = some hdr9 ∧ headerOk x9.handle hdr9 = true ∧ headerTable x9.format hdr9 0 = some tablesBlocksRecodingBound0 ∧
    tablesBlocksRecodingBound0.tgen = x9.tgen ∧ tablesBlocksRecodingBound0.tidx = 0 ∧ ((((st T0).m.die 0).xc.slots Expander.operand).length <
    expanderSlots Expander.operand ∨ ∃ (k : TableSlot), k ∈ ((st T0).m.die 0).xc.slots Expander.operand ∧ k.inFlight = 0) ∧ (headerTables x9.format
    x9.spanLog2 ≤ 9 ∨ ((st T0).m.slotOf 0 Expander.operand x9.handle 9 x9.tgen).isSome = true) ∧ 0 < 16 ∧ 0 < 4096 ∧ ((st T0).m.entry 0 9 0).state ≠
    FState.zero ∧ ((st T0).m.entry 0 9 0).state ≠ FState.lost ∧ ((((st T0).fresh.storedBlock 0 ((st T0).m.entry 0 9 0) 9 0 0 CopyTier.t3).fst.bind fun
    (x : Except Nat (List Byte)) => x.toOption).isSome = true) ∧ (decodeBlock x9.format (((st T0).m.entry 0 9 0).counts.getD 0 0) ((st T0).m.entry 0 9
    0).table (if (blockTable (((st T0).m.entry 0 9 0).counts.getD 0 0) hdr9).isSome = true then (((st T0).fresh.storedBlock 0 ((st T0).m.entry 0 9 0)
    9 0 0 CopyTier.t3).snd.bindTable 0 Expander.operand x9 ((st T0).m.entry 0 9 0).table).fst else none) hdr9 allLanes).toOption.isSome = true ∧ 1 <
    4096 ∧ ((st T0).m.entry 0 9 1).state ≠ FState.zero ∧ ((st T0).m.entry 0 9 1).state ≠ FState.lost ∧ ((((st T0).fresh.storedBlock 0 ((st T0).m.entry
    0 9 1) 9 1 0 CopyTier.t3).fst.bind fun (x : Except Nat (List Byte)) => x.toOption).isSome = true) ∧ 2 < 16 ∧ errOf (decodeBlock x9.format (((st
    T0).m.entry 0 9 1).counts.getD 0 0) ((st T0).m.entry 0 9 1).table (if (blockTable (((st T0).m.entry 0 9 1).counts.getD 0 0) hdr9).isSome = true
    then (((st T0).fresh.storedBlock 0 ((st T0).m.entry 0 9 1) 9 1 0 CopyTier.t3).snd.bindTable 0 Expander.operand x9 ((st T0).m.entry 0 9
    1).table).fst else none) hdr9 allLanes) = some 2 ∧ 16 ≤ 16 ∧ (st T0).m.on 0 Reg.XC_RECODE_STATUS.BUSY = false ∧ (∀ (x : Extent), (st T0).m.ext?
    (bits (BitVec.toNat (13631497 : Word)) 0 20) = some x → x.state ≠ ExtState.sealed ∨ x.settled = false ∨ x.home ≠ 0 ∨ 0 < bits (BitVec.toNat
    (13631497 : Word)) 20 4 ∧ bits (BitVec.toNat (13631497 : Word)) 20 4 < 4 ∨ 12 < bits (BitVec.toNat (13631497 : Word)) 20 4) ∧ (st T0).m.ext? (bits
    (BitVec.toNat (9 : Word)) 0 20) = some x9 ∧ x9.num = bits (BitVec.toNat (9 : Word)) 0 20 ∧ x9.state = ExtState.sealed ∧ x9.settled = true ∧ (st
    T0).m.flashOk 0 = true ∧ (bits (BitVec.toNat (9 : Word)) 20 4 = 0 ∨ 4 ≤ bits (BitVec.toNat (9 : Word)) 20 4 ∧ bits (BitVec.toNat (9 : Word)) 20 4
    ≤ 12) ∧ tablesBlocksRecodingState1.Ok ∧ 0 < tablesBlocksRecodingState1.m.n ∧ tablesBlocksRecodingState1.m.ready 0 = true ∧
    ((tablesBlocksRecodingState1.fresh.recodeGo 0).die 0).xc.recode = some rcd ∧ (tablesBlocksRecodingState1.fresh.recodeGo 0).ext? rcd.ext = some x9
    ∧ x9.num = rcd.ext ∧ (tablesBlocksRecodingState1.fresh.recodeGo 0).recodeDone 0 rcd = true ∧ tablesBlocksRecodingState2.Ok ∧ 0 <
    tablesBlocksRecodingState2.m.n ∧ tablesBlocksRecodingState2.m.ready 0 = true ∧ tablesBlocksRecodingState2.m.on 0 Reg.XC_RECODE_STATUS.BUSY = true
    ∧ (st (Ol [{ ext := 9, tc := 6, span := 12, tgen := 3, hdrLocs := [1, 2] : OldVersion }] T0)).Ok ∧ 0 < (st (Ol [{ ext := 9, tc := 6, span := 12, tgen := 3, hdrLocs := [1, 2] : OldVersion }]
    T0)).m.n ∧ (st (Ol [{ ext := 9, tc := 6, span := 12, tgen := 3, hdrLocs := [1, 2] : OldVersion }] T0)).m.ready 0 = true ∧ ((st (Ol [{ ext := 9, tc := 6, span := 12, tgen := 3, hdrLocs := [1, 2] : OldVersion }]
    T0)).m.die 0).xc.old = [{ ext := 9, tc := 6, span := 12, tgen := 3, hdrLocs := [1, 2] : OldVersion }] ∧ (∀ (y : Die), y ∈ (st (Ol [{ ext := 9, tc := 6, span := 12, tgen := 3, hdrLocs := [1, 2] : OldVersion }]
    T0)).m.dies → ∀ (j : Job), j ∈ y.jobs → j.exts.contains { ext := 9, tc := 6, span := 12, tgen := 3, hdrLocs := [1, 2] : OldVersion }.ext = true →
    { ext := 9, tc := 6, span := 12, tgen := 3, hdrLocs := [1, 2] : OldVersion }.tc ≤ j.accept) ∧ (∀ (f : Fetch), f ∈ ((st (Ol [{ ext := 9, tc := 6, span := 12, tgen := 3, hdrLocs := [1, 2] : OldVersion }]
    T0)).m.die 0).tier.fetches → f.ext = oldNum { ext := 9, tc := 6, span := 12, tgen := 3, hdrLocs := [1, 2] : OldVersion }.ext { ext := 9, tc := 6, span := 12, tgen := 3, hdrLocs := [1, 2] : OldVersion }.tgen
    → f.begunAt = none ∧ f.loads = []) ∧ (∀ (w : SnoopWait), w ∈ ((st (Ol [{ ext := 9, tc := 6, span := 12, tgen := 3, hdrLocs := [1, 2] : OldVersion }]
    T0)).m.die 0).coh.waits ++ ((st (Ol [{ ext := 9, tc := 6, span := 12, tgen := 3, hdrLocs := [1, 2] : OldVersion }] T0)).m.die 0).coh.held →
    w.req.pair.snd = { ext := 9, tc := 6, span := 12, tgen := 3, hdrLocs := [1, 2] : OldVersion }.ext → { ext := 9, tc := 6, span := 12, tgen := 3, hdrLocs := [1, 2] : OldVersion }.tc
    ≤ w.ingress) ∧ (∀ (c : Chan), c ∈ ((st (Ol [{ ext := 9, tc := 6, span := 12, tgen := 3, hdrLocs := [1, 2] : OldVersion }] T0)).m.die 0).dram.chans
    → ∀ (w : WaitEntry), w ∈ c.waiting → w.req.pair.snd = { ext := 9, tc := 6, span := 12, tgen := 3, hdrLocs := [1, 2] : OldVersion }.ext → { ext := 9, tc := 6, span := 12, tgen := 3, hdrLocs := [1, 2] : OldVersion }.tc
    ≤ w.ingress) ∧ tablesBlocksRecodingState4.Ok ∧ 0 < tablesBlocksRecodingState4.m.n ∧ tablesBlocksRecodingState4.m.ready 0 = true ∧
    (tablesBlocksRecodingState4.m.die 0).xc.old = [{ ext := 9, tc := 1700000099, span := 12, tgen := 3, hdrLocs := [1, 2] : OldVersion }] ∧ (∃ (y :
    Die), y ∈ tablesBlocksRecodingState4.m.dies ∧ ∃ (j : Job), j ∈ y.jobs ∧ j.pre = false ∧ j.exts.contains { ext := 9, tc := 1700000099, span := 12, tgen := 3, hdrLocs := [1, 2] : OldVersion }.ext
    = true ∧ j.accept < { ext := 9, tc := 1700000099, span := 12, tgen := 3, hdrLocs := [1, 2] : OldVersion }.tc) ∧ tablesBlocksRecodingState5.Ok ∧ 0
    < tablesBlocksRecodingState5.m.n ∧ tablesBlocksRecodingState5.m.ready 0 = true ∧ ((tablesBlocksRecodingState5.fresh.recodeGo 0).die 0).xc.recode =
    some tablesBlocksRecodingX2 ∧ (tablesBlocksRecodingState5.fresh.recodeGo 0).recodeDone 0 tablesBlocksRecodingX2 = false := by
  repeat' with_reducible apply And.intro
  all_goals first | decide +kernel | (apply ok; decide +kernel)

def stl : Sb := {Sb.fresh with st := .settling}
def cp : FCopy := ⟨.settle 9 1, .settling, some (3*64*4096 + 5), List.replicate 512 3⟩
def cpm (b : Sb) : Mach := (sbm b T0).updFl 0 (fun f => {f with copies := [⟨.settle 9 1, .settling, some (3 * (sbm b T0).sbGran 0 + 5), List.replicate 512 3⟩]})
def chs (l : List (Nat × Nat)) (m : Mach) : Mach := wrs m 0 (l.map (fun p => (Reg.FLC_CH_STATUS.STATE p.1, p.2)))
def flashProgramsState1 : State := st (wrs (sbm Sb.fresh T0) 0 [(Reg.FLC_RECLAIM.LOW,100),(Reg.FLC_RECLAIM.CRIT,50)])
def flashProgramsState2 : State := st (sbm {stl with next := 70, started := 1} T0)
def flashProgramsState4 : State := st (cpm {stl with next := 300, started := 4, done := 3})
def flashProgramsState6 : State := st (chs [(0,3),(7,3),(1,2)] (sbm stl T0))
def flashProgramsState7 : State := st ((chs [(0,2),(7,2),(1,3)] (sbm stl T0)).updFl 0 (fun f => {f with retraining := [0,7]}))
def flashProgramsState8 : State := st ((present (wrs T0 0 [(Reg.FLC_STATUS.NVM_BBT_STALE,1)])).updFl 0 (fun f => {f with blocks := 20, grown := [⟨0,0,5⟩]}))
def flashProgramsFCopy0 : FCopy := {cp with loc := some (3 * T0.sbGran 0 + 5)}
/-- What the hypotheses of FlashPrograms ask, at concrete states. -/
theorem witness_FlashPrograms : (st (sbm Sb.fresh T0)).Ok ∧ 0 < (st (sbm Sb.fresh T0)).m.n ∧ (st (sbm Sb.fresh T0)).m.flashOk 0 = true ∧ (st (sbm
    Sb.fresh T0)).m.openDone 0 OpenSb.settling = true ∧ ((st (sbm Sb.fresh T0)).m.fl 0).copies = [] ∧ ((st (sbm Sb.fresh T0)).m.nextSb 0).isSome =
    true ∧ (OpenSb.settling = OpenSb.settling → (st (sbm Sb.fresh T0)).m.reclaimCrit 0 ≤ ((st (sbm Sb.fresh T0)).m.freeSbs 0).length) ∧
    flashProgramsState1.Ok ∧ 0 < flashProgramsState1.m.n ∧ flashProgramsState1.m.flashOk 0 = true ∧ flashProgramsState1.m.openSb 0 OpenSb.settling =
    none ∧ (((flashProgramsState1.fresh.landAll 0).freeUp 0).nextSb 0).isSome = true ∧ (((flashProgramsState1.fresh.landAll 0).freeUp 0).freeSbs
    0).length < ((flashProgramsState1.fresh.landAll 0).freeUp 0).reclaimCrit 0 ∧ flashProgramsState2.Ok ∧ 0 < flashProgramsState2.m.n ∧
    flashProgramsState2.m.flashOk 0 = true ∧ flashProgramsState2.m.openDone 0 OpenSb.settling = false ∧ flashProgramsState2.m.openSb 0 OpenSb.settling
    = some 3 ∧ (flashProgramsState2.m.sb 0 3).done < (flashProgramsState2.m.sb 0 3).started ∧ (flashProgramsState2.m.sb 0 3).next % 64 ≠ 0 ∧
    (flashProgramsState2.m.sb 0 3).started ≤ (flashProgramsState2.m.sb 0 3).next / 64 ∧ flashProgramsState4.Ok ∧ 0 < flashProgramsState4.m.n ∧
    flashProgramsState4.m.flashOk 0 = true ∧ flashProgramsState4.m.openSb 0 OpenSb.settling = some 3 ∧ (flashProgramsState4.m.sb 0 3).done <
    (flashProgramsState4.m.sb 0 3).started ∧ (flashProgramsState4.m.fl 0).copies = [flashProgramsFCopy0] ∧ flashProgramsFCopy0.kind = CopyKind.settle
    9 1 ∧ flashProgramsFCopy0.loc = some (3 * T0.sbGran 0 + 5) ∧ flashProgramsState4.m.sbOf 0 (3 * T0.sbGran 0 + 5) = 3 ∧ (flashProgramsState4.m.sb 0
    3).st = openState OpenSb.settling ∧ (flashProgramsState4.m.sb 0 3).done + 1 ≠ flashProgramsState4.m.sbPages 0 ∧ (flashProgramsState4.m.ext?
    9).isSome = true ∧ (flashProgramsState4.m.entry 0 9 1).state = FState.present ∧ (3 * T0.sbGran 0 + 5 + granulesOf flashProgramsFCopy0.data - 1) /
    64 - 3 * flashProgramsState4.m.sbPages 0 + flashProgramsState4.m.rd 0 Reg.FLC_CONFIG.DURABLE_LAG * 8 * flashProgramsState4.m.units 0 <
    (flashProgramsState4.m.sb 0 3).done + 1 ∧ flashProgramsState6.Ok ∧ 0 < flashProgramsState6.m.n ∧ flashProgramsState6.m.alive = true ∧ 0 < 8 ∧
    flashProgramsState6.m.rd 0 (Reg.FLC_CH_STATUS.STATE 0) = 3 ∧ flashProgramsState7.Ok ∧ 0 < flashProgramsState7.m.n ∧ flashProgramsState7.m.alive =
    true ∧ 0 ∈ (flashProgramsState7.m.fl 0).retraining ∧ flashProgramsState8.Ok ∧ 0 < flashProgramsState8.m.n ∧ flashProgramsState8.m.alive = true ∧
    flashProgramsState8.m.pres.active = true ∧ flashProgramsState8.m.rd 0 Reg.FLC_STATUS.NVM_BBT_STALE = 1 ∧ flashProgramsState8.m.nor.running = none
    ∧ ((flashProgramsState8.m.fl 0).bbt (flashProgramsState8.m.units 0)).length ≤ 1048576 := by
  repeat' with_reducible apply And.intro
  all_goals first | decide +kernel | (apply ok; decide +kernel)

def fc : FoundChannel := ⟨2, 4, 64, 1088, 100, true⟩
def S5 : Mach := { (withNor (starting 5)) with cfg := { State.reset.m.cfg with dies := 2, flPop := foundPop fc }}
def Fl (f : Flash → Flash) (m : Mach) : Mach := m.updFl 0 f
def ini (m : Mach) : Mach := wrs m 0 [(Reg.DMC_DEV_STATUS.INIT_DONE, 7),(Reg.FLC_GEOMETRY.UNITS, 8), (Reg.FLC_GEOMETRY.PPB, 64)]
def sn : Snapshot := ⟨[(4160*9, fe false false true .present)], {Lse.reset with exts := [x9]}, some 77, [], [], [], 5555, 66, 8, none⟩
def flashStartUpState3 : State := st (ini (Fl (fun f => {f with phase := .first, data := [(7,3)]}) S5))
def flashStartUpState5 : State := st (ini (Fl (fun f => {f with phase := .recognised, newer := some sn, data := [(7,3)]}) S5))
def flashStartUpState6 : State := st (ini (Fl (fun f => {f with phase := .recognised, newer := some sn, seg := [.map (4160*9) (fe false false true .lost)], data := [(7,3)]}) S5))
def flashStartUpState7 : State := st (ini (Fl (fun f => {f with phase := .recognised, newer := some {sn with map := []}, older := some sn, data := [(7,3)]}) S5))
def flashStartUpListFoundChannel1 : List FoundChannel := List.replicate 7 fc ++ [{fc with ok := false}]
/-- What the hypotheses of FlashStartUp ask, at concrete states. -/
theorem witness_FlashStartUp : (st S5).Ok ∧ 0 < (st S5).m.n ∧ (st S5).m.pw.phase = Phase.startup ∧ (st S5).m.fw.state ≠ 5 ∧ 5 ≤ (st S5).m.rd 0
    Reg.PWR_START_STEP.STEP ∧ ((st S5).m.fl 0).phase = FlPhase.off ∧ fc.ok = true ∧ foundPop fc = (st S5).m.cfg.flPop ∧ popLimits fc = true ∧
    fc.targets * fc.luns < 64 ∧ fc.ppb < 8192 ∧ flashStartUpListFoundChannel1.length = 8 ∧ (∃ (f : FoundChannel), f ∈ flashStartUpListFoundChannel1 ∧
    (f.ok = false ∨ foundPop f ≠ (st S5).m.cfg.flPop ∨ popLimits f = false)) ∧ flashStartUpState3.Ok ∧ 0 < flashStartUpState3.m.n ∧
    flashStartUpState3.m.pw.phase = Phase.startup ∧ (flashStartUpState3.m.fl 0).phase = FlPhase.first ∧ flashStartUpState3.m.rd 0
    Reg.DMC_DEV_STATUS.INIT_DONE = 7 ∧ flashStartUpState5.Ok ∧ 0 < flashStartUpState5.m.n ∧ flashStartUpState5.m.pw.phase = Phase.startup ∧
    (flashStartUpState5.m.fl 0).phase = FlPhase.recognised ∧ flashStartUpState5.m.rd 0 Reg.DMC_DEV_STATUS.INIT_DONE = 7 ∧ (flashStartUpState5.m.fl
    0).newer = some sn ∧ (flashStartUpState5.m.fl 0).seg = [] ∧ flashStartUpState6.Ok ∧ 0 < flashStartUpState6.m.n ∧ flashStartUpState6.m.pw.phase =
    Phase.startup ∧ (flashStartUpState6.m.fl 0).phase = FlPhase.recognised ∧ flashStartUpState6.m.rd 0 Reg.DMC_DEV_STATUS.INIT_DONE = 7 ∧
    (flashStartUpState6.m.fl 0).newer = some sn ∧ (flashStartUpState6.m.fl 0).seg = [JEntry.map 37440 (fe false false true FState.lost)] ∧
    flashStartUpState7.Ok ∧ 0 < flashStartUpState7.m.n ∧ flashStartUpState7.m.pw.phase = Phase.startup ∧ (flashStartUpState7.m.fl 0).phase =
    FlPhase.recognised ∧ flashStartUpState7.m.rd 0 Reg.DMC_DEV_STATUS.INIT_DONE = 7 ∧ (flashStartUpState7.m.fl 0).newer.isSome = true ∧
    (flashStartUpState7.m.fl 0).older = some sn ∧ (flashStartUpState7.m.fl 0).prevSeg ++ (flashStartUpState7.m.fl 0).seg = [] := by
  repeat' with_reducible apply And.intro
  all_goals first | decide +kernel | (apply ok; decide +kernel)

def fu : Sb := {Sb.fresh with st := .full, next := 64*4096, started := 4096, done := 4096}
def Ub (l : List (Nat × Sb)) (m : Mach) : Mach := wrs (m.updFl 0 (fun f => {f with s0 := 10, sbs := l, blocks := 20})) 0 [(Reg.FLC_RECLAIM.LOW, 4),(Reg.FLC_RECLAIM.CRIT, 1),(Reg.FLC_WEAR.SPREAD,100)]
def U1 : Mach := withMap 0 [(4160*9+1, { raw (fe false false true .present) with t3Loc := 3 * T0.sbGran 0 + 5 })] (Ub ((List.range 8).map (fun i => (i, fu))) T0)
def U2 : Mach := (Ub [(3,fu),(5,fu)] T0).updFl 0 (fun f => {f with pe := [(blockKey 0 0 3, 1)]})
def U3 : Mach := (Ub [(3,fu),(5,fu)] T0).updFl 0 (fun f => {f with pe := [(blockKey 0 0 3, 65535), (blockKey 1 0 3, 65535)]})
def U4 : Mach := (Ub [(3,fu),(5,fu)] T0).updFl 0 (fun f => {f with reads := [(blockKey 0 0 5, 100000000), (blockKey 7 7 5, 100000000)]})
def Sw : Mach := (wrs U2 0 [(Reg.FLC_STATUS.SWEEP_ACTIVE, 1)])
/-- What the hypotheses of FlashUpkeep ask, at concrete states. -/
theorem witness_FlashUpkeep : (st U1).Ok ∧ 0 < (st U1).m.n ∧ (st U1).m.flashOk 0 = true ∧ (st U1).m.pw.phase = Phase.run ∧ ((st U1).m.freeSbs
    0).length < (st U1).m.rd 0 Reg.FLC_RECLAIM.LOW ∧ ((st U1).m.fl 0).moving = none ∧ minBy ((st U1).m.peSum 0) ((st U1).m.fullSbs 0) = some 0 ∧ maxOf
    (List.map ((st U1).m.peSum 0) ((st U1).m.dataSbs 0)) ≤ (st U1).m.peSum 0 0 + (st U1).m.rd 0 Reg.FLC_WEAR.SPREAD * 8 * (st U1).m.units 0 ∧ { ch := 0, unit := 0, blk := 5 : BlockAddr }.ch
    < 8 ∧ { ch := 0, unit := 0, blk := 5 : BlockAddr }.unit < (st U1).m.units 0 ∧ 8 ≤ { ch := 8, unit := 0, blk := 5 : BlockAddr }.ch ∧ (st
    U1).m.ready 0 = true ∧ ((st U1).m.fl 0).hostTime = false ∧ (st U1).m.rd 0 Reg.FLC_STATUS.SWEEP_ACTIVE = 0 ∧ (st U1).m.rd 0
    Reg.FLC_STATUS.OFFTIME_KNOWN = 0 ∧ (st U2).Ok ∧ 0 < (st U2).m.n ∧ (st U2).m.flashOk 0 = true ∧ ((st U2).m.pw.phase ≠ Phase.run ∨ (st U2).m.rd 0
    Reg.FLC_RECLAIM.LOW ≤ ((st U2).m.freeSbs 0).length) ∧ (st U3).Ok ∧ 0 < (st U3).m.n ∧ (st U3).m.flashOk 0 = true ∧ (st U3).m.pw.phase = Phase.run ∧
    ((st U3).m.fl 0).moving = none ∧ minBy ((st U3).m.peSum 0) ((st U3).m.fullSbs 0) = some 5 ∧ (st U3).m.peSum 0 5 + (st U3).m.rd 0
    Reg.FLC_WEAR.SPREAD * 8 * (st U3).m.units 0 < maxOf (List.map ((st U3).m.peSum 0) ((st U3).m.dataSbs 0)) ∧ (st U4).Ok ∧ 0 < (st U4).m.n ∧ (st
    U4).m.flashOk 0 = true ∧ { ch := 0, unit := 0, blk := 5 : BlockAddr }.unit < (st U4).m.units 0 ∧ (st U4).m.sbOfBlock 0 { ch := 0, unit := 0, blk := 5 : BlockAddr }
    = some 5 ∧ ((st U4).m.rdThresh 0 < SMap.get (fun (x : Nat) => ((st U4).m.fl 0).readBase) ((st U4).m.fl 0).reads (blockKey { ch := 0, unit := 0, blk := 5 : BlockAddr }.ch
    { ch := 0, unit := 0, blk := 5 : BlockAddr }.unit { ch := 0, unit := 0, blk := 5 : BlockAddr }.blk)) ∧ [].any ((st U4).m.badSample 0 ((st U4).m.sb
    0 5).level) = false ∧ (st (at' Phase.furled U1)).Ok ∧ 0 < (st (at' Phase.furled U1)).m.n ∧ (st (at' Phase.furled U1)).m.flashOk 0 = true ∧ (st
    (at' Phase.furled U1)).m.pw.phase ≠ Phase.run ∧ (st Sw).Ok ∧ 0 < (st Sw).m.n ∧ (st Sw).m.flashOk 0 = true ∧ (st Sw).m.rd 0
    Reg.FLC_STATUS.SWEEP_ACTIVE = 1 ∧ (st Sw).m.pw.phase = Phase.run ∧ (st Sw).m.unswept 0 = [0] ∧ [].any ((st Sw).m.badSample 0 ((st Sw).m.sb 0
    0).level) = false := by
  repeat' with_reducible apply And.intro
  all_goals first | decide +kernel | (apply ok; decide +kernel)

/-- What the hypotheses of QosScaling ask, at concrete states. -/
theorem witness_QosScaling : (st T0).Ok ∧ 0 < (st T0).m.n ∧ (st T0).m.ready 0 = true ∧ 0 < 194 ∧ (st T0).m.alive = true := by
  repeat' with_reducible apply And.intro
  all_goals first | decide +kernel | (apply ok; decide +kernel)
theorem witness_QosScaling_3 : Instr.qosRecompute 0 = Instr.qosRecompute 0 ∨ ∃ (i : Option Nat), ∃ (v : Word), Instr.qosRecompute 0 =
    Instr.qosGuarWrite 0 i v ∧ ∀ (k : Nat), i = some k → k < 194 := by
  simp

def Q0 : Mach := wrs T0 0 [(Reg.QOS_GUAR.MBS 129, 1000),(Reg.QOS_EFF.MBS 129, 1000),(Reg.QOS_MSTAT.WARMUP 129, 3)]
def qosAdmissionState4 : State := st ((wrs Q0 0 [(Reg.QOS_BORROW.MBS 129, 9000),(Reg.QOS_MSTAT.WARMUP 129,0)]).setPool 0 100000)
/-- What the hypotheses of QosAdmission ask, at concrete states. -/
theorem witness_QosAdmission : (st Q0).Ok ∧ 0 < (st Q0).m.n ∧ (st Q0).m.ready 0 = true ∧ chargeOf QosWork.jobBuffer 1 1690000000 1600000001 = (some
    129, 1, 1690000000, 1600000001) ∧ 129 < 194 ∧ (st Q0).m.mayAdmit 0 { m := 129, bytes := 0, port := 1, accept := 1690000000, deadline := 1600000001, since := (st Q0).m.now 0 - 129 * 17 / 10 : QosReq }
    = true ∧ (st Q0).m.mayAdmit 0 { m := 129, bytes := 129, port := 1, accept := 1690000000, deadline := 1600000001, since := (st Q0).m.now 0 - 129 * 17 / 10 : QosReq }
    = false ∧ (st Q0).m.reqUrgency 0 { m := 129, bytes := 129, port := 1, accept := 1690000000, deadline := 1600000001, since := (st Q0).m.now 0 - 129 * 17 / 10 : QosReq }
    = 3 ∧ chargeOf (QosWork.hostLine 1) 0 0 0 = (some 1, 0, 0, 0) ∧ 1 < 194 ∧ (st Q0).m.mayAdmit 0 { m := 1, bytes := 129, port := 0, accept := 0, deadline := 0, since := (st Q0).m.now 0 - 1 * 17 / 10 : QosReq }
    = false ∧ (st Q0).m.reqUrgency 0 { m := 1, bytes := 129, port := 0, accept := 0, deadline := 0, since := (st Q0).m.now 0 - 1 * 17 / 10 : QosReq }
    ≠ 3 ∧ ((st Q0).m.die 0).qos.waiting = [] ∧ ((st Q0).m.canBorrow 0 { m := 1, bytes := 129, port := 0, accept := 0, deadline := 0, since := (st Q0).m.now 0 - 1 * 17 / 10 : QosReq }
    && (st Q0).m.flashFree 0 1) = false ∧ 194 ≤ 1690000000 ∧ qosAdmissionState4.Ok ∧ 0 < qosAdmissionState4.m.n ∧ qosAdmissionState4.m.ready 0 = true
    ∧ chargeOf QosWork.jobBuffer 1 0 0 = (some 129, 1, 0, 0) ∧ qosAdmissionState4.m.mayAdmit 0 { m := 129, bytes := 129, port := 1, accept := 0, deadline := 0, since := qosAdmissionState4.m.now 0 - 1 * 17 / 10 : QosReq }
    = false ∧ qosAdmissionState4.m.reqUrgency 0 { m := 129, bytes := 129, port := 1, accept := 0, deadline := 0, since := qosAdmissionState4.m.now 0 - 1 * 17 / 10 : QosReq }
    ≠ 3 ∧ (qosAdmissionState4.m.die 0).qos.waiting = [] ∧ qosAdmissionState4.m.canBorrow 0 { m := 129, bytes := 129, port := 1, accept := 0, deadline := 0, since := qosAdmissionState4.m.now 0 - 1 * 17 / 10 : QosReq }
    = true ∧ qosAdmissionState4.m.flashFree 0 129 = true ∧ (qosAdmissionState4.m.master 0 129).borrowed + qosAdmissionState4.m.lacks 0 { m := 129, bytes := 129, port := 1, accept := 0, deadline := 0, since := qosAdmissionState4.m.now 0 - 1 * 17 / 10 : QosReq }
    ≤ qosAdmissionState4.m.borrowLimit 0 { m := 129, bytes := 129, port := 1, accept := 0, deadline := 0, since := qosAdmissionState4.m.now 0 - 1 * 17 / 10 : QosReq }
    ∧ qosAdmissionState4.m.lacks 0 { m := 129, bytes := 129, port := 1, accept := 0, deadline := 0, since := qosAdmissionState4.m.now 0 - 1 * 17 / 10 : QosReq }
    ≤ (qosAdmissionState4.m.die 0).qos.pool := by
  repeat' with_reducible apply And.intro
  all_goals first | decide +kernel | (apply ok; decide +kernel)

/-- What the hypotheses of BorrowStep ask, at concrete states. -/
theorem witness_BorrowStep : (st Q0).Ok ∧ 0 < (st Q0).m.n ∧ (st Q0).m.ready 0 = true ∧ 0 < Q0.n ∧ 0 ≤ 4 := by
  repeat' with_reducible apply And.intro
  all_goals first | decide +kernel | (apply ok; decide +kernel)

end W9

namespace W10

def P1 : Mach := {both host [(Reg.POOL_STATUS.ROLE,1),(Reg.POOL_STATUS.JOINED,1)] with pool := {host.pool with role := 1, members := [⟨5, 0x500, 0, 0, 9⟩]}, cfg := {host.cfg with peers := [(5,0x500),(6,0x600),(7,0x700)], mgmtLd := some 0}, pw := {host.pw with poolId := 3}}
def P2 : Mach := {both host [(Reg.POOL_STATUS.ROLE,2)] with pool := {host.pool with role := 2}, cfg := {host.cfg with mgmtLd := some 0}, pw := {host.pw with poolId := 3}}
def P3 : Mach := both P2 [(Reg.POOL_STATUS.JOINED,1)]
def sch (l : List Nat) (m : Mach) : Mach := {m with pool := {m.pool with schedule := some ⟨l, 100⟩}}
def pm (p v a b r : Nat) : PoolMember := ⟨p, r, v, a, b⟩
/-- What the hypotheses of PoolMembership ask, at concrete states. -/
theorem witness_PoolMembership : (st host).Ok ∧ (st host).m.ens < (st host).m.n ∧ 0 < (st host).m.n ∧ (st host).m.serving = true ∧ bits (BitVec.toNat
    (1380928512 : Word)) 8 24 = 5394252 ∧ bits (BitVec.toNat (1380928512 : Word)) 0 8 ≤ 2 ∧ (st host).m.pres.active = false ∧ (st P1).Ok ∧ (st
    P1).m.ens < (st P1).m.n ∧ (st P1).m.leads = true ∧ Instr.poolJoin 7 0 0 9 1792 = Instr.poolJoin (pm 7 0 0 9 1792).pkg (pm 7 0 0 9 1792).version
    (pm 7 0 0 9 1792).peerMin (pm 7 0 0 9 1792).peerMax (pm 7 0 0 9 1792).rid ∧ (st P1).m.judgeJoin (pm 7 0 0 9 1792) = some 0 ∧ Instr.poolJoin 5 0 0
    9 1536 = Instr.poolJoin (pm 5 0 0 9 1536).pkg (pm 5 0 0 9 1536).version (pm 5 0 0 9 1536).peerMin (pm 5 0 0 9 1536).peerMax (pm 5 0 0 9 1536).rid
    ∧ (st P1).m.judgeJoin (pm 5 0 0 9 1536) = some 1 ∧ 1 ≠ 0 ∧ (∃ (p : Nat × Nat), p ∈ (st P1).m.cfg.peers ∧ p.snd = (pm 5 0 0 9 1536).rid) ∧ (∃ (k :
    PoolMember), k ∈ (st P1).m.members ∧ k.pkg = (pm 5 0 0 9 1536).pkg ∧ k.rid ≠ (pm 5 0 0 9 1536).rid) ∧ Instr.poolJoin 7 0 0 9 2304 = Instr.poolJoin
    (pm 7 0 0 9 2304).pkg (pm 7 0 0 9 2304).version (pm 7 0 0 9 2304).peerMin (pm 7 0 0 9 2304).peerMax (pm 7 0 0 9 2304).rid ∧ (∀ (p : Nat × Nat), p
    ∈ (st P1).m.cfg.peers → p.snd ≠ (pm 7 0 0 9 2304).rid) ∧ (st P2).Ok ∧ (st P2).m.ens < (st P2).m.n ∧ (st P2).m.serving = true ∧ (st P2).m.pool.role
    = 2 ∧ (st P2).m.inPool = false ∧ (st P2).m.pool.refused = false ∧ (st P3).Ok ∧ (st P3).m.ens < (st P3).m.n ∧ (st P3).m.serving = true ∧ (st
    P3).m.pool.role = 2 ∧ (st P3).m.inPool = true ∧ (st (present P3)).Ok ∧ (st (present P3)).m.ens < (st (present P3)).m.n ∧ 0 < (st (present P3)).m.n
    ∧ (st (present P3)).m.serving = true ∧ (st (present P3)).m.pres.active = true ∧ (st P1).m.pool.schedule = none ∧ (∀ (q : Nat), q ∈ [5] → (∃ (k :
    PoolMember), k ∈ (st P1).m.members ∧ k.pkg = q) ∧ ∃ (x : Nat × Nat × Nat × Nat), x ∈ List.filter (fun (x : Nat × Nat × Nat × Nat) => decide (x.fst
    ≠ (st P1).m.pw.poolId)) [(5, 0, 0, 9)] ++ (st P1).m.installedSelf.toList ∧ x.fst = q) ∧ ¬(st P1).m.pw.poolId ∈ [5].dropLast ∧ (stepsCompatible
    (List.filter (fun (x : Nat × Nat × Nat × Nat) => decide (x.fst ≠ (st P1).m.pw.poolId)) [(5, 0, 0, 9)] ++ (st P1).m.installedSelf.toList) (st
    P1).m.members [5] = true) ∧ (st (sch [5] P1)).Ok ∧ (st (sch [5] P1)).m.ens < (st (sch [5] P1)).m.n ∧ (st (sch [5] P1)).m.leads = true ∧ (st (sch
    [5] P1)).m.pool.schedule.isSome = true ∧ (st (sch [5] P1)).m.pool.schedule = some { rest := [5], delayMs := 100 : Schedule } := by
  repeat' with_reducible apply And.intro
  all_goals first | decide +kernel | (apply ok; decide +kernel)

/-- What the hypotheses of TimeAnchors ask, at concrete states. -/
theorem witness_TimeAnchors : (st P1).Ok ∧ (st P1).m.ens < (st P1).m.n ∧ (st P1).m.leads = true ∧ (((st P1).m.pool.members.any fun (k : PoolMember) =>
    decide (k.pkg = 5)) = true) ∧ (st P3).Ok ∧ (st P3).m.ens < (st P3).m.n ∧ (st P3).m.serving = true ∧ (st P3).m.pool.role = 2 ∧ (st P3).m.inPool =
    true ∧ -340 ≤ -340 ∧ -340 ≤ 1700000 ∧ -341 < -340 ∧ -2 ^ 31 ≤ -341 := by
  repeat' with_reducible apply And.intro
  all_goals first | decide +kernel | (apply ok; decide +kernel)

def hdr : List Byte := buildHeader 1234 0 12 0 []
def rcp (p h : Nat) : ReplicaCopy := ⟨1, 1234, p, h⟩
def ready1 (m : Mach) : Mach := both (m.updFl 0 (fun f => {f with s0 := 16, sbs := []}) |>.updFl 1 (fun f => {f with s0 := 16})) [(Reg.FLC_STATUS.READY,1),(Reg.TIER_MAP_CAP.MAPS, 100),(Reg.OPS_STATUS.READY,1),(Reg.TIER_T2_MARKS.HIGH,90),(Reg.TIER_T2_MARKS.LOW,80), (Reg.TIER_T1_CACHE_MAX.PCT,25)]
def Px : Mach := {withExts [{ ext' 9 .sealing with format := 0}] [] (ready1 P1) with pool := {P1.pool with rx := [⟨9, 5, 0, 0, 6, [], 1700000000⟩]}}
def opening : Mach := { ready1 P1 with supply := [0, 0, 0, 0] }
def frameBytes : List Byte := (List.range 16).flatMap (fun _ => constantBlock 1 7)
def Pc : Mach := (withExts [{ ext' 9 .sealing with format := 1 }] [] { Px with supply := [0, 0, 0, 0] }).upd 0 (fun x => {x with regs := x.regs ++ (List.range 256).filterMap (fun i => let w := leNat (sub frameBytes (4 * i) 4); if w = 0 then none else some (0xF00000 + 4 * i, BitVec.ofNat 64 w))})
def replicasAndPushesExtent1 : Extent := { ext' 9 .sealing with format := 1 }
/-- What the hypotheses of ReplicasAndPushes ask, at concrete states. -/
theorem witness_ReplicasAndPushes : (st P1).Ok ∧ (st P1).m.ens < (st P1).m.n ∧ (st P1).m.leads = true ∧ (((st P1).m.pool.members.any fun (k :
    PoolMember) => decide (k.pkg = (rcp 5 77).pkg)) = true) ∧ (st P1).m.pool.directory.length < 1048576 ∧ (((st P1).m.pool.members.any fun (k :
    PoolMember) => decide (k.pkg = 5)) = true) ∧ (st P1).m.serving = true ∧ (st P1).m.inPool = true ∧ openHeaderOk [1] = false ∧ (st Pc).Ok ∧ (st
    Pc).m.ens < (st Pc).m.n ∧ (st Pc).m.serving = true ∧ (List.find? (fun (q : RxPush) => decide (q.ext = replicasAndPushesExtent1.num)) (st
    Pc).m.pool.rx = some { ext := 9, src := 5, ld := 0, region := 0, slot := 6, failed := [], since := 1700000000 : RxPush }) ∧ (st Pc).m.ext?
    replicasAndPushesExtent1.num = some replicasAndPushesExtent1 ∧ replicasAndPushesExtent1.home < (st Pc).m.n ∧ 0 < 16 ∧ 0 < 4160 ∧ (List.replicate
    16 1).length = 16 ∧ (∀ (n : Nat), n ∈ List.replicate 16 1 → 1 ≤ n ∧ n ≤ 64) ∧ ((st Pc).m.decodeCopy replicasAndPushesExtent1.home
    replicasAndPushesExtent1 (rxEntry replicasAndPushesExtent1 0 (List.replicate 16 1)) ((st Pc).m.rxBytes replicasAndPushesExtent1.home 0 (64 * sumOf
    (List.replicate 16 1)))).toOption.isSome = true ∧ ((st Pc).fresh.storeT2 replicasAndPushesExtent1.home replicasAndPushesExtent1.num 0 2
    (List.replicate 16 1) (rxEntry replicasAndPushesExtent1 0 (List.replicate 16 1)).table ((st Pc).m.rxBytes replicasAndPushesExtent1.home 0 (64 *
    sumOf (List.replicate 16 1)))).isSome = true ∧ replicasAndPushesExtent1.state = ExtState.sealing ∧ (st opening).Ok ∧ (st opening).m.ens < (st
    opening).m.n ∧ (st opening).m.serving = true ∧ (st opening).m.inPool = true ∧ openHeaderOk hdr = true ∧ (st opening).m.assigned 0 = true ∧ ((st
    opening).m.pushChecks 0 0 none).toOption = some (0, 0) ∧ (st opening).m.freeNumber = some 0 ∧ ((st opening).fresh.openPush 0 (0, 0) hdr 0 0 0 0 0
    0).isSome = true := by
  repeat' with_reducible apply And.intro
  all_goals first | decide +kernel | (apply ok; decide +kernel)

def fws (f : Fw → Fw) (m : Mach) : Mach := {m with fw := f m.fw}
def F0 : Mach := present (withNor P1)
def firmwareInstallState6 : State := st (fws (fun f => {f with state := 3, restoring := some 7}) F0)
/-- What the hypotheses of FirmwareInstall ask, at concrete states. -/
theorem witness_FirmwareInstall : (st F0).Ok ∧ (st F0).m.ens < (st F0).m.n ∧ (st F0).m.powered = true ∧ 352 ≤ 352 ∧ 352 ≤ fwSlotLen ∧ 0 ≤ 8388608 ∧
    (st F0).m.pres.active = true ∧ (st F0).m.fw.state = 0 ∧ (st (withNor P1)).Ok ∧ (st (withNor P1)).m.ens < (st (withNor P1)).m.n ∧ (st (withNor
    P1)).m.powered = true ∧ (st (withNor P1)).m.pres.active = false ∧ (st (fwAt 2 F0)).Ok ∧ (st (fwAt 2 F0)).m.ens < (st (fwAt 2 F0)).m.n ∧ (st (fwAt
    2 F0)).m.powered = true ∧ (st (fwAt 2 F0)).m.pres.active = true ∧ (st (fwAt 2 F0)).m.fw.state ≠ 0 ∧ (st (fwAt 2 F0)).m.fw.state = 2 ∧ (st (fwAt 2
    F0)).m.fw.restoring = none ∧ ([] : List Byte).length ≤ 48 ∧ (st (fwAt 2 F0)).m.fw.received + ([] : List Byte).length ≤ (st (fwAt 2
    F0)).m.fw.imageLen ∧ (0 ≠ (st (fwAt 2 F0)).m.fw.received ∨ 48 < (List.replicate 49 9).length) ∧ (st (fwAt 2 F0)).m.fw.state ∈ [2, 3, 4] ∧ (st
    (fwAt 1 F0)).Ok ∧ (st (fwAt 1 F0)).m.ens < (st (fwAt 1 F0)).m.n ∧ (st (fwAt 1 F0)).m.powered = true ∧ (st (fwAt 1 F0)).m.fw.state = 1 ∧ (st (fwAt
    1 F0)).m.fw.restoring = none ∧ (st (fwAt 1 F0)).m.rd (st (fwAt 1 F0)).m.ens Reg.FW_STATUS.RUNNING_SLOT = 0 ∧ firmwareInstallState6.Ok ∧
    firmwareInstallState6.m.ens < firmwareInstallState6.m.n ∧ firmwareInstallState6.m.powered = true ∧ firmwareInstallState6.m.fw.restoring = some 7 ∧
    7 < 16 := by
  repeat' with_reducible apply And.intro
  all_goals first | decide +kernel | (apply ok; decide +kernel)
theorem witness_FirmwareInstall_22 : ∀ (other : Nat), (st (fwAt 2 F0)).m.fwFault { keyHash := true, signature := true : FwVerdict } other = 0 := by
  first | exact Or.inl rfl | (intro c h; cases h) | (intro o; rfl) | (intro q h; cases h)

namespace ForFirmwareActivation
def fws (f : Fw → Fw) (m : Mach) : Mach := {m with fw := f m.fw}
def F0 : Mach := present (withNor host)
def fal (m : Mach) : Mach := both m [(Reg.FW_STATUS.IDENTITY_FAIL,1)]
def firmwareActivationState4 : State := st (fws (fun f => {f with state := 4, tact := some 1600000000}) F0)
def firmwareActivationState5 : State := st (fws (fun f => {f with state := 5, deadline := 1700001000, newSec := 3}) F0)
/-- What the hypotheses of FirmwareActivation ask, at concrete states. -/
theorem witness_FirmwareActivation : (st F0).Ok ∧ (st F0).m.ens < (st F0).m.n ∧ (st F0).m.powered = true ∧ (st F0).m.fw.restoring = none ∧ ((st
    F0).m.inPool = true ∧ 11 = 9 ∨ (st F0).m.inPool = false ∧ (st F0).m.fw.state ≠ 4 ∧ 11 = 11 ∨ (st F0).m.inPool = false ∧ (st F0).m.fw.state = 4 ∧
    (st F0).m.fw.tact.isSome = true ∧ 11 = 2) ∧ (true = false ∨ 1129270854 ≠ 1129270854 ∨ (st F0).m.fw.state ≠ 5) ∧ (st (fwAt 4 F0)).Ok ∧ (st (fwAt 4
    F0)).m.ens < (st (fwAt 4 F0)).m.n ∧ (st (fwAt 4 F0)).m.powered = true ∧ (st (fwAt 4 F0)).m.fw.restoring = none ∧ (st (fwAt 4 F0)).m.inPool = false
    ∧ (st (fwAt 4 F0)).m.fw.state = 4 ∧ (st (fwAt 4 F0)).m.fw.tact = none ∧ firmwareActivationState4.Ok ∧ firmwareActivationState4.m.ens <
    firmwareActivationState4.m.n ∧ firmwareActivationState4.m.powered = true ∧ firmwareActivationState4.m.fw.restoring = none ∧
    firmwareActivationState4.m.fw.state = 4 ∧ firmwareActivationState4.m.fw.tact = some 1600000000 ∧ firmwareActivationState4.m.nor.running = none ∧
    firmwareActivationState5.Ok ∧ firmwareActivationState5.m.ens < firmwareActivationState5.m.n ∧ firmwareActivationState5.m.powered = true ∧
    firmwareActivationState5.m.halted = false ∧ firmwareActivationState5.m.fw.state = 5 ∧ (firmwareActivationState5.m.rd
    firmwareActivationState5.m.ens Reg.FW_STATUS.CONFIRM_MODE = 0 ∨ firmwareActivationState5.m.rd firmwareActivationState5.m.ens
    Reg.FW_STATUS.CONFIRM_REQ = 1) ∧ firmwareActivationState5.m.nor.running = none ∧ 0 < 128 ∧ 0 ≠ 90 ∧ 90 = 90 ∧ 0 < (st F0).m.n ∧ (List.replicate 32
    9).length = 32 ∧ ((st F0).m.halted = false ∨ 0 = (st F0).m.ens) ∧ (st F0).m.rd 0 Reg.FW_STATUS.IDENTITY_FAIL = 0 ∧ (st (fal F0)).Ok ∧ (st (fal
    F0)).m.powered = true ∧ 0 < (st (fal F0)).m.n ∧ ((st (fal F0)).m.halted = false ∨ 0 = (st (fal F0)).m.ens) ∧ (st (fal F0)).m.rd 0
    Reg.FW_STATUS.IDENTITY_FAIL = 1 := by
  repeat' with_reducible apply And.intro
  all_goals first | decide +kernel | (apply ok; decide +kernel)
end ForFirmwareActivation

end W10

end Sys2Proof.Tests
end

/-! SUPPORT. The borrow step (R371): what the change of one die and the passing of time leave of every die, the machine at the
boundary at which the step moves, and the step's effect on what may be borrowed. -/

namespace Sys2Proof.Machine

/-! ## Parts of a die that an operation does not touch -/

/-- A part that the change of one die leaves alone is as before on every die. -/
theorem Mach.part_upd {α : Type} (p : Die → α) {f : Die → Die} (hp : ∀ x, p (f x) = p x) (m : Mach) (d e : Nat) :
    p ((m.upd d f).die e) = p (m.die e) := by
  by_cases he : e = d
  · subst he
    by_cases hl : e < m.dies.length
    · rw [Mach.die_upd_same hl, hp]
    · unfold Mach.die Mach.upd
      simp [List.getD_eq_getElem?_getD, hl]
  · rw [Mach.die_upd_other he]

/-- What is not a register is as before when a field is written. -/
theorem Mach.part_wr {α : Type} (p : Die → α) (hp : ∀ x r, p { x with regs := r } = p x) (m : Mach) (d : Nat) (f : Fld) (v e : Nat) :
    p ((m.wr d f v).die e) = p (m.die e) :=
  Mach.part_upd p (fun x => hp x _) m d e

/-- What is not a clock is as before when time passes. -/
theorem Mach.part_pass {α : Type} (p : Die → α) (hp : ∀ x c, p { x with clk := c } = p x) (m : Mach) (k e : Nat) :
    p ((m.pass k).die e) = p (m.die e) := by
  unfold Mach.die Mach.pass
  simp only [List.getD_eq_getElem?_getD, List.getElem?_map]
  cases m.dies[e]? with
  | none => rfl
  | some x => exact hp x _

theorem Mach.part_runTo {α : Type} (p : Die → α) (hp : ∀ x c, p { x with clk := c } = p x) (m : Mach) (d t e : Nat) :
    p ((m.runTo d t).die e) = p (m.die e) := by
  unfold Mach.runTo
  split
  · exact Mach.part_pass p hp m _ e
  · rfl

@[simp] theorem Mach.runTo_length (m : Mach) (d t : Nat) : (m.runTo d t).dies.length = m.dies.length := by
  unfold Mach.runTo
  split
  · exact List.length_map ..
  · rfl

@[simp] theorem Mach.runTo_nor (m : Mach) (d t : Nat) : (m.runTo d t).nor = m.nor := by
  unfold Mach.runTo; split <;> rfl

@[simp] theorem Mach.runTo_lse (m : Mach) (d t : Nat) : (m.runTo d t).lse = m.lse := by
  unfold Mach.runTo; split <;> rfl

/-- The stored data are kept where every die keeps its DRAM, its flash and its frame map. -/
theorem Mach.dataKept_of_parts {a b : Mach} (hdram : ∀ d, (b.die d).dram = (a.die d).dram) (hfl : ∀ d, (b.die d).fl = (a.die d).fl)
    (htier : ∀ d, (b.die d).tier = (a.die d).tier) (hnor : b.nor = a.nor) (hlse : b.lse = a.lse) : a.dataKept b := by
  refine ⟨fun d x => ?_, fun d x => ?_, fun x => ?_, fun d => ?_, hlse⟩
  · unfold Mach.dramByte; rw [hdram]
  · unfold Mach.flashByte; rw [hfl]
  · unfold Mach.norByte; rw [hnor]
  · rw [htier]

theorem Mach.dataKept_trans {a b c : Mach} (h : a.dataKept b) (k : b.dataKept c) : a.dataKept c := by
  obtain ⟨hdram, hfl, hnor, hmap, hlse⟩ := h
  obtain ⟨kdram, kfl, knor, kmap, klse⟩ := k
  exact ⟨fun d x => (kdram d x).trans (hdram d x), fun d x => (kfl d x).trans (hfl d x), fun x => (knor x).trans (hnor x),
    fun d => (kmap d).trans (hmap d), klse.trans hlse⟩

/-- Registers are not stored data. -/
theorem Mach.dataKept_wr (m : Mach) (d : Nat) (f : Fld) (v : Nat) : m.dataKept (m.wr d f v) :=
  Mach.dataKept_of_parts (Mach.part_wr Die.dram (fun _ _ => rfl) m d f v) (Mach.part_wr Die.fl (fun _ _ => rfl) m d f v)
    (Mach.part_wr Die.tier (fun _ _ => rfl) m d f v) rfl rfl

/-- A write to a field changes no other register. -/
theorem Mach.regsKept_wr {a b : Mach} (h : ∀ e g, b.rd e g = a.rd e g) (d : Nat) (f : Fld) (v : Nat) :
    a.regsKept (b.wr d f v) d [f.off] := by
  intro e g hg _
  by_cases he : e = d
  · rw [Mach.rd_wr_reg v (by simpa using hg he), h]
  · rw [Mach.rd_wr_die v he, h]

/-! ## The boundary -/

/-- The 8 µs boundary at which die `d`'s borrow step moves next, counted in 8 µs (R371). -/
def Mach.nextBoundary (m : Mach) (d : Nat) : Nat := max ((m.die d).qos.lastStep + 1) (m.now d / (8 * Config.us))

/-- The machine at that boundary, before the step moves. -/
def Mach.atBoundary (m : Mach) (d : Nat) : Mach :=
  (m.runTo d (m.nextBoundary d * (8 * Config.us))).upd d (fun x => { x with qos := { x.qos with lastStep := m.nextBoundary d } })

/-- The borrow step after a boundary, from the step before it (R371). -/
def nextStep (congested : Bool) (step : Nat) : Nat := if congested then min 4 (step + 1) else step - 1

theorem nextStep_lt {step : Nat} (congested : Bool) (h : step < 8) : nextStep congested step < 8 := by
  unfold nextStep; split <;> omega

theorem Mach.atBoundary_length (m : Mach) (d : Nat) : (m.atBoundary d).dies.length = m.dies.length := by
  unfold Mach.atBoundary; simp

/-- Reaching the boundary touches clocks and QoS records alone. -/
theorem Mach.part_atBoundary {α : Type} (p : Die → α) (hc : ∀ x c, p { x with clk := c } = p x) (hq : ∀ x q, p { x with qos := q } = p x)
    (m : Mach) (d e : Nat) : p ((m.atBoundary d).die e) = p (m.die e) :=
  (Mach.part_upd p (fun x => hq x _) _ d e).trans (Mach.part_runTo p hc m d _ e)

@[simp] theorem Mach.rd_atBoundary (m : Mach) (d e : Nat) (f : Fld) : (m.atBoundary d).rd e f = m.rd e f :=
  Mach.part_atBoundary (fun x => x.rd f) (fun _ _ => rfl) (fun _ _ => rfl) m d e

@[simp] theorem Mach.on_atBoundary (m : Mach) (d e : Nat) (f : Fld) : (m.atBoundary d).on e f = m.on e f := by
  unfold Mach.on; rw [Mach.rd_atBoundary]

/-- The update on a ready die: the clocks run to the boundary, and the step moves there. -/
theorem exec_borrowStepUpdate_of_ready {s : State} {d : Nat} (hd : d < s.m.n) (hr : s.m.ready d = true) :
    exec (.borrowStepUpdate d) s = s.done ((s.fresh.atBoundary d).wr d Reg.QOS_STATUS.BORROW_STEP
      (nextStep (s.m.on d Reg.QOS_STATUS.CONGESTED) (s.m.rd d Reg.QOS_STATUS.BORROW_STEP))) := by
  have hr' : s.fresh.ready d = true := hr
  change execBorrowStepUpdate d s = _
  unfold execBorrowStepUpdate
  rw [State.onDie_eq hd, hr', Mach.when_true, ← State.fresh_on, ← State.fresh_rd, ← Mach.on_atBoundary, ← Mach.rd_atBoundary]
  rfl

theorem Mach.dataKept_atBoundary (m : Mach) (d : Nat) : m.dataKept (m.atBoundary d) :=
  Mach.dataKept_of_parts (Mach.part_atBoundary Die.dram (fun _ _ => rfl) (fun _ _ => rfl) m d)
    (Mach.part_atBoundary Die.fl (fun _ _ => rfl) (fun _ _ => rfl) m d)
    (Mach.part_atBoundary Die.tier (fun _ _ => rfl) (fun _ _ => rfl) m d) (Mach.runTo_nor ..) (Mach.runTo_lse ..)

/-- The boundary is later than the last one at which the step moved. -/
theorem Mach.lastStep_lt_atBoundary {m : Mach} {d : Nat} (hd : d < m.dies.length) :
    (m.die d).qos.lastStep < ((m.atBoundary d).die d).qos.lastStep := by
  unfold Mach.atBoundary
  rw [Mach.die_upd_same (by simpa using hd)]
  exact Nat.lt_of_lt_of_le (Nat.lt_succ_self _) (Nat.le_max_left _ _)

/-! ## What the step scales -/

theorem Mach.rd_step_lt (m : Mach) (d : Nat) : m.rd d Reg.QOS_STATUS.BORROW_STEP < 8 := bits_lt _ _ 3

/-- The field holds every step (R371). -/
theorem Mach.rd_wr_step {m : Mach} {d step : Nat} (hd : d < m.dies.length) (hstep : step < 8) :
    (m.wr d Reg.QOS_STATUS.BORROW_STEP step).rd d Reg.QOS_STATUS.BORROW_STEP = step := by
  rw [Mach.rd_wr_same hd (by decide)]
  exact Nat.mod_eq_of_lt hstep

section
variable (m : Mach) (d step i : Nat)

theorem Mach.qBorrow_wr_step : (m.wr d Reg.QOS_STATUS.BORROW_STEP step).qBorrow d i = m.qBorrow d i := by
  unfold Mach.qBorrow
  rw [Mach.rd_wr_reg _ (show 0x82000 + 0x4 * i ≠ 0x80004 by omega)]

theorem Mach.qLength_wr_step : (m.wr d Reg.QOS_STATUS.BORROW_STEP step).qLength d i = m.qLength d i :=
  Mach.part_wr (fun x => max 1 (SMap.get (fun _ => Master.reset) x.qos.masters i).us) (fun _ _ => rfl) m d _ step d

/-- Guaranteed credit does not depend on the borrow step (R371). -/
theorem Mach.windowCredit_wr_step : (m.wr d Reg.QOS_STATUS.BORROW_STEP step).windowCredit d i = m.windowCredit d i := by
  unfold Mach.windowCredit Mach.qWindow
  rw [Mach.rd_wr_reg _ (show 0x84000 + 0x4 * i ≠ 0x80004 by omega), Mach.rd_wr_reg _ (show 0x83000 + 0x4 * i ≠ 0x80004 by omega)]

end

/-- The factors of the table of R371: 1 with a deadline, and otherwise 1, 1/2, 1/4, 1/8 and 0 for the steps 0 to 4. -/
theorem Mach.borrowLimit_wr_step {m : Mach} {d step : Nat} (hd : d < m.n) (hstep : step ≤ 4) (r : QosReq) :
    (m.wr d Reg.QOS_STATUS.BORROW_STEP step).borrowLimit d r = (if r.timed = true then m.qBorrow d r.m * m.qLength d r.m
      else if step = 4 then 0 else m.qBorrow d r.m * m.qLength d r.m / 2 ^ step) := by
  unfold Mach.borrowLimit
  rw [Mach.rd_wr_step hd (by omega), Mach.qBorrow_wr_step, Mach.qLength_wr_step]
  cases r.timed with
  | true => simp
  | false =>
    rcases Nat.eq_zero_or_pos step with rfl | hpos
    · simp
    · have h4 : 4 ≤ step ↔ step = 4 := by omega
      simp [h4, Nat.ne_of_gt hpos]

/-- Settles O55: the update reaches a later boundary, which touches clocks and QoS records alone, and writes the step there; what may
be borrowed reads that step, and guaranteed credit does not. -/
theorem borrowStep : Obligations.BorrowStep := by
  unfold Obligations.BorrowStep
  refine ⟨fun s d _ hd hr => ⟨_, exec_borrowStepUpdate_of_ready hd hr, rfl, ?_, ?_, ?_, ?_⟩,
    fun m d step r hd hstep => ⟨Mach.borrowLimit_wr_step hd hstep r, Mach.windowCredit_wr_step m d step r.m⟩⟩
  · have hd' : d < (s.fresh.atBoundary d).dies.length := by rw [Mach.atBoundary_length]; exact hd
    rw [Mach.rd_wr_step hd' (nextStep_lt _ (Mach.rd_step_lt ..))]
    simp [nextStep, Mach.on]
  · have hlater : (s.fresh.die d).qos.lastStep < _ := Mach.lastStep_lt_atBoundary hd
    exact Nat.lt_of_lt_of_eq hlater (Mach.part_wr (fun x => x.qos.lastStep) (fun _ _ => rfl) _ d _ _ d).symm
  · exact Mach.dataKept_trans (Mach.dataKept_atBoundary s.fresh d) (Mach.dataKept_wr ..)
  · exact Mach.regsKept_wr (a := s.m) (Mach.rd_atBoundary s.fresh d) d _ _

end Sys2Proof.Machine

/-! SUPPORT. Stamps (R384): what a stamp is the greatest of, what a pennant leaves on its die (the last stamp and the newest record),
and the read of TB_LAST_STAMP. -/

namespace Sys2Proof.Machine

/-! ## The three values of a stamp -/

section
variable (m : Mach) (d : Nat) (carried : Option Nat)

theorem Mach.stamp_none : m.stamp d none = max (m.now d) (m.die d).clk.last := Nat.max_eq_left (Nat.zero_le _)

theorem Mach.stamp_some (c : Nat) : m.stamp d (some c) = max (max (m.now d) (m.die d).clk.last) (c + 1) := rfl

theorem Mach.now_le_stamp : m.now d ≤ m.stamp d carried := Nat.le_trans (Nat.le_max_left _ _) (Nat.le_max_left _ _)

theorem Mach.last_le_stamp : (m.die d).clk.last ≤ m.stamp d carried := Nat.le_trans (Nat.le_max_right _ _) (Nat.le_max_left _ _)

/-- An event's stamp is above the one that its message carried. -/
theorem Mach.carried_lt_stamp (c : Nat) (h : carried = some c) : c < m.stamp d carried := by
  subst h
  exact Nat.lt_of_succ_le (Nat.le_max_right _ _)

/-- No fourth value: a stamp is one of the three. -/
theorem Mach.stamp_eq_one_of : m.stamp d carried = m.now d ∨ m.stamp d carried = (m.die d).clk.last
    ∨ ∃ c, carried = some c ∧ m.stamp d carried = c + 1 := by
  cases carried with
  | none => rw [Mach.stamp_none]; omega
  | some c =>
    rw [Mach.stamp_some]
    rcases Nat.le_total (c + 1) (max (m.now d) (m.die d).clk.last) with h | h
    · rw [Nat.max_eq_left h]; omega
    · exact .inr (.inr ⟨c, rfl, Nat.max_eq_right h⟩)

end

/-! ## The pennant -/

/-- A die whose last stamp is `t`. -/
def Die.withLast (x : Die) (t : Nat) : Die := { x with clk := { x.clk with last := t } }

/-- The die of a pennant: its last stamp is the pennant's, and the pennant's records are in its logs. -/
theorem Mach.die_note_same {m : Mach} {d : Nat} (hd : d < m.dies.length) (unit : Nat) (pc : PCode) (detail : Nat) (args : List Nat)
    (flags : Nat) (carried : Option Nat) : ∃ fl, (m.note d unit pc detail args flags carried).die d
      = ((m.die d).withLast (m.stamp d carried)).logGroup m.halted
          (((m.die d).withLast (m.stamp d carried)).records m.pw.poolId d unit pc (m.stamp d carried) fl detail args) := by
  have hissue : (m.issue d (m.stamp d carried)).die d = (m.die d).withLast (m.stamp d carried) := by
    unfold Mach.issue Die.withLast
    rw [Mach.die_upd_same hd, Nat.max_eq_right (Mach.last_le_stamp m d carried)]
  unfold Mach.note
  rw [Mach.die_upd_same (by unfold Mach.issue; simpa using hd), hissue]
  exact ⟨_, rfl⟩

@[simp] theorem Die.logAppend_aon (x : Die) (r : BitVec 128) : (x.logAppend r).log.aon = x.log.aon := by
  unfold Die.logAppend
  dsimp only
  split <;> rfl

theorem Die.foldl_logAppend_aon (rs : List (BitVec 128)) : ∀ x : Die, (rs.foldl Die.logAppend x).log.aon = x.log.aon := by
  induction rs with
  | nil => exact fun _ => rfl
  | cons r rs ih => exact fun x => (ih _).trans (Die.logAppend_aon x r)

/-- In each of its cases a group reaches the always-on record, and nothing else does (R400, R410). -/
theorem Die.logGroup_aon (x : Die) (half : Bool) (rs : List (BitVec 128)) :
    (x.logGroup half rs).log.aon = (rs.foldl Die.aonAppend x).log.aon := by
  unfold Die.logGroup
  extract_lets y
  split
  · split <;> rfl
  · cases half with
    | true => rfl
    | false => exact Die.foldl_logAppend_aon rs _

/-- The newest always-on record after a group of one. -/
theorem Die.logGroup_singleton_aon (x : Die) (half : Bool) (r : BitVec 128) : (x.logGroup half [r]).log.aon[0]? = some r := by
  rw [Die.logGroup_aon]
  rfl

/-- The time of a head record is its low 64 bits: every other part stands at bit 64 or above (R393). -/
theorem bits_packHead_time (time pkg die unit seq flags cls code detail : Nat) :
    bits (packHead time pkg die unit seq flags cls code detail).toNat 0 64 = time % 2 ^ 64 := by
  unfold bits packHead
  rw [BitVec.toNat_ofNat]
  omega

theorem Die.records_nil (x : Die) (pkg d unit : Nat) (pc : PCode) (t flags detail : Nat) :
    x.records pkg d unit pc t flags detail [] = [packHead t pkg d unit x.nextSeq flags pc.cls pc.code detail] := rfl

/-- A pennant's stamp is the last one that its die has issued. -/
theorem Mach.last_note {m : Mach} {d : Nat} (hd : d < m.dies.length) (unit : Nat) (pc : PCode) (detail : Nat) (args : List Nat)
    (flags : Nat) (carried : Option Nat) :
    ((m.note d unit pc detail args flags carried).die d).clk.last = m.stamp d carried := by
  obtain ⟨fl, hdie⟩ := Mach.die_note_same hd unit pc detail args flags carried
  obtain ⟨_, _, hclk, _⟩ := (Die.onlyLog_group ((m.die d).withLast (m.stamp d carried)) m.halted
    (((m.die d).withLast (m.stamp d carried)).records m.pw.poolId d unit pc (m.stamp d carried) fl detail args)).1
  rw [hdie, hclk]
  rfl

/-- The newest always-on record of a pennant without arguments carries its stamp. -/
theorem Mach.record_note_time {m : Mach} {d : Nat} (hd : d < m.dies.length) (unit : Nat) (pc : PCode) (detail flags : Nat)
    (carried : Option Nat) : bits ((m.note d unit pc detail [] flags carried).record d) 0 64 = m.stamp d carried % 2 ^ 64 := by
  obtain ⟨fl, hdie⟩ := Mach.die_note_same hd unit pc detail [] flags carried
  unfold Mach.record
  rw [hdie, Die.records_nil, Die.logGroup_singleton_aon, Option.map_some, Option.getD_some, bits_packHead_time]

/-! ## The register

TB_LAST_STAMP is the pair of words at 0x38. -/

/-- TB_LAST_STAMP lies in the always-on block, which every powered phase reaches (R425, R436). -/
theorem Mach.reaches_lastStamp {m : Mach} (hp : m.powered = true) (d : Nat) :
    m.reaches .service d 0x38 = true := by
  unfold Mach.powered at hp
  unfold Mach.reaches
  cases hphase : m.pw.phase with
  | off => simp [hphase] at hp
  | startup | run | furling | furled | halfMast => rfl

theorem wordOf_lastStamp : wordOf 0x38 = some (⟨0x38, 0, 1, 0, 1, true, [⟨0, 64, .ro, 0⟩]⟩, 0x38, 0) := by
  decide +kernel

/-- It lies in no window. -/
theorem Mach.windowWord_lastStamp (m : Mach) (d : Nat) : m.windowWord d 0x38 = none := rfl

/-- Its value is derived: the last stamp of the die's clock. -/
theorem Mach.value_lastStamp (m : Mach) (d : Nat) (r : RegDef) : m.value d r 0x38 = (m.die d).clk.last := rfl

/-- The read of its low word, which latches the high one (R9). -/
theorem Mach.getWord_lastStamp (m : Mach) (d : Nat) : m.getWord d 0x38
    = (bits (m.die d).clk.last 0 32, m.latchHigh d 0x38 (bits (m.die d).clk.last 32 32)) := by
  unfold Mach.getWord
  simp only [Mach.windowWord_lastStamp, wordOf_lastStamp, Mach.value_lastStamp]
  simp

/-- A word of traffic keeps the low 32 bits of a number. -/
theorem ofNat_bits_low (n : Nat) : BitVec.ofNat 32 (bits n 0 32) = BitVec.ofNat 32 n := by
  apply BitVec.eq_of_toNat_eq
  simp [bits]

theorem exec_lowWordRead (w : Window) (off : Nat) (s : State) : exec (.lowWordRead w off) s = execLowWordRead w off s := rfl

/-- The command answers with the low word of the last stamp. -/
theorem exec_lowWordRead_lastStamp {s : State} {d : Nat} (hd : d < s.m.dies.length) (hp : s.m.powered = true) :
    exec (.lowWordRead ⟨.service, d⟩ 0x38) s
      = s.done ((s.fresh.latchHigh d 0x38 (bits (s.m.die d).clk.last 32 32)).send
          (.regRead d 0x38 (BitVec.ofNat 32 (s.m.die d).clk.last))) := by
  have hp' : s.fresh.powered = true := hp
  rw [exec_lowWordRead]
  unfold execLowWordRead
  rw [if_neg (by simp [viaSpan]), State.onDie_eq hd]
  simp only [hp', Mach.when_true, Mach.reaches_lastStamp hp', if_true, Mach.getWord_lastStamp, ofNat_bits_low]
  rfl

/-- Settles O8: a stamp is a maximum of the three values of R384, so it is one of them and no less than any; a pennant writes it to
its die's clock and into its head record; and TB_LAST_STAMP reads that clock in every powered phase. -/
theorem stampsNeverDecrease : Obligations.StampsNeverDecrease := by
  unfold Obligations.StampsNeverDecrease
  intro m d unit pc detail carried hd
  exact ⟨Mach.now_le_stamp m d carried, Mach.last_le_stamp m d carried, Mach.carried_lt_stamp m d carried,
    Mach.stamp_eq_one_of m d carried, Mach.last_note hd unit pc detail [] 0 carried,
    Mach.record_note_time hd unit pc detail 0 carried,
    fun rest hp => ⟨_, exec_lowWordRead_lastStamp (s := { pending := rest, m := m }) hd hp, rfl, rfl⟩⟩

end Sys2Proof.Machine

/-! SUPPORT. The clock monitor (R422) and the switch to the ITO (R423): what the end of an interval, the end of the crystal count, a
monitor window and the switch change, and what they keep. -/

namespace Sys2Proof.Machine

/-! ## Registers beside a write -/

/-- Two fields that share no bit: they stand in different registers, or one ends where the other begins or below. -/
abbrev Fld.apart (f g : Fld) : Prop := g.off ≠ f.off ∨ g.lo + g.w ≤ f.lo ∨ f.lo + f.w ≤ g.lo

/-- A field that shares no bit with the one written keeps its value. -/
theorem Mach.rd_wr_apart {m : Mach} {d e : Nat} {f g : Fld} (v : Nat) (hf : f.lo + f.w ≤ 64) (h : f.apart g) :
    (m.wr d f v).rd e g = m.rd e g := by
  by_cases ho : g.off = f.off
  · exact Mach.rd_wr_fld v hf ho (h.resolve_left (not_not_intro ho))
  · exact Mach.rd_wr_reg v ho

/-- A field reads a value that its width holds as it was written. -/
theorem Mach.rd_wr_of_lt {m : Mach} {d : Nat} (hd : d < m.dies.length) {f : Fld} (hf : f.lo + f.w ≤ 64) {v : Nat} (hv : v < 2 ^ f.w) :
    (m.wr d f v).rd d f = v :=
  (Mach.rd_wr_same hd hf v).trans (Nat.mod_eq_of_lt hv)

/-- What is not a clock is as before when a die's clock is set. -/
theorem Mach.part_updClk {α : Type} (p : Die → α) (hp : ∀ x c, p { x with clk := c } = p x) (m : Mach) (d : Nat) (c : Die → Clock)
    (e : Nat) : p ((m.upd d (fun x => { x with clk := c x })).die e) = p (m.die e) :=
  Mach.part_upd p (fun x => hp x _) m d e

/-- The start of an interval stands in a die's auxiliary record. -/
theorem Mach.part_countFrom {α : Type} (p : Die → α) (hp : ∀ x a, p { x with aux := a } = p x) (m : Mach) (d key e : Nat) :
    p ((m.countFrom d key).die e) = p (m.die e) :=
  Mach.part_upd p (fun x => hp x _) m d e

section
variable (m : Mach) (d e : Nat) (g : Fld)

/-- Setting a die's clock writes no register. -/
theorem Mach.rd_updClk (c : Die → Clock) : (m.upd d (fun x => { x with clk := c x })).rd e g = m.rd e g :=
  Mach.part_updClk (fun x => x.rd g) (fun _ _ => rfl) m d c e

@[simp] theorem Mach.rd_countFrom (key : Nat) : (m.countFrom d key).rd e g = m.rd e g :=
  Mach.part_countFrom (fun x => x.rd g) (fun _ _ => rfl) m d key e

@[simp] theorem Mach.rd_runTo (t : Nat) : (m.runTo d t).rd e g = m.rd e g :=
  Mach.part_runTo (fun x => x.rd g) (fun _ _ => rfl) m d t e

@[simp] theorem Mach.rd_every (key start period : Nat) : (m.every d key start period).rd e g = m.rd e g :=
  (Mach.rd_countFrom _ d e g key).trans (Mach.rd_runTo m d e g _)

/-- A write to a register moves no clock. -/
@[simp] theorem Mach.clk_wr (f : Fld) (v : Nat) : ((m.wr d f v).die e).clk = (m.die e).clk :=
  Mach.part_wr Die.clk (fun _ _ => rfl) m d f v e

end

/-! ## Stored data -/

section
variable (m : Mach) (d : Nat)

theorem Mach.dataKept_updClk (c : Die → Clock) : m.dataKept (m.upd d (fun x => { x with clk := c x })) :=
  Mach.dataKept_of_parts (Mach.part_updClk Die.dram (fun _ _ => rfl) m d c) (Mach.part_updClk Die.fl (fun _ _ => rfl) m d c)
    (Mach.part_updClk Die.tier (fun _ _ => rfl) m d c) rfl rfl

theorem Mach.dataKept_countFrom (key : Nat) : m.dataKept (m.countFrom d key) :=
  Mach.dataKept_of_parts (Mach.part_countFrom Die.dram (fun _ _ => rfl) m d key)
    (Mach.part_countFrom Die.fl (fun _ _ => rfl) m d key) (Mach.part_countFrom Die.tier (fun _ _ => rfl) m d key) rfl rfl

theorem Mach.dataKept_runTo (t : Nat) : m.dataKept (m.runTo d t) :=
  Mach.dataKept_of_parts (Mach.part_runTo Die.dram (fun _ _ => rfl) m d t) (Mach.part_runTo Die.fl (fun _ _ => rfl) m d t)
    (Mach.part_runTo Die.tier (fun _ _ => rfl) m d t) (Mach.runTo_nor ..) (Mach.runTo_lse ..)

theorem Mach.dataKept_every (key start period : Nat) : m.dataKept (m.every d key start period) :=
  Mach.dataKept_trans (Mach.dataKept_runTo m d _) (Mach.dataKept_countFrom _ d key)

end

@[simp] theorem Mach.every_length (m : Mach) (d key start period : Nat) : (m.every d key start period).dies.length = m.dies.length := by
  unfold Mach.every Mach.countFrom
  simp

/-! ## The end of the crystal count -/

/-- An interval that counts from now has the time of now as its start. -/
theorem Mach.last_countFrom {m : Mach} {d : Nat} (hd : d < m.dies.length) (key : Nat) :
    SMap.get (fun _ => 0) ((m.countFrom d key).die d).aux.last key = (m.countFrom d key).now d := by
  unfold Mach.now Mach.countFrom
  rw [Mach.die_upd_same hd]
  exact SMap.get_set_same

/-- A start-up step is two writes to registers. -/
theorem Mach.part_startStep {α : Type} (p : Die → α) (hp : ∀ x r, p { x with regs := r } = p x) (m : Mach) (d k e : Nat) :
    p ((m.startStep d k).die e) = p (m.die e) :=
  (Mach.part_wr p hp _ d _ _ e).trans (Mach.part_wr p hp m d _ _ e)

/-- The monitor counts from the stamp at which the crystal is judged stable (R422). -/
theorem Mach.last_crystalStable {m : Mach} {d : Nat} (hd : d < m.dies.length) (cycles : Nat) :
    SMap.get (fun _ => 0) ((m.crystalStable d cycles).die d).aux.last 1 = (m.crystalStable d cycles).now d := by
  unfold Mach.crystalStable Mach.now
  rw [Mach.part_startStep Die.aux (fun _ _ => rfl), Mach.part_startStep Die.clk (fun _ _ => rfl)]
  exact Mach.last_countFrom (by simpa using hd) 1

theorem Mach.rd_monActive_crystalStable {m : Mach} {d : Nat} (hd : d < m.dies.length) (cycles : Nat) :
    (m.crystalStable d cycles).rd d Reg.CLK_STATUS.MON_ACTIVE = 1 := by
  unfold Mach.crystalStable Mach.startStep
  simp (disch := decide) only [Mach.rd_wr_apart, Mach.rd_countFrom, Mach.rd_updClk]
  exact Mach.rd_wr_of_lt (by simpa using hd) (by decide) (by decide)

theorem exec_crystalStable_of_counting {s : State} {d cycles : Nat} (hd : d < s.m.n) (hc : s.m.counting d = true)
    (hcycles : cycles < 250000) : exec (.crystalStable d cycles) s = s.done (s.fresh.crystalStable d cycles) := by
  have hc' : s.fresh.counting d = true := hc
  change execCrystalStable d cycles s = _
  unfold execCrystalStable
  rw [State.onDie_eq hd, hc', decide_eq_true hcycles]
  rfl

/-! ## The switch to the ITO -/

/-- Outside furled the root PLL loses its lock, and the fine count holds (R423, R383). -/
def Mach.unlockPll (m : Mach) (d : Nat) : Mach :=
  if m.pw.phase = .furled then m else
    (m.wr d Reg.CLK_STATUS.PLL_LOCK 0).upd d (fun x => { x with clk := { x.clk with fineRuns := false, fineWait := false } })

/-- The machine of the switch before the stamp is recorded and the event raised: clock, status and PLL. -/
def Mach.onIto (m : Mach) (d missing : Nat) : Mach :=
  let m := m.upd d (fun x => { x with clk := { x.clk with coarse := x.clk.coarse + missing, ito := true } })
  ((((m.wr d Reg.CLK_STATUS.SOURCE 0).wr d Reg.CLK_STATUS.MON_FAIL 1).wr d Reg.CLK_STATUS.MON_ACTIVE 0).wr d
    Reg.TB_STATUS.ITO_TIME 1).unlockPll d

/-- That machine with the stamp of the switch and the event's status bit. -/
def Mach.onItoRaised (m : Mach) (d missing : Nat) : Mach :=
  ((m.onIto d missing).wr d Reg.CLK_SWITCH_STAMP.STAMP ((m.onIto d missing).stamp d)).wr d Reg.ERR_NMI_STATUS.CLOCK 1

section
variable (m : Mach) (d missing : Nat)

@[simp] theorem Mach.unlockPll_length : (m.unlockPll d).dies.length = m.dies.length := by
  unfold Mach.unlockPll
  split
  · rfl
  · simp

theorem Mach.rd_unlockPll {g : Fld} (h : Reg.CLK_STATUS.PLL_LOCK.apart g) (e : Nat) : (m.unlockPll d).rd e g = m.rd e g := by
  unfold Mach.unlockPll
  split
  · rfl
  · rw [Mach.rd_updClk, Mach.rd_wr_apart _ (by decide) h]

/-- Only the fine count of a clock depends on the PLL's lock (R383). -/
theorem Mach.part_unlockPll {α : Type} (p : Clock → α) (hp : ∀ c a b, p { c with fineRuns := a, fineWait := b } = p c) (e : Nat) :
    p ((m.unlockPll d).die e).clk = p (m.die e).clk := by
  unfold Mach.unlockPll
  split
  · rfl
  · exact (Mach.part_upd (fun x => p x.clk) (fun x => hp x.clk false false) _ d e).trans (congrArg p (Mach.clk_wr ..))

theorem Mach.dataKept_unlockPll : m.dataKept (m.unlockPll d) := by
  unfold Mach.unlockPll
  split
  · exact Mach.onlyNotes_data (Mach.onlyNotes_refl m)
  · exact Mach.dataKept_trans (Mach.dataKept_wr ..) (Mach.dataKept_updClk ..)

@[simp] theorem Mach.onIto_length : (m.onIto d missing).dies.length = m.dies.length := by
  unfold Mach.onIto
  simp

theorem Mach.dataKept_onItoRaised : m.dataKept (m.onItoRaised d missing) := by
  have hclk := Mach.dataKept_updClk m d (fun x => { x.clk with coarse := x.clk.coarse + missing, ito := true })
  have hsource := Mach.dataKept_trans hclk (Mach.dataKept_wr _ d Reg.CLK_STATUS.SOURCE 0)
  have hfail := Mach.dataKept_trans hsource (Mach.dataKept_wr _ d Reg.CLK_STATUS.MON_FAIL 1)
  have hactive := Mach.dataKept_trans hfail (Mach.dataKept_wr _ d Reg.CLK_STATUS.MON_ACTIVE 0)
  have htime := Mach.dataKept_trans hactive (Mach.dataKept_wr _ d Reg.TB_STATUS.ITO_TIME 1)
  have hito : m.dataKept (m.onIto d missing) := Mach.dataKept_trans htime (Mach.dataKept_unlockPll _ d)
  exact Mach.dataKept_trans hito (Mach.dataKept_trans (Mach.dataKept_wr ..) (Mach.dataKept_wr ..))

/-- Raising and sending CLOCK_FAIL changes nothing more than a pennant does (R409, R423). -/
theorem Mach.onlyNotes_switchToIto : (m.onItoRaised d missing).onlyNotes (m.switchToIto d missing) :=
  Mach.onlyNotes_trans (Mach.onlyNotes_nmi _ d _ uAon pClockFail 0 []) (Mach.onlyNotes_send _ (.sideband d 2))

end

/-- A pennant moves no counter of a clock. -/
theorem Mach.onlyNotes_clk {a b : Mach} (h : a.onlyNotes b) (d : Nat) : ∃ l, (b.die d).clk = { (a.die d).clk with last := l } := by
  obtain ⟨_, _, _, _, _, _, _, _, _, hdies⟩ := h
  obtain ⟨_, _, _, hclk, _⟩ := hdies d
  exact hclk

section
variable {m : Mach} {d : Nat} (hd : d < m.dies.length) (missing : Nat)
include hd

/-- The missing coarse periods are added, and the die's time is ITO time (R423, R392). -/
theorem Mach.clk_switchToIto : ((m.switchToIto d missing).die d).clk.coarse = (m.die d).clk.coarse + missing
    ∧ ((m.switchToIto d missing).die d).clk.ito = true := by
  obtain ⟨_, hclk⟩ := Mach.onlyNotes_clk (Mach.onlyNotes_switchToIto m d missing) d
  rw [hclk]
  unfold Mach.onItoRaised Mach.onIto
  simp only [Mach.clk_wr, Mach.part_unlockPll _ d Clock.coarse (fun _ _ _ => rfl), Mach.part_unlockPll _ d Clock.ito (fun _ _ _ => rfl),
    Mach.die_upd_same hd, and_self]

/-- The registers in which the switch shows. -/
theorem Mach.rd_switchToIto : (m.switchToIto d missing).rd d Reg.CLK_STATUS.SOURCE = 0
    ∧ (m.switchToIto d missing).rd d Reg.CLK_STATUS.MON_FAIL = 1 ∧ (m.switchToIto d missing).rd d Reg.CLK_STATUS.MON_ACTIVE = 0
    ∧ (m.switchToIto d missing).rd d Reg.ERR_NMI_STATUS.CLOCK = 1 ∧ (m.switchToIto d missing).rd d Reg.TB_STATUS.ITO_TIME = 1 := by
  simp (disch := decide) only [Mach.onlyNotes_rd (Mach.onlyNotes_switchToIto m d missing)]
  unfold Mach.onItoRaised Mach.onIto
  simp (disch := decide) only [Mach.rd_wr_apart, Mach.rd_unlockPll]
  refine ⟨?_, ?_, ?_, ?_, ?_⟩ <;> exact Mach.rd_wr_of_lt (by simpa using hd) (by decide) (by decide)

end

/-- The switch leaves the monitor's counts in place. -/
theorem Mach.rd_monCount_switchToIto (m : Mach) (d missing : Nat) :
    (m.switchToIto d missing).rd d Reg.CLK_MON_COUNT.LAST = m.rd d Reg.CLK_MON_COUNT.LAST
      ∧ (m.switchToIto d missing).rd d Reg.CLK_MON_COUNT.FAILED = m.rd d Reg.CLK_MON_COUNT.FAILED := by
  simp (disch := decide) only [Mach.onlyNotes_rd (Mach.onlyNotes_switchToIto m d missing)]
  unfold Mach.onItoRaised Mach.onIto
  simp (disch := decide) only [Mach.rd_wr_apart, Mach.rd_unlockPll, Mach.rd_updClk, and_self]

theorem Mach.message_switchToIto (m : Mach) (d missing : Nat) : Out.sideband d 2 ∈ (m.switchToIto d missing).out :=
  List.mem_append_right _ (List.mem_singleton_self _)

theorem Mach.dataKept_switchToIto (m : Mach) (d missing : Nat) : m.dataKept (m.switchToIto d missing) :=
  Mach.dataKept_trans (Mach.dataKept_onItoRaised m d missing) (Mach.onlyNotes_data (Mach.onlyNotes_switchToIto m d missing))

/-! ## The monitor's window -/

/-- Die `d` at the end of a monitor window, with the window's count shown (R422). -/
def Mach.windowEnd (m : Mach) (d count : Nat) : Mach :=
  (m.every d 1 (m.die d).aux.itoStart (itoTicks 4096)).wr d Reg.CLK_MON_COUNT.LAST (min count 32767)

/-- A window outside the range at its end, before the switch: its count is shown as failed too. -/
def Mach.windowFailed (m : Mach) (d count : Nat) : Mach := (m.windowEnd d count).wr d Reg.CLK_MON_COUNT.FAILED (min count 32767)

theorem exec_clockMonitorWindow_of_inactive {s : State} {d : Nat} (hd : d < s.m.n) (ha : s.m.rd d Reg.CLK_STATUS.MON_ACTIVE = 0)
    (count : Nat) : exec (.clockMonitorWindow d count) s = s.done s.fresh := by
  have ha' : s.fresh.on d Reg.CLK_STATUS.MON_ACTIVE = false := decide_eq_false (not_not_intro ha)
  change execClockMonitorWindow d count s = _
  unfold execClockMonitorWindow
  rw [State.onDie_eq hd, ha', Bool.and_false]
  rfl

theorem exec_clockMonitorWindow_of_active {s : State} {d : Nat} (hd : d < s.m.n) (hp : s.m.powered = true)
    (ha : s.m.rd d Reg.CLK_STATUS.MON_ACTIVE = 1) (count : Nat) : exec (.clockMonitorWindow d count) s
      = s.done (if 15893 ≤ count ∧ count ≤ 16875 then s.fresh.windowEnd d count
          else (s.fresh.windowFailed d count).switchToIto d (256 - count / 64)) := by
  have hp' : s.fresh.powered = true := hp
  have ha' : s.fresh.on d Reg.CLK_STATUS.MON_ACTIVE = true := decide_eq_true (by rw [State.fresh_rd, ha]; decide)
  change execClockMonitorWindow d count s = _
  unfold execClockMonitorWindow
  rw [State.onDie_eq hd, hp', ha']
  rfl

section
variable (m : Mach) (d count : Nat)

@[simp] theorem Mach.windowEnd_length : (m.windowEnd d count).dies.length = m.dies.length := by
  unfold Mach.windowEnd
  simp

@[simp] theorem Mach.windowFailed_length : (m.windowFailed d count).dies.length = m.dies.length := by
  unfold Mach.windowFailed
  simp

theorem Mach.dataKept_windowEnd : m.dataKept (m.windowEnd d count) :=
  Mach.dataKept_trans (Mach.dataKept_every ..) (Mach.dataKept_wr ..)

theorem Mach.dataKept_windowFailed : m.dataKept (m.windowFailed d count) :=
  Mach.dataKept_trans (Mach.dataKept_windowEnd m d count) (Mach.dataKept_wr ..)

/-- Showing counts moves no clock: it stands where the window ended. -/
theorem Mach.clk_windowFailed : ((m.windowFailed d count).die d).clk
    = ((m.every d 1 (m.die d).aux.itoStart (itoTicks 4096)).die d).clk :=
  (Mach.clk_wr ..).trans (Mach.clk_wr ..)

end

section
variable {m : Mach} {d : Nat} (hd : d < m.dies.length) (count : Nat)
include hd

/-- CLK_MON_COUNT shows a count up to the 32,767 that its 15 bits hold. -/
theorem Mach.rd_last_windowEnd : (m.windowEnd d count).rd d Reg.CLK_MON_COUNT.LAST = min count 32767 :=
  Mach.rd_wr_of_lt (by simpa using hd) (by decide) (show min count 32767 < 32768 by omega)

theorem Mach.rd_last_windowFailed : (m.windowFailed d count).rd d Reg.CLK_MON_COUNT.LAST = min count 32767 :=
  (Mach.rd_wr_apart _ (by decide) (by decide)).trans (Mach.rd_last_windowEnd hd count)

theorem Mach.rd_failed_windowFailed : (m.windowFailed d count).rd d Reg.CLK_MON_COUNT.FAILED = min count 32767 :=
  Mach.rd_wr_of_lt (by simpa using hd) (by decide) (show min count 32767 < 32768 by omega)

end

/-- Settles O6: the crystal count starts the monitor's interval at its own stamp; a window's end shows its count, and beside that an
accepted window changes no register and no stored data, while any other switches the die to its ITO with the count shown as failed. -/
theorem clockMonitorWindows : Obligations.ClockMonitorWindows := by
  unfold Obligations.ClockMonitorWindows
  intro s d count _ hd hp
  have hfresh : d < s.fresh.dies.length := hd
  refine ⟨fun hphase hstep cycles hcycles => ?_, fun ha => exec_clockMonitorWindow_of_inactive hd ha count, fun ha hrange => ?_,
    fun ha hrange => ?_⟩
  · have hc : s.m.counting d = true := by simp [Mach.counting, hphase, hstep]
    exact ⟨_, exec_crystalStable_of_counting hd hc hcycles, rfl, Mach.rd_monActive_crystalStable hfresh cycles,
      Mach.last_crystalStable hfresh cycles⟩
  · have hexec := exec_clockMonitorWindow_of_active hd hp ha count
    rw [if_pos hrange] at hexec
    have hlast : (s.fresh.windowEnd d count).rd d Reg.CLK_MON_COUNT.LAST = count :=
      (Mach.rd_last_windowEnd hfresh count).trans (Nat.min_eq_left (by omega))
    exact ⟨_, hexec, rfl, hlast, Mach.windowEnd_length s.fresh d count, Mach.dataKept_windowEnd s.fresh d count,
      Mach.regsKept_wr (a := s.m) (fun e g => Mach.rd_every s.fresh d e g ..) d _ _⟩
  · have hexec := exec_clockMonitorWindow_of_active hd hp ha count
    rw [if_neg (by omega)] at hexec
    have hd' : d < (s.fresh.windowFailed d count).dies.length := by simpa using hfresh
    obtain ⟨hlast, hfailed⟩ := Mach.rd_monCount_switchToIto (s.fresh.windowFailed d count) d (256 - count / 64)
    obtain ⟨hsource, hfail, hactive, hnmi, htime⟩ := Mach.rd_switchToIto hd' (256 - count / 64)
    obtain ⟨hcoarse, hito⟩ := Mach.clk_switchToIto hd' (256 - count / 64)
    have hclk := Mach.clk_windowFailed s.fresh d count
    exact ⟨_, hexec, rfl, hlast.trans (Mach.rd_last_windowFailed hfresh count), hfailed.trans (Mach.rd_failed_windowFailed hfresh count),
      hsource, hfail, hactive, hnmi, htime, hclk ▸ hcoarse, hito, Mach.message_switchToIto _ d _,
      Mach.dataKept_trans (Mach.dataKept_windowFailed s.fresh d count) (Mach.dataKept_switchToIto _ d _)⟩

end Sys2Proof.Machine
